-- ==== Sys2Proof/Word.lean ====
section
/-! DEFINITION. The word types of the OB-Xf voice core and the fixed-length array type its internal
memories are made of (`00_scope.md` R12, R13; `20_memory.md` R71). -/

namespace Sys2Proof

/-- The bit pattern of an IEEE 754 binary32 number, the spec's `f32` (R12). -/
abbrev F32 := BitVec 32

/-- The bit pattern of an IEEE 754 binary64 number, the spec's `f64`; it appears only at the tuning port (R15). -/
abbrev F64 := BitVec 64

/-- A command word, bit 63 most significant (R13, R101). -/
abbrev CmdWord := BitVec 64

/-- An array of `n` whole elements, indexed by element (R71). The length is part of the value. -/
structure Vec (α : Type) (n : Nat) where
  toList : List α
  size : toList.length = n
deriving DecidableEq, Repr

/-- Element `i` (`MemRead`, R73). -/
def Vec.get {α : Type} {n : Nat} (v : Vec α n) (i : Fin n) : α :=
  v.toList[i.val]'(by rw [v.size]; exact i.isLt)

/-- The array with element `i` replaced (`MemWrite`, R73). -/
def Vec.set {α : Type} {n : Nat} (v : Vec α n) (i : Fin n) (x : α) : Vec α n :=
  ⟨v.toList.set i.val x, by rw [List.length_set]; exact v.size⟩

/-- The array with `f` applied to element `i`. -/
def Vec.modify {α : Type} {n : Nat} (v : Vec α n) (i : Fin n) (f : α → α) : Vec α n :=
  v.set i (f (v.get i))

/-- `f` applied to every element. -/
def Vec.map {α β : Type} {n : Nat} (f : α → β) (v : Vec α n) : Vec β n :=
  ⟨v.toList.map f, by rw [List.length_map]; exact v.size⟩

/-- `f` applied to every element together with its index. -/
def Vec.mapIdx {α β : Type} {n : Nat} (f : Nat → α → β) (v : Vec α n) : Vec β n :=
  ⟨v.toList.mapIdx f, by rw [List.length_mapIdx]; exact v.size⟩

/-- The array whose element `i` is `f i`. -/
def Vec.ofFn {α : Type} {n : Nat} (f : Fin n → α) : Vec α n :=
  ⟨List.ofFn f, List.length_ofFn⟩

/-- The array that holds `x` everywhere. -/
def Vec.replicate {α : Type} (n : Nat) (x : α) : Vec α n :=
  ⟨List.replicate n x, List.length_replicate⟩

/-- Two arrays with the same elements are the same. -/
theorem Vec.eq_of_get {α : Type} {n : Nat} {v w : Vec α n} (h : ∀ i, v.get i = w.get i) : v = w := by
  obtain ⟨l, hl⟩ := v
  obtain ⟨m, hm⟩ := w
  have : l = m := List.ext_getElem (hl.trans hm.symm) fun i h1 _ => h ⟨i, hl ▸ h1⟩
  subst this
  rfl

end Sys2Proof
end

