-- ==== Sys2Proof/Syntax.lean ====
section
/-! DEFINITION. The 70 commands of OBXF-CMD version 1 (`30_encoding.md` R107), one constructor per row of
`opcode_table.json`. A constructor carries every operand field its format has (R102): format F the value
`v`, format AF the index and the value, format K note, channel and velocity. Ranges are not part of the
syntax (`WellFormed.lean`). -/

namespace Sys2Proof

/-- A command (the spec's unit of execution, R18). -/
inductive Instr where
  -- System commands (R341 to R344)
  | setrate (v : F32)
  | tick
  | playpos (v : F32)
  | playhead (reset : BitVec 8) (bpm : F32)
  -- Note and controller commands (R345 to R352)
  | noteon (note channel : BitVec 8) (velocity : F32)
  | noteoff (note channel : BitVec 8) (velocity : F32)
  | suston
  | sustoff
  | allnotesoff
  | allsoundoff
  | pitchwheel (v : F32)
  | modwheel (v : F32)
  -- Motherboard parameters (R380 to R387)
  | volume (v : F32)
  | polyphony (v : F32)
  | unison (v : F32)
  | univoices (v : F32)
  | oversample (v : F32)
  | pan (slot : BitVec 8) (v : F32)
  | voicepriority (v : F32)
  | vibratorate (v : F32)
  -- LFO parameters (R388 to R397)
  | lfo1rate (v : F32)
  | lfo1wave1 (v : F32)
  | lfo1wave2 (v : F32)
  | lfo1wave3 (v : F32)
  | lfo1sync (v : F32)
  | lfo2rate (v : F32)
  | lfo2wave1 (v : F32)
  | lfo2wave2 (v : F32)
  | lfo2wave3 (v : F32)
  | lfo2sync (v : F32)
  -- Oscillator block parameters (R398 to R415)
  | osc1pitch (v : F32)
  | osc2pitch (v : F32)
  | tune (v : F32)
  | transpose (v : F32)
  | detune (v : F32)
  | pw1 (v : F32)
  | pw2 (v : F32)
  | hardsync (v : F32)
  | xmod (v : F32)
  | osc1mix (v : F32)
  | osc2mix (v : F32)
  | ringmix (v : F32)
  | noisemix (v : F32)
  | noisecolor (v : F32)
  | osc1saw (v : F32)
  | osc1pulse (v : F32)
  | osc2saw (v : F32)
  | osc2pulse (v : F32)
  -- Filter parameters (R416 to R424)
  | cutoff (v : F32)
  | resonance (v : F32)
  | multimode (v : F32)
  | bandpassblend (v : F32)
  | fourpole (v : F32)
  | selfoscpush (v : F32)
  | fenvamt (v : F32)
  | fenvinvert (v : F32)
  | keyfollow (v : F32)
  -- Envelope parameters (R425 to R432)
  | ampattack (v : F32)
  | ampdecay (v : F32)
  | ampsustain (v : F32)
  | amprelease (v : F32)
  | fltattack (v : F32)
  | fltdecay (v : F32)
  | fltsustain (v : F32)
  | fltrelease (v : F32)
  -- Voice parameters (R433 to R436)
  | portamento (v : F32)
  | bendup (v : F32)
  | benddown (v : F32)
  | legato (v : F32)
  -- Generic routing registers (R440)
  | modparam (m : BitVec 8) (v : F32)
deriving DecidableEq, Repr

/-- The mnemonic of a command, as R107 and R110 write it. -/
def Instr.mnemonic : Instr → String
  | .setrate _ => "SETRATE"
  | .tick => "TICK"
  | .playpos _ => "PLAYPOS"
  | .playhead _ _ => "PLAYHEAD"
  | .noteon _ _ _ => "NOTEON"
  | .noteoff _ _ _ => "NOTEOFF"
  | .suston => "SUSTON"
  | .sustoff => "SUSTOFF"
  | .allnotesoff => "ALLNOTESOFF"
  | .allsoundoff => "ALLSOUNDOFF"
  | .pitchwheel _ => "PITCHWHEEL"
  | .modwheel _ => "MODWHEEL"
  | .volume _ => "VOLUME"
  | .polyphony _ => "POLYPHONY"
  | .unison _ => "UNISON"
  | .univoices _ => "UNIVOICES"
  | .oversample _ => "OVERSAMPLE"
  | .pan _ _ => "PAN"
  | .voicepriority _ => "VOICEPRIORITY"
  | .vibratorate _ => "VIBRATORATE"
  | .lfo1rate _ => "LFO1RATE"
  | .lfo1wave1 _ => "LFO1WAVE1"
  | .lfo1wave2 _ => "LFO1WAVE2"
  | .lfo1wave3 _ => "LFO1WAVE3"
  | .lfo1sync _ => "LFO1SYNC"
  | .lfo2rate _ => "LFO2RATE"
  | .lfo2wave1 _ => "LFO2WAVE1"
  | .lfo2wave2 _ => "LFO2WAVE2"
  | .lfo2wave3 _ => "LFO2WAVE3"
  | .lfo2sync _ => "LFO2SYNC"
  | .osc1pitch _ => "OSC1PITCH"
  | .osc2pitch _ => "OSC2PITCH"
  | .tune _ => "TUNE"
  | .transpose _ => "TRANSPOSE"
  | .detune _ => "DETUNE"
  | .pw1 _ => "PW1"
  | .pw2 _ => "PW2"
  | .hardsync _ => "HARDSYNC"
  | .xmod _ => "XMOD"
  | .osc1mix _ => "OSC1MIX"
  | .osc2mix _ => "OSC2MIX"
  | .ringmix _ => "RINGMIX"
  | .noisemix _ => "NOISEMIX"
  | .noisecolor _ => "NOISECOLOR"
  | .osc1saw _ => "OSC1SAW"
  | .osc1pulse _ => "OSC1PULSE"
  | .osc2saw _ => "OSC2SAW"
  | .osc2pulse _ => "OSC2PULSE"
  | .cutoff _ => "CUTOFF"
  | .resonance _ => "RESONANCE"
  | .multimode _ => "MULTIMODE"
  | .bandpassblend _ => "BANDPASSBLEND"
  | .fourpole _ => "FOURPOLE"
  | .selfoscpush _ => "SELFOSCPUSH"
  | .fenvamt _ => "FENVAMT"
  | .fenvinvert _ => "FENVINVERT"
  | .keyfollow _ => "KEYFOLLOW"
  | .ampattack _ => "AMPATTACK"
  | .ampdecay _ => "AMPDECAY"
  | .ampsustain _ => "AMPSUSTAIN"
  | .amprelease _ => "AMPRELEASE"
  | .fltattack _ => "FLTATTACK"
  | .fltdecay _ => "FLTDECAY"
  | .fltsustain _ => "FLTSUSTAIN"
  | .fltrelease _ => "FLTRELEASE"
  | .portamento _ => "PORTAMENTO"
  | .bendup _ => "BENDUP"
  | .benddown _ => "BENDDOWN"
  | .legato _ => "LEGATO"
  | .modparam _ _ => "MODPARAM"

end Sys2Proof
end

