-- ==== Sys2Proof/Decode.lean ====
section
/-! DEFINITION. The encoding of commands (`30_encoding.md`): the decoder, total on 64-bit words and rejecting
by name (R101 to R109), the byte order of a stored word (R76), and after it the encoder. -/

namespace Sys2Proof

/-! ### Fields (R101) -/

/-- `OP = w[63:56]`. -/
def fieldOP (w : CmdWord) : BitVec 8 := w.extractLsb' 56 8
/-- `A = w[55:48]`. -/
def fieldA (w : CmdWord) : BitVec 8 := w.extractLsb' 48 8
/-- `B = w[47:40]`. -/
def fieldB (w : CmdWord) : BitVec 8 := w.extractLsb' 40 8
/-- `Z = w[39:32]`. -/
def fieldZ (w : CmdWord) : BitVec 8 := w.extractLsb' 32 8
/-- `V = w[31:0]`. -/
def fieldV (w : CmdWord) : F32 := w.extractLsb' 0 32

/-! ### Decoder -/

/-- Why a word is illegal (R108). Both are the fault `IllegalCommand`. -/
inductive DecodeError where
  /-- `OP` is not in the command list. -/
  | reservedOpcode
  /-- A field the format requires to be zero is not zero. -/
  | nonzeroField
deriving DecidableEq, Repr

/-- A row of the command list: its format (R102) and the command it makes of the operand fields. -/
inductive Row where
  | n (i : Instr)
  | f (mk : F32 → Instr)
  | af (mk : BitVec 8 → F32 → Instr)
  | k (mk : BitVec 8 → BitVec 8 → F32 → Instr)

/-- The command list, by opcode (R106, R107). -/
def opcodeRow : Nat → Option Row
  | 0x01 => some (.f .setrate)
  | 0x02 => some (.n .tick)
  | 0x03 => some (.f .playpos)
  | 0x04 => some (.af .playhead)
  | 0x10 => some (.k .noteon)
  | 0x11 => some (.k .noteoff)
  | 0x12 => some (.n .suston)
  | 0x13 => some (.n .sustoff)
  | 0x14 => some (.n .allnotesoff)
  | 0x15 => some (.n .allsoundoff)
  | 0x16 => some (.f .pitchwheel)
  | 0x17 => some (.f .modwheel)
  | 0x20 => some (.f .volume)
  | 0x21 => some (.f .polyphony)
  | 0x22 => some (.f .unison)
  | 0x23 => some (.f .univoices)
  | 0x24 => some (.f .oversample)
  | 0x25 => some (.af .pan)
  | 0x26 => some (.f .voicepriority)
  | 0x27 => some (.f .vibratorate)
  | 0x28 => some (.f .lfo1rate)
  | 0x29 => some (.f .lfo1wave1)
  | 0x2a => some (.f .lfo1wave2)
  | 0x2b => some (.f .lfo1wave3)
  | 0x2c => some (.f .lfo1sync)
  | 0x2d => some (.f .lfo2rate)
  | 0x2e => some (.f .lfo2wave1)
  | 0x2f => some (.f .lfo2wave2)
  | 0x30 => some (.f .lfo2wave3)
  | 0x31 => some (.f .lfo2sync)
  | 0x38 => some (.f .osc1pitch)
  | 0x39 => some (.f .osc2pitch)
  | 0x3a => some (.f .tune)
  | 0x3b => some (.f .transpose)
  | 0x3c => some (.f .detune)
  | 0x3d => some (.f .pw1)
  | 0x3e => some (.f .pw2)
  | 0x3f => some (.f .hardsync)
  | 0x40 => some (.f .xmod)
  | 0x41 => some (.f .osc1mix)
  | 0x42 => some (.f .osc2mix)
  | 0x43 => some (.f .ringmix)
  | 0x44 => some (.f .noisemix)
  | 0x45 => some (.f .noisecolor)
  | 0x46 => some (.f .osc1saw)
  | 0x47 => some (.f .osc1pulse)
  | 0x48 => some (.f .osc2saw)
  | 0x49 => some (.f .osc2pulse)
  | 0x50 => some (.f .cutoff)
  | 0x51 => some (.f .resonance)
  | 0x52 => some (.f .multimode)
  | 0x53 => some (.f .bandpassblend)
  | 0x54 => some (.f .fourpole)
  | 0x55 => some (.f .selfoscpush)
  | 0x56 => some (.f .fenvamt)
  | 0x57 => some (.f .fenvinvert)
  | 0x58 => some (.f .keyfollow)
  | 0x60 => some (.f .ampattack)
  | 0x61 => some (.f .ampdecay)
  | 0x62 => some (.f .ampsustain)
  | 0x63 => some (.f .amprelease)
  | 0x64 => some (.f .fltattack)
  | 0x65 => some (.f .fltdecay)
  | 0x66 => some (.f .fltsustain)
  | 0x67 => some (.f .fltrelease)
  | 0x70 => some (.f .portamento)
  | 0x71 => some (.f .bendup)
  | 0x72 => some (.f .benddown)
  | 0x73 => some (.f .legato)
  | 0x7f => some (.af .modparam)
  | _ => none

/-- The command a row makes of a word, when the row's required-zero fields are zero (R102). -/
def Row.read (w : CmdWord) : Row → Option Instr
  | .n i => if fieldA w = 0#8 ∧ fieldB w = 0#8 ∧ fieldZ w = 0#8 ∧ fieldV w = 0#32 then some i else none
  | .f mk => if fieldA w = 0#8 ∧ fieldB w = 0#8 ∧ fieldZ w = 0#8 then some (mk (fieldV w)) else none
  | .af mk => if fieldB w = 0#8 ∧ fieldZ w = 0#8 then some (mk (fieldA w) (fieldV w)) else none
  | .k mk => if fieldZ w = 0#8 then some (mk (fieldA w) (fieldB w) (fieldV w)) else none

/-- The decoder: opcode first, then the required-zero fields (R109). -/
def decode (w : CmdWord) : Except DecodeError Instr :=
  match opcodeRow (fieldOP w).toNat with
  | none => .error .reservedOpcode
  | some row =>
    match row.read w with
    | none => .error .nonzeroField
    | some i => .ok i

/-! ### Byte order of a stored word (R76) -/

/-- The eight bytes of a word, byte 0 (bits 7:0) first. -/
def wordBytes (w : CmdWord) : List (BitVec 8) :=
  [w.extractLsb' 0 8, w.extractLsb' 8 8, w.extractLsb' 16 8, w.extractLsb' 24 8,
   w.extractLsb' 32 8, w.extractLsb' 40 8, w.extractLsb' 48 8, w.extractLsb' 56 8]

/-- The word that eight bytes store, byte 0 first. -/
def wordOfBytes : List (BitVec 8) → Option CmdWord
  | [b0, b1, b2, b3, b4, b5, b6, b7] => some (b7 ++ b6 ++ b5 ++ b4 ++ b3 ++ b2 ++ b1 ++ b0)
  | _ => none

/-- The command stored in eight bytes, `none` where the decoder refuses the word. -/
def decodeBytes (bs : List (BitVec 8)) : Option Instr :=
  match wordOfBytes bs with
  | none => none
  | some w => (decode w).toOption

/-- The command word whose low `nbits` bits are those of `w` and whose other bits are 0. -/
def tableWord (nbits w : Nat) : CmdWord := BitVec.ofNat 64 (w % 2 ^ nbits)

/-- The command the decoder reads from an opcode-table word, laid out in the byte order of R76. -/
def decodeTableWord (nbits w : Nat) : Option Instr := decodeBytes (wordBytes (tableWord nbits w))

/-! ### Encoder -/

/-- A word from its fields, `Z = 0` (R101). -/
def pack (op a b : BitVec 8) (v : F32) : CmdWord := op ++ a ++ b ++ 0#8 ++ v

/-- Format N: no operand. -/
def packN (op : BitVec 8) : CmdWord := pack op 0#8 0#8 0#32
/-- Format F: a value. -/
def packF (op : BitVec 8) (v : F32) : CmdWord := pack op 0#8 0#8 v
/-- Format AF: an index and a value. -/
def packAF (op a : BitVec 8) (v : F32) : CmdWord := pack op a 0#8 v
/-- Format K: a key event. -/
def packK (op a b : BitVec 8) (v : F32) : CmdWord := pack op a b v

/-- The word of a command (R107). -/
def encode : Instr → CmdWord
  | .setrate v => packF 0x01#8 v
  | .tick => packN 0x02#8
  | .playpos v => packF 0x03#8 v
  | .playhead a v => packAF 0x04#8 a v
  | .noteon a b v => packK 0x10#8 a b v
  | .noteoff a b v => packK 0x11#8 a b v
  | .suston => packN 0x12#8
  | .sustoff => packN 0x13#8
  | .allnotesoff => packN 0x14#8
  | .allsoundoff => packN 0x15#8
  | .pitchwheel v => packF 0x16#8 v
  | .modwheel v => packF 0x17#8 v
  | .volume v => packF 0x20#8 v
  | .polyphony v => packF 0x21#8 v
  | .unison v => packF 0x22#8 v
  | .univoices v => packF 0x23#8 v
  | .oversample v => packF 0x24#8 v
  | .pan a v => packAF 0x25#8 a v
  | .voicepriority v => packF 0x26#8 v
  | .vibratorate v => packF 0x27#8 v
  | .lfo1rate v => packF 0x28#8 v
  | .lfo1wave1 v => packF 0x29#8 v
  | .lfo1wave2 v => packF 0x2a#8 v
  | .lfo1wave3 v => packF 0x2b#8 v
  | .lfo1sync v => packF 0x2c#8 v
  | .lfo2rate v => packF 0x2d#8 v
  | .lfo2wave1 v => packF 0x2e#8 v
  | .lfo2wave2 v => packF 0x2f#8 v
  | .lfo2wave3 v => packF 0x30#8 v
  | .lfo2sync v => packF 0x31#8 v
  | .osc1pitch v => packF 0x38#8 v
  | .osc2pitch v => packF 0x39#8 v
  | .tune v => packF 0x3a#8 v
  | .transpose v => packF 0x3b#8 v
  | .detune v => packF 0x3c#8 v
  | .pw1 v => packF 0x3d#8 v
  | .pw2 v => packF 0x3e#8 v
  | .hardsync v => packF 0x3f#8 v
  | .xmod v => packF 0x40#8 v
  | .osc1mix v => packF 0x41#8 v
  | .osc2mix v => packF 0x42#8 v
  | .ringmix v => packF 0x43#8 v
  | .noisemix v => packF 0x44#8 v
  | .noisecolor v => packF 0x45#8 v
  | .osc1saw v => packF 0x46#8 v
  | .osc1pulse v => packF 0x47#8 v
  | .osc2saw v => packF 0x48#8 v
  | .osc2pulse v => packF 0x49#8 v
  | .cutoff v => packF 0x50#8 v
  | .resonance v => packF 0x51#8 v
  | .multimode v => packF 0x52#8 v
  | .bandpassblend v => packF 0x53#8 v
  | .fourpole v => packF 0x54#8 v
  | .selfoscpush v => packF 0x55#8 v
  | .fenvamt v => packF 0x56#8 v
  | .fenvinvert v => packF 0x57#8 v
  | .keyfollow v => packF 0x58#8 v
  | .ampattack v => packF 0x60#8 v
  | .ampdecay v => packF 0x61#8 v
  | .ampsustain v => packF 0x62#8 v
  | .amprelease v => packF 0x63#8 v
  | .fltattack v => packF 0x64#8 v
  | .fltdecay v => packF 0x65#8 v
  | .fltsustain v => packF 0x66#8 v
  | .fltrelease v => packF 0x67#8 v
  | .portamento v => packF 0x70#8 v
  | .bendup v => packF 0x71#8 v
  | .benddown v => packF 0x72#8 v
  | .legato v => packF 0x73#8 v
  | .modparam a v => packAF 0x7f#8 a v

/-! ### Match and mask of each row (R103) -/

/-- The mask of a format: the opcode and the required-zero fields (R103). -/
def maskN : CmdWord := 0xFFFFFFFFFFFFFFFF#64
def maskF : CmdWord := 0xFFFFFFFF00000000#64
def maskAF : CmdWord := 0xFF00FFFF00000000#64
def maskK : CmdWord := 0xFF0000FF00000000#64

/-- The mask of a command's row (R103). -/
def Instr.rowMask : Instr → CmdWord
  | .setrate _ => maskF
  | .tick => maskN
  | .playpos _ => maskF
  | .playhead _ _ => maskAF
  | .noteon _ _ _ => maskK
  | .noteoff _ _ _ => maskK
  | .suston => maskN
  | .sustoff => maskN
  | .allnotesoff => maskN
  | .allsoundoff => maskN
  | .pitchwheel _ => maskF
  | .modwheel _ => maskF
  | .volume _ => maskF
  | .polyphony _ => maskF
  | .unison _ => maskF
  | .univoices _ => maskF
  | .oversample _ => maskF
  | .pan _ _ => maskAF
  | .voicepriority _ => maskF
  | .vibratorate _ => maskF
  | .lfo1rate _ => maskF
  | .lfo1wave1 _ => maskF
  | .lfo1wave2 _ => maskF
  | .lfo1wave3 _ => maskF
  | .lfo1sync _ => maskF
  | .lfo2rate _ => maskF
  | .lfo2wave1 _ => maskF
  | .lfo2wave2 _ => maskF
  | .lfo2wave3 _ => maskF
  | .lfo2sync _ => maskF
  | .osc1pitch _ => maskF
  | .osc2pitch _ => maskF
  | .tune _ => maskF
  | .transpose _ => maskF
  | .detune _ => maskF
  | .pw1 _ => maskF
  | .pw2 _ => maskF
  | .hardsync _ => maskF
  | .xmod _ => maskF
  | .osc1mix _ => maskF
  | .osc2mix _ => maskF
  | .ringmix _ => maskF
  | .noisemix _ => maskF
  | .noisecolor _ => maskF
  | .osc1saw _ => maskF
  | .osc1pulse _ => maskF
  | .osc2saw _ => maskF
  | .osc2pulse _ => maskF
  | .cutoff _ => maskF
  | .resonance _ => maskF
  | .multimode _ => maskF
  | .bandpassblend _ => maskF
  | .fourpole _ => maskF
  | .selfoscpush _ => maskF
  | .fenvamt _ => maskF
  | .fenvinvert _ => maskF
  | .keyfollow _ => maskF
  | .ampattack _ => maskF
  | .ampdecay _ => maskF
  | .ampsustain _ => maskF
  | .amprelease _ => maskF
  | .fltattack _ => maskF
  | .fltdecay _ => maskF
  | .fltsustain _ => maskF
  | .fltrelease _ => maskF
  | .portamento _ => maskF
  | .bendup _ => maskF
  | .benddown _ => maskF
  | .legato _ => maskF
  | .modparam _ _ => maskAF

/-- The match value of a command's row, `OP << 56` (R103). -/
def Instr.rowMatch : Instr → CmdWord
  | .setrate _ => 0x0100000000000000#64
  | .tick => 0x0200000000000000#64
  | .playpos _ => 0x0300000000000000#64
  | .playhead _ _ => 0x0400000000000000#64
  | .noteon _ _ _ => 0x1000000000000000#64
  | .noteoff _ _ _ => 0x1100000000000000#64
  | .suston => 0x1200000000000000#64
  | .sustoff => 0x1300000000000000#64
  | .allnotesoff => 0x1400000000000000#64
  | .allsoundoff => 0x1500000000000000#64
  | .pitchwheel _ => 0x1600000000000000#64
  | .modwheel _ => 0x1700000000000000#64
  | .volume _ => 0x2000000000000000#64
  | .polyphony _ => 0x2100000000000000#64
  | .unison _ => 0x2200000000000000#64
  | .univoices _ => 0x2300000000000000#64
  | .oversample _ => 0x2400000000000000#64
  | .pan _ _ => 0x2500000000000000#64
  | .voicepriority _ => 0x2600000000000000#64
  | .vibratorate _ => 0x2700000000000000#64
  | .lfo1rate _ => 0x2800000000000000#64
  | .lfo1wave1 _ => 0x2900000000000000#64
  | .lfo1wave2 _ => 0x2A00000000000000#64
  | .lfo1wave3 _ => 0x2B00000000000000#64
  | .lfo1sync _ => 0x2C00000000000000#64
  | .lfo2rate _ => 0x2D00000000000000#64
  | .lfo2wave1 _ => 0x2E00000000000000#64
  | .lfo2wave2 _ => 0x2F00000000000000#64
  | .lfo2wave3 _ => 0x3000000000000000#64
  | .lfo2sync _ => 0x3100000000000000#64
  | .osc1pitch _ => 0x3800000000000000#64
  | .osc2pitch _ => 0x3900000000000000#64
  | .tune _ => 0x3A00000000000000#64
  | .transpose _ => 0x3B00000000000000#64
  | .detune _ => 0x3C00000000000000#64
  | .pw1 _ => 0x3D00000000000000#64
  | .pw2 _ => 0x3E00000000000000#64
  | .hardsync _ => 0x3F00000000000000#64
  | .xmod _ => 0x4000000000000000#64
  | .osc1mix _ => 0x4100000000000000#64
  | .osc2mix _ => 0x4200000000000000#64
  | .ringmix _ => 0x4300000000000000#64
  | .noisemix _ => 0x4400000000000000#64
  | .noisecolor _ => 0x4500000000000000#64
  | .osc1saw _ => 0x4600000000000000#64
  | .osc1pulse _ => 0x4700000000000000#64
  | .osc2saw _ => 0x4800000000000000#64
  | .osc2pulse _ => 0x4900000000000000#64
  | .cutoff _ => 0x5000000000000000#64
  | .resonance _ => 0x5100000000000000#64
  | .multimode _ => 0x5200000000000000#64
  | .bandpassblend _ => 0x5300000000000000#64
  | .fourpole _ => 0x5400000000000000#64
  | .selfoscpush _ => 0x5500000000000000#64
  | .fenvamt _ => 0x5600000000000000#64
  | .fenvinvert _ => 0x5700000000000000#64
  | .keyfollow _ => 0x5800000000000000#64
  | .ampattack _ => 0x6000000000000000#64
  | .ampdecay _ => 0x6100000000000000#64
  | .ampsustain _ => 0x6200000000000000#64
  | .amprelease _ => 0x6300000000000000#64
  | .fltattack _ => 0x6400000000000000#64
  | .fltdecay _ => 0x6500000000000000#64
  | .fltsustain _ => 0x6600000000000000#64
  | .fltrelease _ => 0x6700000000000000#64
  | .portamento _ => 0x7000000000000000#64
  | .bendup _ => 0x7100000000000000#64
  | .benddown _ => 0x7200000000000000#64
  | .legato _ => 0x7300000000000000#64
  | .modparam _ _ => 0x7F00000000000000#64

end Sys2Proof
end

