-- ==== Sys2Proof/Config.lean ====
section
/-! DEFINITION. What an implementation of the voice core fixes and what the spec leaves free: the OPEN
parameters of `00_scope.md` R5 to R11 and the free values of IEEE 754 the rules do not settle. Each is an
`opaque` constant without a body, so no proof can use a particular value. The constraints the rules put on
them are added by the accessors of `Machine/Law.lean`; a size is given in a form that already meets its
constraint. Assumption log 2, 5, 6, 7, 9, 10, 11, 24. -/

namespace Sys2Proof.Config

/-! ### Sizes (R6, R9) -/

/-- The binary logarithm of `SAMPLES`, which is a power of two from 1 to 32 (R6). -/
opaque samplesLog2 : Fin 6

/-- `SAMPLES`, the oscillator's internal latency in samples (R6). -/
def samples : Nat := 2 ^ samplesLog2.val

/-- `KLEN = 2 × SAMPLES` (R6). -/
def klen : Nat := 2 * samples

/-- `B_OVERSAMPLING − 1`; the ratio is an integer ≥ 1 (R6). -/
opaque bOversamplingPred : Nat

/-- `B_OVERSAMPLING` (R6). -/
def bOversampling : Nat := bOversamplingPred + 1

/-- `SYNC_LEN − 2`; the table has at least two entries (R7). -/
opaque syncLenPred2 : Nat

/-- `SYNC_LEN` (R7). -/
def syncLen : Nat := syncLenPred2 + 2

/-- `MOD_COUNT` as a number from 0 to 256 (R9). -/
opaque modCountFin : Fin 257

/-- `MOD_COUNT`, the number of generic routing registers (R9). -/
def modCount : Nat := modCountFin.val

theorem samples_pos : 0 < samples := Nat.two_pow_pos _

theorem two_samples_pos : 0 < 2 * samples := Nat.mul_pos (by decide) samples_pos

theorem modCount_le : modCount ≤ 256 := Nat.le_of_lt_succ modCountFin.isLt

/-- The representation of the OPEN type `NoiseState` (R9, R181): a list of 32-bit words. Log 11. -/
abbrev NoiseState := List (BitVec 32)

/-! ### Read-only tables (R7, R74) -/

/-- `BLEP[k]`. The band-limiting of R154 is not imposed on it (DESIGN CHOICE, log 24). -/
opaque blep : Nat → F32
/-- `BLEP_D2[k]`. -/
opaque blepD2 : Nat → F32
/-- `BLAMP[k]`. -/
opaque blamp : Nat → F32
/-- `BLAMP_D2[k]`. -/
opaque blampD2 : Nat → F32
/-- `DEC_H[k]`, the decimator coefficients. -/
opaque decH : Fin 17 → F32
/-- The inner entries of `SYNC_RATIOS`; the first, the last and the order are fixed by R7 (`syncRatio`). -/
opaque syncRatioInner : Nat → F32

/-! ### Constants (R8, R9, R171) -/

opaque envAtkValueEnd : F32
opaque envAtkTimeAdj : F32
opaque envAtkFloor : F32
opaque selfOscCapHqHz : F32
opaque brightHz : F32
opaque noteRef : F32

/-! ### Transcendental functions (R10) -/

opaque numExp : F32 → F32
opaque numLn : F32 → F32
opaque numTan : F32 → F32
opaque numAtan : F32 → F32
opaque numSin : F32 → F32

/-! ### Open arithmetic laws (R9) -/

/-- A semantic range of a parameter: `(lo, hi, skew)` of R372. -/
structure Range where
  lo : F32
  hi : F32
  skew : F32
deriving DecidableEq, Repr, Inhabited

/-- The six modulation destinations of R281. -/
structure Routing where
  pto1 : F32
  pto2 : F32
  pw1mod : F32
  pw2mod : F32
  cutMod : F32
  volMod : F32
deriving DecidableEq, Repr, Inhabited

/-- The noise flavours of R33. -/
inductive NoiseColor where
  | white
  | pink
  | red
deriving DecidableEq, Repr, Inhabited

/-- `Law.logsc(x, lo, hi, skew)` (R371). -/
opaque lawLogsc : F32 → F32 → F32 → F32 → F32
/-- `Law.range(P<n>)` (R372). -/
opaque lawRange : Nat → Range
/-- `Law.pan(p) → (gL, gR)` (R317). -/
opaque lawPan : F32 → F32 × F32
/-- `Law.res12(r)` (R245). The stability of R253 is not imposed on it (DESIGN CHOICE, log 24). -/
opaque lawRes12 : F32 → F32
/-- `Law.res24(r)` (R245). The stability of R253 is not imposed on it (DESIGN CHOICE, log 24). -/
opaque lawRes24 : F32 → F32
/-- `Law.rcor(fsI) → (rcor12, rcor24)` (R246). The stability of R253 is not imposed on it (DESIGN CHOICE, log 24). -/
opaque lawRcor : F32 → F32 × F32
/-- The arguments of `Law.apply2Pole` (R248). -/
structure TwoPoleArgs where
  s1 : F32
  s2 : F32
  x : F32
  g : F32
  r12 : F32
  rcor12 : F32
  multimode : F32
  bandpassBlend : Bool
  selfOscPush : Bool
deriving DecidableEq, Repr

/-- The arguments of `Law.resolveFeedback4Pole` (R250). -/
structure FourPoleArgs where
  x : F32
  s1 : F32
  s2 : F32
  s3 : F32
  s4 : F32
  g : F32
  r24 : F32
  selfOscPush : Bool
deriving DecidableEq, Repr

/-- The arguments of `Law.cutoff` (R284). -/
structure CutoffArgs where
  cutoff : F32
  noteSemi : F32
  keyFollow : F32
  efD : F32
  fenvAmt : F32
  cutModD : F32
  dither : F32
  slop3 : F32
  velocity : F32
  mod : List F32
deriving DecidableEq, Repr

/-- `Law.apply2Pole(…) → (s1', s2', out)` (R248). The stability of R253 is not imposed on it (DESIGN CHOICE,
log 24). -/
opaque lawApply2Pole : TwoPoleArgs → F32 × F32 × F32
/-- `Law.resolveFeedback4Pole(…)` (R250). The stability of R253 is not imposed on it (DESIGN CHOICE, log 24). -/
opaque lawResolveFeedback4Pole : FourPoleArgs → F32
/-- `Law.cutoff(…)` in Hz (R284). -/
opaque lawCutoff : CutoffArgs → F32
/-- `Law.routing(mod, lfo1, lfo2, vib, ef)` (R281). -/
opaque lawRouting : List F32 → F32 → F32 → F32 → F32 → Routing
/-- `Law.lfoVolume(volMod, velocity)` (R287). -/
opaque lawLfoVolume : F32 → F32 → F32
/-- `Law.portaRate(porta, slop0)` in Hz (R277). -/
opaque lawPortaRate : F32 → F32 → F32
/-- `Law.oscLevel(slop4, mod)` (R282). -/
opaque lawOscLevel : F32 → List F32 → F32
/-- `Law.envSlop(slop, mod)` (R191). -/
opaque lawEnvSlop : F32 → List F32 → F32
/-- `Law.noise(state, colour, draw) → (state', sample)` (R181). -/
opaque lawNoise : NoiseState → NoiseColor → F32 → NoiseState × F32
/-- The initial noise state that `Law.noise` names (R57, R181). -/
opaque noiseInit : NoiseState
/-- `Law.syncIndex(rawRate)` before reduction into the table (R221). -/
opaque lawSyncIndex : F32 → Nat

/-! ### Free values -/

/-- Draw number `n` of the run (R11, R498), before the restriction to finite values (U9). Log 2. -/
opaque freeDraw : Nat → F32

/-- Which operation delivered a NaN. -/
inductive NanOp where
  | add
  | sub
  | mul
  | div
  | min
  | max
  | round
deriving DecidableEq, Repr, Inhabited

/-- Sign and payload of the quiet NaN an operation delivers; IEEE 754 leaves them open. Log 5. -/
opaque nanBits : NanOp → F32 → F32 → BitVec 32

/-- Whether `min` (`max`) of two zeros of opposite sign delivers its first argument; IEEE 754-2008 leaves it open. Log 6. -/
opaque zeroPick : NanOp → F32 → F32 → Bool

/-- `floor` of a NaN or an infinity, which no rule gives a meaning (R251). Log 7. -/
opaque floorNonFinite : F32 → Int

/-- A table lookup at a position that is negative or not finite, which R75 says cannot occur. Log 7. -/
opaque lookupOutside : F32 → F32

end Sys2Proof.Config
end

