-- ==== Sys2Proof/Machine/Float.lean ====
section
/-! DEFINITION. IEEE 754 binary32 arithmetic on bit patterns, round to nearest even, subnormals kept, no
flags and no traps (`00_scope.md` R12, R462), over exact integer arithmetic: a finite binary32 number is an
integer multiple of `2^−149`, its *units*. The results IEEE 754 leaves open (the bits of a NaN, the sign of
`min` and `max` of opposite zeros) are free values of `Config`. -/

namespace Sys2Proof.Machine

/-! ### Reading a bit pattern -/

/-- The sign bit. -/
def fsign (x : F32) : Bool := x.getLsbD 31

/-- The bit pattern without its sign, as a number: it grows with the magnitude. -/
def fmagBits (x : F32) : Nat := x.toNat % 2 ^ 31

/-- The magnitude bits of infinity. -/
def infBits : Nat := 0x7F800000

def isNaN (x : F32) : Bool := infBits < fmagBits x

def isInf (x : F32) : Bool := fmagBits x == infBits

def isFinite (x : F32) : Bool := fmagBits x < infBits

/-- The number of units (of `2^−149`) that the magnitude bits `m` stand for; at `infBits` it is `2^128`, where
rounding to nearest overflows. -/
def unitsOfBits (m : Nat) : Nat :=
  let e := m / 2 ^ 23
  let f := m % 2 ^ 23
  if e = 0 then f else (2 ^ 23 + f) * 2 ^ (e - 1)

/-- The magnitude of a finite number in units of `2^−149`. -/
def funits (x : F32) : Nat := unitsOfBits (fmagBits x)

/-- A finite number as a signed count of units; both zeros give 0. -/
def fint (x : F32) : Int := if fsign x then - (funits x : Int) else (funits x : Int)

/-! ### Rounding -/

/-- The integer nearest to `n / d`, ties to even. -/
def rne (n d : Nat) : Nat :=
  let q := n / d
  let r := n % d
  if 2 * r < d then q
  else if d < 2 * r then q + 1
  else q + q % 2

/-- The magnitude bits of the binary32 number nearest to `n / d` units, ties to even; the bits of infinity
when the rounded value exceeds the largest finite number. -/
def roundBits (n d : Nat) : Nat :=
  let k := Nat.log2 (n / d) - 23
  let b := k * 2 ^ 23 + rne n (d * 2 ^ k)
  if b < infBits then b else infBits

/-- A bit pattern from its sign and its magnitude bits. -/
def fpack (sign : Bool) (mag : Nat) : F32 :=
  BitVec.ofNat 32 ((if sign then 2 ^ 31 else 0) + mag)

/-- `± n / d` units rounded to binary32. -/
def roundUnits (sign : Bool) (n d : Nat) : F32 := fpack sign (roundBits n d)

/-- The binary32 number nearest to the non-negative ratio `n / d` (decimal literals, R12 and D48). -/
def lit (n d : Nat) : F32 := roundUnits false (n * 2 ^ 149) d

/-- An integer converted to binary32. -/
def ofInt (i : Int) : F32 := roundUnits (decide (i < 0)) (i.natAbs * 2 ^ 149) 1

/-- A natural number converted to binary32. -/
def ofNat32 (n : Nat) : F32 := lit n 1

/-! ### NaN results -/

/-- A quiet NaN whose sign and payload are free (log 5). -/
def freeNaN (op : Config.NanOp) (a b : F32) : F32 :=
  (Config.nanBits op a b &&& 0x803FFFFF#32) ||| 0x7FC00000#32

/-! ### Operators of R12 -/

/-- `− x`: the sign bit flipped (log 13). -/
def fneg (x : F32) : F32 := x ^^^ 0x80000000#32

/-- `|x|`: the sign bit cleared. -/
def fabs (x : F32) : F32 := x &&& 0x7FFFFFFF#32

/-- The binary32 number nearest to a signed count of units; an exact zero has the sign `zeroSign`. -/
def ofUnits (zeroSign : Bool) (i : Int) : F32 :=
  if i = 0 then fpack zeroSign 0 else roundUnits (decide (i < 0)) i.natAbs 1

/-- `a + b` with NaNs of operation `op` (`sub` adds the negated second operand). -/
def faddOp (op : Config.NanOp) (a b : F32) : F32 :=
  if isNaN a || isNaN b then freeNaN op a b
  else if isInf a then (if isInf b && fsign a != fsign b then freeNaN op a b else a)
  else if isInf b then b
  else ofUnits (fsign a && fsign b) (fint a + fint b)

/-- `a + b`. -/
def fadd (a b : F32) : F32 := faddOp .add a b

/-- `a − b`. -/
def fsub (a b : F32) : F32 := faddOp .sub a (fneg b)

/-- `a × b`. -/
def fmul (a b : F32) : F32 :=
  let s := fsign a != fsign b
  if isNaN a || isNaN b then freeNaN .mul a b
  else if isInf a || isInf b then
    (if fmagBits a = 0 || fmagBits b = 0 then freeNaN .mul a b else fpack s infBits)
  else roundUnits s (funits a * funits b) (2 ^ 149)

/-- `a / b`. -/
def fdiv (a b : F32) : F32 :=
  let s := fsign a != fsign b
  if isNaN a || isNaN b then freeNaN .div a b
  else if isInf a then (if isInf b then freeNaN .div a b else fpack s infBits)
  else if isInf b then fpack s 0
  else if fmagBits b = 0 then (if fmagBits a = 0 then freeNaN .div a b else fpack s infBits)
  else roundUnits s (funits a * 2 ^ 149) (funits b)

/-! ### Comparisons -/

/-- An integer ordered as the numbers are, infinities included, both zeros equal. -/
def fkey (x : F32) : Int := if fsign x then - (fmagBits x : Int) else (fmagBits x : Int)

/-- `a < b`; false when either is a NaN. -/
def flt (a b : F32) : Bool := !isNaN a && !isNaN b && decide (fkey a < fkey b)

/-- `a ≤ b`; false when either is a NaN. -/
def fle (a b : F32) : Bool := !isNaN a && !isNaN b && decide (fkey a ≤ fkey b)

/-- `a = b` as numbers; false when either is a NaN. -/
def feq (a b : F32) : Bool := !isNaN a && !isNaN b && decide (fkey a = fkey b)

/-- `min(a, b)`; a NaN gives the other argument (R174, R284), opposite zeros a free choice (log 6). -/
def fmin (a b : F32) : F32 :=
  if isNaN a then (if isNaN b then freeNaN .min a b else b)
  else if isNaN b then a
  else if flt a b then a
  else if flt b a then b
  else if Config.zeroPick .min a b then a else b

/-- `max(a, b)`; a NaN gives the other argument (R174), opposite zeros a free choice (log 6). -/
def fmax (a b : F32) : F32 :=
  if isNaN a then (if isNaN b then freeNaN .max a b else b)
  else if isNaN b then a
  else if flt b a then a
  else if flt a b then b
  else if Config.zeroPick .max a b then a else b

/-! ### Conversions -/

/-- `floor(x)` (R13); of a NaN or an infinity a free value (log 7). -/
def ffloor (x : F32) : Int :=
  if isFinite x then Int.fdiv (fint x) (2 ^ 149) else Config.floorNonFinite x

/-- A binary64 bit pattern rounded to binary32 (R15, R276; log 21). A finite binary64 number is an integer
multiple of `2^−1074 = 2^−925` units. -/
def round64 (x : F64) : F32 :=
  let sign := x.getLsbD 63
  let e := x.toNat / 2 ^ 52 % 2 ^ 11
  let f := x.toNat % 2 ^ 52
  if e = 2047 then
    (if f = 0 then fpack sign infBits else freeNaN .round (x.extractLsb' 32 32) (x.extractLsb' 0 32))
  else roundUnits sign (if e = 0 then f else (2 ^ 52 + f) * 2 ^ (e - 1)) (2 ^ 925)

/-- The binary64 bit pattern of a natural number below `2^53` (the default tuning table, R15). -/
def ofNat64 (n : Nat) : F64 :=
  if n = 0 then 0 else
    let e := Nat.log2 n
    BitVec.ofNat 64 ((1023 + e) * 2 ^ 52 + (n * 2 ^ (52 - e) - 2 ^ 52))

/-! ### Draws -/

/-- Draw number `n`: any finite number (R11, U9; log 2). A free pattern that is not finite loses the lowest
bit of its exponent, so every finite number remains possible and nothing else. -/
def draw (n : Nat) : F32 :=
  if isFinite (Config.freeDraw n) then Config.freeDraw n else Config.freeDraw n &&& 0xFF7FFFFF#32

/-! ### Constants of the rules (R8, R12, D48) -/

def f0 : F32 := 0#32
def f1 : F32 := lit 1 1
def f2 : F32 := lit 2 1
def f3 : F32 := lit 3 1
def f4 : F32 := lit 4 1
def fHalf : F32 := lit 1 2
def fNegHalf : F32 := fneg fHalf
def fOneAndHalf : F32 := lit 3 2
def fNegOne : F32 := fneg f1
/-- `π`. -/
def fPi : F32 := lit 31415926535897932384626433832795 10000000000000000000000000000000
/-- `2π`. -/
def fTwoPi : F32 := lit 62831853071795864769252867665590 10000000000000000000000000000000
/-- `π/2`. -/
def fHalfPi : F32 := lit 15707963267948966192313216916398 10000000000000000000000000000000
/-- `2/π` (log 12). -/
def fTwoOverPi : F32 := lit 6366197723675813430755350534900 10000000000000000000000000000000
/-- `ln2/12` (R12, R171). -/
def fLn2Over12 : F32 := lit 577622650466621091181026767881 10000000000000000000000000000000
def pitchRefHz : F32 := lit 440 1
def envAtkTarget : F32 := lit 13 10
def envAtkClamp : F32 := lit 99 100
def envSusCap : F32 := lit 9 10
def envDecayEps : F32 := lit 1 100000
def envSilentThresh : F32 := lit 2 100000
def envMs : F32 := lit 1 1000
def dcEps : F32 := lit 1 1000000000000000000
def lfoSmoothHz : F32 := lit 3000 1
def cutoffGuardHz : F32 := lit 120 1
def selfOscCapHz : F32 := lit 19000 1
def oscMakeup : F32 := lit 3 1
def pwMin : F32 := lit 1 10
def pwMax : F32 := lit 1 1
def vibTaper : F32 := lit 4 1
def smoothK : F32 := lit 3 1000
def smoothRefHz : F32 := lit 44000 1
/-- The velocity sentinel `−0.5` (R8, R271). -/
def velKeep : F32 := fNegHalf
def cutoffMin : F32 := f0
def cutoffMax : F32 := lit 120 1

end Sys2Proof.Machine
end

