-- ==== Sys2Proof/Machine/Law.lean ====
section
/-! DEFINITION. The open laws and constants of `Config` as the rules use them: each free constant of
`00_scope.md` R7 to R10 with exactly the constraint its rule writes beside it (log 10). -/

namespace Sys2Proof.Machine

/-- A free value restricted to what a rule allows: the raw value where it is allowed, else an allowed one. It
ranges over all allowed values as `raw` ranges over all values. -/
def constrained {α : Type} (allowed : α → Bool) (raw fallback : α) : α :=
  if allowed raw then raw else fallback

/-! ### Constants -/

/-- `ENV_ATK_FLOOR`, with `0 < ENV_ATK_FLOOR < 1.3` (R8, R193). -/
def envAtkFloor : F32 :=
  constrained (fun x => flt f0 x && flt x envAtkTarget) Config.envAtkFloor f1

/-- `ENV_ATK_TIME_ADJ > 0` (R8, R196). -/
def envAtkTimeAdj : F32 := constrained (fun x => flt f0 x) Config.envAtkTimeAdj f1

/-- `SELFOSC_CAP_HQ_HZ ≥ SELFOSC_CAP_HZ` (R8). -/
def selfOscCapHqHz : F32 := constrained (fun x => fle selfOscCapHz x) Config.selfOscCapHqHz selfOscCapHz

/-- The entries of `SYNC_RATIOS` before the last: from `1/8` on, each not below the one before it and not above
`4` (R7). -/
def syncRatioAt : Nat → F32
  | 0 => lit 1 8
  | k + 1 => constrained (fun x => fle (syncRatioAt k) x && fle x f4) (Config.syncRatioInner (k + 1)) (syncRatioAt k)

/-- `SYNC_RATIOS[k]`: the first entry `1/8`, the last `4`, non-decreasing (R7). -/
def syncRatio (k : Fin Config.syncLen) : F32 :=
  if k.val + 1 = Config.syncLen then f4 else syncRatioAt k.val

/-! ### Laws -/

/-- `Num.exp`, with the one value a rule states: a semitone index of 0 is 440 Hz, so `Num.exp(0) = 1` (R10, R171). -/
def numExp (x : F32) : F32 := if feq x f0 then f1 else Config.numExp x

/-- `Law.syncIndex : f32 → {0 .. SYNC_LEN − 1}` (R221). -/
def lawSyncIndex (rawRate : F32) : Fin Config.syncLen :=
  ⟨Config.lawSyncIndex rawRate % Config.syncLen, Nat.mod_lt _ (Nat.succ_pos _)⟩

/-- `linsc(x, lo, hi) = lo + x × (hi − lo)`, the subtraction first (R370). -/
def linsc (x lo hi : F32) : F32 := fadd lo (fmul x (fsub hi lo))

/-- The six envelope times: attack, decay and release of either envelope (R372). -/
def timeIds : List Nat := [46, 47, 49, 50, 51, 53]

/-- The pulse widths and the levels, whose images must be finite (U5): pulse widths, mix levels, sustain levels. -/
def finiteImageIds : List Nat := [24, 25, 28, 29, 30, 31, 48, 52]

/-- A number in `[0, 1]`. -/
def inUnit (x : F32) : Bool := fle f0 x && fle x f1

/-- The constraints on the range of parameter `P<n>` of R372 and U5: finite; both ends positive for the six envelope
times; ends and last image within `[0,1]` for `MULTIMODE`, P39; and for the pulse widths and levels a finite last image
and no overflow on the way to it, which keeps every image finite (log 10). -/
def rangeAllowed (n : Nat) (r : Config.Range) : Bool :=
  isFinite r.lo && isFinite r.hi && isFinite r.skew
    && (!(timeIds.contains n) || (flt f0 r.lo && flt f0 r.hi))
    && (!(n == 39) || (inUnit r.lo && inUnit r.hi && inUnit (linsc f1 r.lo r.hi)))
    && (!(finiteImageIds.contains n) || (isFinite (fsub r.hi r.lo) && isFinite (linsc f1 r.lo r.hi)))

/-- `Law.range(P<n>)` (R372, U5). -/
def lawRange (n : Nat) : Config.Range := constrained (rangeAllowed n) (Config.lawRange n) ⟨f1, f1, f1⟩

/-- The range of some envelope time. -/
def isTimeRange (r : Config.Range) : Bool := timeIds.any fun n => decide (lawRange n = r)

/-- What `Law.logsc` may deliver strictly between its end points: with `lo ≤ hi` a value between them, of the
monotonicity R371 allows a model to assume; over the range of an envelope time a positive finite value, which R192 and
U5 require (log 10). -/
def logscAllowed (lo hi skew y : F32) : Bool :=
  (!(fle lo hi) || (fle lo y && fle y hi)) && (!(isTimeRange ⟨lo, hi, skew⟩) || (flt f0 y && isFinite y))

/-- `Law.logsc`, with its two end points (R371). -/
def logsc (x lo hi skew : F32) : F32 :=
  if feq x f0 then lo
  else if feq x f1 then hi
  else if flt f0 x && flt x f1 then constrained (logscAllowed lo hi skew) (Config.lawLogsc x lo hi skew) lo
  else Config.lawLogsc x lo hi skew

/-- `Law.rcor(fsI)`: both finite and `rcor24 > 0` (R246); the stability of R253 is not imposed (log 24). -/
def lawRcor (fsI : F32) : F32 × F32 :=
  constrained (fun p => isFinite p.1 && isFinite p.2 && flt f0 p.2) (Config.lawRcor fsI) (f1, f1)

/-- `Law.envSlop(slop, mod)`, positive (R9, R191). -/
def lawEnvSlop (slop : F32) (mod : List F32) : F32 :=
  constrained (fun x => flt f0 x) (Config.lawEnvSlop slop mod) f1

/-- `Law.lfoVolume(volMod, velocity)`, in `[0,1]` for all finite arguments (R287). -/
def lawLfoVolume (volMod velocity : F32) : F32 :=
  if isFinite volMod && isFinite velocity then
    constrained (fun x => fle f0 x && fle x f1) (Config.lawLfoVolume volMod velocity) f1
  else Config.lawLfoVolume volMod velocity

/-! ### Scaling laws of the parameter facade -/

/-- The `lin` kind: `linsc` over the range of parameter `P<n>` (R51, R370, R372). -/
def linParam (n : Nat) (x : F32) : F32 := linsc x (lawRange n).lo (lawRange n).hi

/-- The `log` kind: `Law.logsc` over the range of parameter `P<n>` (R51, R371, R372). -/
def logParam (n : Nat) (x : F32) : F32 := logsc x (lawRange n).lo (lawRange n).hi (lawRange n).skew

/-- `bool(x) = (x > 0.5)` (R373). -/
def boolParam (x : F32) : Bool := flt fHalf x

/-- `floor(x × 31 + 0.5)` of `count` (R373). -/
def countFloor (x : F32) : Nat := (ffloor (fadd (fmul x (ofNat32 31)) fHalf)).toNat

/-- `enumN(x) = min(N − 1, floor(x × N))` (R373). -/
def enumParam (n : Nat) (x : F32) : Nat := min (n - 1) (ffloor (fmul x (ofNat32 n))).toNat

end Sys2Proof.Machine
end

