-- ==== Sys2Proof/Machine/State.lean ====
section
/-! DEFINITION. The architectural state (`10_state.md`), the reset state (R55 to R65), and the reasons a step
can stop. State is plain data: every array has its length in its type, every index its bound. The fields that
are the model's own (the draw counter, the tuning table the host owns, the host's acts still to come) are
marked; the spec calls them inputs of the step. Log 1 to 4, 11, 16, 20. -/

namespace Sys2Proof.Machine

/-! ### Reasons to stop -/

/-- Why the machine stops. -/
inductive Fault where
  /-- Raised by `TICK` when an oscillator step has a phase increment outside `(0, 1)` or a phase outside
  `[0, 1)`: the spec gives the half-sample no meaning and the tick no successor (R136, R184, U1). Safe (log 8). -/
  | phaseIncrementOutOfRange
deriving DecidableEq, Repr

/-- Why an instruction has no meaning. -/
inductive Refusal where
  /-- Raised by an arm of `exec` that has no meaning yet; no arm of this model does. Safe. -/
  | notModelled (mnemonic : String)
deriving DecidableEq, Repr

/-! ### Sub-unit layouts -/

/-- `DelayLine<T, N>` (R25). -/
structure DelayLine (α : Type) (n : Nat) where
  buf : Vec α n
  pos : Fin n
deriving DecidableEq, Repr

/-- `OscPrim`, with `n = SAMPLES`; the ring has `KLEN = 2 × SAMPLES` slots (R26). -/
structure OscPrim (n : Nat) where
  ring : Vec F32 (2 * n)
  bP : Fin (2 * n)
  dl : DelayLine F32 n
  d2 : Bool
deriving DecidableEq, Repr

/-- `Lfo` (R27). -/
structure Lfo where
  phase : F32
  sh : F32
  shPrev : F32
  smooth : F32
  freq : F32
  rawRate : F32
  sync : Bool
  wave1 : F32
  wave2 : F32
  wave3 : F32
deriving DecidableEq, Repr

/-- The envelope states, numbered 1 to 5 by the spec (R28, R190). -/
inductive EnvStage where
  | attack
  | decay
  | sustain
  | release
  | silent
deriving DecidableEq, Repr

/-- `Env` (R28). -/
structure Env where
  state : EnvStage
  value : F32
  coef : F32
  attack : F32
  decay : F32
  sustain : F32
  release : F32
deriving DecidableEq, Repr

/-- `Flt` (R29). That its states remain finite is not imposed on the OPEN laws (R253; DESIGN CHOICE, log 24). -/
structure Flt where
  s1 : F32
  s2 : F32
  s3 : F32
  s4 : F32
  r12 : F32
  r24 : F32
  rcor12 : F32
  rcor24 : F32
  res : F32
  multimode : F32
  bandpassBlend : Bool
  fourPole : Bool
  selfOscPush : Bool
deriving DecidableEq, Repr

/-- `Smoother` (R30). -/
structure Smoother where
  target : F32
  state : F32
deriving DecidableEq, Repr

/-- `V[i].osc`, the oscillator block (R33). -/
structure OscBlock where
  x1 : F32
  x2 : F32
  tuneSlop1 : F32
  tuneSlop2 : F32
  saw1 : OscPrim Config.samples
  pul1 : OscPrim Config.samples
  tri1 : OscPrim Config.samples
  saw2 : OscPrim Config.samples
  pul2 : OscPrim Config.samples
  tri2 : OscPrim Config.samples
  noise : Config.NoiseState
  dlSync : DelayLine Bool Config.samples
  dlSyncFrac : DelayLine F32 Config.samples
  dlOsc1 : DelayLine F32 Config.samples
  pitch1 : F32
  pitch2 : F32
  tune : F32
  transpose : F32
  detuneAmt : F32
  pwBase1 : F32
  pwBase2 : F32
  xmod : F32
  mix1 : F32
  mix2 : F32
  mixRing : F32
  mixNoise : F32
  hardSync : Bool
  saw1On : Bool
  pul1On : Bool
  saw2On : Bool
  pul2On : Bool
  noiseColor : Config.NoiseColor
deriving DecidableEq, Repr

/-- A voice bank `V[i]` (R31, R32, R34, R35). -/
structure Voice where
  note : Fin 128
  pitchBend : F32
  gate : Bool
  sustHold : Bool
  active : Bool
  velocity : F32
  slop : Vec F32 5
  osc : OscBlock
  ampEnv : Env
  fltEnv : Env
  flt : Flt
  lfo2 : Lfo
  dlAenv : DelayLine F32 (2 * Config.samples)
  dlFenv : DelayLine F32 (2 * Config.samples)
  dlLfo : DelayLine F32 (2 * Config.samples)
  dlAenv1 : DelayLine F32 1
  portaState : F32
  brightState : F32
  cutoff : F32
  fenvAmt : F32
  keyFollow : F32
  porta : F32
  bendUp : F32
  bendDown : F32
  fenvInvert : Bool
  legato : BitVec 2
  mod : Vec F32 Config.modCount
deriving DecidableEq, Repr

/-- A voice count, `1..32` (R36, R37). -/
abbrev VoiceCount := { n : Nat // 1 ≤ n ∧ n ≤ 32 }

/-- The voice priority policies (R40). -/
inductive Priority where
  | latest
  | highest
  | lowest
deriving DecidableEq, Repr

/-- The register identifiers `G.written` ranges over: one per row of R51, one per pan slot, one per routing
index, `FS` and `BPM` (R47). -/
inductive RegId where
  | fs | bpm
  | volume | polyphony | unison | univoices | oversample
  | pan (slot : Fin 8)
  | voicepriority | vibratorate
  | lfo1rate | lfo1wave1 | lfo1wave2 | lfo1wave3 | lfo1sync
  | lfo2rate | lfo2wave1 | lfo2wave2 | lfo2wave3 | lfo2sync
  | osc1pitch | osc2pitch | tune | transpose | detune | pw1 | pw2 | hardsync | xmod
  | osc1mix | osc2mix | ringmix | noisemix | noisecolor | osc1saw | osc1pulse | osc2saw | osc2pulse
  | cutoff | resonance | multimode | bandpassblend | fourpole | selfoscpush | fenvamt | fenvinvert | keyfollow
  | ampattack | ampdecay | ampsustain | amprelease | fltattack | fltdecay | fltsustain | fltrelease
  | portamento | bendup | benddown | legato
  | mod (m : Fin Config.modCount)
deriving DecidableEq, Repr

/-- The global registers of the Motherboard and of the facade (R36 to R47). -/
structure Global where
  totalvc : VoiceCount
  uni : Bool
  univc : VoiceCount
  stolen : Vec (BitVec 32) 129
  voiceAge : Vec (BitVec 64) 129
  asPlayedCounter : BitVec 64
  volume : F32
  pan : Vec F32 8
  oversample : Bool
  priority : Priority
  vqIdx : Fin 32
  lfo1 : Lfo
  vib : Lfo
  decL : Vec F32 17
  decR : Vec F32 17
  smCutoff : Smoother
  smBend : Smoother
  smMod : Smoother
  fs : F32
  bpm : F32
  qnpos : F32
  written : List RegId
deriving DecidableEq, Repr

/-- The `FAULT` register (R49). -/
structure FaultReg where
  valid : Bool
  cause : BitVec 8
  cmd : CmdWord
deriving DecidableEq, Repr

/-- What the host can do to the block between two commands (R2, R15, R100, R480). -/
inductive HostInput where
  /-- Present a command word on the port. -/
  | command (w : CmdWord)
  /-- Assert and release the reset input. -/
  | reset
  /-- Put other values into the tuning table it owns. -/
  | tuning (table : Vec F64 128)
deriving DecidableEq, Repr

/-- The whole state (R20). `draws`, `tuning` and `inputs` are the model's own fields (log 1, 2, 4). -/
structure State where
  voices : Vec Voice 32
  g : Global
  outL : F32
  outR : F32
  fault : FaultReg
  draws : Nat
  tuning : Vec F64 128
  inputs : List HostInput
deriving DecidableEq, Repr

/-! ### The set of written registers -/

/-- The place of an identifier in the canonical order of `G.written`: its row of R51, then its index. -/
def RegId.index : RegId → Nat
  | .fs => 0 | .bpm => 1
  | .volume => 300 | .polyphony => 600 | .unison => 900 | .univoices => 1200 | .oversample => 1500
  | .pan slot => 1800 + slot.val
  | .voicepriority => 2100 | .vibratorate => 2400
  | .lfo1rate => 2700 | .lfo1wave1 => 3000 | .lfo1wave2 => 3300 | .lfo1wave3 => 3600 | .lfo1sync => 3900
  | .lfo2rate => 4200 | .lfo2wave1 => 4500 | .lfo2wave2 => 4800 | .lfo2wave3 => 5100 | .lfo2sync => 5400
  | .osc1pitch => 5700 | .osc2pitch => 6000 | .tune => 6300 | .transpose => 6600 | .detune => 6900
  | .pw1 => 7200 | .pw2 => 7500 | .hardsync => 7800 | .xmod => 8100
  | .osc1mix => 8400 | .osc2mix => 8700 | .ringmix => 9000 | .noisemix => 9300 | .noisecolor => 9600
  | .osc1saw => 9900 | .osc1pulse => 10200 | .osc2saw => 10500 | .osc2pulse => 10800
  | .cutoff => 11100 | .resonance => 11400 | .multimode => 11700 | .bandpassblend => 12000
  | .fourpole => 12300 | .selfoscpush => 12600 | .fenvamt => 12900 | .fenvinvert => 13200 | .keyfollow => 13500
  | .ampattack => 13800 | .ampdecay => 14100 | .ampsustain => 14400 | .amprelease => 14700
  | .fltattack => 15000 | .fltdecay => 15300 | .fltsustain => 15600 | .fltrelease => 15900
  | .portamento => 16200 | .bendup => 16500 | .benddown => 16800 | .legato => 17100
  | .mod m => 17400 + m.val

/-- The identifiers of the rate, the tempo, the Motherboard and the LFOs. -/
def RegId.globalIds : List RegId :=
  [.fs, .bpm, .volume, .polyphony, .unison, .univoices, .oversample,
   .pan 0, .pan 1, .pan 2, .pan 3, .pan 4, .pan 5, .pan 6, .pan 7,
   .voicepriority, .vibratorate, .lfo1rate, .lfo1wave1, .lfo1wave2, .lfo1wave3, .lfo1sync,
   .lfo2rate, .lfo2wave1, .lfo2wave2, .lfo2wave3, .lfo2sync]

/-- The identifiers of the oscillator, filter, envelope and voice parameters. -/
def RegId.voiceIds : List RegId :=
  [.osc1pitch, .osc2pitch, .tune, .transpose, .detune, .pw1, .pw2, .hardsync, .xmod,
   .osc1mix, .osc2mix, .ringmix, .noisemix, .noisecolor, .osc1saw, .osc1pulse, .osc2saw, .osc2pulse,
   .cutoff, .resonance, .multimode, .bandpassblend, .fourpole, .selfoscpush, .fenvamt, .fenvinvert, .keyfollow,
   .ampattack, .ampdecay, .ampsustain, .amprelease, .fltattack, .fltdecay, .fltsustain, .fltrelease,
   .portamento, .bendup, .benddown, .legato]

/-- Every register identifier (R47), in canonical order. -/
def RegId.all : List RegId :=
  RegId.globalIds ++ (RegId.voiceIds ++ (List.finRange Config.modCount).map RegId.mod)

/-! ### Reset values -/

/-- A delay line with every slot `x` and `pos = 0`. -/
def DelayLine.cleared {α : Type} {n : Nat} (h : 0 < n) (x : α) : DelayLine α n :=
  ⟨Vec.replicate n x, ⟨0, h⟩⟩

/-- An oscillator primitive after reset (R57). -/
def OscPrim.cleared {n : Nat} (h : 0 < n) : OscPrim n :=
  { ring := Vec.replicate (2 * n) f0, bP := ⟨0, Nat.mul_pos (by decide) h⟩, dl := DelayLine.cleared h f0, d2 := false }

/-- An LFO after reset (R60); its parameters are unwritten and hold 0 (log 3). -/
def Lfo.cleared : Lfo :=
  { phase := f0, sh := f0, shPrev := f0, smooth := f0, freq := f0, rawRate := f0, sync := false,
    wave1 := f0, wave2 := f0, wave3 := f0 }

/-- An envelope after reset (R58); its parameters are unwritten and hold 0 (log 3). -/
def Env.cleared : Env :=
  { state := .silent, value := f0, coef := f0, attack := f0, decay := f0, sustain := f0, release := f0 }

/-- A filter after reset (R59); coefficients and parameters are unwritten and hold 0 (log 3). -/
def Flt.cleared : Flt :=
  { s1 := f0, s2 := f0, s3 := f0, s4 := f0, r12 := f0, r24 := f0, rcor12 := f0, rcor24 := f0,
    res := f0, multimode := f0, bandpassBlend := false, fourPole := false, selfOscPush := false }

/-- An oscillator block after reset (R57); parameters and tuning slop are unwritten and hold 0 (log 3). -/
def OscBlock.cleared : OscBlock :=
  { x1 := f0, x2 := f0, tuneSlop1 := f0, tuneSlop2 := f0,
    saw1 := OscPrim.cleared Config.samples_pos, pul1 := OscPrim.cleared Config.samples_pos,
    tri1 := OscPrim.cleared Config.samples_pos, saw2 := OscPrim.cleared Config.samples_pos,
    pul2 := OscPrim.cleared Config.samples_pos, tri2 := OscPrim.cleared Config.samples_pos,
    noise := Config.noiseInit,
    dlSync := DelayLine.cleared Config.samples_pos false, dlSyncFrac := DelayLine.cleared Config.samples_pos f0,
    dlOsc1 := DelayLine.cleared Config.samples_pos f0,
    pitch1 := f0, pitch2 := f0, tune := f0, transpose := f0, detuneAmt := f0, pwBase1 := f0, pwBase2 := f0,
    xmod := f0, mix1 := f0, mix2 := f0, mixRing := f0, mixNoise := f0,
    hardSync := false, saw1On := false, pul1On := false, saw2On := false, pul2On := false, noiseColor := .white }

/-- A voice after reset (R55 to R61), its slop values the draws from number `d` on (R56, R482). -/
def Voice.cleared (d : Nat) : Voice :=
  { note := 0, pitchBend := f0, gate := false, sustHold := false, active := false, velocity := f0,
    slop := Vec.ofFn fun k => draw (d + k.val),
    osc := OscBlock.cleared, ampEnv := Env.cleared, fltEnv := Env.cleared, flt := Flt.cleared, lfo2 := Lfo.cleared,
    dlAenv := DelayLine.cleared Config.two_samples_pos f0, dlFenv := DelayLine.cleared Config.two_samples_pos f0,
    dlLfo := DelayLine.cleared Config.two_samples_pos f0, dlAenv1 := DelayLine.cleared Nat.one_pos f0,
    portaState := f0, brightState := f0, cutoff := f0, fenvAmt := f0, keyFollow := f0, porta := f0,
    bendUp := f0, bendDown := f0, fenvInvert := false, legato := 0#2, mod := Vec.replicate Config.modCount f0 }

/-- The voice count the model names for an unwritten count register (log 3). -/
def VoiceCount.one : VoiceCount := ⟨1, by decide⟩

/-- The global registers after reset (R60, R62 to R64); unwritten ones hold the values log 3 names. -/
def Global.cleared : Global :=
  { totalvc := VoiceCount.one, uni := false, univc := VoiceCount.one,
    stolen := Vec.replicate 129 0#32, voiceAge := Vec.replicate 129 0#64, asPlayedCounter := 0#64,
    volume := f0, pan := Vec.replicate 8 f0, oversample := false, priority := .latest, vqIdx := 0,
    lfo1 := Lfo.cleared, vib := { Lfo.cleared with wave1 := fNegOne },
    decL := Vec.replicate 17 f0, decR := Vec.replicate 17 f0,
    smCutoff := ⟨f0, f0⟩, smBend := ⟨f0, f0⟩, smMod := ⟨f0, f0⟩,
    fs := f0, bpm := f0, qnpos := f0, written := [] }

/-- How many draws reset makes (R482). -/
def resetDraws : Nat := 160

/-- The state when reset is released, with the draws numbered from `d`, the host's tuning table and the
host's acts still to come (R480, R481; log 16). -/
def State.resetWith (d : Nat) (tuning : Vec F64 128) (inputs : List HostInput) : State :=
  { voices := Vec.ofFn fun i => Voice.cleared (d + 5 * i.val),
    g := Global.cleared, outL := f0, outR := f0, fault := ⟨false, 0#8, 0#64⟩,
    draws := d + resetDraws, tuning := tuning, inputs := inputs }

/-- The default tuning table `Tuning(n) = n` (R15; log 4). -/
def defaultTuning : Vec F64 128 := Vec.ofFn fun n => ofNat64 n.val

/-- The machine right after reset. -/
def State.reset : State := State.resetWith 0 defaultTuning []

end Sys2Proof.Machine
end

