-- ==== Sys2Proof/Machine/Operands.lean ====
section
/-! DEFINITION. The operand ranges checked at the boundary (`30_encoding.md` R105) and the reading of index
operands. A NaN violates every range; negative zero is accepted wherever zero is. -/

namespace Sys2Proof.Machine

/-- `0 ≤ V ≤ 1`: velocity, mod wheel, every normalized parameter. -/
def unitRange (v : F32) : Bool := fle f0 v && fle v f1

/-- `−1 ≤ V ≤ 1`: pitch wheel. -/
def bipolarRange (v : F32) : Bool := fle fNegOne v && fle v f1

/-- `V` finite and `> 0`: sample rate. -/
def rateRange (v : F32) : Bool := isFinite v && flt f0 v

/-- `V` finite and `≥ 0`: tempo. -/
def tempoRange (v : F32) : Bool := isFinite v && fle f0 v

/-- `V` finite: quarter-note position. -/
def positionRange (v : F32) : Bool := isFinite v

/-- `A ≤ 127`: note number. -/
def noteRange (a : BitVec 8) : Bool := decide (a.toNat ≤ 127)

/-- `A ≤ 7`: pan slot. -/
def slotRange (a : BitVec 8) : Bool := decide (a.toNat ≤ 7)

/-- `A < MOD_COUNT`: routing index. -/
def modRange (a : BitVec 8) : Bool := decide (a.toNat < Config.modCount)

/-- `A ≤ 1`: reset flag of `PLAYHEAD`. -/
def resetFlagRange (a : BitVec 8) : Bool := decide (a.toNat ≤ 1)

/-- The note an index operand names; exact for every operand `noteRange` admits. -/
def noteOf (a : BitVec 8) : Fin 128 := ⟨a.toNat % 128, Nat.mod_lt _ (by decide)⟩

/-- The pan slot an index operand names; exact for every operand `slotRange` admits. -/
def slotOf (a : BitVec 8) : Fin 8 := ⟨a.toNat % 8, Nat.mod_lt _ (by decide)⟩

/-- The routing register an index operand names, `none` where there is no such register. -/
def modIndexOf (a : BitVec 8) : Option (Fin Config.modCount) :=
  if h : a.toNat < Config.modCount then some ⟨a.toNat, h⟩ else none

/-- `count(x) = 1 + floor(x × 31 + 0.5)` as a voice count (R373; log 14). -/
def countParam (x : F32) : VoiceCount :=
  ⟨1 + min 31 (countFloor x), Nat.le_add_right _ _, by
    have : min 31 (countFloor x) ≤ 31 := Nat.min_le_left _ _
    omega⟩

/-- `[Latest, Highest, Lowest][enum3(x)]` (R386). -/
def priorityParam (x : F32) : Priority :=
  match enumParam 3 x with
  | 0 => .latest
  | 1 => .highest
  | _ => .lowest

/-- `[White, Pink, Red][enum3(x)]` (R411). -/
def colorParam (x : F32) : Config.NoiseColor :=
  match enumParam 3 x with
  | 0 => .white
  | 1 => .pink
  | _ => .red

/-- `enum4(x)` as the 2-bit legato mask (R436). -/
def legatoParam (x : F32) : BitVec 2 := BitVec.ofNat 2 (enumParam 4 x)

end Sys2Proof.Machine
end

