-- ==== Sys2Proof/Machine/Ops.lean ====
section
/-! DEFINITION. The named operations over the memories and registers: delay lines and correction rings
(`40_delayline_blep_osc.md` R131 to R141, `20_memory.md` R75, R77), smoothers (`48_commands_params.md` R374),
taking a fault (`60_exceptions.md` R453), the set of written registers (R47), broadcast (R375), and the frame
every command shares (R340, R376). -/

namespace Sys2Proof.Machine

/-! ### Delay lines -/

/-- An index wrapped by bitmask into an array of a power-of-two length (R77). -/
def wrapIndex {n : Nat} (h : 0 < n) (k : Nat) : Fin n :=
  ⟨k &&& (n - 1), Nat.lt_of_le_of_lt Nat.and_le_right (Nat.sub_lt h Nat.one_pos)⟩

/-- `feedReturn(D, v)`: the old content of the slot, and the line after the write (R131). -/
def DelayLine.feedReturn {α : Type} {n : Nat} (D : DelayLine α n) (v : α) : α × DelayLine α n :=
  (D.buf.get D.pos, ⟨D.buf.set D.pos v, wrapIndex D.pos.pos (D.pos.val + 1)⟩)

/-- `flush(D)`: every slot becomes `zero`, the position stays (R132). -/
def DelayLine.flush {α : Type} {n : Nat} (zero : α) (D : DelayLine α n) : DelayLine α n :=
  { D with buf := Vec.replicate n zero }

/-! ### Correction tables and rings -/

/-- `TableLookup(T, p)`: linear interpolation with the clamps of R75. A position that is negative or not
finite cannot occur (R75); its value is free (log 7). -/
def tableLookup (T : Nat → F32) (tableLen : Nat) (p : F32) : F32 :=
  if !isFinite p || flt p f0 then Config.lookupOutside p
  else
    let k0 := (ffloor p).toNat
    let k := min k0 (tableLen - 2)
    let d := fsub p (ofNat32 k)
    let frac := if k0 ≤ tableLen - 2 then d else fmin d f1
    fadd (fmul (T k) (fsub f1 frac)) (fmul (T (k + 1)) frac)

/-- The residual slot `k` of an injection receives (R135, R137). -/
def injectTerm (T : Nat → F32) (bOver tableLen : Nat) (frac scale : F32) (k : Nat) : F32 :=
  fmul (tableLookup T tableLen (fmul (fadd (ofNat32 k) frac) (ofNat32 bOver))) scale

/-- The loop of R137 over one table `T` of oversampling `bOver`: `KLEN` residuals added into the ring. -/
def OscPrim.mixIn {n : Nat} (T : Nat → F32) (bOver : Nat) (P : OscPrim n) (frac scale : F32) : OscPrim n :=
  { P with
    ring := (List.range (2 * n)).foldl
      (fun ring k =>
        ring.modify (wrapIndex P.bP.pos (P.bP.val + k))
          (fun x => fadd x (injectTerm T bOver (2 * n * bOver + 1) frac scale k)))
      P.ring }

/-- `mixInImpulseCenter(P, frac, scale)` (R137). -/
def OscPrim.mixInImpulseCenter {n : Nat} (P : OscPrim n) (frac scale : F32) : OscPrim n :=
  P.mixIn (if P.d2 then Config.blepD2 else Config.blep) Config.bOversampling frac scale

/-- `mixInBlampCenter(P, frac, scale)` (R138). -/
def OscPrim.mixInBlampCenter {n : Nat} (P : OscPrim n) (frac scale : F32) : OscPrim n :=
  P.mixIn (if P.d2 then Config.blampD2 else Config.blamp) Config.bOversampling frac scale

/-- `aliasReduction(P)`: drain one slot of the ring (R139). -/
def OscPrim.aliasReduction {n : Nat} (P : OscPrim n) : F32 × OscPrim n :=
  (P.ring.get P.bP, { P with ring := P.ring.set P.bP f0, bP := wrapIndex P.bP.pos (P.bP.val + 1) })

/-- `getValue(P, naive)`: the naive value through the primitive's delay line (R140). -/
def OscPrim.getValue {n : Nat} (P : OscPrim n) (naive : F32) : F32 × OscPrim n :=
  let (out, dl) := P.dl.feedReturn naive
  (out, { P with dl := dl })

/-- `setDecimation` (`b = true`) and `removeDecimation` (`b = false`) (R141). -/
def OscPrim.setD2 {n : Nat} (b : Bool) (P : OscPrim n) : OscPrim n := { P with d2 := b }

/-! ### Smoothers and one-pole filters -/

/-- `Smoother.step(s)` at host rate `fs`; the value returned is the new state (R374). -/
def Smoother.step (fs : F32) (s : Smoother) : Smoother :=
  { s with state := fadd s.state (fmul (fsub s.target s.state) (fmul smoothK (fdiv smoothRefHz fs))) }

/-- `tptStage(state, x, g)`: the output and the new state (R242). -/
def tptStage (state x g : F32) : F32 × F32 :=
  let v := fdiv (fmul (fsub x state) g) (fadd f1 g)
  let y := fadd v state
  (y, fadd y v)

/-- `tptLp(state, x, fc, rate)`: the output and the new state (R240). -/
def tptLp (state x fc rate : F32) : F32 × F32 := tptStage state x (fmul (fdiv fc rate) fPi)

/-- `tptLpW(state, x, fc, rate)`, the warped form; no rule uses it (R241). -/
def tptLpW (state x fc rate : F32) : F32 × F32 := tptStage state x (Config.numTan (fmul (fdiv fc rate) fPi))

/-! ### Global registers -/

/-- `fsI`, the internal rate (R24). -/
def Global.fsI (g : Global) : F32 := if g.oversample then fmul f2 g.fs else g.fs

/-- An identifier added to a set in canonical order. -/
def insertId (id : RegId) : List RegId → List RegId
  | [] => [id]
  | x :: xs =>
    if x = id then x :: xs
    else if id.index < x.index then id :: x :: xs
    else x :: insertId id xs

/-- `CONFIGURED`: every identifier is in `G.written` (R47). -/
def State.configured (s : State) : Bool := RegId.all.all fun id => s.g.written.contains id

/-- `G.written <- G.written ∪ {id}` (R376). -/
def State.markWritten (id : RegId) (s : State) : State :=
  { s with g := { s.g with written := insertId id s.g.written } }

/-- A change of the global registers. -/
def State.mapGlobal (f : Global → Global) (s : State) : State := { s with g := f s.g }

/-- `forall i < 32: V[i] <- f(V[i])` (R375). -/
def State.mapVoices (f : Voice → Voice) (s : State) : State := { s with voices := s.voices.map f }

/-- A write to one voice. -/
def State.setVoice (i : Fin 32) (v : Voice) (s : State) : State := { s with voices := s.voices.set i v }

/-! ### Taking a fault -/

/-- The three boundary faults (R450 to R452). -/
inductive FaultCause where
  | illegalCommand
  | operandRange
  | notConfigured
deriving DecidableEq, Repr

/-- The cause code (R454). -/
def FaultCause.code : FaultCause → BitVec 8
  | .illegalCommand => 1#8
  | .operandRange => 2#8
  | .notConfigured => 3#8

/-- `raise <Fault>(w)`: record the first fault since reset and change nothing else (R453). There is no return
from a fault (R459): the block is ready for the next command. -/
def raise (cause : FaultCause) (w : CmdWord) (s : State) : State :=
  if s.fault.valid then s else { s with fault := ⟨true, cause.code, w⟩ }

/-! ### The frame of a command -/

/-- The outcome type of a step. -/
abbrev Result := Host.Outcome State Fault Refusal

/-- A command's effect under its checks, in the decoder's order: operand ranges, then `CONFIGURED` where the
command requires it (R109, R340, R455). -/
def checked (i : Instr) (inRange needsCfg : Bool) (op : State → State) (s : State) : State :=
  if inRange then
    (if needsCfg && !s.configured then raise .notConfigured (encode i) s else op s)
  else raise .operandRange (encode i) s

/-- A command that does not require `CONFIGURED`. -/
def command (i : Instr) (inRange : Bool) (op : State → State) (s : State) : Result :=
  .next (checked i inRange false op s)

/-- A command that requires `CONFIGURED` (R353). -/
def configuredCommand (i : Instr) (inRange : Bool) (op : State → State) (s : State) : Result :=
  .next (checked i inRange true op s)

/-- A parameter setter: its operation, then its identifier becomes written (R376). -/
def setter (i : Instr) (id : RegId) (inRange : Bool) (op : State → State) (s : State) : Result :=
  command i inRange (fun s => (op s).markWritten id) s

/-- A setter of a global register, from a normalized value. -/
def globalSetter (i : Instr) (id : RegId) (v : F32) (f : Global → Global) (s : State) : Result :=
  setter i id (unitRange v) (State.mapGlobal f) s

/-- A setter that broadcasts to all 32 voices (R375), from a normalized value. -/
def voiceSetter (i : Instr) (id : RegId) (v : F32) (f : Voice → Voice) (s : State) : Result :=
  setter i id (unitRange v) (State.mapVoices f) s

end Sys2Proof.Machine
end

