-- ==== Sys2Proof/Machine/Flags.lean ====
section
/-! DEFINITION. The boolean state of the block (`10_state.md` R50): it has no condition codes; its flags are
the voice flags `gate`, `sustHold` and `active`, the table select `d2` of the oscillator primitives, and the
counts computed from them (`46_scheduler.md` R302). -/

namespace Sys2Proof.Machine

/-- Every `d2` flag of a voice set to `b` (R306). -/
def OscBlock.setD2 (b : Bool) (o : OscBlock) : OscBlock :=
  { o with saw1 := o.saw1.setD2 b, pul1 := o.pul1.setD2 b, tri1 := o.tri1.setD2 b,
           saw2 := o.saw2.setD2 b, pul2 := o.pul2.setD2 b, tri2 := o.tri2.setD2 b }

/-- The voice indices below a count, ascending (R303). -/
def voicesBelow (n : Nat) : List (Fin 32) := (List.finRange 32).filter fun i => decide (i.val < n)

/-- Voice `i` is sounding. -/
def State.isActive (s : State) (i : Fin 32) : Bool := (s.voices.get i).active

/-- `countActiveVoices()` (R302). -/
def State.countActiveVoices (s : State) : Nat := (voicesBelow s.g.totalvc.val).countP s.isActive

end Sys2Proof.Machine
end

