-- ==== Sys2Proof/Machine/Envelope.lean ====
section
/-! DEFINITION. The exponential envelope generator (`42_envelope.md` R190 to R211). -/

namespace Sys2Proof.Machine

/-- What the coefficient formulas read beside the envelope: the internal rate and the voice's slop factor
`Law.envSlop(slop, mod)` (R191, R192). -/
structure EnvCtx where
  fsI : F32
  slop : F32

/-- `eff(t)` (R191). -/
def EnvCtx.eff (c : EnvCtx) (t : F32) : F32 := fmul t c.slop

/-- `expCoef(target, current, tMs)`, in the order written (R192). -/
def expCoef (fsI target current tMs : F32) : F32 :=
  fdiv (fsub (Config.numLn target) (Config.numLn current)) (fmul (fmul fsI tMs) envMs)

/-- `atkCoef(e)` (R193). -/
def Env.atkCoef (c : EnvCtx) (e : Env) : F32 :=
  expCoef c.fsI envAtkFloor envAtkTarget (fmul (c.eff e.attack) envAtkTimeAdj)

/-- `decCoef(e)` (R194). -/
def Env.decCoef (c : EnvCtx) (e : Env) : F32 :=
  expCoef c.fsI (fmax e.sustain envSilentThresh) (fmax e.value envSilentThresh) (c.eff e.decay)

/-- `relCoef(e)` (R195). -/
def Env.relCoef (c : EnvCtx) (e : Env) : F32 :=
  if flt envSilentThresh e.value then expCoef c.fsI envSilentThresh e.value (c.eff e.release) else f0

/-- The Decay arm (R199). -/
def Env.decayArm (e : Env) : Env :=
  if flt (fsub e.value e.sustain) envDecayEps then { e with state := .sustain }
  else { e with value := fadd e.value (fmul e.value e.coef) }

/-- The Attack arm, falling through to Decay (R198). -/
def Env.attackArm (c : EnvCtx) (e : Env) : Env :=
  if flt (fsub f1 Config.envAtkValueEnd) e.value then
    let e := { e with value := fmin e.value envAtkClamp, state := .decay }
    Env.decayArm { e with coef := e.decCoef c }
  else { e with value := fsub e.value (fmul (fsub f1 e.value) e.coef) }

/-- The Sustain arm (R200). -/
def Env.sustainArm (e : Env) : Env := { e with value := fmin e.sustain envSusCap }

/-- The Release arm (R201). -/
def Env.releaseArm (e : Env) : Env :=
  if fle e.value envSilentThresh then { e with state := .silent, value := f0 }
  else { e with value := fadd (fadd e.value (fmul e.value e.coef)) dcEps }

/-- The Silent arm (R202). -/
def Env.silentArm (e : Env) : Env := { e with value := f0 }

/-- `Env.processSample(e)`; the sample returned is the new `value` (R197). -/
def Env.processSample (c : EnvCtx) (e : Env) : Env :=
  match e.state with
  | .attack => e.attackArm c
  | .decay => e.decayArm
  | .sustain => e.sustainArm
  | .release => e.releaseArm
  | .silent => e.silentArm

/-- `Env.triggerAttack(e)` (R203). -/
def Env.triggerAttack (c : EnvCtx) (e : Env) : Env := { e with coef := e.atkCoef c, state := .attack }

/-- `Env.triggerRelease(e)` (R204). -/
def Env.triggerRelease (c : EnvCtx) (e : Env) : Env :=
  if e.state = .release ∨ e.state = .silent then e else { e with coef := e.relCoef c, state := .release }

/-- `Env.reset(e)` (R205). -/
def Env.toSilent (e : Env) : Env := { e with state := .silent, value := f0, coef := f0 }

/-- `Env.isActive(e)` (R206). -/
def Env.isActive (e : Env) : Bool := decide (e.state ≠ .silent)

/-- `Env.setAttack(e, ms)` (R207). -/
def Env.setAttack (c : EnvCtx) (ms : F32) (e : Env) : Env :=
  let e := { e with attack := ms }
  if e.state = .attack then { e with coef := e.atkCoef c } else e

/-- `Env.setDecay(e, ms)` (R208). -/
def Env.setDecay (c : EnvCtx) (ms : F32) (e : Env) : Env :=
  let e := { e with decay := ms }
  if e.state = .decay then { e with coef := e.decCoef c } else e

/-- `Env.setSustain(e, level)` (R209). -/
def Env.setSustain (c : EnvCtx) (level : F32) (e : Env) : Env :=
  let e := { e with sustain := level }
  if e.state = .decay then { e with coef := e.decCoef c } else e

/-- `Env.setRelease(e, ms)` (R210). -/
def Env.setRelease (c : EnvCtx) (ms : F32) (e : Env) : Env :=
  let e := { e with release := ms }
  if e.state = .release then { e with coef := e.relCoef c } else e

/-- `Env.refresh(e)` (R211). -/
def Env.refresh (c : EnvCtx) (e : Env) : Env :=
  match e.state with
  | .attack => { e with coef := e.atkCoef c }
  | .decay => { e with coef := e.decCoef c }
  | .release => { e with coef := e.relCoef c }
  | .sustain | .silent => e

end Sys2Proof.Machine
end

