-- ==== Sys2Proof/Machine/Filter.lean ====
section
/-! DEFINITION. The resonant multimode filter (`44_filter.md` R243 to R252). -/

namespace Sys2Proof.Machine

/-- `g = Num.tan((π × cutoffHz) / fsI)` (R244). -/
def warp (cutoffHz fsI : F32) : F32 := Config.numTan (fdiv (fmul fPi cutoffHz) fsI)

/-- `Flt.setRate(f)` (R246). -/
def Flt.setRate (fsI : F32) (f : Flt) : Flt :=
  { f with rcor12 := (lawRcor fsI).1, rcor24 := (lawRcor fsI).2 }

/-- `Flt.setResonance`: the scaled parameter and the two coefficients (R245). -/
def Flt.setResonance (r : F32) (f : Flt) : Flt :=
  { f with res := r, r12 := Config.lawRes12 r, r24 := Config.lawRes24 r }

/-- `apply2Pole`: the output and the filter (R248). -/
def Flt.apply2Pole (x g : F32) (f : Flt) : F32 × Flt :=
  let (s1, s2, out) := Config.lawApply2Pole
    { s1 := f.s1, s2 := f.s2, x := x, g := g, r12 := f.r12, rcor12 := f.rcor12, multimode := f.multimode,
      bandpassBlend := f.bandpassBlend, selfOscPush := f.selfOscPush }
  (out, { f with s1 := s1, s2 := s2 })

/-- `tap[r]`: 4 poles, 3 poles, 2 poles, 1 pole (R251). -/
def poleTap (y1 y2 y3 y4 : F32) : Nat → F32
  | 0 => y4
  | 1 => y3
  | 2 => y2
  | _ => y1

/-- `mm4(m, y1, y2, y3, y4)` (R251). -/
def mm4 (m y1 y2 y3 y4 : F32) : F32 :=
  let m3 := fmul m f3
  let r := (min (max (ffloor m3) 0) 2).toNat
  let t := fmin (fmax (fsub m3 (ofNat32 r)) f0) f1
  fadd (fmul (fsub f1 t) (poleTap y1 y2 y3 y4 r)) (fmul t (poleTap y1 y2 y3 y4 (r + 1)))

/-- `apply4Pole`: the output and the filter (R250). -/
def Flt.apply4Pole (x g : F32) (f : Flt) : F32 × Flt :=
  let y0 := Config.lawResolveFeedback4Pole
    { x := x, s1 := f.s1, s2 := f.s2, s3 := f.s3, s4 := f.s4, g := g, r24 := f.r24, selfOscPush := f.selfOscPush }
  let (y1, s1) := tptStage f.s1 y0 g
  let s1 := fdiv (Config.numAtan (fmul s1 f.rcor24)) f.rcor24
  let (y2, s2) := tptStage f.s2 y1 g
  let (y3, s3) := tptStage f.s3 y2 g
  let (y4, s4) := tptStage f.s4 y3 g
  (mm4 f.multimode y1 y2 y3 y4, { f with s1 := s1, s2 := s2, s3 := s3, s4 := s4 })

/-- `Flt.apply(f, x, cutoffHz)` (R247). -/
def Flt.apply (fsI x cutoffHz : F32) (f : Flt) : F32 × Flt :=
  let g := warp cutoffHz fsI
  if f.fourPole then f.apply4Pole x g else f.apply2Pole x g

end Sys2Proof.Machine
end

