-- ==== Sys2Proof/Machine/LfoUnit.lean ====
section
/-! DEFINITION. The LFO modulator (`43_lfo.md` R220 to R228). -/

namespace Sys2Proof.Machine

/-- `inc(l)` in Hz: the rate, or in tempo-sync mode the tempo times a table ratio (R221). -/
def Lfo.inc (bpm : F32) (l : Lfo) : F32 :=
  if l.sync then fmul (fdiv bpm (lit 60 1)) (syncRatio (lawSyncIndex l.rawRate)) else l.freq

/-- The phase before the wrap test (R222). -/
def Lfo.advanced (fsI bpm : F32) (l : Lfo) : F32 :=
  fadd l.phase (fdiv (fmul (l.inc bpm) fTwoPi) fsI)

/-- Whether this update wraps, and so draws (R222). -/
def Lfo.wraps (fsI bpm : F32) (l : Lfo) : Bool := flt fPi (l.advanced fsI bpm)

/-- The phase part of `Lfo.update`; `d` is the next draw (R222). -/
def Lfo.phaseStep (fsI bpm : F32) (d : Nat) (l : Lfo) : Lfo :=
  if l.wraps fsI bpm then
    { l with phase := fsub (l.advanced fsI bpm) fTwoPi, shPrev := l.sh, sh := draw d }
  else { l with phase := l.advanced fsI bpm }

/-! ### The six waveforms (R223) -/

def lfoSine (p : F32) : F32 := Config.numSin p

def lfoTri (p : F32) : F32 :=
  if fle (fabs p) fHalfPi then fmul fTwoOverPi p
  else if flt fHalfPi p then fmul fTwoOverPi (fsub fPi p)
  else fmul fTwoOverPi (fsub (fneg fPi) p)

def lfoSaw (p : F32) : F32 := fdiv p fPi

def lfoSquare (p : F32) : F32 := if fle f0 p then f1 else fNegOne

/-- Sample and glide. -/
def lfoGlide (shPrev sh p : F32) : F32 :=
  fadd shPrev (fmul (fsub sh shPrev) (fdiv (fadd p fPi) fTwoPi))

/-- `pair(k, a, b)` (R224). -/
def lfoPair (k a b : F32) : F32 := if flt k f0 then fmul (fneg k) a else fmul k b

/-- The blended, unsmoothed output (R224). -/
def Lfo.raw (l : Lfo) : F32 :=
  fadd (fadd (lfoPair l.wave1 (lfoSine l.phase) (lfoTri l.phase))
             (lfoPair l.wave2 (lfoSaw l.phase) (lfoSquare l.phase)))
       (lfoPair l.wave3 l.sh (lfoGlide l.shPrev l.sh l.phase))

/-- What an update delivers: the output, the unit, the next draw. -/
structure LfoOut where
  y : F32
  lfo : Lfo
  draws : Nat

/-- `Lfo.update(l)` at internal rate `fsI` and tempo `bpm` (R222 to R225). -/
def Lfo.update (fsI bpm : F32) (d : Nat) (l : Lfo) : LfoOut :=
  let l1 := l.phaseStep fsI bpm d
  let (y, smooth) := tptLp l1.smooth (fadd l1.raw dcEps) lfoSmoothHz fsI
  { y := y, lfo := { l1 with smooth := smooth }, draws := if l.wraps fsI bpm then d + 1 else d }

/-- `Lfo.resetPhase(l)` (R226). -/
def Lfo.resetPhase (l : Lfo) : Lfo := { l with phase := f0 }

end Sys2Proof.Machine
end

