-- ==== Sys2Proof/Machine/OscPrims.lean ====
section
/-! DEFINITION. The band-limited oscillator primitives: naive waveforms, leader and follower steps
(`40_delayline_blep_osc.md` R142 to R153). -/

namespace Sys2Proof.Machine

/-! ### Naive waveforms -/

/-- `saw(x) = x − 0.5` (R142). -/
def sawWave (x : F32) : F32 := fsub x fHalf

/-- `pulse(x, w)` (R143). -/
def pulseWave (x w : F32) : F32 := if flt x w then fHalf else fNegHalf

/-- `tri(x)` (R144). -/
def triWave (x : F32) : F32 :=
  if flt x fHalf then fsub (fmul f2 x) fHalf else fsub fOneAndHalf (fmul f2 x)

/-- `+4 × delta` (R144, R147). -/
def cornerUp (delta : F32) : F32 := fmul f4 delta

/-- `−4 × delta` (R144, R147). -/
def cornerDown (delta : F32) : F32 := fmul (fneg f4) delta

/-! ### Leaders -/

/-- `Saw.processLeader(P, x0, x, delta)`; `x0` is not read (R145). -/
def sawLeader {n : Nat} (P : OscPrim n) (x delta : F32) : OscPrim n :=
  if fle f1 x then P.mixInImpulseCenter (fdiv (fsub x f1) delta) fNegOne else P

/-- `Pulse.processLeader(P, x0, x, delta, w)` (R146). -/
def pulseLeader {n : Nat} (P : OscPrim n) (x0 x delta w : F32) : OscPrim n :=
  let P := if flt x0 w && fle w x then P.mixInImpulseCenter (fdiv (fsub x w) delta) fNegOne else P
  if fle f1 x then
    let P := P.mixInImpulseCenter (fdiv (fsub x f1) delta) f1
    if fle w (fsub x f1) then P.mixInImpulseCenter (fdiv (fsub (fsub x f1) w) delta) fNegOne else P
  else P

/-- `Tri.processLeader(P, x0, x, delta)` (R147). -/
def triLeader {n : Nat} (P : OscPrim n) (x0 x delta : F32) : OscPrim n :=
  let P := if flt x0 fHalf && fle fHalf x then
      P.mixInBlampCenter (fdiv (fsub x fHalf) delta) (cornerDown delta) else P
  if fle f1 x then
    let P := P.mixInBlampCenter (fdiv (fsub x f1) delta) (cornerUp delta)
    if fle fHalf (fsub x f1) then
      P.mixInBlampCenter (fdiv (fsub x fOneAndHalf) delta) (cornerDown delta) else P
  else P

/-! ### Followers -/

/-- `keep(frac, reset, hsFrac)` (R148). -/
def keepEvent (frac : F32) (reset : Bool) (hsFrac : F32) : Bool := !reset || flt hsFrac frac

/-- Whether the natural wrap happens and is kept (R149, R177). -/
def wrapKept (x delta : F32) (reset : Bool) (hsFrac : F32) : Bool :=
  fle f1 x && keepEvent (fdiv (fsub x f1) delta) reset hsFrac

/-- The follower's phase at the reset instant (R149). -/
def resetPhaseAt (x delta : F32) (wrapped : Bool) (hsFrac : F32) : F32 :=
  fsub (if wrapped then fsub x f1 else x) (fmul delta hsFrac)

/-- `Saw.processFollower(P, x0, x, delta, reset, hsFrac)`; `x0` is not read (R150). -/
def sawFollower {n : Nat} (P : OscPrim n) (x delta : F32) (reset : Bool) (hsFrac : F32) : OscPrim n :=
  let wrapped := wrapKept x delta reset hsFrac
  let P := if wrapped then P.mixInImpulseCenter (fdiv (fsub x f1) delta) fNegOne else P
  if reset then P.mixInImpulseCenter hsFrac (fneg (resetPhaseAt x delta wrapped hsFrac)) else P

/-- `Pulse.processFollower(P, x0, x, delta, w, reset, hsFrac)` (R152). -/
def pulseFollower {n : Nat} (P : OscPrim n) (x0 x delta w : F32) (reset : Bool) (hsFrac : F32) : OscPrim n :=
  let f := fdiv (fsub x w) delta
  let P := if flt x0 w && fle w x && keepEvent f reset hsFrac then P.mixInImpulseCenter f fNegOne else P
  let wrapped := wrapKept x delta reset hsFrac
  let P := if wrapped then
      let P := P.mixInImpulseCenter (fdiv (fsub x f1) delta) f1
      let g := fdiv (fsub (fsub x f1) w) delta
      if fle w (fsub x f1) && keepEvent g reset hsFrac then P.mixInImpulseCenter g fNegOne else P
    else P
  if reset && !flt (resetPhaseAt x delta wrapped hsFrac) w then P.mixInImpulseCenter hsFrac f1 else P

/-- `Tri.processFollower(P, x0, x, delta, reset, hsFrac)` (R153). -/
def triFollower {n : Nat} (P : OscPrim n) (x0 x delta : F32) (reset : Bool) (hsFrac : F32) : OscPrim n :=
  let f := fdiv (fsub x fHalf) delta
  let P := if flt x0 fHalf && fle fHalf x && keepEvent f reset hsFrac then
      P.mixInBlampCenter f (cornerDown delta) else P
  let wrapped := wrapKept x delta reset hsFrac
  let P := if wrapped then
      let P := P.mixInBlampCenter (fdiv (fsub x f1) delta) (cornerUp delta)
      let g := fdiv (fsub x fOneAndHalf) delta
      if fle fHalf (fsub x f1) && keepEvent g reset hsFrac then P.mixInBlampCenter g (cornerDown delta) else P
    else P
  if reset then
    let p := resetPhaseAt x delta wrapped hsFrac
    let P := P.mixInImpulseCenter hsFrac (fsub fNegHalf (triWave p))
    if !flt p fHalf then P.mixInBlampCenter hsFrac (cornerUp delta) else P
  else P

/-- `getValue(P, naive) + aliasReduction(P)`, in that order (R151, R176). -/
def OscPrim.output {n : Nat} (P : OscPrim n) (naive : F32) : F32 × OscPrim n :=
  let (val, P) := P.getValue naive
  let (corr, P) := P.aliasReduction
  (fadd val corr, P)

end Sys2Proof.Machine
end

