-- ==== Sys2Proof/Machine/OscBlocks.lean ====
section
/-! DEFINITION. The oscillator block, one composite sample per half-sample (`41_oscillator_block.md` R170 to
R184). -/

namespace Sys2Proof.Machine

/-- `pitchHz(s) = 440 × Num.exp((ln2/12) × s)` (R171). -/
def pitchHz (s : F32) : F32 := fmul pitchRefHz (numExp (fmul fLn2Over12 s))

/-- The pulse width from base and modulation, clamped to `[PW_MIN, PW_MAX]` (R174). -/
def pulseWidth (base mod : F32) : F32 := fmin (fmax (fadd base mod) pwMin) pwMax

/-- The precondition of every process operation: `0 < delta < 1` and `0 ≤ x0 < 1` (R136). -/
def phaseOk (delta x0 : F32) : Bool := flt f0 delta && flt delta f1 && fle f0 x0 && flt x0 f1

/-- Waveform selection: pulse and saw sum, neither gives the triangle (R176). -/
def selectWave (sawOn pulOn : Bool) (valSaw valPul valTri : F32) : F32 :=
  if !sawOn && !pulOn then valTri
  else
    let o := if pulOn then fadd f0 valPul else f0
    if sawOn then fadd o valSaw else o

/-- The sum `noteSemi + pitch + pto + tune + transpose + tuneSlop × detuneAmt`, left to right (R175, R177). -/
def OscBlock.semitones (o : OscBlock) (noteSemi pitch pto tuneSlop : F32) : F32 :=
  fadd (fadd (fadd (fadd (fadd noteSemi pitch) pto) o.tune) o.transpose) (fmul tuneSlop o.detuneAmt)

/-- `d1`, the phase increment of oscillator 1 (R175). -/
def OscBlock.delta1 (o : OscBlock) (fsI noteSemi pto1 : F32) : F32 :=
  fdiv (pitchHz (o.semitones noteSemi o.pitch1 pto1 o.tuneSlop1)) fsI

/-- `d2`, the phase increment of oscillator 2, cross-modulated by `o1` (R177, R178). -/
def OscBlock.delta2 (o : OscBlock) (fsI noteSemi pto2 o1 : F32) : F32 :=
  fdiv (pitchHz (fadd (o.semitones noteSemi o.pitch2 pto2 o.tuneSlop2) (fmul o1 o.xmod))) fsI

/-- What the leader half of the block hands on. -/
structure LeaderOut where
  osc : OscBlock
  o1 : F32
  hsr : Bool
  hsf : F32

/-- Oscillator 1: events, phase, wrap, output (R175, R176). -/
def OscBlock.leader (o : OscBlock) (d1 w1 : F32) : LeaderOut :=
  let x := fadd o.x1 d1
  let saw := sawLeader o.saw1 x d1
  let pul := pulseLeader o.pul1 o.x1 x d1 w1
  let tri := triLeader o.tri1 o.x1 x d1
  let wrap := fle f1 x
  let x1 := if wrap then fsub x f1 else x
  let (valSaw, saw) := saw.output (sawWave x1)
  let (valPul, pul) := pul.output (pulseWave x1 w1)
  let (valTri, tri) := tri.output (triWave x1)
  { osc := { o with x1 := x1, saw1 := saw, pul1 := pul, tri1 := tri }
    o1 := selectWave o.saw1On o.pul1On valSaw valPul valTri
    hsr := wrap && o.hardSync
    hsf := if wrap then fdiv (fsub x f1) d1 else f0 }

/-- The sync signals `SAMPLES` half-samples late, and the block after feeding their lines (R177). -/
def OscBlock.syncDelay (o : OscBlock) (hsr : Bool) (hsf : F32) : Bool × F32 × OscBlock :=
  let (hsrD, dlSync) := o.dlSync.feedReturn hsr
  let (hsfD, dlSyncFrac) := o.dlSyncFrac.feedReturn hsf
  (hsrD, hsfD, { o with dlSync := dlSync, dlSyncFrac := dlSyncFrac })

/-- Oscillator 2's new phase (R177). -/
def followerPhase (y d2 : F32) (hsrD : Bool) (hsfD : F32) : F32 :=
  if hsrD then fmul d2 hsfD
  else if wrapKept y d2 hsrD hsfD then fsub y f1 else y

/-- Oscillator 2: events, phase, reset, output (R177, R179). -/
def OscBlock.follower (o : OscBlock) (d2 w2 : F32) (hsrD : Bool) (hsfD : F32) : F32 × OscBlock :=
  let y := fadd o.x2 d2
  let saw := sawFollower o.saw2 y d2 hsrD hsfD
  let pul := pulseFollower o.pul2 o.x2 y d2 w2 hsrD hsfD
  let tri := triFollower o.tri2 o.x2 y d2 hsrD hsfD
  let x2 := followerPhase y d2 hsrD hsfD
  let (valSaw, saw) := saw.output (sawWave x2)
  let (valPul, pul) := pul.output (pulseWave x2 w2)
  let (valTri, tri) := tri.output (triWave x2)
  (selectWave o.saw2On o.pul2On valSaw valPul valTri,
   { o with x2 := x2, saw2 := saw, pul2 := pul, tri2 := tri })

/-- Alignment of oscillator 1, noise and mix, left to right (R180 to R182); `d` is the next draw. -/
def OscBlock.mix (o : OscBlock) (o1 o2 : F32) (d : Nat) : F32 × OscBlock :=
  let (o1d, dlOsc1) := o.dlOsc1.feedReturn o1
  let (noise, nz) := Config.lawNoise o.noise o.noiseColor (draw d)
  let sum := fadd (fadd (fadd (fmul o1d o.mix1) (fmul o2 o.mix2)) (fmul (fmul o1d o2) o.mixRing))
    (fmul nz o.mixNoise)
  (fmul sum oscMakeup, { o with dlOsc1 := dlOsc1, noise := noise })

/-- `OscBlock.process`, in the order of R183. One draw, number `d`. An increment outside `(0,1)` has no
successor (R184, U1; log 8). -/
def OscBlock.process (o : OscBlock) (fsI noteSemi pto1 pto2 pw1mod pw2mod : F32) (d : Nat) :
    Except Fault (F32 × OscBlock) :=
  let w1 := pulseWidth o.pwBase1 pw1mod
  let w2 := pulseWidth o.pwBase2 pw2mod
  let d1 := o.delta1 fsI noteSemi pto1
  if phaseOk d1 o.x1 then
    let L := o.leader d1 w1
    let (hsrD, hsfD, o) := L.osc.syncDelay L.hsr L.hsf
    let d2 := o.delta2 fsI noteSemi pto2 L.o1
    if phaseOk d2 o.x2 then
      let (o2, o) := o.follower d2 w2 hsrD hsfD
      .ok (o.mix L.o1 o2 d)
    else .error .phaseIncrementOutOfRange
  else .error .phaseIncrementOutOfRange

end Sys2Proof.Machine
end

