-- ==== Sys2Proof/Machine/VoiceUnit.lean ====
section
/-! DEFINITION. The voice: note operations and the per-sample chain (`45_voice.md` R270 to R289). -/

namespace Sys2Proof.Machine

/-! ### Envelopes of a voice -/

/-- The context of the amplitude envelope, slop index 1 (R31, R191). -/
def Voice.ampCtx (fsI : F32) (v : Voice) : EnvCtx := ⟨fsI, lawEnvSlop (v.slop.get 1) v.mod.toList⟩

/-- The context of the filter envelope, slop index 2 (R31, R191). -/
def Voice.fltCtx (fsI : F32) (v : Voice) : EnvCtx := ⟨fsI, lawEnvSlop (v.slop.get 2) v.mod.toList⟩

/-- `Env.refresh` of both envelopes (R211). -/
def Voice.refreshEnvs (fsI : F32) (v : Voice) : Voice :=
  { v with ampEnv := v.ampEnv.refresh (v.ampCtx fsI), fltEnv := v.fltEnv.refresh (v.fltCtx fsI) }

/-- `Flt.setRate` and `Env.refresh` of both envelopes (R306, R341). -/
def Voice.setRate (fsI : F32) (v : Voice) : Voice :=
  Voice.refreshEnvs fsI { v with flt := v.flt.setRate fsI }

/-- `triggerAttack` of both envelopes. -/
def Voice.attackBoth (fsI : F32) (v : Voice) : Voice :=
  { v with ampEnv := v.ampEnv.triggerAttack (v.ampCtx fsI), fltEnv := v.fltEnv.triggerAttack (v.fltCtx fsI) }

/-- `triggerRelease` of both envelopes. -/
def Voice.releaseBoth (fsI : F32) (v : Voice) : Voice :=
  { v with ampEnv := v.ampEnv.triggerRelease (v.ampCtx fsI), fltEnv := v.fltEnv.triggerRelease (v.fltCtx fsI) }

/-- `Env.reset` of both envelopes. -/
def Voice.silenceEnvs (v : Voice) : Voice :=
  { v with ampEnv := v.ampEnv.toSilent, fltEnv := v.fltEnv.toSilent }

/-! ### Note operations -/

/-- The first step of `Voice.NoteOn`: a voice that is not sounding flushes its three envelope delay lines and
resets both envelopes (R271). -/
def Voice.prepare (v : Voice) : Voice :=
  if v.active then v
  else Voice.silenceEnvs
    { v with dlAenv := v.dlAenv.flush f0, dlFenv := v.dlFenv.flush f0, dlAenv1 := v.dlAenv1.flush f0 }

/-- The envelope triggers of `Voice.NoteOn`: both when the voice was not gated, else as the legato mask says
(R271). -/
def Voice.noteOnTriggers (fsI : F32) (v : Voice) : Voice :=
  if !v.gate then v.attackBoth fsI
  else
    { v with
      ampEnv := if v.legato.getLsbD 0 then v.ampEnv.triggerAttack (v.ampCtx fsI) else v.ampEnv
      fltEnv := if v.legato.getLsbD 1 then v.fltEnv.triggerAttack (v.fltCtx fsI) else v.fltEnv }

/-- `Voice.NoteOn(i, n, vel)` (R271). -/
def Voice.noteOn (fsI : F32) (n : Fin 128) (vel : F32) (v : Voice) : Voice :=
  let v := v.prepare
  let v := { v with velocity := if feq vel velKeep then v.velocity else vel, note := n }
  let v := v.noteOnTriggers fsI
  { v with gate := true, active := true, lfo2 := v.lfo2.resetPhase }

/-- `Voice.NoteOff(i)` (R272). -/
def Voice.noteOff (fsI : F32) (v : Voice) : Voice :=
  let v := { v with gate := false }
  if v.sustHold then v else v.releaseBoth fsI

/-- `Voice.sustOn(i)` (R273). -/
def Voice.sustOn (v : Voice) : Voice := { v with sustHold := true }

/-- `Voice.sustOff(i)` (R274). -/
def Voice.sustOff (fsI : F32) (v : Voice) : Voice :=
  let v := { v with sustHold := false }
  if v.gate then v else v.releaseBoth fsI

/-- The panic step: envelopes reset and `active` cleared (R305, R315). -/
def Voice.kill (v : Voice) : Voice := { v.silenceEnvs with active := false }

/-! ### The sample step -/

/-- What a half-sample gives every voice: internal rate, oversampling flag, tempo, tuning table, the global
LFO's output and the scaled vibrato (R279, R316). -/
structure VoiceCtx where
  fsI : F32
  oversample : Bool
  bpm : F32
  tuning : Vec F64 128
  lfo1 : F32
  vib : F32

/-- `target = round_f32(Tuning(note)) − NOTE_REF` (R276). -/
def Voice.noteTarget (c : VoiceCtx) (v : Voice) : F32 := fsub (round64 (c.tuning.get v.note)) Config.noteRef

/-- `bendSemi` (R278). -/
def Voice.bendSemi (v : Voice) : F32 :=
  if fle f0 v.pitchBend then fmul v.pitchBend v.bendUp else fmul v.pitchBend v.bendDown

/-- The two ceilings on the filter cutoff (R284). -/
def cutoffCeiling (c : VoiceCtx) (selfOscPush : Bool) (hz : F32) : F32 :=
  let hz := fmin hz (fsub (fdiv c.fsI f2) cutoffGuardHz)
  if selfOscPush then fmin hz (if c.oversample then selfOscCapHqHz else selfOscCapHz) else hz

/-- What a voice's sample step delivers: the mono sample, the voice, the next draw. -/
structure VoiceOut where
  out : F32
  voice : Voice
  draws : Nat

/-- What a sample step computes before the oscillators: the glided note (R276, R277), the voice's LFO and filter
envelope (R280) and the modulation destinations (R281). -/
structure VoiceControls where
  noteSemi : F32
  porta : F32
  lfo : LfoOut
  fltEnv : Env
  ef : F32
  routing : Config.Routing

/-- The first steps of the listing of R289; `d` is the next draw. -/
def Voice.controls (c : VoiceCtx) (d : Nat) (v : Voice) : VoiceControls :=
  let glide := tptLp v.portaState (v.noteTarget c) (Config.lawPortaRate v.porta (v.slop.get 0)) c.fsI
  let L := v.lfo2.update c.fsI c.bpm d
  let fltEnv := v.fltEnv.processSample (v.fltCtx c.fsI)
  let ef := if v.fenvInvert then fneg fltEnv.value else fltEnv.value
  { noteSemi := glide.1, porta := glide.2, lfo := L, fltEnv := fltEnv, ef := ef,
    routing := Config.lawRouting v.mod.toList c.lfo1 L.y c.vib ef }

/-- The filter cutoff in Hz from the delayed envelope and modulation, below its ceilings; one draw (R284). -/
def Voice.cutoffHz (c : VoiceCtx) (K : VoiceControls) (efD cutModD : F32) (v : Voice) : F32 :=
  cutoffCeiling c v.flt.selfOscPush (Config.lawCutoff
    { cutoff := v.cutoff, noteSemi := K.noteSemi, keyFollow := v.keyFollow, efD := efD, fenvAmt := v.fenvAmt,
      cutModD := cutModD, dither := draw K.lfo.draws, slop3 := v.slop.get 3, velocity := v.velocity,
      mod := v.mod.toList })

/-- The last steps of the listing of R289, from the oscillator sample on: the delay-alignment reads (R281), level
(R282), brightness (R283), filter (R285), amplitude (R286, R287), and the end of the voice (R288). -/
def Voice.finish (c : VoiceCtx) (K : VoiceControls) (o : F32 × OscBlock) (v : Voice) : VoiceOut :=
  let (efD, dlFenv) := v.dlFenv.feedReturn K.ef
  let (cutModD, dlLfo) := v.dlLfo.feedReturn K.routing.cutMod
  let x := fmul o.1 (Config.lawOscLevel (v.slop.get 4) v.mod.toList)
  let (low, bright) := tptLp v.brightState x Config.brightHz c.fsI
  let (xf, flt) := v.flt.apply c.fsI (fsub x low) (v.cutoffHz c K efD cutModD)
  let ampEnv := v.ampEnv.processSample (v.ampCtx c.fsI)
  let (ea, dlAenv) := v.dlAenv.feedReturn ampEnv.value
  let (eaD, dlAenv1) := v.dlAenv1.feedReturn ea
  { out := fmul (fmul xf (lawLfoVolume K.routing.volMod v.velocity)) eaD
    voice :=
      { v with
        portaState := K.porta, lfo2 := K.lfo.lfo, fltEnv := K.fltEnv, dlFenv := dlFenv, dlLfo := dlLfo, osc := o.2,
        brightState := bright, flt := flt, ampEnv := ampEnv, dlAenv := dlAenv, dlAenv1 := dlAenv1,
        active := v.active && ampEnv.isActive }
    draws := K.lfo.draws + 2 }

/-- `Voice.ProcessSample(i, lfo1, vib)`, the listing of R289; `d` is the next draw. The draws are the LFO's (on
a wrap), the dither's and the noise generator's, in that order. -/
def Voice.processSample (c : VoiceCtx) (d : Nat) (v : Voice) : Except Fault VoiceOut :=
  let K := v.controls c d
  let r := K.routing
  (v.osc.process c.fsI (fadd K.noteSemi v.bendSemi) r.pto1 r.pto2 r.pw1mod r.pw2mod (K.lfo.draws + 1)).map
    fun o => v.finish c K o

end Sys2Proof.Machine
end

