-- ==== Sys2Proof/Machine/Scheduler.lean ====
section
/-! DEFINITION. The voice allocator and scheduler, the tick, panning and the decimator (`46_scheduler.md`
R300 to R318). -/

namespace Sys2Proof.Machine

/-! ### The voice queue -/

/-- The cursor after a `getNext` (R301). -/
def vqNext (count : VoiceCount) (idx : Fin 32) : Fin 32 :=
  ⟨(idx.val + 1) % count.val, Nat.lt_of_lt_of_le (Nat.mod_lt _ count.property.1) count.property.2⟩

/-- `VQ.getNext()`: the current voice, and the state with the cursor advanced (R301). -/
def State.getNext (s : State) : Fin 32 × State :=
  (s.g.vqIdx, { s with g := { s.g with vqIdx := vqNext s.g.totalvc s.g.vqIdx } })

/-! ### Polyphony and oversampling -/

/-- `Sched.setPolyphony(n)` (R305). -/
def State.setPolyphony (n : VoiceCount) (s : State) : State :=
  { s with
    g := { s.g with totalvc := n, vqIdx := 0 }
    voices := s.voices.mapIdx fun i v => if n.val ≤ i then (v.noteOff s.g.fsI).kill else v }

/-- `Sched.SetOversample(b)` (R306). -/
def State.setOversample (b : Bool) (s : State) : State :=
  let g := { s.g with oversample := b, decL := Vec.replicate 17 f0, decR := Vec.replicate 17 f0 }
  { s with
    g := g
    voices := s.voices.map fun v =>
      let v := { v with osc := v.osc.setD2 b }
      if RegId.fs ∈ s.g.written then v.setRate g.fsI else v }

/-! ### Note-on -/

/-- The entry of a note-indexed table. -/
def noteEntry (n : Fin 128) : Fin 129 := ⟨n.val, Nat.lt_succ_of_lt n.isLt⟩

/-- `stealAllowed()`: every priority behaves as `Latest` (R309). -/
def stealAllowed (_ : Priority) : Bool := true

/-- `Voice.NoteOn(j, n, vel)` on voice `j` of the state. -/
def State.voiceNoteOn (j : Fin 32) (n : Fin 128) (vel : F32) (s : State) : State :=
  s.setVoice j ((s.voices.get j).noteOn s.g.fsI n vel)

/-- The age the scheduler compares: that of the voice's note (R311). -/
def State.noteAge (s : State) (i : Fin 32) : BitVec 64 := s.g.voiceAge.get (noteEntry (s.voices.get i).note)

/-- The first element with the smallest key. -/
def argMin {α : Type} (key : α → Nat) : List α → Option α
  | [] => none
  | x :: xs =>
    match argMin key xs with
    | none => some x
    | some y => if key y < key x then some y else some x

/-- `nextVoiceToBeStolen(taken)` (R311). -/
def State.nextVoiceToBeStolen (s : State) (taken : List (Fin 32)) : Option (Fin 32) :=
  argMin (fun i => (s.noteAge i).toNat)
    ((voicesBelow s.g.totalvc.val).filter fun i => s.isActive i && !taken.contains i)

/-- `G.stolen[k] <- f(G.stolen[k])`. -/
def State.mapStolen (k : Fin 128) (f : BitVec 32 → BitVec 32) (s : State) : State :=
  { s with g := { s.g with stolen := s.g.stolen.modify (noteEntry k) f } }

/-- One steal: count the substituted note, retarget the voice (R310, step 3). -/
def State.stealVoice (j : Fin 32) (n : Fin 128) (vel : F32) (s : State) : State :=
  (s.mapStolen (s.voices.get j).note (· + 1#32)).voiceNoteOn j n vel

/-- The steal loop of R310: state, voices taken. -/
def State.stealLoop (n : Fin 128) (vel : F32) : Nat → List (Fin 32) → State → State × List (Fin 32)
  | 0, taken, s => (s, taken)
  | k + 1, taken, s =>
    match s.nextVoiceToBeStolen taken with
    | none => (s, taken)
    | some j => State.stealLoop n vel k (j :: taken) (s.stealVoice j n vel)

/-- The allocation loop of R310 and R312: at most `rounds` queue steps, `needed` voices in all, `taken` placed
so far. -/
def State.allocLoop (n : Fin 128) (vel : F32) (needed : Nat) : Nat → List (Fin 32) → State → State
  | 0, _, s => s
  | k + 1, taken, s =>
    if taken.length = needed then s
    else
      let (j, s) := s.getNext
      if !s.isActive j && !taken.contains j then
        State.allocLoop n vel needed k (j :: taken) (s.voiceNoteOn j n vel)
      else State.allocLoop n vel needed k taken s

/-- How many voices a note-on needs (R310). -/
def Global.voicesNeeded (g : Global) : Nat := min (if g.uni then g.univc.val else 1) g.totalvc.val

/-- The new age of the note, recorded first (R310, step 1). -/
def State.recordAge (n : Fin 128) (s : State) : State :=
  let c := s.g.asPlayedCounter + 1#64
  { s with g := { s.g with asPlayedCounter := c, voiceAge := s.g.voiceAge.set (noteEntry n) c } }

/-- `Sched.setNoteOn(n, vel)` (R310). -/
def State.setNoteOn (n : Fin 128) (vel : F32) (s : State) : State :=
  let s := s.recordAge n
  let needed := s.g.voicesNeeded
  let avail := s.g.totalvc.val - s.countActiveVoices
  let (s, taken) :=
    if avail < needed ∧ stealAllowed s.g.priority = true then s.stealLoop n vel (needed - avail) []
    else (s, [])
  s.allocLoop n vel needed s.g.totalvc.val taken

/-! ### Note-off -/

/-- `pendingKey(n)`: the pending key with the largest age (R314; log 23 for the tie that cannot occur). -/
def State.pendingKey (s : State) (n : Fin 128) : Option (Fin 128) :=
  argMin (fun k => 2 ^ 64 - (s.g.voiceAge.get (noteEntry k)).toNat)
    ((List.finRange 128).filter fun k => decide (k ≠ n) && decide (0 < (s.g.stolen.get (noteEntry k)).toNat))

/-- The choice R313 makes for one voice. -/
def State.noteOffVoice (n : Fin 128) (s : State) (i : Fin 32) : State :=
  let v := s.voices.get i
  if v.gate && decide (v.note = n) then
    match s.pendingKey n with
    | some k => (s.voiceNoteOn i k velKeep).mapStolen k (· - 1#32)
    | none => s.setVoice i (v.noteOff s.g.fsI)
  else s

/-- `Sched.setNoteOff(n)` (R313). -/
def State.setNoteOff (n : Fin 128) (s : State) : State :=
  ((voicesBelow s.g.totalvc.val).foldl (State.noteOffVoice n) s).mapStolen n (fun _ => 0#32)

/-! ### Pedal and panic (R315) -/

def State.sustainOn (s : State) : State := s.mapVoices Voice.sustOn

def State.sustainOff (s : State) : State := s.mapVoices (Voice.sustOff s.g.fsI)

/-- `G.stolen[k] <- 0` for `k = 0..127`; entry 128 is not touched (R38). -/
def clearStolen (t : Vec (BitVec 32) 129) : Vec (BitVec 32) 129 :=
  t.mapIdx fun k c => if k < 128 then 0#32 else c

def State.allNotesOff (s : State) : State :=
  { s with g := { s.g with stolen := clearStolen s.g.stolen }, voices := s.voices.map (Voice.noteOff s.g.fsI) }

def State.allSoundOff (s : State) : State := s.allNotesOff.mapVoices Voice.kill

/-! ### The tick -/

/-- `Dec17(d, x0, x1)`: the new history (R318). -/
def decShift (hist : Vec F32 17) (x0 x1 : F32) : Vec F32 17 :=
  ⟨x1 :: x0 :: hist.toList.take 15, by simp [hist.size]⟩

/-- `Dec17`'s sum over a history, in ascending tap order (R318). -/
def decSum (hist : Vec F32 17) : F32 :=
  (List.finRange 17).foldl (fun y k => fadd y (fmul (Config.decH k) (hist.get k))) f0

/-- The pan slot of voice `i` (R317). -/
def panSlot (i : Fin 32) : Fin 8 := ⟨i.val % 8, Nat.mod_lt _ (by decide)⟩

/-- The running sums of one half-sample. -/
structure Mix where
  voices : Vec Voice 32
  idx : Fin 32
  draws : Nat
  l : F32
  r : F32

/-- A voice's sample added to the sums with its slot's gains (R316, R317). -/
def Mix.accumulate (pan : Vec F32 8) (i : Fin 32) (o : VoiceOut) (m : Mix) : Mix :=
  let p := Config.lawPan (pan.get (panSlot i))
  { m with voices := m.voices.set i o.voice, draws := o.draws,
           l := fadd m.l (fmul o.out p.1), r := fadd m.r (fmul o.out p.2) }

/-- One queue step of a half-sample: the cursor moves, an active voice is stepped and summed, an inactive one
skipped (R288, R316). -/
def Mix.queueStep (c : VoiceCtx) (pan : Vec F32 8) (count : VoiceCount) (m : Mix) : Except Fault Mix :=
  let i := m.idx
  let m := { m with idx := vqNext count m.idx }
  if (m.voices.get i).active then
    match (m.voices.get i).processSample c m.draws with
    | .error e => .error e
    | .ok o => .ok (m.accumulate pan i o)
  else .ok m

/-- `k` queue steps of a half-sample (R316). -/
def runVoices (c : VoiceCtx) (pan : Vec F32 8) (count : VoiceCount) : Nat → Mix → Except Fault Mix
  | 0, m => .ok m
  | k + 1, m => (m.queueStep c pan count).bind (runVoices c pan count k)

/-- What a half-sample delivers. -/
structure HalfOut where
  state : State
  l : F32
  r : F32

/-- One pass of the loop over `h` in R316; `vibAmt` is the tick's vibrato amount. -/
def State.halfSample (vibAmt : F32) (s : State) : Except Fault HalfOut :=
  let fsI := s.g.fsI
  let L := s.g.lfo1.update fsI s.g.bpm s.draws
  let W := s.g.vib.update fsI s.g.bpm L.draws
  let c : VoiceCtx :=
    { fsI := fsI, oversample := s.g.oversample, bpm := s.g.bpm, tuning := s.tuning, lfo1 := L.y,
      vib := fmul W.y vibAmt }
  match runVoices c s.g.pan s.g.totalvc s.g.totalvc.val ⟨s.voices, s.g.vqIdx, W.draws, f0, f0⟩ with
  | .error e => .error e
  | .ok m =>
    .ok
      { state := { s with voices := m.voices, draws := m.draws,
                          g := { s.g with lfo1 := L.lfo, vib := W.lfo, vqIdx := m.idx } }
        l := m.l, r := m.r }

/-- The smoothers step and their values reach every voice (R316, first two lines). -/
def State.smooth (s : State) : State :=
  let c := s.g.smCutoff.step s.g.fs
  let b := s.g.smBend.step s.g.fs
  let m := s.g.smMod.step s.g.fs
  { s with
    g := { s.g with smCutoff := c, smBend := b, smMod := m }
    voices := s.voices.map fun v => { v with cutoff := c.state, pitchBend := b.state } }

/-- `OUTL` and `OUTR` from the two sums (R316, last line). -/
def State.writeOut (l r : F32) (s : State) : State :=
  { s with outL := fmul l s.g.volume, outR := fmul r s.g.volume }

/-- The decimated outputs of an oversampled tick (R316, R318). -/
def State.decimate (l0 r0 l1 r1 : F32) (s : State) : State :=
  let dl := decShift s.g.decL l0 l1
  let dr := decShift s.g.decR r0 r1
  State.writeOut (decSum dl) (decSum dr) { s with g := { s.g with decL := dl, decR := dr } }

/-- `vibAmt = m × m × VIB_TAPER` of the smoothed mod wheel (R316). -/
def Global.vibAmt (g : Global) : F32 := fmul (fmul g.smMod.state g.smMod.state) vibTaper

/-- `Sched.tick()` (R316). -/
def State.tick (s : State) : Except Fault State :=
  let s := s.smooth
  let vibAmt := s.g.vibAmt
  match s.halfSample vibAmt with
  | .error e => .error e
  | .ok h0 =>
    if s.g.oversample then
      match h0.state.halfSample vibAmt with
      | .error e => .error e
      | .ok h1 => .ok (h1.state.decimate h0.l h0.r h1.l h1.r)
    else .ok (h0.state.writeOut h0.l h0.r)

end Sys2Proof.Machine
end

