-- ==== Sys2Proof/Machine/EnvelopeCmds.lean ====
section
/-! DEFINITION. The meanings of the envelope parameter commands (`48_commands_params.md` R425 to R432). -/

namespace Sys2Proof.Machine

/-- A setter of one envelope of every voice; the envelope operation reads the internal rate of the state and the
voice's slop (R425 to R432). -/
def envSetter (i : Instr) (id : RegId) (v : F32) (f : F32 → Voice → Voice) (s : State) : Result :=
  voiceSetter i id v (f s.g.fsI) s

/-- `AMPATTACK v`: amplitude envelope attack time, register P46 (R425). -/
def execAmpattack (v : F32) (s : State) : Result :=
  envSetter (.ampattack v) .ampattack v
    (fun fsI b => { b with ampEnv := b.ampEnv.setAttack (b.ampCtx fsI) (logParam 46 v) }) s

/-- `AMPDECAY v`: amplitude envelope decay time, register P47 (R426). -/
def execAmpdecay (v : F32) (s : State) : Result :=
  envSetter (.ampdecay v) .ampdecay v
    (fun fsI b => { b with ampEnv := b.ampEnv.setDecay (b.ampCtx fsI) (logParam 47 v) }) s

/-- `AMPSUSTAIN v`: amplitude envelope sustain level, register P48 (R427). -/
def execAmpsustain (v : F32) (s : State) : Result :=
  envSetter (.ampsustain v) .ampsustain v
    (fun fsI b => { b with ampEnv := b.ampEnv.setSustain (b.ampCtx fsI) (linParam 48 v) }) s

/-- `AMPRELEASE v`: amplitude envelope release time, register P49 (R428). -/
def execAmprelease (v : F32) (s : State) : Result :=
  envSetter (.amprelease v) .amprelease v
    (fun fsI b => { b with ampEnv := b.ampEnv.setRelease (b.ampCtx fsI) (logParam 49 v) }) s

/-- `FLTATTACK v`: filter envelope attack time, register P50 (R429). -/
def execFltattack (v : F32) (s : State) : Result :=
  envSetter (.fltattack v) .fltattack v
    (fun fsI b => { b with fltEnv := b.fltEnv.setAttack (b.fltCtx fsI) (logParam 50 v) }) s

/-- `FLTDECAY v`: filter envelope decay time, register P51 (R430). -/
def execFltdecay (v : F32) (s : State) : Result :=
  envSetter (.fltdecay v) .fltdecay v
    (fun fsI b => { b with fltEnv := b.fltEnv.setDecay (b.fltCtx fsI) (logParam 51 v) }) s

/-- `FLTSUSTAIN v`: filter envelope sustain level, register P52 (R431). -/
def execFltsustain (v : F32) (s : State) : Result :=
  envSetter (.fltsustain v) .fltsustain v
    (fun fsI b => { b with fltEnv := b.fltEnv.setSustain (b.fltCtx fsI) (linParam 52 v) }) s

/-- `FLTRELEASE v`: filter envelope release time, register P53 (R432). -/
def execFltrelease (v : F32) (s : State) : Result :=
  envSetter (.fltrelease v) .fltrelease v
    (fun fsI b => { b with fltEnv := b.fltEnv.setRelease (b.fltCtx fsI) (logParam 53 v) }) s

end Sys2Proof.Machine
end

