-- ==== Sys2Proof/Machine/FilterCmds.lean ====
section
/-! DEFINITION. The meanings of the filter parameter commands (`48_commands_params.md` R416 to R424). -/

namespace Sys2Proof.Machine

/-- `CUTOFF v`: the smoothed filter cutoff parameter, register P37 (R416). -/
def execCutoff (v : F32) (s : State) : Result :=
  globalSetter (.cutoff v) .cutoff v (fun g => { g with smCutoff := { g.smCutoff with target := linsc v cutoffMin cutoffMax } }) s

/-- `RESONANCE v`: filter resonance and its two coefficients, register P38 (R417). -/
def execResonance (v : F32) (s : State) : Result :=
  voiceSetter (.resonance v) .resonance v (fun b => { b with flt := b.flt.setResonance (linParam 38 v) }) s

/-- `MULTIMODE v`: filter multimode, register P39 (R418). -/
def execMultimode (v : F32) (s : State) : Result :=
  voiceSetter (.multimode v) .multimode v (fun b => { b with flt := { b.flt with multimode := linParam 39 v } }) s

/-- `BANDPASSBLEND v`: bandpass-blend switch, register P40 (R419). -/
def execBandpassblend (v : F32) (s : State) : Result :=
  voiceSetter (.bandpassblend v) .bandpassblend v (fun b => { b with flt := { b.flt with bandpassBlend := boolParam v } }) s

/-- `FOURPOLE v`: 4-pole mode switch, register P41 (R420). -/
def execFourpole (v : F32) (s : State) : Result :=
  voiceSetter (.fourpole v) .fourpole v (fun b => { b with flt := { b.flt with fourPole := boolParam v } }) s

/-- `SELFOSCPUSH v`: self-oscillation push, register P42 (R421). -/
def execSelfoscpush (v : F32) (s : State) : Result :=
  voiceSetter (.selfoscpush v) .selfoscpush v (fun b => { b with flt := { b.flt with selfOscPush := boolParam v } }) s

/-- `FENVAMT v`: filter envelope amount, register P43 (R422). -/
def execFenvamt (v : F32) (s : State) : Result :=
  voiceSetter (.fenvamt v) .fenvamt v (fun b => { b with fenvAmt := linParam 43 v }) s

/-- `FENVINVERT v`: filter envelope inversion, register P44 (R423). -/
def execFenvinvert (v : F32) (s : State) : Result :=
  voiceSetter (.fenvinvert v) .fenvinvert v (fun b => { b with fenvInvert := boolParam v }) s

/-- `KEYFOLLOW v`: key-follow amount, register P45 (R424). -/
def execKeyfollow (v : F32) (s : State) : Result :=
  voiceSetter (.keyfollow v) .keyfollow v (fun b => { b with keyFollow := linParam 45 v }) s

end Sys2Proof.Machine
end

