-- ==== Sys2Proof/Machine/LfoCmds.lean ====
section
/-! DEFINITION. The meanings of the LFO parameter commands (`48_commands_params.md` R388 to R397). -/

namespace Sys2Proof.Machine

/-- `LFO1RATE v`: main LFO rate, register P9 (R388). -/
def execLfo1rate (v : F32) (s : State) : Result :=
  globalSetter (.lfo1rate v) .lfo1rate v (fun g => { g with lfo1 := { g.lfo1 with freq := logParam 9 v, rawRate := v } }) s

/-- `LFO1WAVE1 v`: main LFO blend knob 1, register P10 (R389). -/
def execLfo1wave1 (v : F32) (s : State) : Result :=
  globalSetter (.lfo1wave1 v) .lfo1wave1 v (fun g => { g with lfo1 := { g.lfo1 with wave1 := linsc v fNegOne f1 } }) s

/-- `LFO1WAVE2 v`: main LFO blend knob 2, register P11 (R390). -/
def execLfo1wave2 (v : F32) (s : State) : Result :=
  globalSetter (.lfo1wave2 v) .lfo1wave2 v (fun g => { g with lfo1 := { g.lfo1 with wave2 := linsc v fNegOne f1 } }) s

/-- `LFO1WAVE3 v`: main LFO blend knob 3, register P12 (R391). -/
def execLfo1wave3 (v : F32) (s : State) : Result :=
  globalSetter (.lfo1wave3 v) .lfo1wave3 v (fun g => { g with lfo1 := { g.lfo1 with wave3 := linsc v fNegOne f1 } }) s

/-- `LFO1SYNC v`: main LFO tempo sync, register P13 (R392). -/
def execLfo1sync (v : F32) (s : State) : Result :=
  globalSetter (.lfo1sync v) .lfo1sync v (fun g => { g with lfo1 := { g.lfo1 with sync := boolParam v } }) s

/-- `LFO2RATE v`: per-voice LFO rate, register P14 (R393). -/
def execLfo2rate (v : F32) (s : State) : Result :=
  voiceSetter (.lfo2rate v) .lfo2rate v (fun b => { b with lfo2 := { b.lfo2 with freq := logParam 14 v, rawRate := v } }) s

/-- `LFO2WAVE1 v`: per-voice LFO blend knob 1, register P15 (R394). -/
def execLfo2wave1 (v : F32) (s : State) : Result :=
  voiceSetter (.lfo2wave1 v) .lfo2wave1 v (fun b => { b with lfo2 := { b.lfo2 with wave1 := linsc v fNegOne f1 } }) s

/-- `LFO2WAVE2 v`: per-voice LFO blend knob 2, register P16 (R395). -/
def execLfo2wave2 (v : F32) (s : State) : Result :=
  voiceSetter (.lfo2wave2 v) .lfo2wave2 v (fun b => { b with lfo2 := { b.lfo2 with wave2 := linsc v fNegOne f1 } }) s

/-- `LFO2WAVE3 v`: per-voice LFO blend knob 3, register P17 (R396). -/
def execLfo2wave3 (v : F32) (s : State) : Result :=
  voiceSetter (.lfo2wave3 v) .lfo2wave3 v (fun b => { b with lfo2 := { b.lfo2 with wave3 := linsc v fNegOne f1 } }) s

/-- `LFO2SYNC v`: per-voice LFO tempo sync, register P18 (R397). -/
def execLfo2sync (v : F32) (s : State) : Result :=
  voiceSetter (.lfo2sync v) .lfo2sync v (fun b => { b with lfo2 := { b.lfo2 with sync := boolParam v } }) s

end Sys2Proof.Machine
end

