-- ==== Sys2Proof/Machine/MotherboardCmds.lean ====
section
/-! DEFINITION. The meanings of the Motherboard parameter commands (`48_commands_params.md` R380 to R387). -/

namespace Sys2Proof.Machine

/-- `VOLUME v`: master volume, register P1 (R380). -/
def execVolume (v : F32) (s : State) : Result :=
  globalSetter (.volume v) .volume v (fun g => { g with volume := linParam 1 v }) s

/-- `POLYPHONY v`: `Sched.setPolyphony(count(v))`, register P2 (R381). -/
def execPolyphony (v : F32) (s : State) : Result :=
  setter (.polyphony v) .polyphony (unitRange v) (State.setPolyphony (countParam v)) s

/-- `UNISON v`: unison on, register P3 (R382). -/
def execUnison (v : F32) (s : State) : Result :=
  globalSetter (.unison v) .unison v (fun g => { g with uni := boolParam v }) s

/-- `UNIVOICES v`: unison voice count, register P4 (R383). -/
def execUnivoices (v : F32) (s : State) : Result :=
  globalSetter (.univoices v) .univoices v (fun g => { g with univc := countParam v }) s

/-- `OVERSAMPLE v`: `Sched.SetOversample(bool(v))`, register P5 (R384). -/
def execOversample (v : F32) (s : State) : Result :=
  setter (.oversample v) .oversample (unitRange v) (State.setOversample (boolParam v)) s

/-- `PAN slot, v`: the pan of a slot, register P6[slot] (R385). -/
def execPan (slot : BitVec 8) (v : F32) (s : State) : Result :=
  setter (.pan slot v) (.pan (slotOf slot)) (slotRange slot && unitRange v)
    (State.mapGlobal fun g => { g with pan := g.pan.set (slotOf slot) (linParam 6 v) }) s

/-- `VOICEPRIORITY v`: voice priority policy, register P7 (R386). -/
def execVoicepriority (v : F32) (s : State) : Result :=
  globalSetter (.voicepriority v) .voicepriority v (fun g => { g with priority := priorityParam v }) s

/-- `VIBRATORATE v`: vibrato LFO rate, register P8 (R387). -/
def execVibratorate (v : F32) (s : State) : Result :=
  globalSetter (.vibratorate v) .vibratorate v (fun g => { g with vib := { g.vib with freq := logParam 8 v } }) s

end Sys2Proof.Machine
end

