-- ==== Sys2Proof/Machine/NoteCmds.lean ====
section
/-! DEFINITION. The meanings of the note and controller commands (`47_commands_system_notes.md` R345 to R352). -/

namespace Sys2Proof.Machine

/-- `NOTEON note, channel, velocity`; the channel is ignored (R345). -/
def execNoteon (note channel : BitVec 8) (velocity : F32) (s : State) : Result :=
  configuredCommand (.noteon note channel velocity) (noteRange note && unitRange velocity)
    (State.setNoteOn (noteOf note) velocity) s

/-- `NOTEOFF note, channel, velocity`; channel and velocity are ignored, the velocity after its check (R346). -/
def execNoteoff (note channel : BitVec 8) (velocity : F32) (s : State) : Result :=
  configuredCommand (.noteoff note channel velocity) (noteRange note && unitRange velocity)
    (State.setNoteOff (noteOf note)) s

/-- `SUSTON` (R347). -/
def execSuston (s : State) : Result := configuredCommand .suston true State.sustainOn s

/-- `SUSTOFF` (R348). -/
def execSustoff (s : State) : Result := configuredCommand .sustoff true State.sustainOff s

/-- `ALLNOTESOFF` (R349). -/
def execAllnotesoff (s : State) : Result := configuredCommand .allnotesoff true State.allNotesOff s

/-- `ALLSOUNDOFF` (R350). -/
def execAllsoundoff (s : State) : Result := configuredCommand .allsoundoff true State.allSoundOff s

/-- `PITCHWHEEL x` (R351). -/
def execPitchwheel (x : F32) (s : State) : Result :=
  command (.pitchwheel x) (bipolarRange x)
    (State.mapGlobal fun g => { g with smBend := { g.smBend with target := x } }) s

/-- `MODWHEEL x` (R352). -/
def execModwheel (x : F32) (s : State) : Result :=
  command (.modwheel x) (unitRange x)
    (State.mapGlobal fun g => { g with smMod := { g.smMod with target := x } }) s

end Sys2Proof.Machine
end

