-- ==== Sys2Proof/Machine/OscillatorCmds.lean ====
section
/-! DEFINITION. The meanings of the oscillator block parameter commands (`48_commands_params.md` R398 to R415). -/

namespace Sys2Proof.Machine

/-- `OSC1PITCH v`: oscillator 1 pitch offset, register P19 (R398). -/
def execOsc1pitch (v : F32) (s : State) : Result :=
  voiceSetter (.osc1pitch v) .osc1pitch v (fun b => { b with osc := { b.osc with pitch1 := linParam 19 v } }) s

/-- `OSC2PITCH v`: oscillator 2 pitch offset, register P20 (R399). -/
def execOsc2pitch (v : F32) (s : State) : Result :=
  voiceSetter (.osc2pitch v) .osc2pitch v (fun b => { b with osc := { b.osc with pitch2 := linParam 20 v } }) s

/-- `TUNE v`: global tune, register P21 (R400). -/
def execTune (v : F32) (s : State) : Result :=
  voiceSetter (.tune v) .tune v (fun b => { b with osc := { b.osc with tune := linParam 21 v } }) s

/-- `TRANSPOSE v`: global transpose, register P22 (R401). -/
def execTranspose (v : F32) (s : State) : Result :=
  voiceSetter (.transpose v) .transpose v (fun b => { b with osc := { b.osc with transpose := linParam 22 v } }) s

/-- `DETUNE v`: detune amount, register P23 (R402). -/
def execDetune (v : F32) (s : State) : Result :=
  voiceSetter (.detune v) .detune v (fun b => { b with osc := { b.osc with detuneAmt := linParam 23 v } }) s

/-- `PW1 v`: oscillator 1 pulse width, register P24 (R403). -/
def execPw1 (v : F32) (s : State) : Result :=
  voiceSetter (.pw1 v) .pw1 v (fun b => { b with osc := { b.osc with pwBase1 := linParam 24 v } }) s

/-- `PW2 v`: oscillator 2 pulse width, register P25 (R404). -/
def execPw2 (v : F32) (s : State) : Result :=
  voiceSetter (.pw2 v) .pw2 v (fun b => { b with osc := { b.osc with pwBase2 := linParam 25 v } }) s

/-- `HARDSYNC v`: hard sync on, register P26 (R405). -/
def execHardsync (v : F32) (s : State) : Result :=
  voiceSetter (.hardsync v) .hardsync v (fun b => { b with osc := { b.osc with hardSync := boolParam v } }) s

/-- `XMOD v`: cross-modulation amount, register P27 (R406). -/
def execXmod (v : F32) (s : State) : Result :=
  voiceSetter (.xmod v) .xmod v (fun b => { b with osc := { b.osc with xmod := linParam 27 v } }) s

/-- `OSC1MIX v`: oscillator 1 level, register P28 (R407). -/
def execOsc1mix (v : F32) (s : State) : Result :=
  voiceSetter (.osc1mix v) .osc1mix v (fun b => { b with osc := { b.osc with mix1 := linParam 28 v } }) s

/-- `OSC2MIX v`: oscillator 2 level, register P29 (R408). -/
def execOsc2mix (v : F32) (s : State) : Result :=
  voiceSetter (.osc2mix v) .osc2mix v (fun b => { b with osc := { b.osc with mix2 := linParam 29 v } }) s

/-- `RINGMIX v`: ring modulation level, register P30 (R409). -/
def execRingmix (v : F32) (s : State) : Result :=
  voiceSetter (.ringmix v) .ringmix v (fun b => { b with osc := { b.osc with mixRing := linParam 30 v } }) s

/-- `NOISEMIX v`: noise level, register P31 (R410). -/
def execNoisemix (v : F32) (s : State) : Result :=
  voiceSetter (.noisemix v) .noisemix v (fun b => { b with osc := { b.osc with mixNoise := linParam 31 v } }) s

/-- `NOISECOLOR v`: noise flavour, register P32 (R411). -/
def execNoisecolor (v : F32) (s : State) : Result :=
  voiceSetter (.noisecolor v) .noisecolor v (fun b => { b with osc := { b.osc with noiseColor := colorParam v } }) s

/-- `OSC1SAW v`: oscillator 1 saw on, register P33 (R412). -/
def execOsc1saw (v : F32) (s : State) : Result :=
  voiceSetter (.osc1saw v) .osc1saw v (fun b => { b with osc := { b.osc with saw1On := boolParam v } }) s

/-- `OSC1PULSE v`: oscillator 1 pulse on, register P34 (R413). -/
def execOsc1pulse (v : F32) (s : State) : Result :=
  voiceSetter (.osc1pulse v) .osc1pulse v (fun b => { b with osc := { b.osc with pul1On := boolParam v } }) s

/-- `OSC2SAW v`: oscillator 2 saw on, register P35 (R414). -/
def execOsc2saw (v : F32) (s : State) : Result :=
  voiceSetter (.osc2saw v) .osc2saw v (fun b => { b with osc := { b.osc with saw2On := boolParam v } }) s

/-- `OSC2PULSE v`: oscillator 2 pulse on, register P36 (R415). -/
def execOsc2pulse (v : F32) (s : State) : Result :=
  voiceSetter (.osc2pulse v) .osc2pulse v (fun b => { b with osc := { b.osc with pul2On := boolParam v } }) s

end Sys2Proof.Machine
end

