-- ==== Sys2Proof/Machine/SystemCmds.lean ====
section
/-! DEFINITION. The meanings of the system commands (`47_commands_system_notes.md` R341 to R344). -/

namespace Sys2Proof.Machine

/-- `SETRATE`'s operation: the rate, 64 fresh tuning-slop draws in voice-major order, and the rate-dependent
coefficients once `OVERSAMPLE` has been written (R341). -/
def State.setSampleRate (hz : F32) (s : State) : State :=
  let g := { s.g with fs := hz }
  let d := s.draws
  { s with
    g := g
    draws := d + 64
    voices := s.voices.mapIdx fun i v =>
      let v := { v with osc := { v.osc with tuneSlop1 := draw (d + 2 * i), tuneSlop2 := draw (d + 2 * i + 1) } }
      if RegId.oversample ∈ s.g.written then v.setRate g.fsI else v }

/-- `SETRATE hz` (R341). -/
def execSetrate (hz : F32) (s : State) : Result :=
  setter (.setrate hz) .fs (rateRange hz) (State.setSampleRate hz) s

/-- `TICK` (R342): the checks of every command that requires `CONFIGURED`, then `Sched.tick`. A phase increment
outside `(0,1)` has no successor (U1; log 8). -/
def execTick (s : State) : Result :=
  if s.configured then
    match s.tick with
    | .ok t => .next t
    | .error e => .fault e
  else .next (raise .notConfigured (encode .tick) s)

/-- `PLAYPOS pos` (R343). -/
def execPlaypos (pos : F32) (s : State) : Result :=
  command (.playpos pos) (positionRange pos) (State.mapGlobal fun g => { g with qnpos := pos }) s

/-- The transport restart of `PLAYHEAD`: every synced LFO whose switch has been written goes to phase 0, the
vibrato unit never (R344, R226). -/
def State.restartLfos (s : State) : State :=
  { s with
    g := { s.g with
      lfo1 := if RegId.lfo1sync ∈ s.g.written ∧ s.g.lfo1.sync = true then s.g.lfo1.resetPhase else s.g.lfo1 }
    voices := s.voices.map fun v =>
      if RegId.lfo2sync ∈ s.g.written ∧ v.lfo2.sync = true then { v with lfo2 := v.lfo2.resetPhase } else v }

/-- `PLAYHEAD reset, bpm` (R344). -/
def execPlayhead (reset : BitVec 8) (bpm : F32) (s : State) : Result :=
  setter (.playhead reset bpm) .bpm (resetFlagRange reset && tempoRange bpm)
    (fun s =>
      let s := s.mapGlobal fun g => { g with bpm := bpm }
      if reset = 1#8 then s.restartLfos else s) s

end Sys2Proof.Machine
end

