-- ==== Sys2Proof/Machine/VoiceCmds.lean ====
section
/-! DEFINITION. The meanings of the voice parameter commands and of the generic routing command
(`48_commands_params.md` R433 to R440). -/

namespace Sys2Proof.Machine

/-- `PORTAMENTO v`: portamento amount, register P54 (R433). -/
def execPortamento (v : F32) (s : State) : Result :=
  voiceSetter (.portamento v) .portamento v (fun b => { b with porta := logParam 54 v }) s

/-- `BENDUP v`: pitch-bend range upward, register P55 (R434). -/
def execBendup (v : F32) (s : State) : Result :=
  voiceSetter (.bendup v) .bendup v (fun b => { b with bendUp := linParam 55 v }) s

/-- `BENDDOWN v`: pitch-bend range downward, register P56 (R435). -/
def execBenddown (v : F32) (s : State) : Result :=
  voiceSetter (.benddown v) .benddown v (fun b => { b with bendDown := linParam 56 v }) s

/-- `LEGATO v`: legato-mode mask, register P57 (R436). -/
def execLegato (v : F32) (s : State) : Result :=
  voiceSetter (.legato v) .legato v (fun b => { b with legato := legatoParam v }) s

/-- The operation of `MODPARAM`: the routing register of every voice, then both envelopes refreshed (R440, R211). -/
def State.setMod (m : Fin Config.modCount) (v : F32) (s : State) : State :=
  s.mapVoices fun b => Voice.refreshEnvs s.g.fsI { b with mod := b.mod.set m v }

/-- `MODPARAM m, v`: generic routing register `m`, register P58[m]; with no such register the operand is out of
range (R440). -/
def execModparam (m : BitVec 8) (v : F32) (s : State) : Result :=
  command (.modparam m v) (modRange m && unitRange v)
    (fun s =>
      match modIndexOf m with
      | some k => (s.setMod k v).markWritten (.mod k)
      | none => s) s

end Sys2Proof.Machine
end

