-- ==== Sys2Proof/Machine/Dispatch.lean ====
section
/-! DEFINITION. One arm per command: the meaning of each of the 70 rows of the opcode table. -/

namespace Sys2Proof.Machine

/-- The effect of a command on the state (`30_encoding.md` R107). -/
def exec (i : Instr) (s : State) : Host.Outcome State Fault Refusal :=
  match i with
  | .setrate v => Sys2Proof.Machine.execSetrate v s
  | .tick => Sys2Proof.Machine.execTick s
  | .playpos v => Sys2Proof.Machine.execPlaypos v s
  | .playhead a v => Sys2Proof.Machine.execPlayhead a v s
  | .noteon a b v => Sys2Proof.Machine.execNoteon a b v s
  | .noteoff a b v => Sys2Proof.Machine.execNoteoff a b v s
  | .suston => Sys2Proof.Machine.execSuston s
  | .sustoff => Sys2Proof.Machine.execSustoff s
  | .allnotesoff => Sys2Proof.Machine.execAllnotesoff s
  | .allsoundoff => Sys2Proof.Machine.execAllsoundoff s
  | .pitchwheel v => Sys2Proof.Machine.execPitchwheel v s
  | .modwheel v => Sys2Proof.Machine.execModwheel v s
  | .volume v => Sys2Proof.Machine.execVolume v s
  | .polyphony v => Sys2Proof.Machine.execPolyphony v s
  | .unison v => Sys2Proof.Machine.execUnison v s
  | .univoices v => Sys2Proof.Machine.execUnivoices v s
  | .oversample v => Sys2Proof.Machine.execOversample v s
  | .pan a v => Sys2Proof.Machine.execPan a v s
  | .voicepriority v => Sys2Proof.Machine.execVoicepriority v s
  | .vibratorate v => Sys2Proof.Machine.execVibratorate v s
  | .lfo1rate v => Sys2Proof.Machine.execLfo1rate v s
  | .lfo1wave1 v => Sys2Proof.Machine.execLfo1wave1 v s
  | .lfo1wave2 v => Sys2Proof.Machine.execLfo1wave2 v s
  | .lfo1wave3 v => Sys2Proof.Machine.execLfo1wave3 v s
  | .lfo1sync v => Sys2Proof.Machine.execLfo1sync v s
  | .lfo2rate v => Sys2Proof.Machine.execLfo2rate v s
  | .lfo2wave1 v => Sys2Proof.Machine.execLfo2wave1 v s
  | .lfo2wave2 v => Sys2Proof.Machine.execLfo2wave2 v s
  | .lfo2wave3 v => Sys2Proof.Machine.execLfo2wave3 v s
  | .lfo2sync v => Sys2Proof.Machine.execLfo2sync v s
  | .osc1pitch v => Sys2Proof.Machine.execOsc1pitch v s
  | .osc2pitch v => Sys2Proof.Machine.execOsc2pitch v s
  | .tune v => Sys2Proof.Machine.execTune v s
  | .transpose v => Sys2Proof.Machine.execTranspose v s
  | .detune v => Sys2Proof.Machine.execDetune v s
  | .pw1 v => Sys2Proof.Machine.execPw1 v s
  | .pw2 v => Sys2Proof.Machine.execPw2 v s
  | .hardsync v => Sys2Proof.Machine.execHardsync v s
  | .xmod v => Sys2Proof.Machine.execXmod v s
  | .osc1mix v => Sys2Proof.Machine.execOsc1mix v s
  | .osc2mix v => Sys2Proof.Machine.execOsc2mix v s
  | .ringmix v => Sys2Proof.Machine.execRingmix v s
  | .noisemix v => Sys2Proof.Machine.execNoisemix v s
  | .noisecolor v => Sys2Proof.Machine.execNoisecolor v s
  | .osc1saw v => Sys2Proof.Machine.execOsc1saw v s
  | .osc1pulse v => Sys2Proof.Machine.execOsc1pulse v s
  | .osc2saw v => Sys2Proof.Machine.execOsc2saw v s
  | .osc2pulse v => Sys2Proof.Machine.execOsc2pulse v s
  | .cutoff v => Sys2Proof.Machine.execCutoff v s
  | .resonance v => Sys2Proof.Machine.execResonance v s
  | .multimode v => Sys2Proof.Machine.execMultimode v s
  | .bandpassblend v => Sys2Proof.Machine.execBandpassblend v s
  | .fourpole v => Sys2Proof.Machine.execFourpole v s
  | .selfoscpush v => Sys2Proof.Machine.execSelfoscpush v s
  | .fenvamt v => Sys2Proof.Machine.execFenvamt v s
  | .fenvinvert v => Sys2Proof.Machine.execFenvinvert v s
  | .keyfollow v => Sys2Proof.Machine.execKeyfollow v s
  | .ampattack v => Sys2Proof.Machine.execAmpattack v s
  | .ampdecay v => Sys2Proof.Machine.execAmpdecay v s
  | .ampsustain v => Sys2Proof.Machine.execAmpsustain v s
  | .amprelease v => Sys2Proof.Machine.execAmprelease v s
  | .fltattack v => Sys2Proof.Machine.execFltattack v s
  | .fltdecay v => Sys2Proof.Machine.execFltdecay v s
  | .fltsustain v => Sys2Proof.Machine.execFltsustain v s
  | .fltrelease v => Sys2Proof.Machine.execFltrelease v s
  | .portamento v => Sys2Proof.Machine.execPortamento v s
  | .bendup v => Sys2Proof.Machine.execBendup v s
  | .benddown v => Sys2Proof.Machine.execBenddown v s
  | .legato v => Sys2Proof.Machine.execLegato v s
  | .modparam a v => Sys2Proof.Machine.execModparam a v s

end Sys2Proof.Machine
end

