-- ==== Sys2Proof/Machine/Step.lean ====
section
/-! DEFINITION. One step of the machine: the block takes the next act of the host (`00_scope.md` R2,
`30_encoding.md` R100, R109). Log 1, 16, 18. -/

namespace Sys2Proof.Machine

/-- A command word is decoded and executed; an illegal one raises `IllegalCommand` (R108, R109, R450). -/
def runWord (w : CmdWord) (s : State) : Host.Outcome State Fault Refusal :=
  match decode w with
  | .ok i => exec i s
  | .error _ => .next (raise .illegalCommand w s)

/-- One step: the next host act is taken from the list and carried out. With no act to take the port is idle and
nothing changes. -/
def step (s : State) : Host.Outcome State Fault Refusal :=
  match s.inputs with
  | [] => .next s
  | .command w :: rest => runWord w { s with inputs := rest }
  | .reset :: rest => .next (State.resetWith s.draws s.tuning rest)
  | .tuning table :: rest => .next { s with tuning := table, inputs := rest }

/-- The state in which the host presents the opcode-table word `w` of `nbits` bits next. -/
def State.withFetchWord (s : State) (nbits w : Nat) : State :=
  { s with inputs := .command (tableWord nbits w) :: s.inputs }

end Sys2Proof.Machine
end

