-- ==== Sys2Proof/Safety.lean ====
section
/-! DEFINITION. The terms in which claims speak of good states: the invariant every step keeps. Each clause
is a bound or a permanence the spec states of its state. -/

namespace Sys2Proof.Machine

/-- A phase accumulator lies in `[0, 1)` (R33, R177). -/
def phaseInRange (x : F32) : Bool := fle f0 x && flt x f1

/-- A wrap fraction lies in `[0, 1]` (R134, R136). -/
def fracInRange (x : F32) : Bool := fle f0 x && fle x f1

/-- The oscillator block's bounds: both phases in `[0,1)`, every delayed sync fraction in `[0,1]`. -/
def OscBlock.Good (o : OscBlock) : Prop :=
  phaseInRange o.x1 = true ∧ phaseInRange o.x2 = true ∧
    ∀ k : Fin Config.samples, fracInRange (o.dlSyncFrac.buf.get k) = true

/-- The vibrato unit's fixed parameters (R42, R60). -/
def Lfo.VibratoFixed (l : Lfo) : Prop :=
  l.wave1 = fNegOne ∧ l.wave2 = f0 ∧ l.wave3 = f0 ∧ l.sync = false ∧ l.rawRate = f0

/-- Identifiers in strictly rising canonical order, so that equal sets are equal lists (log 20). -/
def WrittenCanonical (l : List RegId) : Prop := l.Pairwise fun a b => a.index < b.index

/-- Entry 128 of the note tables, which no rule reads or writes (R38, R39). -/
def lastEntry : Fin 129 := 128

/-- `FAULT` is clear with cause and word 0 (R65), or records one of the three causes (R454). -/
def FaultReg.Legal (f : FaultReg) : Prop :=
  (f.valid = false ∧ f.cause = 0#8 ∧ f.cmd = 0#64) ∨
    (f.valid = true ∧ (f.cause = 1#8 ∨ f.cause = 2#8 ∨ f.cause = 3#8))

/-- The invariant: the queue cursor below the polyphony (R41), no active voice at or beyond it (R302), the
vibrato unit's parameters permanent, entry 128 of both note tables 0, the set of written registers canonical,
and a legal `FAULT`. -/
structure State.Inv (s : State) : Prop where
  cursor : s.g.vqIdx.val < s.g.totalvc.val
  activeBelow : ∀ i : Fin 32, (s.voices.get i).active = true → i.val < s.g.totalvc.val
  vibrato : s.g.vib.VibratoFixed
  stolenLast : s.g.stolen.get lastEntry = 0#32
  voiceAgeLast : s.g.voiceAge.get lastEntry = 0#64
  written : WrittenCanonical s.g.written
  fault : s.fault.Legal

/-- Every oscillator block is within its bounds (R33, R134). -/
def State.PhasesInRange (s : State) : Prop := ∀ i : Fin 32, (s.voices.get i).osc.Good

/-- An envelope in Attack, Decay or Sustain. -/
def Env.Held (e : Env) : Prop := e.state = .attack ∨ e.state = .decay ∨ e.state = .sustain

/-- Every gated voice is sounding, with both envelopes held (R270 to R274, R288). -/
def State.GatedSound (s : State) : Prop :=
  ∀ i : Fin 32, (s.voices.get i).gate = true →
    (s.voices.get i).active = true ∧ (s.voices.get i).ampEnv.Held ∧ (s.voices.get i).fltEnv.Held

end Sys2Proof.Machine
end

