-- ==== Sys2Proof/WellFormed.lean ====
section
/-! DEFINITION. Well-formed commands: every operand inside the range R105 gives it (`30_encoding.md`). An
ill-formed command raises `OperandRange` (R451). The channel `B` is unchecked. -/

namespace Sys2Proof

open Machine

/-- Every operand of the command is in its range (R105). -/
def Instr.wellFormed : Instr → Bool
  | .setrate v => rateRange v
  | .tick => true
  | .playpos v => positionRange v
  | .playhead a v => resetFlagRange a && tempoRange v
  | .noteon a _ v => noteRange a && unitRange v
  | .noteoff a _ v => noteRange a && unitRange v
  | .suston => true
  | .sustoff => true
  | .allnotesoff => true
  | .allsoundoff => true
  | .pitchwheel v => bipolarRange v
  | .modwheel v => unitRange v
  | .volume v => unitRange v
  | .polyphony v => unitRange v
  | .unison v => unitRange v
  | .univoices v => unitRange v
  | .oversample v => unitRange v
  | .pan a v => slotRange a && unitRange v
  | .voicepriority v => unitRange v
  | .vibratorate v => unitRange v
  | .lfo1rate v => unitRange v
  | .lfo1wave1 v => unitRange v
  | .lfo1wave2 v => unitRange v
  | .lfo1wave3 v => unitRange v
  | .lfo1sync v => unitRange v
  | .lfo2rate v => unitRange v
  | .lfo2wave1 v => unitRange v
  | .lfo2wave2 v => unitRange v
  | .lfo2wave3 v => unitRange v
  | .lfo2sync v => unitRange v
  | .osc1pitch v => unitRange v
  | .osc2pitch v => unitRange v
  | .tune v => unitRange v
  | .transpose v => unitRange v
  | .detune v => unitRange v
  | .pw1 v => unitRange v
  | .pw2 v => unitRange v
  | .hardsync v => unitRange v
  | .xmod v => unitRange v
  | .osc1mix v => unitRange v
  | .osc2mix v => unitRange v
  | .ringmix v => unitRange v
  | .noisemix v => unitRange v
  | .noisecolor v => unitRange v
  | .osc1saw v => unitRange v
  | .osc1pulse v => unitRange v
  | .osc2saw v => unitRange v
  | .osc2pulse v => unitRange v
  | .cutoff v => unitRange v
  | .resonance v => unitRange v
  | .multimode v => unitRange v
  | .bandpassblend v => unitRange v
  | .fourpole v => unitRange v
  | .selfoscpush v => unitRange v
  | .fenvamt v => unitRange v
  | .fenvinvert v => unitRange v
  | .keyfollow v => unitRange v
  | .ampattack v => unitRange v
  | .ampdecay v => unitRange v
  | .ampsustain v => unitRange v
  | .amprelease v => unitRange v
  | .fltattack v => unitRange v
  | .fltdecay v => unitRange v
  | .fltsustain v => unitRange v
  | .fltrelease v => unitRange v
  | .portamento v => unitRange v
  | .bendup v => unitRange v
  | .benddown v => unitRange v
  | .legato v => unitRange v
  | .modparam a v => modRange a && unitRange v

/-- The commands that require `CONFIGURED` (R353). -/
def Instr.needsConfigured : Instr → Bool
  | .tick | .noteon _ _ _ | .noteoff _ _ _ | .suston | .sustoff | .allnotesoff | .allsoundoff => true
  | .setrate _ => false
  | .playpos _ => false
  | .playhead _ _ => false
  | .pitchwheel _ => false
  | .modwheel _ => false
  | .volume _ => false
  | .polyphony _ => false
  | .unison _ => false
  | .univoices _ => false
  | .oversample _ => false
  | .pan _ _ => false
  | .voicepriority _ => false
  | .vibratorate _ => false
  | .lfo1rate _ => false
  | .lfo1wave1 _ => false
  | .lfo1wave2 _ => false
  | .lfo1wave3 _ => false
  | .lfo1sync _ => false
  | .lfo2rate _ => false
  | .lfo2wave1 _ => false
  | .lfo2wave2 _ => false
  | .lfo2wave3 _ => false
  | .lfo2sync _ => false
  | .osc1pitch _ => false
  | .osc2pitch _ => false
  | .tune _ => false
  | .transpose _ => false
  | .detune _ => false
  | .pw1 _ => false
  | .pw2 _ => false
  | .hardsync _ => false
  | .xmod _ => false
  | .osc1mix _ => false
  | .osc2mix _ => false
  | .ringmix _ => false
  | .noisemix _ => false
  | .noisecolor _ => false
  | .osc1saw _ => false
  | .osc1pulse _ => false
  | .osc2saw _ => false
  | .osc2pulse _ => false
  | .cutoff _ => false
  | .resonance _ => false
  | .multimode _ => false
  | .bandpassblend _ => false
  | .fourpole _ => false
  | .selfoscpush _ => false
  | .fenvamt _ => false
  | .fenvinvert _ => false
  | .keyfollow _ => false
  | .ampattack _ => false
  | .ampdecay _ => false
  | .ampsustain _ => false
  | .amprelease _ => false
  | .fltattack _ => false
  | .fltdecay _ => false
  | .fltsustain _ => false
  | .fltrelease _ => false
  | .portamento _ => false
  | .bendup _ => false
  | .benddown _ => false
  | .legato _ => false
  | .modparam _ _ => false

end Sys2Proof
end

