-- ==== Sys2Proof/Certificates/Slice0/Obligations.lean ====
section
/-! DEFINITION. The statements for the provers: what the rules of the spec say the commands and the machine do. -/

/-! ### Terms the statements share -/

namespace Sys2Proof.Claims

open Sys2Proof.Machine

/-- `FAULT` after a fault with cause `c` on the word `w`: the first fault since reset is kept (R453). -/
def faultAfter (c : BitVec 8) (w : CmdWord) (f : FaultReg) : FaultReg := if f.valid then f else ⟨true, c, w⟩

/-- The state after a fault: nothing but `FAULT` differs (R456). -/
def faulted (c : BitVec 8) (w : CmdWord) (s : State) : State := { s with fault := faultAfter c w s.fault }

/-- What the rules R380 to R436 say of a setter of format F with opcode `op`: the word that carries `v`; the effect
when `0 ≤ v ≤ 1`, then `id` written; `OperandRange` otherwise; and a required-zero field that is not zero is illegal. -/
def SetterRule (op : BitVec 8) (mk : F32 → Instr) (id : RegId) (eff : F32 → State → State) : Prop :=
  ∀ (s : State) (v : F32),
    decode (packF op v) = .ok (mk v) ∧
    (∀ a b z : BitVec 8, a ≠ 0#8 ∨ b ≠ 0#8 ∨ z ≠ 0#8 → decode (op ++ a ++ b ++ z ++ v) = .error .nonzeroField) ∧
    (unitRange v = true →
      exec (mk v) s =
        .next { eff v s with g := { (eff v s).g with written := insertId id (eff v s).g.written } }) ∧
    (unitRange v = false → exec (mk v) s = .next (faulted 2#8 (packF op v) s))

/-- A change of the global registers only. -/
def onGlobal (f : F32 → Global → Global) (v : F32) (s : State) : State := { s with g := f v s.g }

/-- The same change in all 32 voices and nowhere else (R375). -/
def onVoices (f : F32 → Voice → Voice) (v : F32) (s : State) : State := { s with voices := s.voices.map (f v) }

/-- `linsc(v, lo, hi)` with `(lo, hi, _) = Law.range(P<n>)`. -/
def lin (n : Nat) (v : F32) : F32 := linsc v (lawRange n).lo (lawRange n).hi

/-- `Law.logsc(v, lo, hi, skew)` with `(lo, hi, skew) = Law.range(P<n>)`. -/
def log (n : Nat) (v : F32) : F32 := logsc v (lawRange n).lo (lawRange n).hi (lawRange n).skew

/-- A map of the next state of an outcome. -/
def mapNext (f : State → State) : Result → Result
  | .next s => .next (f s)
  | .fault e => .fault e
  | .refused r => .refused r

/-- The internal rate at host rate `hz` (R24). -/
def rateOf (oversample : Bool) (hz : F32) : F32 := if oversample then fmul f2 hz else hz

/-- The amplitude envelope's context in a voice (R191). -/
def amp (fsI : F32) (v : Voice) : EnvCtx := ⟨fsI, lawEnvSlop (v.slop.get 1) v.mod.toList⟩

/-- The filter envelope's context in a voice (R191). -/
def fil (fsI : F32) (v : Voice) : EnvCtx := ⟨fsI, lawEnvSlop (v.slop.get 2) v.mod.toList⟩

/-- An envelope in Attack with the coefficient of R193. -/
def attacked (c : EnvCtx) (e : Env) : Env := { e with coef := e.atkCoef c, state := .attack }

/-- R204: an envelope that is in Release or Silent is left alone, another goes to Release. -/
def released (c : EnvCtx) (e : Env) : Env :=
  if e.state = .release ∨ e.state = .silent then e else { e with coef := e.relCoef c, state := .release }

/-- R205. -/
def silenced (e : Env) : Env := { e with state := .silent, value := 0#32, coef := 0#32 }

/-- A delay line with every slot zero and the position kept (R132). -/
def flushed {n : Nat} (D : DelayLine F32 n) : DelayLine F32 n := { D with buf := Vec.replicate n 0#32 }

/-- The rate-dependent coefficients of a voice computed again (R246, R211). -/
def rerated (fsI : F32) (v : Voice) : Voice :=
  { v with
    flt := { v.flt with rcor12 := (lawRcor fsI).1, rcor24 := (lawRcor fsI).2 }
    ampEnv := v.ampEnv.refresh (amp fsI v)
    fltEnv := v.fltEnv.refresh (fil fsI v) }

/-- `Voice.NoteOn(i, n, vel)` as R271 writes it, in one update. -/
def retriggered (fsI : F32) (n : Fin 128) (vel : F32) (v : Voice) : Voice :=
  let a := if v.active then v.ampEnv else silenced v.ampEnv
  let f := if v.active then v.fltEnv else silenced v.fltEnv
  { v with
    dlAenv := if v.active then v.dlAenv else flushed v.dlAenv
    dlFenv := if v.active then v.dlFenv else flushed v.dlFenv
    dlAenv1 := if v.active then v.dlAenv1 else flushed v.dlAenv1
    velocity := if feq vel velKeep then v.velocity else vel
    note := n
    ampEnv := if v.gate = false ∨ v.legato &&& 1#2 ≠ 0#2 then attacked (amp fsI v) a else a
    fltEnv := if v.gate = false ∨ v.legato &&& 2#2 ≠ 0#2 then attacked (fil fsI v) f else f
    gate := true
    active := true
    lfo2 := { v.lfo2 with phase := 0#32 } }

/-- `Voice.NoteOff(i)` as R272 writes it. -/
def keyUp (fsI : F32) (v : Voice) : Voice :=
  if v.sustHold then { v with gate := false }
  else { v with gate := false, ampEnv := released (amp fsI v) v.ampEnv, fltEnv := released (fil fsI v) v.fltEnv }

/-- `Voice.sustOff(i)` as R274 writes it. -/
def pedalUp (fsI : F32) (v : Voice) : Voice :=
  if v.gate then { v with sustHold := false }
  else { v with sustHold := false, ampEnv := released (amp fsI v) v.ampEnv, fltEnv := released (fil fsI v) v.fltEnv }

/-- The voice the queue gives after `k` further calls (R301). -/
def queueAt (s : State) (k : Nat) : Nat := (s.g.vqIdx.val + k) % s.g.totalvc.val

/-- The global registers after a note-on of `n` has recorded its age (R310, step 1). -/
def aged (n : Fin 128) (g : Global) : Global :=
  { g with
    asPlayedCounter := g.asPlayedCounter + 1#64
    voiceAge := g.voiceAge.set (noteEntry n) (g.asPlayedCounter + 1#64) }

/-- R105: what a command's mnemonic asks of its index operand `a` and its value `v`, as bit patterns. -/
def InRange (mnemonic : String) (a : Nat) (v : F32) : Prop :=
  let unit := v.toNat ≤ 0x3F800000 ∨ v = 0x80000000#32
  if mnemonic ∈ ["TICK", "SUSTON", "SUSTOFF", "ALLNOTESOFF", "ALLSOUNDOFF"] then True
  else if mnemonic = "SETRATE" then 0 < v.toNat ∧ v.toNat < 0x7F800000
  else if mnemonic = "PLAYPOS" then v.toNat % 2 ^ 31 < 0x7F800000
  else if mnemonic = "PLAYHEAD" then a ≤ 1 ∧ (v.toNat < 0x7F800000 ∨ v = 0x80000000#32)
  else if mnemonic = "NOTEON" ∨ mnemonic = "NOTEOFF" then a ≤ 127 ∧ unit
  else if mnemonic = "PITCHWHEEL" then v.toNat ≤ 0x3F800000 ∨ 0x80000000 ≤ v.toNat ∧ v.toNat ≤ 0xBF800000
  else if mnemonic = "PAN" then a ≤ 7 ∧ unit
  else if mnemonic = "MODPARAM" then a < Config.modCount ∧ unit
  else unit

/-- A note-on that passes the checks of R345. -/
def NoteOk (s : State) (note : BitVec 8) (vel : F32) : Prop :=
  s.configured = true ∧ note.toNat ≤ 127 ∧ unitRange vel = true

/-- The values of a list fed one after another to a delay line: what came back, in order (R131). -/
def feedAll {α : Type} {n : Nat} (D : DelayLine α n) : List α → List α
  | [] => []
  | x :: xs => (D.feedReturn x).1 :: feedAll (D.feedReturn x).2 xs

/-- A ring drained `k` times: what came back, and the primitive after (R139). -/
def drain {n : Nat} (P : OscPrim n) : Nat → List F32 × OscPrim n
  | 0 => ([], P)
  | k + 1 => let r := drain (P.aliasReduction).2 k; ((P.aliasReduction).1 :: r.1, r.2)

/-- No voice below the polyphony is sounding. -/
def AllIdle (s : State) : Prop := ∀ i : Fin 32, i.val < s.g.totalvc.val → (s.voices.get i).active = false

/-- One `Smoother.step` (R374). -/
def smoothed (fs : F32) (m : Smoother) : Smoother :=
  { m with
    state := fadd m.state (fmul (fsub m.target m.state) (fmul (lit 3 1000) (fdiv (lit 44000 1) fs))) }

/-- The global registers and voices after the first two lines of a tick (R316). -/
def smoothedState (s : State) : State :=
  { s with
    g := { s.g with
      smCutoff := smoothed s.g.fs s.g.smCutoff
      smBend := smoothed s.g.fs s.g.smBend
      smMod := smoothed s.g.fs s.g.smMod }
    voices := s.voices.map fun v =>
      { v with
        cutoff := (smoothed s.g.fs s.g.smCutoff).state
        pitchBend := (smoothed s.g.fs s.g.smBend).state } }

/-- Both global LFOs updated once, the main one first (R316, R498). -/
def lfosStepped (s : State) : State :=
  let L := s.g.lfo1.update s.g.fsI s.g.bpm s.draws
  let W := s.g.vib.update s.g.fsI s.g.bpm L.draws
  { s with draws := W.draws, g := { s.g with lfo1 := L.lfo, vib := W.lfo } }

/-- What a tick keeps of an LFO: its parameters. -/
def SameLfoParams (a b : Lfo) : Prop :=
  a.freq = b.freq ∧ a.rawRate = b.rawRate ∧ a.sync = b.sync ∧ a.wave1 = b.wave1 ∧ a.wave2 = b.wave2 ∧ a.wave3 = b.wave3

/-- What a tick keeps of an envelope: its parameters. -/
def SameEnvParams (a b : Env) : Prop :=
  a.attack = b.attack ∧ a.decay = b.decay ∧ a.sustain = b.sustain ∧ a.release = b.release

/-- What a tick keeps of a filter: its parameters and coefficients. -/
def SameFltParams (a b : Flt) : Prop :=
  a = { b with s1 := a.s1, s2 := a.s2, s3 := a.s3, s4 := a.s4 }

/-- What a tick keeps of an oscillator block: its parameters, its tuning slop and its table selection. -/
def SameOscParams (a b : OscBlock) : Prop :=
  a = { b with
        x1 := a.x1, x2 := a.x2, saw1 := a.saw1, pul1 := a.pul1, tri1 := a.tri1, saw2 := a.saw2, pul2 := a.pul2,
        tri2 := a.tri2, noise := a.noise, dlSync := a.dlSync, dlSyncFrac := a.dlSyncFrac, dlOsc1 := a.dlOsc1 } ∧
  a.saw1.d2 = b.saw1.d2 ∧ a.pul1.d2 = b.pul1.d2 ∧ a.tri1.d2 = b.tri1.d2 ∧
  a.saw2.d2 = b.saw2.d2 ∧ a.pul2.d2 = b.pul2.d2 ∧ a.tri2.d2 = b.tri2.d2

/-- What a sample step keeps of a voice: note, gate, pedal, velocity, slop, smoothed values and every parameter. -/
def SameVoiceControl (a b : Voice) : Prop :=
  a = { b with
        active := a.active, osc := a.osc, ampEnv := a.ampEnv, fltEnv := a.fltEnv, flt := a.flt, lfo2 := a.lfo2,
        dlAenv := a.dlAenv, dlFenv := a.dlFenv, dlLfo := a.dlLfo, dlAenv1 := a.dlAenv1,
        portaState := a.portaState, brightState := a.brightState } ∧
  SameOscParams a.osc b.osc ∧ SameEnvParams a.ampEnv b.ampEnv ∧ SameEnvParams a.fltEnv b.fltEnv ∧
  SameFltParams a.flt b.flt ∧ SameLfoParams a.lfo2 b.lfo2

/-! ### What a note-on takes -/

/-- The age a note-on of `n` compares for voice `i`: that of the voice's note, `n`'s own already recorded (R311). -/
def ageOf (n : Fin 128) (s : State) (i : Fin 32) : Nat :=
  ((aged n s.g).voiceAge.get (noteEntry (s.voices.get i).note)).toNat

/-- Voice `j` is stolen before voice `i`: a smaller age, or an equal age and a lower index (R311). -/
def stolenFirst (n : Fin 128) (s : State) (j i : Fin 32) : Bool :=
  decide (ageOf n s j < ageOf n s i ∨ ageOf n s j = ageOf n s i ∧ j.val < i.val)

/-- The pending key of R314 among stolen counts: counted, not `n`, and no counted key other than `n` has a larger age;
of keys of one age the lowest (log 23). -/
def pendingAmong (n : Fin 128) (age : Vec (BitVec 64) 129) (stolen : Vec (BitVec 32) 129) : Option (Fin 128) :=
  let pending (k : Fin 128) := decide (k ≠ n ∧ 0 < (stolen.get (noteEntry k)).toNat)
  (List.finRange 128).find? fun k =>
    pending k &&
      (List.finRange 128).all fun j =>
        !pending j || decide ((age.get (noteEntry j)).toNat ≤ (age.get (noteEntry k)).toNat)

/-- What a note-off of `n` does with one voice, and with the stolen counts: the body of the loop of R313. -/
def freed (n : Fin 128) (g : Global) (a : Vec Voice 32 × Vec (BitVec 32) 129) (i : Fin 32) :
    Vec Voice 32 × Vec (BitVec 32) 129 :=
  let v := a.1.get i
  if v.gate = true ∧ v.note = n then
    match pendingAmong n g.voiceAge a.2 with
    | some k =>
      (a.1.set i (retriggered g.fsI k velKeep v), a.2.set (noteEntry k) (a.2.get (noteEntry k) - 1#32))
    | none => (a.1.set i (keyUp g.fsI v), a.2)
  else a

/-- Voice `i` is below the polyphony and active. -/
def sounding (s : State) (i : Fin 32) : Bool := decide (i.val < s.g.totalvc.val) && (s.voices.get i).active

/-- `needed` of R310. -/
def neededVoices (s : State) : Nat := min (if s.g.uni then s.g.univc.val else 1) s.g.totalvc.val

/-- `avail` of R310: the polyphony less the active voices below it. -/
def availVoices (s : State) : Nat := s.g.totalvc.val - (List.finRange 32).countP (sounding s)

/-- Voice `i` is one of the `needed − avail` voices a note-on of `n` steals: fewer than that many come before it. -/
def isStolen (n : Fin 128) (s : State) (i : Fin 32) : Bool :=
  sounding s i &&
    decide (((List.finRange 32).countP fun j => sounding s j && stolenFirst n s j i) < neededVoices s - availVoices s)

/-- How many of the first `p` voices of the queue are inactive. -/
def freeBefore (s : State) (p : Nat) : Nat :=
  (List.range p).countP fun m => !(s.voices.get (Fin.ofNat 32 (queueAt s m))).active

/-- Voice `i` is inactive and among the first `needed` inactive voices of the queue (R312). -/
def isPlaced (s : State) (i : Fin 32) : Prop :=
  (s.voices.get i).active = false ∧
    ∃ p < s.g.totalvc.val, i.val = queueAt s p ∧ freeBefore s p < neededVoices s

/-! ### One pass of a tick over the voices -/

/-- The running values of one half-sample: the voices, the next draw, the two sums. -/
structure Pass where
  voices : Vec Voice 32
  draws : Nat
  l : F32
  r : F32

/-- Voice `i` served: an active one takes its sample step and its sample is added with its slot's gains, an inactive
one is skipped (R316, R317). -/
def serveVoice (c : VoiceCtx) (pan : Vec F32 8) (i : Fin 32) (a : Pass) : Except Fault Pass :=
  if (a.voices.get i).active then
    match (a.voices.get i).processSample c a.draws with
    | .error e => .error e
    | .ok o =>
      let gains := Config.lawPan (pan.get (Fin.ofNat 8 (i.val % 8)))
      .ok ⟨a.voices.set i o.voice, o.draws, fadd a.l (fmul o.out gains.1), fadd a.r (fmul o.out gains.2)⟩
  else .ok a

/-- The voices of a list served one after another; a fault ends the pass (R316). -/
def serve (c : VoiceCtx) (pan : Vec F32 8) : List (Fin 32) → Pass → Except Fault Pass
  | [], a => .ok a
  | i :: rest, a => (serveVoice c pan i a).bind (serve c pan rest)

/-- The voices in the order the queue gives them, one round from the cursor (R316). -/
def queueOrder (s : State) : List (Fin 32) := (List.range s.g.totalvc.val).map fun k => Fin.ofNat 32 (queueAt s k)

/-- One half-sample of R316 with vibrato amount `amt`: the state after it, with the cursor where it was, and the two
sums. -/
def halfTick (amt : F32) (s : State) : Except Fault (State × F32 × F32) :=
  let hz := rateOf s.g.oversample s.g.fs
  let L := s.g.lfo1.update hz s.g.bpm s.draws
  let W := s.g.vib.update hz s.g.bpm L.draws
  let c : VoiceCtx :=
    { fsI := hz, oversample := s.g.oversample, bpm := s.g.bpm, tuning := s.tuning, lfo1 := L.y, vib := fmul W.y amt }
  match serve c s.g.pan (queueOrder s) ⟨s.voices, W.draws, 0#32, 0#32⟩ with
  | .error e => .error e
  | .ok a =>
    .ok ({ s with voices := a.voices, draws := a.draws, g := { s.g with lfo1 := L.lfo, vib := W.lfo } }, a.l, a.r)

/-! ### Envelope coefficients and one oscillator sample -/

/-- `expCoef` (R192). -/
def expRule (fsI target current tMs : F32) : F32 :=
  fdiv (fsub (Config.numLn target) (Config.numLn current)) (fmul (fmul fsI tMs) (lit 1 1000))

/-- `pitchHz` (R171). -/
def hzOf (s : F32) : F32 :=
  fmul (lit 440 1) (numExp (fmul (lit 577622650466621091181026767881 10000000000000000000000000000000) s))

/-- The first six terms of `semi1` and `semi2`, left to right (R175, R177). -/
def semiSum (o : OscBlock) (note pitch pto slop : F32) : F32 :=
  fadd (fadd (fadd (fadd (fadd note pitch) pto) o.tune) o.transpose) (fmul slop o.detuneAmt)

/-- The width clamped to `[0.1, 1]` (R174). -/
def widthOf (base mod : F32) : F32 := fmin (fmax (fadd base mod) (lit 1 10)) (lit 1 1)

/-- `getValue(P, naive) + aliasReduction(P)` and the primitive after both (R176). -/
def primOut {n : Nat} (P : OscPrim n) (naive : F32) : F32 × OscPrim n :=
  let v := P.dl.feedReturn naive
  let a := { P with dl := v.2 }.aliasReduction
  (fadd v.1 a.1, a.2)

/-- The selection of R176. -/
def chosen (sawOn pulOn : Bool) (s p t : F32) : F32 :=
  if pulOn then (if sawOn then fadd (fadd 0#32 p) s else fadd 0#32 p)
  else if sawOn then fadd 0#32 s else t

/-- The three naive waveforms at phase `x` (R142 to R144). -/
def sawAt (x : F32) : F32 := fsub x (lit 1 2)
def pulseAt (x w : F32) : F32 := if flt x w then lit 1 2 else fneg (lit 1 2)
def triAt (x : F32) : F32 :=
  if flt x (lit 1 2) then fsub (fmul (lit 2 1) x) (lit 1 2) else fsub (lit 3 2) (fmul (lit 2 1) x)

/-- Oscillator 1 at increment `d1`: `o1` and the block (R175, R176). -/
def osc1Result (o : OscBlock) (d1 w1 : F32) : F32 × OscBlock :=
  let x := fadd o.x1 d1
  let x1 := if fle (lit 1 1) x then fsub x (lit 1 1) else x
  let s := primOut (sawLeader o.saw1 x d1) (sawAt x1)
  let p := primOut (pulseLeader o.pul1 o.x1 x d1 w1) (pulseAt x1 w1)
  let t := primOut (triLeader o.tri1 o.x1 x d1) (triAt x1)
  (chosen o.saw1On o.pul1On s.1 p.1 t.1, { o with x1 := x1, saw1 := s.2, pul1 := p.2, tri1 := t.2 })

/-- Oscillator 2 at increment `d2` with the delayed sync signals: `o2` and the block (R177, R179). -/
def osc2Result (o : OscBlock) (d2 w2 : F32) (hsrD : Bool) (hsfD : F32) : F32 × OscBlock :=
  let y := fadd o.x2 d2
  let x2 := if hsrD then fmul d2 hsfD else if fle (lit 1 1) y then fsub y (lit 1 1) else y
  let s := primOut (sawFollower o.saw2 y d2 hsrD hsfD) (sawAt x2)
  let p := primOut (pulseFollower o.pul2 o.x2 y d2 w2 hsrD hsfD) (pulseAt x2 w2)
  let t := primOut (triFollower o.tri2 o.x2 y d2 hsrD hsfD) (triAt x2)
  (chosen o.saw2On o.pul2On s.1 p.1 t.1, { o with x2 := x2, saw2 := s.2, pul2 := p.2, tri2 := t.2 })

/-- `MemRead(T, k) × (1 − frac) + MemRead(T, k + 1) × frac` (R75). -/
def between (T : Nat → F32) (k : Nat) (frac : F32) : F32 :=
  fadd (fmul (T k) (fsub (lit 1 1) frac)) (fmul (T (k + 1)) frac)

/-! ### The events of an oscillator primitive -/

/-- One injection a rule lists: whether its guard holds, whether it is a corner (BLAMP, R138) or a step (BLEP, R137),
its fraction and its scale. -/
structure Event where
  guard : Bool
  corner : Bool
  frac : F32
  scale : F32

/-- The injection of one event where its guard holds, from the table its kind and `d2` select (R137, R138, R141). -/
def injectOne {n : Nat} (P : OscPrim n) (e : Event) : OscPrim n :=
  if e.guard then
    P.mixIn
      (if e.corner then (if P.d2 then Config.blampD2 else Config.blamp)
       else (if P.d2 then Config.blepD2 else Config.blep))
      Config.bOversampling e.frac e.scale
  else P

/-- The events of a rule, in the order it lists them. -/
def injectAll {n : Nat} (P : OscPrim n) (events : List Event) : OscPrim n := events.foldl injectOne P

/-- `keep(frac, reset, hsFrac)` (R148). -/
def kept (frac : F32) (reset : Bool) (hsFrac : F32) : Bool := !reset || flt hsFrac frac

/-! ### One-pole and LFO -/

/-- `tptLp(state, x, fc, rate)`: the output and the new state (R240). -/
def onePole (state x fc rate : F32) : F32 × F32 :=
  let g := fmul (fdiv fc rate) 0x40490FDB#32
  let v := fdiv (fmul (fsub x state) g) (fadd (lit 1 1) g)
  (fadd v state, fadd (fadd v state) v)

/-- `pair(k, a, b)` (R224; the negation is log 13). -/
def pairOf (k a b : F32) : F32 := if flt k 0#32 then fmul (fneg k) a else fmul k b

/-- The triangle of R223, with 2/π one constant (log 12). -/
def lfoTriangle (p : F32) : F32 :=
  if fle (fabs p) 0x3FC90FDB#32 then fmul 0x3F22F983#32 p
  else if flt 0x3FC90FDB#32 p then fmul 0x3F22F983#32 (fsub 0x40490FDB#32 p)
  else fmul 0x3F22F983#32 (fsub (fneg 0x40490FDB#32) p)

/-- `raw`, the sum of the three blended pairs of the six waveforms at the unit's phase (R223, R224). -/
def rawOf (l : Lfo) : F32 :=
  let p := l.phase
  let sine := Config.numSin p
  let saw := fdiv p 0x40490FDB#32
  let square := if fle 0#32 p then lit 1 1 else fneg (lit 1 1)
  let sg := fadd l.shPrev (fmul (fsub l.sh l.shPrev) (fdiv (fadd p 0x40490FDB#32) 0x40C90FDB#32))
  fadd (fadd (pairOf l.wave1 sine (lfoTriangle p)) (pairOf l.wave2 saw square)) (pairOf l.wave3 l.sh sg)

/-! ### Exact values -/

/-- `r` is the binary32 number nearest to the exact value `p / q` units (`q > 0`), ties to even, infinite exactly
from half a unit in the last place above the largest finite number, with the sign of the exact value (R12). -/
def RoundedTo (p : Int) (q : Nat) (r : F32) : Prop :=
  isNaN r = false ∧
  (isInf r = true ↔ (unitsOfBits (infBits - 1) + unitsOfBits infBits) * q ≤ 2 * p.natAbs) ∧
  (isFinite r = true → ∀ y : F32, isFinite y = true →
    (p - fint r * q).natAbs ≤ (p - fint y * q).natAbs ∧
    ((p - fint r * q).natAbs = (p - fint y * q).natAbs → fint r ≠ fint y → fmagBits r % 2 = 0)) ∧
  (p ≠ 0 → fsign r = decide (p < 0))

/-- The infinity of a sign. -/
def infinity (sign : Bool) : F32 := if sign then 0xFF800000#32 else 0x7F800000#32

/-- The zero of a sign. -/
def zero (sign : Bool) : F32 := if sign then 0x80000000#32 else 0#32

end Sys2Proof.Claims

open Sys2Proof Sys2Proof.Machine Sys2Proof.Claims

/-- R101, R102, R107: no operand bit of any of the 70 commands is dropped by the encoding. -/
def Obligations.DecodeOfEncodeIsTheCommand : Prop :=
  ∀ i : Instr, decode (encode i) = .ok i

/-- R101, R102, R109: a legal word is determined by its command and operands. -/
def Obligations.EncodeOfDecodeIsTheWord : Prop :=
  ∀ (w : CmdWord) (i : Instr), decode w = .ok i → encode i = w

/-- R103. -/
def Obligations.WordIsCommandOfItsRow : Prop :=
  (∀ (w : CmdWord) (i : Instr), decode w = .ok i → w &&& i.rowMask = i.rowMatch) ∧
  (∀ (w : CmdWord) (i : Instr), w &&& i.rowMask = i.rowMatch →
    ∃ j : Instr, decode w = .ok j ∧ j.mnemonic = i.mnemonic) ∧
  (∀ (w : CmdWord) (i j : Instr), w &&& i.rowMask = i.rowMatch → w &&& j.rowMask = j.rowMatch →
    i.mnemonic = j.mnemonic) ∧
  (∀ i : Instr, i.rowMatch = fieldOP (encode i) ++ 0#56 ∧
    (i.rowMask = 0xFFFFFFFFFFFFFFFF#64 ∨ i.rowMask = 0xFFFFFFFF00000000#64 ∨
     i.rowMask = 0xFF00FFFF00000000#64 ∨ i.rowMask = 0xFF0000FF00000000#64))

/-- The examples of R341, R344, R345, R346, R351, R381, R385, R416, the all-zero word of R106, the byte order of R76. -/
def Obligations.WorkedEncodingsDecode : Prop :=
  decode 0x01000000473B8000#64 = .ok (.setrate (lit 48000 1)) ∧
  decode 0x0401000042F00000#64 = .ok (.playhead 1#8 (lit 120 1)) ∧
  decode 0x103C00003F4CCCCD#64 = .ok (.noteon 60#8 0#8 (lit 8 10)) ∧
  decode 0x113C000000000000#64 = .ok (.noteoff 60#8 0#8 0#32) ∧
  decode 0x16000000BF800000#64 = .ok (.pitchwheel (fneg (lit 1 1))) ∧
  decode 0x210000003E800000#64 = .ok (.polyphony (lit 25 100)) ∧
  decode 0x250300003F000000#64 = .ok (.pan 3#8 (lit 1 2)) ∧
  decode 0x500000003F000000#64 = .ok (.cutoff (lit 1 2)) ∧
  decode 0x0000000000000000#64 = .error .reservedOpcode ∧
  ∀ (b : Fin 8 → BitVec 8), ∃ w : CmdWord,
    wordOfBytes (List.ofFn b) = some w ∧ (∀ k : Fin 8, w.extractLsb' (8 * k.val) 8 = b k) ∧
    decodeBytes (List.ofFn b) = (decode w).toOption ∧ wordBytes w = List.ofFn b

/-- R450, with `no row matches` as R103 says it. -/
def Obligations.IllegalWordRaisesIllegalCommand : Prop :=
  ∀ (s : State) (w : CmdWord) (rest : List HostInput),
    (∀ i : Instr, w &&& i.rowMask ≠ i.rowMatch) → s.inputs = .command w :: rest →
      step s = .next { s with inputs := rest, fault := faultAfter 1#8 w s.fault }

/-- R100, R109. -/
def Obligations.StepRunsTheDecodedCommand : Prop :=
  ∀ (s : State) (w : CmdWord) (rest : List HostInput) (i : Instr),
    s.inputs = .command w :: rest → decode w = .ok i → step s = exec i { s with inputs := rest }

/-- R480, R481, R15. That an idle port is a step, and that draws are numbered on across a reset, is the model's choice (log 16, 18). -/
def Obligations.IdleResetAndTuningSteps : Prop :=
  ∀ (s : State) (rest : List HostInput) (table : Vec F64 128),
    (s.inputs = [] → step s = .next s) ∧
    (s.inputs = .reset :: rest → step s = .next (State.resetWith s.draws s.tuning rest)) ∧
    (s.inputs = .tuning table :: rest → step s = .next { s with tuning := table, inputs := rest })

/-- R55, R58, R61, R482. -/
def Obligations.ResetLeavesVoicesSilent : Prop :=
  ∀ (d : Nat) (tuning : Vec F64 128) (inputs : List HostInput) (i : Fin 32),
    let r := State.resetWith d tuning inputs
    let v := r.voices.get i
    (v.gate = false ∧ v.sustHold = false ∧ v.active = false ∧ v.note = 0 ∧ v.velocity = 0#32 ∧
      v.pitchBend = 0#32 ∧ v.cutoff = 0#32 ∧ v.portaState = 0#32 ∧ v.brightState = 0#32) ∧
    (v.ampEnv.state = .silent ∧ v.ampEnv.value = 0#32 ∧ v.ampEnv.coef = 0#32 ∧
      v.fltEnv.state = .silent ∧ v.fltEnv.value = 0#32 ∧ v.fltEnv.coef = 0#32) ∧
    ((∀ k, v.dlAenv.buf.get k = 0#32 ∧ v.dlFenv.buf.get k = 0#32 ∧ v.dlLfo.buf.get k = 0#32) ∧
      (∀ k, v.dlAenv1.buf.get k = 0#32) ∧
      v.dlAenv.pos.val = 0 ∧ v.dlFenv.pos.val = 0 ∧ v.dlLfo.pos.val = 0 ∧ v.dlAenv1.pos.val = 0) ∧
    (∀ k : Fin 5, v.slop.get k = draw (d + (5 * i.val + k.val))) ∧ r.draws = d + 160

/-- R60, R62, R64, R65, and the part of R57, R59 and R63 that gives values. -/
def Obligations.ResetLeavesGlobalsClear : Prop :=
  ∀ (d : Nat) (tuning : Vec F64 128) (inputs : List HostInput),
    let r := State.resetWith d tuning inputs
    (∀ i : Fin 32,
      let o := (r.voices.get i).osc
      let f := (r.voices.get i).flt
      o.x1 = 0#32 ∧ o.x2 = 0#32 ∧ o.noise = Config.noiseInit ∧
      (∀ P ∈ [o.saw1, o.pul1, o.tri1, o.saw2, o.pul2, o.tri2],
        (∀ k, P.ring.get k = 0#32) ∧ P.bP.val = 0 ∧ (∀ k, P.dl.buf.get k = 0#32) ∧ P.dl.pos.val = 0 ∧ P.d2 = false) ∧
      (∀ k, o.dlSync.buf.get k = false ∧ o.dlSyncFrac.buf.get k = 0#32 ∧ o.dlOsc1.buf.get k = 0#32) ∧
      o.dlSync.pos.val = 0 ∧ o.dlSyncFrac.pos.val = 0 ∧ o.dlOsc1.pos.val = 0 ∧
      f.s1 = 0#32 ∧ f.s2 = 0#32 ∧ f.s3 = 0#32 ∧ f.s4 = 0#32) ∧
    (∀ l ∈ [r.g.lfo1, r.g.vib] ++ (List.finRange 32).map (fun i => (r.voices.get i).lfo2),
      l.phase = 0#32 ∧ l.sh = 0#32 ∧ l.shPrev = 0#32 ∧ l.smooth = 0#32) ∧
    (r.g.vib.wave1 = fneg (lit 1 1) ∧ r.g.vib.wave2 = 0#32 ∧ r.g.vib.wave3 = 0#32 ∧ r.g.vib.sync = false ∧
      r.g.vib.rawRate = 0#32) ∧
    (r.g.asPlayedCounter = 0#64 ∧ (∀ k, r.g.voiceAge.get k = 0#64 ∧ r.g.stolen.get k = 0#32) ∧ r.g.vqIdx = 0 ∧
      ∀ k, r.g.decL.get k = 0#32 ∧ r.g.decR.get k = 0#32) ∧
    (r.g.smCutoff.state = 0#32 ∧ r.g.smBend = ⟨0#32, 0#32⟩ ∧ r.g.smMod = ⟨0#32, 0#32⟩ ∧ r.g.qnpos = 0#32) ∧
    r.g.written = [] ∧ (r.outL = 0#32 ∧ r.outR = 0#32 ∧ r.fault = ⟨false, 0#8, 0#64⟩)

/-- R105: what each range means on bit patterns and on index operands, and which range checks which operand of which command. -/
def Obligations.OperandRangesAsBitPatterns : Prop :=
  (∀ v : F32,
    (unitRange v = true ↔ v.toNat ≤ 0x3F800000 ∨ v = 0x80000000#32) ∧
    (bipolarRange v = true ↔ v.toNat ≤ 0x3F800000 ∨ 0x80000000 ≤ v.toNat ∧ v.toNat ≤ 0xBF800000) ∧
    (rateRange v = true ↔ 0 < v.toNat ∧ v.toNat < 0x7F800000) ∧
    (tempoRange v = true ↔ v.toNat < 0x7F800000 ∨ v = 0x80000000#32) ∧
    (positionRange v = true ↔ v.toNat % 2 ^ 31 < 0x7F800000)) ∧
  (∀ a : BitVec 8,
    (noteRange a = true ↔ a.toNat ≤ 127) ∧ (slotRange a = true ↔ a.toNat ≤ 7) ∧
    (modRange a = true ↔ a.toNat < Config.modCount) ∧ (resetFlagRange a = true ↔ a.toNat ≤ 1)) ∧
  (∀ i : Instr,
    i.wellFormed = true ↔
      InRange i.mnemonic ((encode i).extractLsb' 48 8).toNat ((encode i).extractLsb' 0 32))

/-- R451. -/
def Obligations.OutOfRangeOperandRaisesOperandRange : Prop :=
  ∀ (i : Instr) (s : State), i.wellFormed = false → exec i s = .next (faulted 2#8 (encode i) s)

/-- R452. -/
def Obligations.UnconfiguredCommandRaisesNotConfigured : Prop :=
  ∀ (i : Instr) (s : State),
    i.mnemonic ∈ ["TICK", "NOTEON", "NOTEOFF", "SUSTON", "SUSTOFF", "ALLNOTESOFF", "ALLSOUNDOFF"] →
    i.wellFormed = true → (∃ id : RegId, id ∈ RegId.all ∧ id ∉ s.g.written) →
      exec i s = .next (faulted 3#8 (encode i) s)

/-- R340: a command that does not fault runs to completion and cannot fault afterwards. -/
def Obligations.AcceptedCommandLeavesFaultAlone : Prop :=
  (∀ (i : Instr) (s : State), i ≠ .tick → i.wellFormed = true →
      (i.needsConfigured = true → s.configured = true) → ∃ t, exec i s = .next t ∧ t.fault = s.fault) ∧
  (∀ s t : State, s.configured = true → exec .tick s = .next t → t.fault = s.fault)

/-- R453: once `valid` is set, no command and no later fault changes any of its fields; only reset clears it. -/
def Obligations.RecordedFaultIsSticky : Prop :=
  ∀ s t : State, s.fault.valid = true → (∀ rest, s.inputs ≠ .reset :: rest) → step s = .next t → t.fault = s.fault

/-- R340, R184, R494: the only case the spec gives no successor is an oscillator increment out of range, in a TICK. -/
def Obligations.OnlyAConfiguredTickCanStop : Prop :=
  (∀ (i : Instr) (s : State), i ≠ .tick → ∃ t, exec i s = .next t) ∧
  (∀ s : State, s.configured = false → ∃ t, exec .tick s = .next t) ∧
  (∀ (s : State) (r : Refusal), step s ≠ .refused r) ∧
  (∀ (s : State) (e : Fault), step s = .fault e →
    s.configured = true ∧ ∃ rest, s.inputs = .command 0x0200000000000000#64 :: rest)

/-- R353: once `CONFIGURED` holds it holds until reset (`G.written` only grows). -/
def Obligations.WrittenRegistersOnlyGrow : Prop :=
  ∀ s t : State, (∀ rest, s.inputs ≠ .reset :: rest) → step s = .next t →
    (∀ id ∈ s.g.written, id ∈ t.g.written) ∧ (s.configured = true → t.configured = true)

/-- R41, R302, R42, R38, R39, R454. The canonical order of the written set is the model's choice (log 20). -/
def Obligations.EveryStepKeepsTheStateInvariant : Prop :=
  ∀ s t : State, s.Inv → step s = .next t → t.Inv

/-- R33, R136, R177: after the oscillator lines the phases lie in `[0,1)` under the precondition of R136. -/
def Obligations.EveryStepKeepsPhasesInRange : Prop :=
  ∀ s t : State, s.PhasesInRange → step s = .next t → t.PhasesInRange

/-- R270, R271, R272, R288, R305, R315. -/
def Obligations.EveryStepKeepsGatedVoicesSounding : Prop :=
  ∀ s t : State, s.GatedSound → step s = .next t → t.GatedSound

/-- R55, R57, R60, R62, R64, R65. The polyphony of 1 before POLYPHONY is written is the model's choice (log 3). -/
def Obligations.ResetMeetsTheInvariants : Prop :=
  ∀ (d : Nat) (tuning : Vec F64 128) (inputs : List HostInput),
    (State.resetWith d tuning inputs).Inv ∧ (State.resetWith d tuning inputs).PhasesInRange ∧
    (State.resetWith d tuning inputs).GatedSound

/-- R56, R48, R498, R343, R310, R184 (d), R15. -/
def Obligations.WhatEachCommandMayWrite : Prop :=
  ∀ (i : Instr) (s t : State), exec i s = .next t →
    t.inputs = s.inputs ∧ t.tuning = s.tuning ∧
    (∀ k : Fin 32, (t.voices.get k).slop = (s.voices.get k).slop) ∧
    (i ≠ .tick → t.outL = s.outL ∧ t.outR = s.outR) ∧
    (i ≠ .tick → (∀ hz, i ≠ .setrate hz) → t.draws = s.draws) ∧
    ((∀ pos, i ≠ .playpos pos) → t.g.qnpos = s.g.qnpos) ∧
    ((∀ n c v, i ≠ .noteon n c v) →
      t.g.asPlayedCounter = s.g.asPlayedCounter ∧ t.g.voiceAge = s.g.voiceAge) ∧
    (i ≠ .tick → ∀ k : Fin 32,
      (t.voices.get k).osc.x1 = (s.voices.get k).osc.x1 ∧ (t.voices.get k).osc.x2 = (s.voices.get k).osc.x2)

/-- R341. -/
def Obligations.SetrateStoresRateAndRedrawsTuningSlop : Prop :=
  ∀ (s : State) (hz : F32),
    decode (packF 0x01#8 hz) = .ok (.setrate hz) ∧
    (∀ a b z : BitVec 8, a ≠ 0#8 ∨ b ≠ 0#8 ∨ z ≠ 0#8 →
      decode (0x01#8 ++ a ++ b ++ z ++ hz) = .error .nonzeroField) ∧
    (rateRange hz = true → ∃ t : State, exec (.setrate hz) s = .next t ∧
      t = { s with
            draws := s.draws + 64
            voices := t.voices
            g := { s.g with fs := hz, written := insertId .fs s.g.written } } ∧
      ∀ i : Fin 32,
        let v := s.voices.get i
        let v1 := { v with
          osc := { v.osc with
            tuneSlop1 := draw (s.draws + 2 * i.val)
            tuneSlop2 := draw (s.draws + 2 * i.val + 1) } }
        t.voices.get i =
          if RegId.oversample ∈ s.g.written then rerated (rateOf s.g.oversample hz) v1 else v1) ∧
    (rateRange hz = false → exec (.setrate hz) s = .next (faulted 2#8 (packF 0x01#8 hz) s))

/-- R343, R351, R352. -/
def Obligations.PositionAndWheelsStoreTheirOperand : Prop :=
  ∀ (s : State) (v : F32),
    (positionRange v = true → exec (.playpos v) s = .next { s with g := { s.g with qnpos := v } }) ∧
    (positionRange v = false → exec (.playpos v) s = .next (faulted 2#8 (packF 0x03#8 v) s)) ∧
    (bipolarRange v = true →
      exec (.pitchwheel v) s = .next { s with g := { s.g with smBend := { s.g.smBend with target := v } } }) ∧
    (bipolarRange v = false → exec (.pitchwheel v) s = .next (faulted 2#8 (packF 0x16#8 v) s)) ∧
    (unitRange v = true →
      exec (.modwheel v) s = .next { s with g := { s.g with smMod := { s.g.smMod with target := v } } }) ∧
    (unitRange v = false → exec (.modwheel v) s = .next (faulted 2#8 (packF 0x17#8 v) s)) ∧
    (∀ (op a b z : BitVec 8), op = 0x03#8 ∨ op = 0x16#8 ∨ op = 0x17#8 → a ≠ 0#8 ∨ b ≠ 0#8 ∨ z ≠ 0#8 →
      decode (op ++ a ++ b ++ z ++ v) = .error .nonzeroField)

/-- R344. -/
def Obligations.PlayheadStoresTempoAndRestartsSyncedLfos : Prop :=
  ∀ (s : State) (a : BitVec 8) (bpm : F32),
    (∀ b z : BitVec 8, b ≠ 0#8 ∨ z ≠ 0#8 → decode (0x04#8 ++ a ++ b ++ z ++ bpm) = .error .nonzeroField) ∧
    (a = 0#8 → tempoRange bpm = true →
      exec (.playhead a bpm) s =
        .next { s with g := { s.g with bpm := bpm, written := insertId .bpm s.g.written } }) ∧
    (a = 1#8 → tempoRange bpm = true → ∃ t : State, exec (.playhead a bpm) s = .next t ∧
      t = { s with
            voices := t.voices
            g := { s.g with
              bpm := bpm
              written := insertId .bpm s.g.written
              lfo1 := if RegId.lfo1sync ∈ s.g.written ∧ s.g.lfo1.sync = true then { s.g.lfo1 with phase := 0#32 }
                      else s.g.lfo1 } } ∧
      ∀ i : Fin 32,
        t.voices.get i =
          if RegId.lfo2sync ∈ s.g.written ∧ (s.voices.get i).lfo2.sync = true then
            { s.voices.get i with lfo2 := { (s.voices.get i).lfo2 with phase := 0#32 } }
          else s.voices.get i) ∧
    (1 < a.toNat ∨ tempoRange bpm = false →
      exec (.playhead a bpm) s = .next (faulted 2#8 (packAF 0x04#8 a bpm) s))

/-- R310, R301, R312, R345. -/
def Obligations.NoteonTakesTheNextFreeVoice : Prop :=
  ∀ (s : State) (note channel : BitVec 8) (vel : F32) (k : Nat) (j : Fin 32),
    NoteOk s note vel → s.g.uni = false → s.g.vqIdx.val < s.g.totalvc.val → k < s.g.totalvc.val →
    (∀ m < k, ∀ i : Fin 32, i.val = queueAt s m → (s.voices.get i).active = true) →
    j.val = queueAt s k → (s.voices.get j).active = false →
      exec (.noteon note channel vel) s =
        .next { s with
          voices := s.voices.set j (retriggered s.g.fsI (noteOf note) vel (s.voices.get j))
          g := { aged (noteOf note) s.g with vqIdx := Fin.ofNat 32 (queueAt s (k + 1)) } }

/-- R310, R311, R303, R345. The ages compared are those after the new note's age is recorded. -/
def Obligations.NoteonStealsTheOldestNote : Prop :=
  ∀ (s : State) (note channel : BitVec 8) (vel : F32) (j : Fin 32),
    NoteOk s note vel → s.g.uni = false →
    (∀ i : Fin 32, i.val < s.g.totalvc.val → (s.voices.get i).active = true) →
    j.val < s.g.totalvc.val →
    (∀ i : Fin 32, i.val < s.g.totalvc.val →
      let age (i : Fin 32) : Nat := ((aged (noteOf note) s.g).voiceAge.get (noteEntry (s.voices.get i).note)).toNat
      age j < age i ∨ age j = age i ∧ j.val ≤ i.val) →
      let old := noteEntry (s.voices.get j).note
      exec (.noteon note channel vel) s =
        .next { s with
          voices := s.voices.set j (retriggered s.g.fsI (noteOf note) vel (s.voices.get j))
          g := { aged (noteOf note) s.g with stolen := s.g.stolen.set old (s.g.stolen.get old + 1#32) } }

/-- R310, R311, R312, R309 (stealing is always allowed), R321, R345. The ages compared are those after the new note's age is recorded. -/
def Obligations.NoteonStealsTheShortfallAndTakesFreeVoices : Prop :=
  (∀ (s : State) (note channel : BitVec 8) (vel : F32), NoteOk s note vel → s.g.vqIdx.val < s.g.totalvc.val →
    let n := noteOf note
    ∃ (t : State) (q : Nat), exec (.noteon note channel vel) s = .next t ∧
      t = { s with
            voices := t.voices
            g := { aged n s.g with vqIdx := Fin.ofNat 32 (queueAt s q), stolen := t.g.stolen } } ∧
      (q ≤ s.g.totalvc.val ∧ freeBefore s q = min (neededVoices s) (availVoices s) ∧
        ∀ p < q, freeBefore s p < min (neededVoices s) (availVoices s)) ∧
      (∀ i : Fin 32,
        (isStolen n s i = true ∨ isPlaced s i →
          t.voices.get i = retriggered s.g.fsI n vel (s.voices.get i)) ∧
        (isStolen n s i = false → ¬isPlaced s i → t.voices.get i = s.voices.get i)) ∧
      (∀ k : Fin 129, t.g.stolen.get k =
        s.g.stolen.get k +
          BitVec.ofNat 32
            ((List.finRange 32).countP fun i => isStolen n s i && decide (noteEntry (s.voices.get i).note = k))) ∧
      (List.finRange 32).countP (isStolen n s) = neededVoices s - availVoices s) ∧
  (∀ (s : State) (note channel : BitVec 8) (vel : F32),
    NoteOk s note vel → s.g.uni = true → s.g.vqIdx.val < s.g.totalvc.val → AllIdle s →
      let n := min s.g.univc.val s.g.totalvc.val
      ∃ t : State, exec (.noteon note channel vel) s = .next t ∧
        t = { s with
              voices := t.voices
              g := { aged (noteOf note) s.g with vqIdx := Fin.ofNat 32 (queueAt s n) } } ∧
        ∀ i : Fin 32, t.voices.get i =
          if ∃ m < n, i.val = queueAt s m then retriggered s.g.fsI (noteOf note) vel (s.voices.get i)
          else s.voices.get i)

/-- R319. The premise on the counts rules out a wrap of a 32-bit count, which the spec does not consider (log 22). -/
def Obligations.NoteonConservesSoundingNotes : Prop :=
  ∀ (s t : State) (note channel : BitVec 8) (vel : F32),
    s.Inv → (∀ k, (s.g.stolen.get k).toNat + 32 < 2 ^ 32) → exec (.noteon note channel vel) s = .next t →
      ((List.finRange 32).countP fun i => (t.voices.get i).active) ≤ t.g.totalvc.val ∧
      ∀ k : Fin 128, (∃ i, (s.voices.get i).active = true ∧ (s.voices.get i).note = k) →
        (∃ i, (t.voices.get i).active = true ∧ (t.voices.get i).note = k) ∨
          0 < (t.g.stolen.get (noteEntry k)).toNat

/-- R271, R272, R273, R274. -/
def Obligations.VoiceNoteOperationsFollowTheirRules : Prop :=
  ∀ (fsI vel : F32) (n : Fin 128) (v : Voice),
    v.noteOn fsI n vel = retriggered fsI n vel v ∧ v.noteOff fsI = keyUp fsI v ∧
    v.sustOn = { v with sustHold := true } ∧ v.sustOff fsI = pedalUp fsI v

/-- R313, R314, R346. -/
def Obligations.NoteoffWithNoPendingKeyReleases : Prop :=
  ∀ (s : State) (note channel : BitVec 8) (vel : F32),
    NoteOk s note vel → (∀ k : Fin 128, k ≠ noteOf note → s.g.stolen.get (noteEntry k) = 0#32) →
      ∃ t : State, exec (.noteoff note channel vel) s = .next t ∧
        t = { s with
              voices := t.voices
              g := { s.g with stolen := s.g.stolen.set (noteEntry (noteOf note)) 0#32 } } ∧
        ∀ i : Fin 32,
          let v := s.voices.get i
          t.voices.get i =
            if i.val < s.g.totalvc.val ∧ v.gate = true ∧ v.note = noteOf note then keyUp s.g.fsI v else v

/-- R313, R314, R346, and the note-off of R321. That a tie of ages goes to the lowest key is the model's choice (log 23); the second clause has no tie. -/
def Obligations.NoteoffGivesTheVoiceToThePendingKey : Prop :=
  (∀ (s : State) (note channel : BitVec 8) (vel : F32), NoteOk s note vel →
    let n := noteOf note
    let below := (List.finRange 32).filter fun i => decide (i.val < s.g.totalvc.val)
    let r := below.foldl (freed n s.g) (s.voices, s.g.stolen)
    exec (.noteoff note channel vel) s =
      .next { s with voices := r.1, g := { s.g with stolen := r.2.set (noteEntry n) 0#32 } }) ∧
  (∀ (s : State) (note channel : BitVec 8) (vel : F32) (i : Fin 32) (k : Fin 128),
    NoteOk s note vel → i.val < s.g.totalvc.val →
    (∀ m : Fin 32, m.val < s.g.totalvc.val →
      ((s.voices.get m).gate = true ∧ (s.voices.get m).note = noteOf note ↔ m = i)) →
    k ≠ noteOf note → 0 < (s.g.stolen.get (noteEntry k)).toNat →
    (∀ m : Fin 128, m ≠ noteOf note → m ≠ k → 0 < (s.g.stolen.get (noteEntry m)).toNat →
      (s.g.voiceAge.get (noteEntry m)).toNat < (s.g.voiceAge.get (noteEntry k)).toNat) →
      exec (.noteoff note channel vel) s =
        .next { s with
          voices := s.voices.set i (retriggered s.g.fsI k velKeep (s.voices.get i))
          g := { s.g with
            stolen := (s.g.stolen.set (noteEntry k) (s.g.stolen.get (noteEntry k) - 1#32)).set
              (noteEntry (noteOf note)) 0#32 } })

/-- R320, for any two notes and from any state of that shape. -/
def Obligations.StolenVoiceReturnsToItsKey : Prop :=
  ∀ (s : State) (a b c1 c2 c3 : BitVec 8) (v w x : F32),
    NoteOk s a v → NoteOk s b w → unitRange x = true → a ≠ b → s.g.totalvc.val = 1 → s.g.uni = false →
    s.g.vqIdx = 0 → (s.voices.get 0).active = false → (∀ k, s.g.stolen.get k = 0#32) →
      ∃ s1 s2 s3 : State,
        exec (.noteon a c1 v) s = .next s1 ∧ exec (.noteon b c2 w) s1 = .next s2 ∧
        exec (.noteoff b c3 x) s2 = .next s3 ∧
        (s2.voices.get 0).note = noteOf b ∧ s2.g.stolen.get (noteEntry (noteOf a)) = 1#32 ∧
        (s3.voices.get 0).note = noteOf a ∧ (s3.voices.get 0).velocity = w ∧
        (s3.voices.get 0).gate = true ∧ (s3.voices.get 0).active = true ∧
        s3.g.stolen.get (noteEntry (noteOf a)) = 0#32 ∧ s3.g.stolen.get (noteEntry (noteOf b)) = 0#32

/-- R313, R314, R346. -/
def Obligations.NoteoffLeavesNoVoiceGatedOnTheKey : Prop :=
  ∀ (s : State) (note channel : BitVec 8) (vel : F32), NoteOk s note vel →
    ∃ t : State, exec (.noteoff note channel vel) s = .next t ∧ t.g.totalvc = s.g.totalvc ∧
      t.g.stolen.get (noteEntry (noteOf note)) = 0#32 ∧
      ∀ i : Fin 32,
        (i.val < s.g.totalvc.val → ¬((t.voices.get i).gate = true ∧ (t.voices.get i).note = noteOf note)) ∧
        (s.g.totalvc.val ≤ i.val → t.voices.get i = s.voices.get i)

/-- R315, R347, R348, R349, R350. -/
def Obligations.PedalAndPanicCommandsReachAllVoices : Prop :=
  ∀ s : State,
    (∀ op ∈ [0x12#8, 0x13#8, 0x14#8, 0x15#8], ∀ x : BitVec 56, x ≠ 0#56 → decode (op ++ x) = .error .nonzeroField) ∧
    (s.configured = false →
      exec .suston s = .next (faulted 3#8 0x1200000000000000#64 s) ∧
      exec .sustoff s = .next (faulted 3#8 0x1300000000000000#64 s) ∧
      exec .allnotesoff s = .next (faulted 3#8 0x1400000000000000#64 s) ∧
      exec .allsoundoff s = .next (faulted 3#8 0x1500000000000000#64 s)) ∧
    (s.configured = true →
      exec .suston s = .next { s with voices := s.voices.map fun v => { v with sustHold := true } } ∧
      exec .sustoff s = .next { s with voices := s.voices.map (pedalUp s.g.fsI) } ∧
      (∃ t : State, exec .allnotesoff s = .next t ∧
        t = { s with voices := s.voices.map (keyUp s.g.fsI), g := { s.g with stolen := t.g.stolen } } ∧
        ∀ k : Fin 129, t.g.stolen.get k = if k.val < 128 then 0#32 else s.g.stolen.get k) ∧
      (∃ t : State, exec .allsoundoff s = .next t ∧
        t = { s with
              voices := s.voices.map fun v =>
                { v with
                  gate := false
                  active := false
                  ampEnv := silenced v.ampEnv
                  fltEnv := silenced v.fltEnv }
              g := { s.g with stolen := t.g.stolen } } ∧
        ∀ k : Fin 129, t.g.stolen.get k = if k.val < 128 then 0#32 else s.g.stolen.get k))

/-- R46, R343 (no rule reads `G.qnpos`), R309, R386 (no behaviour depends on `G.priority`), R345, R346. -/
def Obligations.ChannelAndPriorityAndPositionAreUnread : Prop :=
  (∀ (i : Instr) (s : State) (q : F32), (∀ v, i ≠ .playpos v) →
      exec i { s with g := { s.g with qnpos := q } } =
        mapNext (fun t => { t with g := { t.g with qnpos := q } }) (exec i s)) ∧
  (∀ (i : Instr) (s : State) (p : Priority), (∀ v, i ≠ .voicepriority v) →
      exec i { s with g := { s.g with priority := p } } =
        mapNext (fun t => { t with g := { t.g with priority := p } }) (exec i s)) ∧
  (∀ (s : State) (note c c' : BitVec 8) (v v' : F32), NoteOk s note v → unitRange v' = true →
      exec (.noteon note c v) s = exec (.noteon note c' v) s ∧
      exec (.noteoff note c v) s = exec (.noteoff note c' v') s)

/-- R381, R305. -/
def Obligations.PolyphonySetsCountAndSilencesTheRest : Prop :=
  SetterRule 0x21#8 .polyphony .polyphony fun v s =>
    { s with
      g := { s.g with totalvc := countParam v, vqIdx := 0 }
      voices := s.voices.mapIdx fun i b =>
        if (countParam v).val ≤ i then
          { b with gate := false, active := false, ampEnv := silenced b.ampEnv, fltEnv := silenced b.fltEnv }
        else b }

/-- R384, R306. -/
def Obligations.OversampleSelectsTablesAndRecomputes : Prop :=
  SetterRule 0x24#8 .oversample .oversample fun v s =>
    let b := flt fHalf v
    { s with
      g := { s.g with oversample := b, decL := Vec.replicate 17 0#32, decR := Vec.replicate 17 0#32 }
      voices := s.voices.map fun x =>
        let x1 := { x with
          osc := { x.osc with
            saw1 := { x.osc.saw1 with d2 := b }
            pul1 := { x.osc.pul1 with d2 := b }
            tri1 := { x.osc.tri1 with d2 := b }
            saw2 := { x.osc.saw2 with d2 := b }
            pul2 := { x.osc.pul2 with d2 := b }
            tri2 := { x.osc.tri2 with d2 := b } } }
        if RegId.fs ∈ s.g.written then rerated (rateOf b s.g.fs) x1 else x1 }

/-- R380, R382, R383, R386, R387, R433 to R436. -/
def Obligations.MotherboardAndVoiceSettersStoreTheirImage : Prop :=
  SetterRule 0x20#8 .volume .volume (onGlobal fun v g => { g with volume := lin 1 v }) ∧
  SetterRule 0x22#8 .unison .unison (onGlobal fun v g => { g with uni := flt fHalf v }) ∧
  SetterRule 0x23#8 .univoices .univoices (onGlobal fun v g => { g with univc := countParam v }) ∧
  SetterRule 0x26#8 .voicepriority .voicepriority (onGlobal fun v g => { g with priority := if enumParam 3 v = 0 then .latest else if enumParam 3 v = 1 then .highest else .lowest }) ∧
  SetterRule 0x27#8 .vibratorate .vibratorate (onGlobal fun v g => { g with vib := { g.vib with freq := log 8 v } }) ∧
  SetterRule 0x70#8 .portamento .portamento (onVoices fun v b => { b with porta := log 54 v }) ∧
  SetterRule 0x71#8 .bendup .bendup (onVoices fun v b => { b with bendUp := lin 55 v }) ∧
  SetterRule 0x72#8 .benddown .benddown (onVoices fun v b => { b with bendDown := lin 56 v }) ∧
  SetterRule 0x73#8 .legato .legato (onVoices fun v b => { b with legato := BitVec.ofNat 2 (enumParam 4 v) })

/-- R385. -/
def Obligations.PanWritesItsSlot : Prop :=
  ∀ (s : State) (a : BitVec 8) (v : F32),
    (∀ b z : BitVec 8, b ≠ 0#8 ∨ z ≠ 0#8 → decode (0x25#8 ++ a ++ b ++ z ++ v) = .error .nonzeroField) ∧
    decode (packAF 0x25#8 a v) = .ok (.pan a v) ∧
    (∀ k : Fin 8, a.toNat = k.val → unitRange v = true →
      exec (.pan a v) s =
        .next { s with g := { s.g with pan := s.g.pan.set k (lin 6 v), written := insertId (.pan k) s.g.written } }) ∧
    (7 < a.toNat ∨ unitRange v = false → exec (.pan a v) s = .next (faulted 2#8 (packAF 0x25#8 a v) s))

/-- R388 to R397. -/
def Obligations.LfoSettersStoreTheirImage : Prop :=
  SetterRule 0x28#8 .lfo1rate .lfo1rate (onGlobal fun v g => { g with lfo1 := { g.lfo1 with freq := log 9 v, rawRate := v } }) ∧
  SetterRule 0x29#8 .lfo1wave1 .lfo1wave1 (onGlobal fun v g => { g with lfo1 := { g.lfo1 with wave1 := linsc v (fneg (lit 1 1)) (lit 1 1) } }) ∧
  SetterRule 0x2A#8 .lfo1wave2 .lfo1wave2 (onGlobal fun v g => { g with lfo1 := { g.lfo1 with wave2 := linsc v (fneg (lit 1 1)) (lit 1 1) } }) ∧
  SetterRule 0x2B#8 .lfo1wave3 .lfo1wave3 (onGlobal fun v g => { g with lfo1 := { g.lfo1 with wave3 := linsc v (fneg (lit 1 1)) (lit 1 1) } }) ∧
  SetterRule 0x2C#8 .lfo1sync .lfo1sync (onGlobal fun v g => { g with lfo1 := { g.lfo1 with sync := flt fHalf v } }) ∧
  SetterRule 0x2D#8 .lfo2rate .lfo2rate (onVoices fun v b => { b with lfo2 := { b.lfo2 with freq := log 14 v, rawRate := v } }) ∧
  SetterRule 0x2E#8 .lfo2wave1 .lfo2wave1 (onVoices fun v b => { b with lfo2 := { b.lfo2 with wave1 := linsc v (fneg (lit 1 1)) (lit 1 1) } }) ∧
  SetterRule 0x2F#8 .lfo2wave2 .lfo2wave2 (onVoices fun v b => { b with lfo2 := { b.lfo2 with wave2 := linsc v (fneg (lit 1 1)) (lit 1 1) } }) ∧
  SetterRule 0x30#8 .lfo2wave3 .lfo2wave3 (onVoices fun v b => { b with lfo2 := { b.lfo2 with wave3 := linsc v (fneg (lit 1 1)) (lit 1 1) } }) ∧
  SetterRule 0x31#8 .lfo2sync .lfo2sync (onVoices fun v b => { b with lfo2 := { b.lfo2 with sync := flt fHalf v } })

/-- R398 to R406. -/
def Obligations.OscillatorPitchSettersStoreTheirImage : Prop :=
  SetterRule 0x38#8 .osc1pitch .osc1pitch (onVoices fun v b => { b with osc := { b.osc with pitch1 := lin 19 v } }) ∧
  SetterRule 0x39#8 .osc2pitch .osc2pitch (onVoices fun v b => { b with osc := { b.osc with pitch2 := lin 20 v } }) ∧
  SetterRule 0x3A#8 .tune .tune (onVoices fun v b => { b with osc := { b.osc with tune := lin 21 v } }) ∧
  SetterRule 0x3B#8 .transpose .transpose (onVoices fun v b => { b with osc := { b.osc with transpose := lin 22 v } }) ∧
  SetterRule 0x3C#8 .detune .detune (onVoices fun v b => { b with osc := { b.osc with detuneAmt := lin 23 v } }) ∧
  SetterRule 0x3D#8 .pw1 .pw1 (onVoices fun v b => { b with osc := { b.osc with pwBase1 := lin 24 v } }) ∧
  SetterRule 0x3E#8 .pw2 .pw2 (onVoices fun v b => { b with osc := { b.osc with pwBase2 := lin 25 v } }) ∧
  SetterRule 0x3F#8 .hardsync .hardsync (onVoices fun v b => { b with osc := { b.osc with hardSync := flt fHalf v } }) ∧
  SetterRule 0x40#8 .xmod .xmod (onVoices fun v b => { b with osc := { b.osc with xmod := lin 27 v } })

/-- R407 to R415. -/
def Obligations.OscillatorMixSettersStoreTheirImage : Prop :=
  SetterRule 0x41#8 .osc1mix .osc1mix (onVoices fun v b => { b with osc := { b.osc with mix1 := lin 28 v } }) ∧
  SetterRule 0x42#8 .osc2mix .osc2mix (onVoices fun v b => { b with osc := { b.osc with mix2 := lin 29 v } }) ∧
  SetterRule 0x43#8 .ringmix .ringmix (onVoices fun v b => { b with osc := { b.osc with mixRing := lin 30 v } }) ∧
  SetterRule 0x44#8 .noisemix .noisemix (onVoices fun v b => { b with osc := { b.osc with mixNoise := lin 31 v } }) ∧
  SetterRule 0x45#8 .noisecolor .noisecolor (onVoices fun v b => { b with osc := { b.osc with noiseColor := if enumParam 3 v = 0 then .white else if enumParam 3 v = 1 then .pink else .red } }) ∧
  SetterRule 0x46#8 .osc1saw .osc1saw (onVoices fun v b => { b with osc := { b.osc with saw1On := flt fHalf v } }) ∧
  SetterRule 0x47#8 .osc1pulse .osc1pulse (onVoices fun v b => { b with osc := { b.osc with pul1On := flt fHalf v } }) ∧
  SetterRule 0x48#8 .osc2saw .osc2saw (onVoices fun v b => { b with osc := { b.osc with saw2On := flt fHalf v } }) ∧
  SetterRule 0x49#8 .osc2pulse .osc2pulse (onVoices fun v b => { b with osc := { b.osc with pul2On := flt fHalf v } })

/-- R416 to R424. -/
def Obligations.FilterSettersStoreTheirImage : Prop :=
  SetterRule 0x50#8 .cutoff .cutoff (onGlobal fun v g => { g with smCutoff := { g.smCutoff with target := linsc v 0#32 (lit 120 1) } }) ∧
  SetterRule 0x51#8 .resonance .resonance (onVoices fun v b => { b with flt := { b.flt with res := lin 38 v, r12 := Config.lawRes12 (lin 38 v), r24 := Config.lawRes24 (lin 38 v) } }) ∧
  SetterRule 0x52#8 .multimode .multimode (onVoices fun v b => { b with flt := { b.flt with multimode := lin 39 v } }) ∧
  SetterRule 0x53#8 .bandpassblend .bandpassblend (onVoices fun v b => { b with flt := { b.flt with bandpassBlend := flt fHalf v } }) ∧
  SetterRule 0x54#8 .fourpole .fourpole (onVoices fun v b => { b with flt := { b.flt with fourPole := flt fHalf v } }) ∧
  SetterRule 0x55#8 .selfoscpush .selfoscpush (onVoices fun v b => { b with flt := { b.flt with selfOscPush := flt fHalf v } }) ∧
  SetterRule 0x56#8 .fenvamt .fenvamt (onVoices fun v b => { b with fenvAmt := lin 43 v }) ∧
  SetterRule 0x57#8 .fenvinvert .fenvinvert (onVoices fun v b => { b with fenvInvert := flt fHalf v }) ∧
  SetterRule 0x58#8 .keyfollow .keyfollow (onVoices fun v b => { b with keyFollow := lin 45 v })

/-- R425 to R432, R207 to R210. -/
def Obligations.EnvelopeSettersStoreAndRefresh : Prop :=
  SetterRule 0x60#8 .ampattack .ampattack (fun v s => onVoices (fun v b => { b with ampEnv := { b.ampEnv with
      attack := log 46 v
      coef := if b.ampEnv.state = .attack then Env.atkCoef (amp s.g.fsI b) { b.ampEnv with attack := log 46 v } else b.ampEnv.coef } }) v s) ∧
  SetterRule 0x61#8 .ampdecay .ampdecay (fun v s => onVoices (fun v b => { b with ampEnv := { b.ampEnv with
      decay := log 47 v
      coef := if b.ampEnv.state = .decay then Env.decCoef (amp s.g.fsI b) { b.ampEnv with decay := log 47 v } else b.ampEnv.coef } }) v s) ∧
  SetterRule 0x62#8 .ampsustain .ampsustain (fun v s => onVoices (fun v b => { b with ampEnv := { b.ampEnv with
      sustain := lin 48 v
      coef := if b.ampEnv.state = .decay then Env.decCoef (amp s.g.fsI b) { b.ampEnv with sustain := lin 48 v } else b.ampEnv.coef } }) v s) ∧
  SetterRule 0x63#8 .amprelease .amprelease (fun v s => onVoices (fun v b => { b with ampEnv := { b.ampEnv with
      release := log 49 v
      coef := if b.ampEnv.state = .release then Env.relCoef (amp s.g.fsI b) { b.ampEnv with release := log 49 v } else b.ampEnv.coef } }) v s) ∧
  SetterRule 0x64#8 .fltattack .fltattack (fun v s => onVoices (fun v b => { b with fltEnv := { b.fltEnv with
      attack := log 50 v
      coef := if b.fltEnv.state = .attack then Env.atkCoef (fil s.g.fsI b) { b.fltEnv with attack := log 50 v } else b.fltEnv.coef } }) v s) ∧
  SetterRule 0x65#8 .fltdecay .fltdecay (fun v s => onVoices (fun v b => { b with fltEnv := { b.fltEnv with
      decay := log 51 v
      coef := if b.fltEnv.state = .decay then Env.decCoef (fil s.g.fsI b) { b.fltEnv with decay := log 51 v } else b.fltEnv.coef } }) v s) ∧
  SetterRule 0x66#8 .fltsustain .fltsustain (fun v s => onVoices (fun v b => { b with fltEnv := { b.fltEnv with
      sustain := lin 52 v
      coef := if b.fltEnv.state = .decay then Env.decCoef (fil s.g.fsI b) { b.fltEnv with sustain := lin 52 v } else b.fltEnv.coef } }) v s) ∧
  SetterRule 0x67#8 .fltrelease .fltrelease (fun v s => onVoices (fun v b => { b with fltEnv := { b.fltEnv with
      release := log 53 v
      coef := if b.fltEnv.state = .release then Env.relCoef (fil s.g.fsI b) { b.fltEnv with release := log 53 v } else b.fltEnv.coef } }) v s)

/-- R440. -/
def Obligations.ModparamWritesTheRoutingRegister : Prop :=
  ∀ (s : State) (a : BitVec 8) (v : F32),
    (∀ b z : BitVec 8, b ≠ 0#8 ∨ z ≠ 0#8 → decode (0x7F#8 ++ a ++ b ++ z ++ v) = .error .nonzeroField) ∧
    decode (packAF 0x7F#8 a v) = .ok (.modparam a v) ∧
    (if h : a.toNat < Config.modCount ∧ unitRange v = true then
      exec (.modparam a v) s =
        .next { s with
          voices := s.voices.map fun b =>
            let b1 := { b with mod := b.mod.set ⟨a.toNat, h.1⟩ v }
            { b1 with
              ampEnv := b.ampEnv.refresh (amp s.g.fsI b1)
              fltEnv := b.fltEnv.refresh (fil s.g.fsI b1) }
          g := { s.g with written := insertId (.mod ⟨a.toNat, h.1⟩) s.g.written } }
    else exec (.modparam a v) s = .next (faulted 2#8 (packAF 0x7F#8 a v) s))

/-- R370, R378 (for the cutoff, the only documented range), and the end points of `Law.logsc` (R371). -/
def Obligations.LinscReachesItsEnds : Prop :=
  (∀ x lo hi : F32, linsc x lo hi = fadd lo (fmul x (fsub hi lo))) ∧
  (∀ lo hi : F32, isFinite lo = true → isFinite (fsub hi lo) = true →
    feq (linsc (lit 0 1) lo hi) lo = true ∧ linsc (lit 1 1) lo hi = fadd lo (fsub hi lo)) ∧
  (∀ s : State,
    (∃ t, exec (.cutoff (lit 0 1)) s = .next t ∧ t.g.smCutoff.target = lit 0 1) ∧
    (∃ t, exec (.cutoff (lit 1 2)) s = .next t ∧ t.g.smCutoff.target = lit 60 1) ∧
    (∃ t, exec (.cutoff (lit 1 1)) s = .next t ∧ t.g.smCutoff.target = lit 120 1)) ∧
  linsc (lit 0 1) (fneg (lit 1 1)) (lit 1 1) = fneg (lit 1 1) ∧ linsc (lit 1 2) (fneg (lit 1 1)) (lit 1 1) = 0#32 ∧
  linsc (lit 1 1) (fneg (lit 1 1)) (lit 1 1) = lit 1 1 ∧
  (∀ lo hi skew : F32, logsc (lit 0 1) lo hi skew = lo ∧ logsc (lit 1 1) lo hi skew = hi)

/-- R373: `count(x)` is an integer in `1..32`, `enumN(x)` in `0..N−1`. R372, R192, R251 with ruling U5: what every valid `Law.range` gives; which parameters U5 calls levels is read from the register table (log 10). -/
def Obligations.ScaledImagesLieInTheirRanges : Prop :=
  ∀ v : F32, unitRange v = true →
    (boolParam v = true ↔ 0x3F000000 < v.toNat ∧ v.toNat ≤ 0x3F800000) ∧
    (((countParam v).val : Int) = 1 + ffloor (fadd (fmul v (lit 31 1)) (lit 1 2)) ∧
      1 ≤ (countParam v).val ∧ (countParam v).val ≤ 32) ∧
    (∀ w : F32, unitRange w = true → fle v w = true → (countParam v).val ≤ (countParam w).val) ∧
    (enumParam 3 v ≤ 2 ∧ (enumParam 3 v : Int) = min 2 (ffloor (fmul v (lit 3 1)))) ∧
    (enumParam 4 v = if flt v (lit 1 4) then 0 else if flt v (lit 1 2) then 1 else if flt v (lit 3 4) then 2 else 3) ∧
    (∀ n ∈ [46, 47, 49, 50, 51, 53], flt 0#32 (log n v) = true ∧ isFinite (log n v) = true) ∧
    (∀ n ∈ [24, 25, 28, 29, 30, 31, 48, 52], isFinite (lin n v) = true) ∧
    (fle 0#32 (lin 39 v) = true ∧ fle (lin 39 v) (lit 1 1) = true)

/-- R130, R131, R77. -/
def Obligations.DelayLineReturnsValuesNCallsLater : Prop :=
  ∀ (α : Type) (m : Nat) (D : DelayLine α (2 ^ m)) (xs : List α) (k : Nat), k < xs.length →
    (feedAll D xs)[k]? =
      if k < 2 ^ m then some (D.buf.get (Fin.ofNat (2 ^ m) (D.pos.val + k))) else xs[k - 2 ^ m]?

/-- R137, R138, R139, R75, R77. In the injection and lookup clauses the `ofNat32` of the slot number, the oversampling factor and the index is the model's reading of integers in f32 expressions (log 17, DEDUCED). -/
def Obligations.InjectedRingDrainsInOrder : Prop :=
  ∀ (m : Nat) (P : OscPrim (2 ^ m)) (T : Nat → F32) (b : Nat) (frac scale : F32),
    (P.mixIn T b frac scale = { P with ring := (P.mixIn T b frac scale).ring } ∧
      ∀ (k : Nat) (j : Fin (2 * 2 ^ m)), k < 2 * 2 ^ m → j.val = (P.bP.val + k) % (2 * 2 ^ m) →
        (P.mixIn T b frac scale).ring.get j =
          fadd (P.ring.get j)
            (fmul (tableLookup T (2 * 2 ^ m * b + 1) (fmul (fadd (ofNat32 k) frac) (ofNat32 b))) scale)) ∧
    ((drain P (2 * 2 ^ m)).2 = { P with ring := Vec.replicate _ 0#32 } ∧
      ∀ (k : Nat) (j : Fin (2 * 2 ^ m)), k < 2 * 2 ^ m → j.val = (P.bP.val + k) % (2 * 2 ^ m) →
        (drain P (2 * 2 ^ m)).1[k]? = some (P.ring.get j)) ∧
    (P.mixInImpulseCenter frac scale =
        P.mixIn (if P.d2 then Config.blepD2 else Config.blep) Config.bOversampling frac scale ∧
      P.mixInBlampCenter frac scale =
        P.mixIn (if P.d2 then Config.blampD2 else Config.blamp) Config.bOversampling frac scale) ∧
    (∀ (len k : Nat) (p : F32), 2 ≤ len → isFinite p = true → fle 0#32 p = true → ffloor p = (k : Int) →
      (k ≤ len - 2 → tableLookup T len p = between T k (fsub p (ofNat32 k))) ∧
      (len - 2 < k →
        tableLookup T len p = between T (len - 2) (fmin (fsub p (ofNat32 (len - 2))) (lit 1 1))))

/-- R145 to R150, R152, R153, with the tables of R137, R138. `−p` and `−4` flip the sign bit (log 13). -/
def Obligations.OscillatorEventsFollowTheirRules : Prop :=
  (∀ (n : Nat) (P : OscPrim n) (x0 x delta w hsFrac : F32),
    sawFollower P x delta false hsFrac = sawLeader P x delta ∧
    pulseFollower P x0 x delta w false hsFrac = pulseLeader P x0 x delta w ∧
    triFollower P x0 x delta false hsFrac = triLeader P x0 x delta) ∧
  (∀ (n : Nat) (P : OscPrim n) (x0 x delta w : F32),
    let wrap := fle (lit 1 1) x
    let past := fsub x (lit 1 1)
    let up := fmul (lit 4 1) delta
    let down := fmul (fneg (lit 4 1)) delta
    sawLeader P x delta = injectAll P [⟨wrap, false, fdiv past delta, fneg (lit 1 1)⟩] ∧
    pulseLeader P x0 x delta w = injectAll P
      [⟨flt x0 w && fle w x, false, fdiv (fsub x w) delta, fneg (lit 1 1)⟩,
       ⟨wrap, false, fdiv past delta, lit 1 1⟩,
       ⟨wrap && fle w past, false, fdiv (fsub past w) delta, fneg (lit 1 1)⟩] ∧
    triLeader P x0 x delta = injectAll P
      [⟨flt x0 (lit 1 2) && fle (lit 1 2) x, true, fdiv (fsub x (lit 1 2)) delta, down⟩,
       ⟨wrap, true, fdiv past delta, up⟩,
       ⟨wrap && fle (lit 1 2) past, true, fdiv (fsub x (lit 3 2)) delta, down⟩]) ∧
  (∀ (n : Nat) (P : OscPrim n) (x0 x delta w : F32) (reset : Bool) (hsFrac : F32),
    let past := fsub x (lit 1 1)
    let up := fmul (lit 4 1) delta
    let down := fmul (fneg (lit 4 1)) delta
    let wrapped := fle (lit 1 1) x && kept (fdiv past delta) reset hsFrac
    let p := fsub (if wrapped then past else x) (fmul delta hsFrac)
    let tri := if flt p (lit 1 2) then fsub (fmul (lit 2 1) p) (lit 1 2) else fsub (lit 3 2) (fmul (lit 2 1) p)
    let keeps (f : F32) := kept f reset hsFrac
    sawFollower P x delta reset hsFrac = injectAll P
      [⟨wrapped, false, fdiv past delta, fneg (lit 1 1)⟩, ⟨reset, false, hsFrac, fneg p⟩] ∧
    pulseFollower P x0 x delta w reset hsFrac = injectAll P
      [⟨flt x0 w && fle w x && keeps (fdiv (fsub x w) delta), false, fdiv (fsub x w) delta, fneg (lit 1 1)⟩,
       ⟨wrapped, false, fdiv past delta, lit 1 1⟩,
       ⟨wrapped && fle w past && keeps (fdiv (fsub past w) delta), false, fdiv (fsub past w) delta,
        fneg (lit 1 1)⟩,
       ⟨reset && !flt p w, false, hsFrac, lit 1 1⟩] ∧
    triFollower P x0 x delta reset hsFrac = injectAll P
      [⟨flt x0 (lit 1 2) && fle (lit 1 2) x && keeps (fdiv (fsub x (lit 1 2)) delta), true,
        fdiv (fsub x (lit 1 2)) delta, down⟩,
       ⟨wrapped, true, fdiv past delta, up⟩,
       ⟨wrapped && fle (lit 1 2) past && keeps (fdiv (fsub x (lit 3 2)) delta), true,
        fdiv (fsub x (lit 3 2)) delta, down⟩,
       ⟨reset, false, hsFrac, fsub (fneg (lit 1 2)) tri⟩,
       ⟨reset && !flt p (lit 1 2), true, hsFrac, up⟩])

/-- R136, R171, R174 to R177, R179 to R184 (a). That the missing successor is a named fault is the model's choice (log 8). -/
def Obligations.OscillatorSampleFollowsItsRules : Prop :=
  (∀ (o : OscBlock) (fsI note p1 p2 m1 m2 : F32) (d : Nat),
    let w1 := widthOf o.pwBase1 m1
    let w2 := widthOf o.pwBase2 m2
    let d1 := fdiv (hzOf (semiSum o note o.pitch1 p1 o.tuneSlop1)) fsI
    let x := fadd o.x1 d1
    let wrap := fle (lit 1 1) x
    let A := osc1Result o d1 w1
    let hsr := o.dlSync.feedReturn (wrap && o.hardSync)
    let hsf := o.dlSyncFrac.feedReturn (if wrap then fdiv (fsub x (lit 1 1)) d1 else 0#32)
    let d2 := fdiv (hzOf (fadd (semiSum o note o.pitch2 p2 o.tuneSlop2) (fmul A.1 o.xmod))) fsI
    let B := osc2Result A.2 d2 w2 hsr.1 hsf.1
    let late := o.dlOsc1.feedReturn A.1
    let nz := Config.lawNoise o.noise o.noiseColor (draw d)
    let sum :=
      fadd (fadd (fadd (fmul late.1 o.mix1) (fmul B.1 o.mix2)) (fmul (fmul late.1 B.1) o.mixRing))
        (fmul nz.2 o.mixNoise)
    let good := flt 0#32 d1 && flt d1 (lit 1 1) && fle 0#32 o.x1 && flt o.x1 (lit 1 1) &&
      (flt 0#32 d2 && flt d2 (lit 1 1) && fle 0#32 o.x2 && flt o.x2 (lit 1 1))
    if good then
      o.process fsI note p1 p2 m1 m2 d =
        .ok (fmul sum (lit 3 1),
          { B.2 with dlSync := hsr.2, dlSyncFrac := hsf.2, dlOsc1 := late.2, noise := nz.1 })
    else o.process fsI note p1 p2 m1 m2 d = .error .phaseIncrementOutOfRange) ∧
  (∀ s : F32, feq s 0#32 = true → hzOf s = lit 440 1)

/-- R195, R198 to R202; the coefficient formulas of R192 to R194 with the effective times of R191 and the floor within its bounds; the refresh of R211. -/
def Obligations.EnvelopeArmsFollowTheirRules : Prop :=
  ∀ (c : EnvCtx) (e : Env),
    Env.atkCoef c e =
      expRule c.fsI envAtkFloor (lit 13 10) (fmul (fmul e.attack c.slop) envAtkTimeAdj) ∧
    (flt 0#32 envAtkFloor = true ∧ flt envAtkFloor (lit 13 10) = true ∧ flt 0#32 envAtkTimeAdj = true) ∧
    Env.decCoef c e =
      expRule c.fsI (fmax e.sustain (lit 2 100000)) (fmax e.value (lit 2 100000)) (fmul e.decay c.slop) ∧
    Env.relCoef c e =
      (if flt (lit 2 100000) e.value then expRule c.fsI (lit 2 100000) e.value (fmul e.release c.slop) else 0#32) ∧
    (∀ st : EnvStage,
      Env.refresh c { e with state := st } =
        { e with
          state := st
          coef := match st with
            | .attack => Env.atkCoef c e
            | .decay => Env.decCoef c e
            | .release => Env.relCoef c e
            | .sustain => e.coef
            | .silent => e.coef }) ∧
    (e.state = .attack →
      let m := fmin e.value (lit 99 100)
      let k := Env.decCoef c { e with value := m }
      Env.processSample c e =
        if flt (fsub (lit 1 1) Config.envAtkValueEnd) e.value then
          if flt (fsub m e.sustain) (lit 1 100000) then { e with value := m, coef := k, state := .sustain }
          else { e with value := fadd m (fmul m k), coef := k, state := .decay }
        else { e with value := fsub e.value (fmul (fsub (lit 1 1) e.value) e.coef) }) ∧
    (e.state = .decay →
      Env.processSample c e =
        if flt (fsub e.value e.sustain) (lit 1 100000) then { e with state := .sustain }
        else { e with value := fadd e.value (fmul e.value e.coef) }) ∧
    (e.state = .sustain → Env.processSample c e = { e with value := fmin e.sustain (lit 9 10) }) ∧
    (e.state = .release →
      Env.processSample c e =
        if fle e.value (lit 2 100000) then { e with state := .silent, value := 0#32 }
        else { e with value := fadd (fadd e.value (fmul e.value e.coef)) (lit 1 1000000000000000000) }) ∧
    (e.state = .silent → Env.processSample c e = { e with value := 0#32 })

/-- R220 to R225, R240, R242, and the table of R7. That 2/π is one constant is log 12, that `−k` and `−π` flip the sign bit is log 13. -/
def Obligations.LfoUpdateFollowsItsRules : Prop :=
  (∀ (fsI bpm : F32) (d : Nat) (l : Lfo),
    let inc := if l.sync then fmul (fdiv bpm (lit 60 1)) (syncRatio (lawSyncIndex l.rawRate)) else l.freq
    let p := fadd l.phase (fdiv (fmul inc 0x40C90FDB#32) fsI)
    let wrap := flt 0x40490FDB#32 p
    let l1 := if wrap then { l with phase := fsub p 0x40C90FDB#32, shPrev := l.sh, sh := draw d }
              else { l with phase := p }
    let r := l.update fsI bpm d
    let y := onePole l.smooth (fadd (rawOf l1) (lit 1 1000000000000000000)) (lit 3000 1) fsI
    r.draws = (if wrap then d + 1 else d) ∧ r.lfo = { l1 with smooth := y.2 } ∧ r.y = y.1) ∧
  (∀ st x fc rate : F32,
    tptLp st x fc rate = onePole st x fc rate ∧
    tptLp st x fc rate = tptStage st x (fmul (fdiv fc rate) 0x40490FDB#32)) ∧
  (∀ k : Fin Config.syncLen,
    (k.val = 0 → syncRatio k = lit 1 8) ∧ (k.val + 1 = Config.syncLen → syncRatio k = lit 4 1) ∧
    ∀ m : Fin Config.syncLen, k.val + 1 = m.val → fle (syncRatio k) (syncRatio m) = true)

/-- R244, R247, R248, R250, R251, R255, R242. -/
def Obligations.FilterStepFollowsItsRules : Prop :=
  (∀ y1 y2 y3 y4 : F32, isFinite y1 = true → isFinite y2 = true → isFinite y3 = true → isFinite y4 = true →
    feq (mm4 (lit 0 1) y1 y2 y3 y4) y4 = true ∧ feq (mm4 (lit 1 1) y1 y2 y3 y4) y1 = true) ∧
  (∀ y1 y2 y3 y4 : F32, mm4 (lit 1 2) y1 y2 y3 y4 = fadd (fmul (lit 1 2) y3) (fmul (lit 1 2) y2)) ∧
  tptStage 0#32 (lit 1 1) (lit 1 1) = (lit 1 2, lit 1 1) ∧
  (∀ st x g : F32,
    let v := fdiv (fmul (fsub x st) g) (fadd (lit 1 1) g)
    tptStage st x g = (fadd v st, fadd (fadd v st) v)) ∧
  (∀ m y1 y2 y3 y4 : F32,
    let m3 := fmul m (lit 3 1)
    let t (r : Nat) := fmin (fmax (fsub m3 (lit r 1)) 0#32) (lit 1 1)
    let mix (r : Nat) (a b : F32) := fadd (fmul (fsub (lit 1 1) (t r)) a) (fmul (t r) b)
    (ffloor m3 ≤ 0 → mm4 m y1 y2 y3 y4 = mix 0 y4 y3) ∧ (ffloor m3 = 1 → mm4 m y1 y2 y3 y4 = mix 1 y3 y2) ∧
    (2 ≤ ffloor m3 → mm4 m y1 y2 y3 y4 = mix 2 y2 y1)) ∧
  (∀ (fsI x hz : F32) (f : Flt),
    let g := Config.numTan (fdiv (fmul 0x40490FDB#32 hz) fsI)
    (f.fourPole = false →
      let r := Config.lawApply2Pole
        { s1 := f.s1, s2 := f.s2, x := x, g := g, r12 := f.r12, rcor12 := f.rcor12, multimode := f.multimode,
          bandpassBlend := f.bandpassBlend, selfOscPush := f.selfOscPush }
      f.apply fsI x hz = (r.2.2, { f with s1 := r.1, s2 := r.2.1 })) ∧
    (f.fourPole = true →
      let y0 := Config.lawResolveFeedback4Pole
        { x := x, s1 := f.s1, s2 := f.s2, s3 := f.s3, s4 := f.s4, g := g, r24 := f.r24,
          selfOscPush := f.selfOscPush }
      let a := tptStage f.s1 y0 g
      let b := tptStage f.s2 a.1 g
      let c := tptStage f.s3 b.1 g
      let e := tptStage f.s4 c.1 g
      f.apply fsI x hz =
        (mm4 f.multimode a.1 b.1 c.1 e.1,
          { f with
            s1 := fdiv (Config.numAtan (fmul a.2 f.rcor24)) f.rcor24
            s2 := b.2
            s3 := c.2
            s4 := e.2 })))

/-- R174, R284, R461. -/
def Obligations.ClampsHoldForEveryInput : Prop :=
  (∀ base mod : F32,
    fle (lit 1 10) (pulseWidth base mod) = true ∧ fle (pulseWidth base mod) (lit 1 1) = true ∧
    (isNaN (fadd base mod) = true → pulseWidth base mod = lit 1 10)) ∧
  (∀ (c : VoiceCtx) (push : Bool) (hz : F32),
    let lim := fsub (fdiv c.fsI (lit 2 1)) (lit 120 1)
    isNaN lim = false →
      fle (cutoffCeiling c push hz) lim = true ∧
      (push = true → c.oversample = false → fle (cutoffCeiling c push hz) (lit 19000 1) = true) ∧
      (push = true → c.oversample = true → fle (cutoffCeiling c push hz) selfOscCapHqHz = true)) ∧
  fle (lit 19000 1) selfOscCapHqHz = true

/-- R12: IEEE 754 with round-to-nearest-even and gradual underflow; R13 for `floor`; R15 for the narrowing, whose rounding is log 21. Exact values are in units of `2^−149`. Which NaN is delivered is free (log 5). -/
def Obligations.ArithmeticIsThatOfIeee754 : Prop :=
  (∀ a b : F32, isFinite a = true → isFinite b = true →
    RoundedTo (fint a + fint b) 1 (fadd a b) ∧ RoundedTo (fint a - fint b) 1 (fsub a b) ∧
    RoundedTo (fint a * fint b) (2 ^ 149) (fmul a b) ∧
    (fint b ≠ 0 → RoundedTo (fint a * 2 ^ 149 * (fint b).sign) (fint b).natAbs (fdiv a b)) ∧
    (fint a + fint b = 0 → fadd a b = zero (fsign a && fsign b)) ∧
    (fint a - fint b = 0 → fsub a b = zero (fsign a && !fsign b)) ∧
    (fint a * fint b = 0 → fmul a b = zero (fsign a ^^ fsign b)) ∧
    (fint b ≠ 0 → fint a = 0 → fdiv a b = zero (fsign a ^^ fsign b)) ∧
    (fint b = 0 → fint a ≠ 0 → fdiv a b = infinity (fsign a ^^ fsign b)) ∧
    (fint b = 0 → fint a = 0 → isNaN (fdiv a b) = true)) ∧
  (∀ a b : F32, isNaN a = true ∨ isNaN b = true →
    isNaN (fadd a b) = true ∧ isNaN (fsub a b) = true ∧ isNaN (fmul a b) = true ∧ isNaN (fdiv a b) = true ∧
    flt a b = false ∧ fle a b = false ∧ feq a b = false) ∧
  (∀ (a : F32) (s t : Bool), isFinite a = true →
    fadd (infinity s) a = infinity s ∧ fadd a (infinity s) = infinity s ∧
    fsub (infinity s) a = infinity s ∧ fsub a (infinity s) = infinity (!s) ∧
    fadd (infinity s) (infinity s) = infinity s ∧ isNaN (fadd (infinity s) (infinity (!s))) = true ∧
    fsub (infinity s) (infinity (!s)) = infinity s ∧ isNaN (fsub (infinity s) (infinity s)) = true ∧
    (fint a ≠ 0 → fmul (infinity s) a = infinity (s ^^ fsign a) ∧ fmul a (infinity s) = infinity (fsign a ^^ s)) ∧
    (fint a = 0 → isNaN (fmul (infinity s) a) = true ∧ isNaN (fmul a (infinity s)) = true) ∧
    fmul (infinity s) (infinity t) = infinity (s ^^ t) ∧ isNaN (fdiv (infinity s) (infinity t)) = true ∧
    fdiv (infinity s) a = infinity (s ^^ fsign a) ∧ fdiv a (infinity s) = zero (fsign a ^^ s) ∧
    flt (infinity true) a = true ∧ flt a (infinity false) = true ∧ flt a (infinity true) = false ∧
    flt (infinity false) a = false) ∧
  (∀ a b : F32, isFinite a = true → isFinite b = true →
    (flt a b = true ↔ fint a < fint b) ∧ (fle a b = true ↔ fint a ≤ fint b) ∧ (feq a b = true ↔ fint a = fint b)) ∧
  (∀ a : F32, isFinite a = true →
    ffloor a * 2 ^ 149 ≤ fint a ∧ fint a < (ffloor a + 1) * 2 ^ 149 ∧
    fint (fneg a) = -fint a ∧ fint (fabs a) = ((fint a).natAbs : Int)) ∧
  (∀ n d : Nat, 0 < d → RoundedTo ((n : Int) * 2 ^ 149) d (lit n d)) ∧
  (∀ x : F64,
    let e := (x.extractLsb' 52 11).toNat
    let f := (x.extractLsb' 0 52).toNat
    let m : Nat := if e = 0 then f else (2 ^ 52 + f) * 2 ^ (e - 1)
    e ≠ 2047 → RoundedTo (if x.getLsbD 63 then -(m : Int) else m) (2 ^ 925) (round64 x))

/-- R316, R342, R288, R374, R318. -/
def Obligations.SilentTickStepsSmoothersAndLfos : Prop :=
  (∀ s : State, s.configured = true → s.g.vqIdx.val < s.g.totalvc.val → AllIdle s →
    (s.g.oversample = false →
      let r := lfosStepped (smoothedState s)
      exec .tick s = .next { r with outL := fmul 0#32 s.g.volume, outR := fmul 0#32 s.g.volume }) ∧
    (s.g.oversample = true →
      let r := lfosStepped (lfosStepped (smoothedState s))
      let dl := decShift s.g.decL 0#32 0#32
      let dr := decShift s.g.decR 0#32 0#32
      exec .tick s =
        .next { r with
          g := { r.g with decL := dl, decR := dr }
          outL := fmul (decSum dl) s.g.volume
          outR := fmul (decSum dr) s.g.volume })) ∧
  (∀ (h : Vec F32 17) (x0 x1 : F32),
    (decShift h x0 x1).get 0 = x1 ∧ (decShift h x0 x1).get 1 = x0 ∧
    (∀ (k : Nat) (hk : k < 15), (decShift h x0 x1).get ⟨k + 2, by omega⟩ = h.get ⟨k, by omega⟩) ∧
    (let tap (k : Fin 17) := fmul (Config.decH k) (h.get k)
     decSum h =
      fadd (fadd (fadd (fadd (fadd (fadd (fadd (fadd (fadd (fadd (fadd (fadd (fadd (fadd (fadd (fadd (fadd 0#32
        (tap 0)) (tap 1)) (tap 2)) (tap 3)) (tap 4)) (tap 5)) (tap 6)) (tap 7)) (tap 8)) (tap 9)) (tap 10))
        (tap 11)) (tap 12)) (tap 13)) (tap 14)) (tap 15)) (tap 16)))

/-- R316, R317, R318, R279, R301, R342. -/
def Obligations.TickServesTheVoicesInQueueOrder : Prop :=
  (∀ s : State, s.configured = true → s.g.totalvc.val = 1 → s.g.vqIdx = 0 → (s.voices.get 0).active = true →
    s.g.oversample = false →
      let s1 := smoothedState s
      let L := s1.g.lfo1.update s.g.fs s.g.bpm s.draws
      let W := s1.g.vib.update s.g.fs s.g.bpm L.draws
      let m := s1.g.smMod.state
      let c : VoiceCtx :=
        { fsI := s.g.fs, oversample := false, bpm := s.g.bpm, tuning := s.tuning, lfo1 := L.y,
          vib := fmul W.y (fmul (fmul m m) (lit 4 1)) }
      let gains := Config.lawPan (s.g.pan.get 0)
      exec .tick s =
        match (s1.voices.get 0).processSample c W.draws with
        | .error e => .fault e
        | .ok o =>
          .next { s1 with
            voices := s1.voices.set 0 o.voice
            draws := o.draws
            g := { s1.g with lfo1 := L.lfo, vib := W.lfo }
            outL := fmul (fadd 0#32 (fmul o.out gains.1)) s.g.volume
            outR := fmul (fadd 0#32 (fmul o.out gains.2)) s.g.volume }) ∧
  (∀ s : State, s.configured = true → s.g.vqIdx.val < s.g.totalvc.val →
    let m := (smoothedState s).g.smMod.state
    let amt := fmul (fmul m m) (lit 4 1)
    exec .tick s =
      match halfTick amt (smoothedState s) with
      | .error e => .fault e
      | .ok (t, l, r) =>
        if s.g.oversample then
          match halfTick amt t with
          | .error e => .fault e
          | .ok (u, l', r') =>
            let dl := decShift s.g.decL l l'
            let dr := decShift s.g.decR r r'
            .next { u with
              g := { u.g with decL := dl, decR := dr }
              outL := fmul (decSum dl) s.g.volume
              outR := fmul (decSum dr) s.g.volume }
        else .next { t with outL := fmul l s.g.volume, outR := fmul r s.g.volume })

/-- R316, R342, R288, R275, R56. -/
def Obligations.TickKeepsEveryControlRegister : Prop :=
  ∀ s t : State, s.configured = true → s.g.vqIdx.val < s.g.totalvc.val → exec .tick s = .next t →
    t = { s with g := t.g, voices := t.voices, outL := t.outL, outR := t.outR, draws := t.draws } ∧
    s.draws ≤ t.draws ∧
    t.g = { s.g with
            lfo1 := t.g.lfo1, vib := t.g.vib, decL := t.g.decL, decR := t.g.decR,
            smCutoff := smoothed s.g.fs s.g.smCutoff, smBend := smoothed s.g.fs s.g.smBend,
            smMod := smoothed s.g.fs s.g.smMod } ∧
    (s.g.oversample = false → t.g.decL = s.g.decL ∧ t.g.decR = s.g.decR) ∧
    SameLfoParams t.g.lfo1 s.g.lfo1 ∧ SameLfoParams t.g.vib s.g.vib ∧
    ∀ i : Fin 32,
      let v := (smoothedState s).voices.get i
      SameVoiceControl (t.voices.get i) v ∧
      ((t.voices.get i).active = true → v.active = true) ∧
      (v.active = false ∨ s.g.totalvc.val ≤ i.val → t.voices.get i = v)

/-- R276 to R278, R280 to R289. The inversion flips the sign bit (log 13); the rounding of the tuning value is log 21. -/
def Obligations.SampleStepFollowsItsListing : Prop :=
  (∀ (c : VoiceCtx) (d : Nat) (v : Voice),
    match v.processSample c d with
    | .error e => e = .phaseIncrementOutOfRange
    | .ok o =>
      SameVoiceControl o.voice v ∧
      o.voice.ampEnv = v.ampEnv.processSample (amp c.fsI v) ∧ o.voice.fltEnv = v.fltEnv.processSample (fil c.fsI v) ∧
      o.voice.lfo2 = (v.lfo2.update c.fsI c.bpm d).lfo ∧
      (o.voice.active = true ↔ v.active = true ∧ o.voice.ampEnv.state ≠ .silent) ∧
      o.draws = (v.lfo2.update c.fsI c.bpm d).draws + 2 ∧ (o.draws = d + 2 ∨ o.draws = d + 3)) ∧
  (∀ (c : VoiceCtx) (d : Nat) (v : Voice),
    let target := fsub (round64 (c.tuning.get v.note)) Config.noteRef
    let note := onePole v.portaState target (Config.lawPortaRate v.porta (v.slop.get 0)) c.fsI
    let bend := if fle 0#32 v.pitchBend then fmul v.pitchBend v.bendUp else fmul v.pitchBend v.bendDown
    let l2 := v.lfo2.update c.fsI c.bpm d
    let e := v.fltEnv.processSample (fil c.fsI v)
    let ef := if v.fenvInvert then fneg e.value else e.value
    let dest := Config.lawRouting v.mod.toList c.lfo1 l2.y c.vib ef
    let efD := v.dlFenv.feedReturn ef
    let cutModD := v.dlLfo.feedReturn dest.cutMod
    let law := Config.lawCutoff
      { cutoff := v.cutoff, noteSemi := note.1, keyFollow := v.keyFollow, efD := efD.1, fenvAmt := v.fenvAmt,
        cutModD := cutModD.1, dither := draw l2.draws, slop3 := v.slop.get 3, velocity := v.velocity,
        mod := v.mod.toList }
    let below := fmin law (fsub (fdiv c.fsI (lit 2 1)) (lit 120 1))
    let cHz :=
      if v.flt.selfOscPush then fmin below (if c.oversample then selfOscCapHqHz else lit 19000 1) else below
    let osc := v.osc.process c.fsI (fadd note.1 bend) dest.pto1 dest.pto2 dest.pw1mod dest.pw2mod (l2.draws + 1)
    v.processSample c d =
      match osc with
      | .error stop => .error stop
      | .ok o =>
        let x := fmul o.1 (Config.lawOscLevel (v.slop.get 4) v.mod.toList)
        let low := onePole v.brightState x Config.brightHz c.fsI
        let xf := v.flt.apply c.fsI (fsub x low.1) cHz
        let a := v.ampEnv.processSample (amp c.fsI v)
        let ea := v.dlAenv.feedReturn a.value
        let eaD := v.dlAenv1.feedReturn ea.1
        .ok
          { out := fmul (fmul xf.1 (lawLfoVolume dest.volMod v.velocity)) eaD.1
            voice :=
              { v with
                portaState := note.2
                lfo2 := l2.lfo
                fltEnv := e
                dlFenv := efD.2
                dlLfo := cutModD.2
                osc := o.2
                brightState := low.2
                flt := xf.2
                ampEnv := a
                dlAenv := ea.2
                dlAenv1 := eaD.2
                active := v.active && decide (a.state ≠ .silent) }
            draws := l2.draws + 2 }) ∧
  (∀ volMod velocity : F32, isFinite volMod = true → isFinite velocity = true →
    fle 0#32 (lawLfoVolume volMod velocity) = true ∧ fle (lawLfoVolume volMod velocity) (lit 1 1) = true)
end

