-- ==== Sys2Proof/Laws/Vec.lean ====
section
/-! SUPPORT. The small lemmas of the array type: read after write, and reads of mapped and filled arrays. -/

namespace Sys2Proof

variable {α β : Type} {n : Nat}

@[simp] theorem Vec.get_set_same (v : Vec α n) (i : Fin n) (x : α) : (v.set i x).get i = x := by
  simp [Vec.get, Vec.set]

theorem Vec.get_set_ne (v : Vec α n) {i j : Fin n} (x : α) (h : i ≠ j) : (v.set i x).get j = v.get j := by
  have : i.val ≠ j.val := fun e => h (Fin.ext e)
  simp [Vec.get, Vec.set, this]

theorem Vec.get_set (v : Vec α n) (i j : Fin n) (x : α) : (v.set i x).get j = if i = j then x else v.get j := by
  split
  · next h => subst h; exact v.get_set_same i x
  · next h => exact v.get_set_ne x h

@[simp] theorem Vec.get_modify_same (v : Vec α n) (i : Fin n) (f : α → α) :
    (v.modify i f).get i = f (v.get i) := Vec.get_set_same _ _ _

theorem Vec.get_modify_ne (v : Vec α n) {i j : Fin n} (f : α → α) (h : i ≠ j) :
    (v.modify i f).get j = v.get j := Vec.get_set_ne _ _ h

@[simp] theorem Vec.get_map (f : α → β) (v : Vec α n) (i : Fin n) : (v.map f).get i = f (v.get i) := by
  simp [Vec.get, Vec.map]

@[simp] theorem Vec.get_mapIdx (f : Nat → α → β) (v : Vec α n) (i : Fin n) :
    (v.mapIdx f).get i = f i.val (v.get i) := by
  simp [Vec.get, Vec.mapIdx]

@[simp] theorem Vec.get_ofFn (f : Fin n → α) (i : Fin n) : (Vec.ofFn f).get i = f i := by
  simp [Vec.get, Vec.ofFn]

@[simp] theorem Vec.get_replicate (x : α) (i : Fin n) : (Vec.replicate n x).get i = x := by
  simp [Vec.get, Vec.replicate]

@[simp] theorem Vec.set_get_self (v : Vec α n) (i : Fin n) : v.set i (v.get i) = v := by
  apply Vec.eq_of_get
  intro j
  rw [Vec.get_set]
  split
  · next h => rw [h]
  · rfl

end Sys2Proof
end

