-- ==== Sys2Proof/Laws/Ops.lean ====
section
/-! SUPPORT. One lemma for each shared operation that says all it can do: taking a fault, the frame of a command,
the set of written registers, delay lines and rings. -/

namespace Sys2Proof.Machine

/-! ### Taking a fault -/

/-- A fault writes `FAULT` if it was clear, and nothing else. -/
theorem raise_eq (c : FaultCause) (w : CmdWord) (s : State) :
    raise c w s = { s with fault := if s.fault.valid then s.fault else ⟨true, c.code, w⟩ } := by
  unfold raise; split <;> simp_all

@[simp] theorem raise_voices (c : FaultCause) (w : CmdWord) (s : State) : (raise c w s).voices = s.voices := by
  rw [raise_eq]
@[simp] theorem raise_g (c : FaultCause) (w : CmdWord) (s : State) : (raise c w s).g = s.g := by rw [raise_eq]
@[simp] theorem raise_outL (c : FaultCause) (w : CmdWord) (s : State) : (raise c w s).outL = s.outL := by rw [raise_eq]
@[simp] theorem raise_outR (c : FaultCause) (w : CmdWord) (s : State) : (raise c w s).outR = s.outR := by rw [raise_eq]
@[simp] theorem raise_draws (c : FaultCause) (w : CmdWord) (s : State) : (raise c w s).draws = s.draws := by
  rw [raise_eq]
@[simp] theorem raise_tuning (c : FaultCause) (w : CmdWord) (s : State) : (raise c w s).tuning = s.tuning := by
  rw [raise_eq]
@[simp] theorem raise_inputs (c : FaultCause) (w : CmdWord) (s : State) : (raise c w s).inputs = s.inputs := by
  rw [raise_eq]
theorem raise_fault (c : FaultCause) (w : CmdWord) (s : State) :
    (raise c w s).fault = if s.fault.valid then s.fault else ⟨true, c.code, w⟩ := by rw [raise_eq]

/-! ### The frame of a command -/

/-- What the checks can answer: the effect, or one of the two boundary faults. -/
theorem checked_cases (i : Instr) (inRange needsCfg : Bool) (op : State → State) (s : State) :
    (inRange = true ∧ (needsCfg = true → s.configured = true) ∧ checked i inRange needsCfg op s = op s) ∨
    (inRange = true ∧ needsCfg = true ∧ s.configured = false ∧
      checked i inRange needsCfg op s = raise .notConfigured (encode i) s) ∨
    (inRange = false ∧ checked i inRange needsCfg op s = raise .operandRange (encode i) s) := by
  unfold checked
  cases inRange <;> cases needsCfg <;> cases s.configured <;> simp

/-- A property of states that the effect and every fault keep is kept by a command. -/
theorem checked_induction {P : State → Prop} {i : Instr} {inRange needsCfg : Bool} {op : State → State} {s : State}
    (hop : inRange = true → (needsCfg = true → s.configured = true) → P (op s))
    (hraise : ∀ c, P (raise c (encode i) s)) : P (checked i inRange needsCfg op s) := by
  rcases checked_cases i inRange needsCfg op s with ⟨hr, hc, h⟩ | ⟨-, -, -, h⟩ | ⟨-, h⟩ <;> rw [h]
  · exact hop hr hc
  · exact hraise _
  · exact hraise _

theorem command_accepted {i : Instr} {inRange : Bool} {op : State → State} {s : State} (h : inRange = true) :
    command i inRange op s = .next (op s) := by simp [command, checked, h]

theorem configuredCommand_accepted {i : Instr} {inRange : Bool} {op : State → State} {s : State}
    (h : inRange = true) (hc : s.configured = true) : configuredCommand i inRange op s = .next (op s) := by
  simp [configuredCommand, checked, h, hc]

theorem command_refused {i : Instr} {inRange : Bool} {op : State → State} {s : State} (h : inRange = false) :
    command i inRange op s = .next (raise .operandRange (encode i) s) := by simp [command, checked, h]

/-- `MODPARAM` on an index that names a routing register. -/
theorem modIndexOf_eq {a : BitVec 8} (h : a.toNat < Config.modCount) : modIndexOf a = some ⟨a.toNat, h⟩ := by
  simp [modIndexOf, h]

/-! ### The set of written registers -/

theorem RegId.mem_all (id : RegId) : id ∈ RegId.all := by
  cases id with
  | mod m => simp [RegId.all]
  | pan k =>
    refine List.mem_append_left _ ?_
    fin_cases k <;> simp [RegId.globalIds]
  | _ =>
    simp only [RegId.all, List.mem_append]
    first
      | (left; simp only [RegId.globalIds, List.mem_cons, true_or, or_true, reduceCtorEq]; done)
      | (right; left; simp only [RegId.voiceIds, List.mem_cons, true_or, or_true])

/-- `CONFIGURED` says that every register has been written. -/
theorem configured_iff (s : State) : s.configured = true ↔ ∀ id : RegId, id ∈ s.g.written := by
  simp [State.configured, RegId.mem_all]

/-- Marking a register adds it to the set and removes none. -/
@[simp] theorem mem_insertId (id x : RegId) (l : List RegId) : x ∈ insertId id l ↔ x = id ∨ x ∈ l := by
  induction l with
  | nil => simp [insertId]
  | cons y ys ih =>
    unfold insertId
    split_ifs with h1 h2
    · subst h1; simp
    · simp
    · simp [ih]; tauto

/-- Different registers have different places in the canonical order. -/
theorem RegId.index_injective {a b : RegId} (h : a.index = b.index) : a = b := by
  cases a with
  | pan k =>
    cases b with
    | pan j => simp only [RegId.index] at h; congr 1; omega
    | mod m => have := k.isLt; simp only [RegId.index] at h; omega
    | _ => have := k.isLt; simp only [RegId.index] at h; omega
  | mod k =>
    cases b with
    | mod m => simp only [RegId.index] at h; congr 1; exact Fin.ext (by omega)
    | pan j => have := j.isLt; simp only [RegId.index] at h; omega
    | _ => simp only [RegId.index] at h; omega
  | _ =>
    cases b with
    | pan j => have := j.isLt; simp only [RegId.index] at h; omega
    | mod m => simp only [RegId.index] at h; omega
    | _ => first | rfl | (simp only [RegId.index] at h; omega)

/-- Marking a register keeps the canonical order of the set (log 20). -/
theorem insertId_canonical (id : RegId) (l : List RegId) (h : WrittenCanonical l) : WrittenCanonical (insertId id l) := by
  unfold WrittenCanonical at *
  induction l with
  | nil => simp [insertId]
  | cons x xs ih =>
    rw [List.pairwise_cons] at h
    unfold insertId
    split_ifs with h1 h2
    · exact List.pairwise_cons.2 h
    · refine List.pairwise_cons.2 ⟨fun y hy => ?_, List.pairwise_cons.2 h⟩
      rcases List.mem_cons.1 hy with rfl | hy
      · exact h2
      · exact h2.trans (h.1 y hy)
    · refine List.pairwise_cons.2 ⟨fun y hy => ?_, ih h.2⟩
      rcases (mem_insertId id y xs).1 hy with rfl | hy
      · exact lt_of_le_of_ne (not_lt.1 h2) fun e => h1 (RegId.index_injective e)
      · exact h.1 y hy

/-! ### Delay lines and rings -/

/-- In an array of a power-of-two length the bitmask wraps an index modulo the length (R77). -/
theorem wrapIndex_val (m : Nat) (h : 0 < 2 ^ m) (k : Nat) : (wrapIndex h k).val = k % 2 ^ m := by
  simp [wrapIndex, Nat.and_two_pow_sub_one_eq_mod]

@[simp] theorem feedReturn_fst {α : Type} {n : Nat} (D : DelayLine α n) (v : α) :
    (D.feedReturn v).1 = D.buf.get D.pos := rfl

@[simp] theorem feedReturn_buf {α : Type} {n : Nat} (D : DelayLine α n) (v : α) :
    (D.feedReturn v).2.buf = D.buf.set D.pos v := rfl

theorem feedReturn_pos {α : Type} {m : Nat} (D : DelayLine α (2 ^ m)) (v : α) :
    (D.feedReturn v).2.pos.val = (D.pos.val + 1) % 2 ^ m := wrapIndex_val m D.pos.pos _

@[simp] theorem flush_pos {α : Type} {n : Nat} (D : DelayLine α n) (z : α) : (D.flush z).pos = D.pos := rfl

@[simp] theorem flush_get {α : Type} {n : Nat} (D : DelayLine α n) (z : α) (k : Fin n) : (D.flush z).buf.get k = z := by
  simp [DelayLine.flush]

/-- An injection writes the ring and nothing else. -/
theorem mixIn_frame {n : Nat} (T : Nat → F32) (b : Nat) (P : OscPrim n) (frac scale : F32) :
    P.mixIn T b frac scale = { P with ring := (P.mixIn T b frac scale).ring } := rfl

@[simp] theorem aliasReduction_fst {n : Nat} (P : OscPrim n) : P.aliasReduction.1 = P.ring.get P.bP := rfl

@[simp] theorem aliasReduction_ring {n : Nat} (P : OscPrim n) : P.aliasReduction.2.ring = P.ring.set P.bP f0 := rfl

theorem aliasReduction_frame {n : Nat} (P : OscPrim n) :
    P.aliasReduction.2 = { P with ring := P.aliasReduction.2.ring, bP := P.aliasReduction.2.bP } := rfl

/-- A value read and written through a delay line keeps a property of its contents. -/
theorem feedReturn_forall {α : Type} {n : Nat} {p : α → Prop} (D : DelayLine α n) (v : α) (hD : ∀ k, p (D.buf.get k))
    (hv : p v) : p (D.feedReturn v).1 ∧ ∀ k, p ((D.feedReturn v).2.buf.get k) := by
  refine ⟨hD _, fun k => ?_⟩
  rw [feedReturn_buf, Vec.get_set]
  split
  · exact hv
  · exact hD k

end Sys2Proof.Machine
end

