-- ==== Sys2Proof/Laws/State.lean ====
section
/-! SUPPORT. One lemma per field per update of the state, each true by `rfl`, so that no proof unfolds a record
update. -/

namespace Sys2Proof.Machine

/-! ### `State.markWritten` -/

@[simp] theorem State.markWritten_voices (s : State) (id : RegId) : (State.markWritten id s).voices = s.voices := rfl
@[simp] theorem State.markWritten_g (s : State) (id : RegId) :
    (State.markWritten id s).g = { s.g with written := insertId id s.g.written } := rfl
@[simp] theorem State.markWritten_outL (s : State) (id : RegId) : (State.markWritten id s).outL = s.outL := rfl
@[simp] theorem State.markWritten_outR (s : State) (id : RegId) : (State.markWritten id s).outR = s.outR := rfl
@[simp] theorem State.markWritten_fault (s : State) (id : RegId) : (State.markWritten id s).fault = s.fault := rfl
@[simp] theorem State.markWritten_draws (s : State) (id : RegId) : (State.markWritten id s).draws = s.draws := rfl
@[simp] theorem State.markWritten_tuning (s : State) (id : RegId) : (State.markWritten id s).tuning = s.tuning := rfl
@[simp] theorem State.markWritten_inputs (s : State) (id : RegId) : (State.markWritten id s).inputs = s.inputs := rfl

/-! ### `State.mapGlobal` -/

@[simp] theorem State.mapGlobal_voices (s : State) (f : Global → Global) : (State.mapGlobal f s).voices = s.voices := rfl
@[simp] theorem State.mapGlobal_g (s : State) (f : Global → Global) :
    (State.mapGlobal f s).g = f s.g := rfl
@[simp] theorem State.mapGlobal_outL (s : State) (f : Global → Global) : (State.mapGlobal f s).outL = s.outL := rfl
@[simp] theorem State.mapGlobal_outR (s : State) (f : Global → Global) : (State.mapGlobal f s).outR = s.outR := rfl
@[simp] theorem State.mapGlobal_fault (s : State) (f : Global → Global) : (State.mapGlobal f s).fault = s.fault := rfl
@[simp] theorem State.mapGlobal_draws (s : State) (f : Global → Global) : (State.mapGlobal f s).draws = s.draws := rfl
@[simp] theorem State.mapGlobal_tuning (s : State) (f : Global → Global) : (State.mapGlobal f s).tuning = s.tuning := rfl
@[simp] theorem State.mapGlobal_inputs (s : State) (f : Global → Global) : (State.mapGlobal f s).inputs = s.inputs := rfl

/-! ### `State.mapVoices` -/

@[simp] theorem State.mapVoices_voices (s : State) (f : Voice → Voice) :
    (State.mapVoices f s).voices = s.voices.map f := rfl
@[simp] theorem State.mapVoices_g (s : State) (f : Voice → Voice) : (State.mapVoices f s).g = s.g := rfl
@[simp] theorem State.mapVoices_outL (s : State) (f : Voice → Voice) : (State.mapVoices f s).outL = s.outL := rfl
@[simp] theorem State.mapVoices_outR (s : State) (f : Voice → Voice) : (State.mapVoices f s).outR = s.outR := rfl
@[simp] theorem State.mapVoices_fault (s : State) (f : Voice → Voice) : (State.mapVoices f s).fault = s.fault := rfl
@[simp] theorem State.mapVoices_draws (s : State) (f : Voice → Voice) : (State.mapVoices f s).draws = s.draws := rfl
@[simp] theorem State.mapVoices_tuning (s : State) (f : Voice → Voice) : (State.mapVoices f s).tuning = s.tuning := rfl
@[simp] theorem State.mapVoices_inputs (s : State) (f : Voice → Voice) : (State.mapVoices f s).inputs = s.inputs := rfl

/-! ### `State.setVoice` -/

@[simp] theorem State.setVoice_voices (s : State) (i : Fin 32) (v : Voice) :
    (State.setVoice i v s).voices = s.voices.set i v := rfl
@[simp] theorem State.setVoice_g (s : State) (i : Fin 32) (v : Voice) : (State.setVoice i v s).g = s.g := rfl
@[simp] theorem State.setVoice_outL (s : State) (i : Fin 32) (v : Voice) : (State.setVoice i v s).outL = s.outL := rfl
@[simp] theorem State.setVoice_outR (s : State) (i : Fin 32) (v : Voice) : (State.setVoice i v s).outR = s.outR := rfl
@[simp] theorem State.setVoice_fault (s : State) (i : Fin 32) (v : Voice) : (State.setVoice i v s).fault = s.fault := rfl
@[simp] theorem State.setVoice_draws (s : State) (i : Fin 32) (v : Voice) : (State.setVoice i v s).draws = s.draws := rfl
@[simp] theorem State.setVoice_tuning (s : State) (i : Fin 32) (v : Voice) : (State.setVoice i v s).tuning = s.tuning := rfl
@[simp] theorem State.setVoice_inputs (s : State) (i : Fin 32) (v : Voice) : (State.setVoice i v s).inputs = s.inputs := rfl

/-! ### `State.voiceNoteOn` -/

@[simp] theorem State.voiceNoteOn_voices (s : State) (j : Fin 32) (n : Fin 128) (vel : F32) :
    (State.voiceNoteOn j n vel s).voices = s.voices.set j ((s.voices.get j).noteOn s.g.fsI n vel) := rfl
@[simp] theorem State.voiceNoteOn_g (s : State) (j : Fin 32) (n : Fin 128) (vel : F32) : (State.voiceNoteOn j n vel s).g = s.g := rfl
@[simp] theorem State.voiceNoteOn_outL (s : State) (j : Fin 32) (n : Fin 128) (vel : F32) : (State.voiceNoteOn j n vel s).outL = s.outL := rfl
@[simp] theorem State.voiceNoteOn_outR (s : State) (j : Fin 32) (n : Fin 128) (vel : F32) : (State.voiceNoteOn j n vel s).outR = s.outR := rfl
@[simp] theorem State.voiceNoteOn_fault (s : State) (j : Fin 32) (n : Fin 128) (vel : F32) : (State.voiceNoteOn j n vel s).fault = s.fault := rfl
@[simp] theorem State.voiceNoteOn_draws (s : State) (j : Fin 32) (n : Fin 128) (vel : F32) : (State.voiceNoteOn j n vel s).draws = s.draws := rfl
@[simp] theorem State.voiceNoteOn_tuning (s : State) (j : Fin 32) (n : Fin 128) (vel : F32) : (State.voiceNoteOn j n vel s).tuning = s.tuning := rfl
@[simp] theorem State.voiceNoteOn_inputs (s : State) (j : Fin 32) (n : Fin 128) (vel : F32) : (State.voiceNoteOn j n vel s).inputs = s.inputs := rfl

/-! ### `State.mapStolen` -/

@[simp] theorem State.mapStolen_voices (s : State) (k : Fin 128) (f : BitVec 32 → BitVec 32) : (State.mapStolen k f s).voices = s.voices := rfl
@[simp] theorem State.mapStolen_g (s : State) (k : Fin 128) (f : BitVec 32 → BitVec 32) :
    (State.mapStolen k f s).g = { s.g with stolen := s.g.stolen.modify (noteEntry k) f } := rfl
@[simp] theorem State.mapStolen_outL (s : State) (k : Fin 128) (f : BitVec 32 → BitVec 32) : (State.mapStolen k f s).outL = s.outL := rfl
@[simp] theorem State.mapStolen_outR (s : State) (k : Fin 128) (f : BitVec 32 → BitVec 32) : (State.mapStolen k f s).outR = s.outR := rfl
@[simp] theorem State.mapStolen_fault (s : State) (k : Fin 128) (f : BitVec 32 → BitVec 32) : (State.mapStolen k f s).fault = s.fault := rfl
@[simp] theorem State.mapStolen_draws (s : State) (k : Fin 128) (f : BitVec 32 → BitVec 32) : (State.mapStolen k f s).draws = s.draws := rfl
@[simp] theorem State.mapStolen_tuning (s : State) (k : Fin 128) (f : BitVec 32 → BitVec 32) : (State.mapStolen k f s).tuning = s.tuning := rfl
@[simp] theorem State.mapStolen_inputs (s : State) (k : Fin 128) (f : BitVec 32 → BitVec 32) : (State.mapStolen k f s).inputs = s.inputs := rfl

/-! ### `State.recordAge` -/

@[simp] theorem State.recordAge_voices (s : State) (n : Fin 128) : (State.recordAge n s).voices = s.voices := rfl
@[simp] theorem State.recordAge_g (s : State) (n : Fin 128) :
    (State.recordAge n s).g = 
      { s.g with
        asPlayedCounter := s.g.asPlayedCounter + 1#64
        voiceAge := s.g.voiceAge.set (noteEntry n) (s.g.asPlayedCounter + 1#64) } := rfl
@[simp] theorem State.recordAge_outL (s : State) (n : Fin 128) : (State.recordAge n s).outL = s.outL := rfl
@[simp] theorem State.recordAge_outR (s : State) (n : Fin 128) : (State.recordAge n s).outR = s.outR := rfl
@[simp] theorem State.recordAge_fault (s : State) (n : Fin 128) : (State.recordAge n s).fault = s.fault := rfl
@[simp] theorem State.recordAge_draws (s : State) (n : Fin 128) : (State.recordAge n s).draws = s.draws := rfl
@[simp] theorem State.recordAge_tuning (s : State) (n : Fin 128) : (State.recordAge n s).tuning = s.tuning := rfl
@[simp] theorem State.recordAge_inputs (s : State) (n : Fin 128) : (State.recordAge n s).inputs = s.inputs := rfl

/-! ### `State.sustainOn` -/

@[simp] theorem State.sustainOn_voices (s : State) :
    (State.sustainOn s).voices = s.voices.map Voice.sustOn := rfl
@[simp] theorem State.sustainOn_g (s : State) : (State.sustainOn s).g = s.g := rfl
@[simp] theorem State.sustainOn_outL (s : State) : (State.sustainOn s).outL = s.outL := rfl
@[simp] theorem State.sustainOn_outR (s : State) : (State.sustainOn s).outR = s.outR := rfl
@[simp] theorem State.sustainOn_fault (s : State) : (State.sustainOn s).fault = s.fault := rfl
@[simp] theorem State.sustainOn_draws (s : State) : (State.sustainOn s).draws = s.draws := rfl
@[simp] theorem State.sustainOn_tuning (s : State) : (State.sustainOn s).tuning = s.tuning := rfl
@[simp] theorem State.sustainOn_inputs (s : State) : (State.sustainOn s).inputs = s.inputs := rfl

/-! ### `State.sustainOff` -/

@[simp] theorem State.sustainOff_voices (s : State) :
    (State.sustainOff s).voices = s.voices.map (Voice.sustOff s.g.fsI) := rfl
@[simp] theorem State.sustainOff_g (s : State) : (State.sustainOff s).g = s.g := rfl
@[simp] theorem State.sustainOff_outL (s : State) : (State.sustainOff s).outL = s.outL := rfl
@[simp] theorem State.sustainOff_outR (s : State) : (State.sustainOff s).outR = s.outR := rfl
@[simp] theorem State.sustainOff_fault (s : State) : (State.sustainOff s).fault = s.fault := rfl
@[simp] theorem State.sustainOff_draws (s : State) : (State.sustainOff s).draws = s.draws := rfl
@[simp] theorem State.sustainOff_tuning (s : State) : (State.sustainOff s).tuning = s.tuning := rfl
@[simp] theorem State.sustainOff_inputs (s : State) : (State.sustainOff s).inputs = s.inputs := rfl

/-! ### `State.allNotesOff` -/

@[simp] theorem State.allNotesOff_voices (s : State) :
    (State.allNotesOff s).voices = s.voices.map (Voice.noteOff s.g.fsI) := rfl
@[simp] theorem State.allNotesOff_g (s : State) :
    (State.allNotesOff s).g = { s.g with stolen := clearStolen s.g.stolen } := rfl
@[simp] theorem State.allNotesOff_outL (s : State) : (State.allNotesOff s).outL = s.outL := rfl
@[simp] theorem State.allNotesOff_outR (s : State) : (State.allNotesOff s).outR = s.outR := rfl
@[simp] theorem State.allNotesOff_fault (s : State) : (State.allNotesOff s).fault = s.fault := rfl
@[simp] theorem State.allNotesOff_draws (s : State) : (State.allNotesOff s).draws = s.draws := rfl
@[simp] theorem State.allNotesOff_tuning (s : State) : (State.allNotesOff s).tuning = s.tuning := rfl
@[simp] theorem State.allNotesOff_inputs (s : State) : (State.allNotesOff s).inputs = s.inputs := rfl

/-! ### `State.allSoundOff` -/

@[simp] theorem State.allSoundOff_voices (s : State) :
    (State.allSoundOff s).voices = (s.voices.map (Voice.noteOff s.g.fsI)).map Voice.kill := rfl
@[simp] theorem State.allSoundOff_g (s : State) :
    (State.allSoundOff s).g = { s.g with stolen := clearStolen s.g.stolen } := rfl
@[simp] theorem State.allSoundOff_outL (s : State) : (State.allSoundOff s).outL = s.outL := rfl
@[simp] theorem State.allSoundOff_outR (s : State) : (State.allSoundOff s).outR = s.outR := rfl
@[simp] theorem State.allSoundOff_fault (s : State) : (State.allSoundOff s).fault = s.fault := rfl
@[simp] theorem State.allSoundOff_draws (s : State) : (State.allSoundOff s).draws = s.draws := rfl
@[simp] theorem State.allSoundOff_tuning (s : State) : (State.allSoundOff s).tuning = s.tuning := rfl
@[simp] theorem State.allSoundOff_inputs (s : State) : (State.allSoundOff s).inputs = s.inputs := rfl

/-! ### `State.smooth` -/

@[simp] theorem State.smooth_voices (s : State) :
    (State.smooth s).voices = s.voices.map fun v =>
        { v with cutoff := (s.g.smCutoff.step s.g.fs).state, pitchBend := (s.g.smBend.step s.g.fs).state } := rfl
@[simp] theorem State.smooth_g (s : State) :
    (State.smooth s).g = 
      { s.g with
        smCutoff := s.g.smCutoff.step s.g.fs
        smBend := s.g.smBend.step s.g.fs
        smMod := s.g.smMod.step s.g.fs } := rfl
@[simp] theorem State.smooth_outL (s : State) : (State.smooth s).outL = s.outL := rfl
@[simp] theorem State.smooth_outR (s : State) : (State.smooth s).outR = s.outR := rfl
@[simp] theorem State.smooth_fault (s : State) : (State.smooth s).fault = s.fault := rfl
@[simp] theorem State.smooth_draws (s : State) : (State.smooth s).draws = s.draws := rfl
@[simp] theorem State.smooth_tuning (s : State) : (State.smooth s).tuning = s.tuning := rfl
@[simp] theorem State.smooth_inputs (s : State) : (State.smooth s).inputs = s.inputs := rfl

/-! ### `State.writeOut` -/

@[simp] theorem State.writeOut_voices (s : State) (l r : F32) : (State.writeOut l r s).voices = s.voices := rfl
@[simp] theorem State.writeOut_g (s : State) (l r : F32) : (State.writeOut l r s).g = s.g := rfl
@[simp] theorem State.writeOut_outL (s : State) (l r : F32) :
    (State.writeOut l r s).outL = fmul l s.g.volume := rfl
@[simp] theorem State.writeOut_outR (s : State) (l r : F32) :
    (State.writeOut l r s).outR = fmul r s.g.volume := rfl
@[simp] theorem State.writeOut_fault (s : State) (l r : F32) : (State.writeOut l r s).fault = s.fault := rfl
@[simp] theorem State.writeOut_draws (s : State) (l r : F32) : (State.writeOut l r s).draws = s.draws := rfl
@[simp] theorem State.writeOut_tuning (s : State) (l r : F32) : (State.writeOut l r s).tuning = s.tuning := rfl
@[simp] theorem State.writeOut_inputs (s : State) (l r : F32) : (State.writeOut l r s).inputs = s.inputs := rfl

/-! ### `State.decimate` -/

@[simp] theorem State.decimate_voices (s : State) (l0 r0 l1 r1 : F32) : (State.decimate l0 r0 l1 r1 s).voices = s.voices := rfl
@[simp] theorem State.decimate_g (s : State) (l0 r0 l1 r1 : F32) :
    (State.decimate l0 r0 l1 r1 s).g = { s.g with decL := decShift s.g.decL l0 l1, decR := decShift s.g.decR r0 r1 } := rfl
@[simp] theorem State.decimate_outL (s : State) (l0 r0 l1 r1 : F32) :
    (State.decimate l0 r0 l1 r1 s).outL = fmul (decSum (decShift s.g.decL l0 l1)) s.g.volume := by
  unfold State.decimate State.writeOut; with_reducible rfl
@[simp] theorem State.decimate_outR (s : State) (l0 r0 l1 r1 : F32) :
    (State.decimate l0 r0 l1 r1 s).outR = fmul (decSum (decShift s.g.decR r0 r1)) s.g.volume := by
  unfold State.decimate State.writeOut; with_reducible rfl
@[simp] theorem State.decimate_fault (s : State) (l0 r0 l1 r1 : F32) : (State.decimate l0 r0 l1 r1 s).fault = s.fault := rfl
@[simp] theorem State.decimate_draws (s : State) (l0 r0 l1 r1 : F32) : (State.decimate l0 r0 l1 r1 s).draws = s.draws := rfl
@[simp] theorem State.decimate_tuning (s : State) (l0 r0 l1 r1 : F32) : (State.decimate l0 r0 l1 r1 s).tuning = s.tuning := rfl
@[simp] theorem State.decimate_inputs (s : State) (l0 r0 l1 r1 : F32) : (State.decimate l0 r0 l1 r1 s).inputs = s.inputs := rfl

/-! ### `State.setPolyphony` -/

@[simp] theorem State.setPolyphony_voices (s : State) (n : VoiceCount) :
    (State.setPolyphony n s).voices = s.voices.mapIdx fun i v => if n.val ≤ i then (v.noteOff s.g.fsI).kill else v := rfl
@[simp] theorem State.setPolyphony_g (s : State) (n : VoiceCount) :
    (State.setPolyphony n s).g = { s.g with totalvc := n, vqIdx := 0 } := rfl
@[simp] theorem State.setPolyphony_outL (s : State) (n : VoiceCount) : (State.setPolyphony n s).outL = s.outL := rfl
@[simp] theorem State.setPolyphony_outR (s : State) (n : VoiceCount) : (State.setPolyphony n s).outR = s.outR := rfl
@[simp] theorem State.setPolyphony_fault (s : State) (n : VoiceCount) : (State.setPolyphony n s).fault = s.fault := rfl
@[simp] theorem State.setPolyphony_draws (s : State) (n : VoiceCount) : (State.setPolyphony n s).draws = s.draws := rfl
@[simp] theorem State.setPolyphony_tuning (s : State) (n : VoiceCount) : (State.setPolyphony n s).tuning = s.tuning := rfl
@[simp] theorem State.setPolyphony_inputs (s : State) (n : VoiceCount) : (State.setPolyphony n s).inputs = s.inputs := rfl

/-! ### `State.setOversample` -/

@[simp] theorem State.setOversample_g (s : State) (b : Bool) :
    (State.setOversample b s).g = { s.g with oversample := b, decL := Vec.replicate 17 f0, decR := Vec.replicate 17 f0 } := rfl
@[simp] theorem State.setOversample_outL (s : State) (b : Bool) : (State.setOversample b s).outL = s.outL := rfl
@[simp] theorem State.setOversample_outR (s : State) (b : Bool) : (State.setOversample b s).outR = s.outR := rfl
@[simp] theorem State.setOversample_fault (s : State) (b : Bool) : (State.setOversample b s).fault = s.fault := rfl
@[simp] theorem State.setOversample_draws (s : State) (b : Bool) : (State.setOversample b s).draws = s.draws := rfl
@[simp] theorem State.setOversample_tuning (s : State) (b : Bool) : (State.setOversample b s).tuning = s.tuning := rfl
@[simp] theorem State.setOversample_inputs (s : State) (b : Bool) : (State.setOversample b s).inputs = s.inputs := rfl

/-! ### `State.setSampleRate` -/

@[simp] theorem State.setSampleRate_g (s : State) (hz : F32) :
    (State.setSampleRate hz s).g = { s.g with fs := hz } := rfl
@[simp] theorem State.setSampleRate_outL (s : State) (hz : F32) : (State.setSampleRate hz s).outL = s.outL := rfl
@[simp] theorem State.setSampleRate_outR (s : State) (hz : F32) : (State.setSampleRate hz s).outR = s.outR := rfl
@[simp] theorem State.setSampleRate_fault (s : State) (hz : F32) : (State.setSampleRate hz s).fault = s.fault := rfl
@[simp] theorem State.setSampleRate_draws (s : State) (hz : F32) :
    (State.setSampleRate hz s).draws = s.draws + 64 := rfl
@[simp] theorem State.setSampleRate_tuning (s : State) (hz : F32) : (State.setSampleRate hz s).tuning = s.tuning := rfl
@[simp] theorem State.setSampleRate_inputs (s : State) (hz : F32) : (State.setSampleRate hz s).inputs = s.inputs := rfl

/-! ### `State.restartLfos` -/

@[simp] theorem State.restartLfos_outL (s : State) : (State.restartLfos s).outL = s.outL := rfl
@[simp] theorem State.restartLfos_outR (s : State) : (State.restartLfos s).outR = s.outR := rfl
@[simp] theorem State.restartLfos_fault (s : State) : (State.restartLfos s).fault = s.fault := rfl
@[simp] theorem State.restartLfos_draws (s : State) : (State.restartLfos s).draws = s.draws := rfl
@[simp] theorem State.restartLfos_tuning (s : State) : (State.restartLfos s).tuning = s.tuning := rfl
@[simp] theorem State.restartLfos_inputs (s : State) : (State.restartLfos s).inputs = s.inputs := rfl

/-! ### `State.setMod` -/

@[simp] theorem State.setMod_voices (s : State) (m : Fin Config.modCount) (v : F32) :
    (State.setMod m v s).voices = s.voices.map fun b => Voice.refreshEnvs s.g.fsI { b with mod := b.mod.set m v } := rfl
@[simp] theorem State.setMod_g (s : State) (m : Fin Config.modCount) (v : F32) : (State.setMod m v s).g = s.g := rfl
@[simp] theorem State.setMod_outL (s : State) (m : Fin Config.modCount) (v : F32) : (State.setMod m v s).outL = s.outL := rfl
@[simp] theorem State.setMod_outR (s : State) (m : Fin Config.modCount) (v : F32) : (State.setMod m v s).outR = s.outR := rfl
@[simp] theorem State.setMod_fault (s : State) (m : Fin Config.modCount) (v : F32) : (State.setMod m v s).fault = s.fault := rfl
@[simp] theorem State.setMod_draws (s : State) (m : Fin Config.modCount) (v : F32) : (State.setMod m v s).draws = s.draws := rfl
@[simp] theorem State.setMod_tuning (s : State) (m : Fin Config.modCount) (v : F32) : (State.setMod m v s).tuning = s.tuning := rfl
@[simp] theorem State.setMod_inputs (s : State) (m : Fin Config.modCount) (v : F32) : (State.setMod m v s).inputs = s.inputs := rfl

end Sys2Proof.Machine
end

