-- ==== Sys2Proof/Laws/Voice.lean ====
section
/-! SUPPORT. One lemma per field per update of a voice, and what the note operations do to an envelope. -/

namespace Sys2Proof.Machine

/-! ### `Voice.refreshEnvs` -/

@[simp] theorem Voice.refreshEnvs_note (v : Voice) (fsI : F32) : (Voice.refreshEnvs fsI v).note = v.note :=
  rfl
@[simp] theorem Voice.refreshEnvs_pitchBend (v : Voice) (fsI : F32) : (Voice.refreshEnvs fsI v).pitchBend = v.pitchBend :=
  rfl
@[simp] theorem Voice.refreshEnvs_gate (v : Voice) (fsI : F32) : (Voice.refreshEnvs fsI v).gate = v.gate :=
  rfl
@[simp] theorem Voice.refreshEnvs_sustHold (v : Voice) (fsI : F32) : (Voice.refreshEnvs fsI v).sustHold = v.sustHold :=
  rfl
@[simp] theorem Voice.refreshEnvs_active (v : Voice) (fsI : F32) : (Voice.refreshEnvs fsI v).active = v.active :=
  rfl
@[simp] theorem Voice.refreshEnvs_velocity (v : Voice) (fsI : F32) : (Voice.refreshEnvs fsI v).velocity = v.velocity :=
  rfl
@[simp] theorem Voice.refreshEnvs_slop (v : Voice) (fsI : F32) : (Voice.refreshEnvs fsI v).slop = v.slop :=
  rfl
@[simp] theorem Voice.refreshEnvs_osc (v : Voice) (fsI : F32) : (Voice.refreshEnvs fsI v).osc = v.osc := rfl
@[simp] theorem Voice.refreshEnvs_ampEnv (v : Voice) (fsI : F32) :
    (Voice.refreshEnvs fsI v).ampEnv = v.ampEnv.refresh (v.ampCtx fsI) := rfl
@[simp] theorem Voice.refreshEnvs_fltEnv (v : Voice) (fsI : F32) :
    (Voice.refreshEnvs fsI v).fltEnv = v.fltEnv.refresh (v.fltCtx fsI) := rfl
@[simp] theorem Voice.refreshEnvs_flt (v : Voice) (fsI : F32) : (Voice.refreshEnvs fsI v).flt = v.flt := rfl
@[simp] theorem Voice.refreshEnvs_lfo2 (v : Voice) (fsI : F32) : (Voice.refreshEnvs fsI v).lfo2 = v.lfo2 :=
  rfl
@[simp] theorem Voice.refreshEnvs_dlAenv (v : Voice) (fsI : F32) : (Voice.refreshEnvs fsI v).dlAenv = v.dlAenv :=
  rfl
@[simp] theorem Voice.refreshEnvs_dlFenv (v : Voice) (fsI : F32) : (Voice.refreshEnvs fsI v).dlFenv = v.dlFenv :=
  rfl
@[simp] theorem Voice.refreshEnvs_dlLfo (v : Voice) (fsI : F32) : (Voice.refreshEnvs fsI v).dlLfo = v.dlLfo :=
  rfl
@[simp] theorem Voice.refreshEnvs_dlAenv1 (v : Voice) (fsI : F32) : (Voice.refreshEnvs fsI v).dlAenv1 = v.dlAenv1 :=
  rfl
@[simp] theorem Voice.refreshEnvs_portaState (v : Voice) (fsI : F32) : (Voice.refreshEnvs fsI v).portaState = v.portaState :=
  rfl
@[simp] theorem Voice.refreshEnvs_brightState (v : Voice) (fsI : F32) : (Voice.refreshEnvs fsI v).brightState = v.brightState :=
  rfl
@[simp] theorem Voice.refreshEnvs_cutoff (v : Voice) (fsI : F32) : (Voice.refreshEnvs fsI v).cutoff = v.cutoff :=
  rfl
@[simp] theorem Voice.refreshEnvs_fenvAmt (v : Voice) (fsI : F32) : (Voice.refreshEnvs fsI v).fenvAmt = v.fenvAmt :=
  rfl
@[simp] theorem Voice.refreshEnvs_keyFollow (v : Voice) (fsI : F32) : (Voice.refreshEnvs fsI v).keyFollow = v.keyFollow :=
  rfl
@[simp] theorem Voice.refreshEnvs_porta (v : Voice) (fsI : F32) : (Voice.refreshEnvs fsI v).porta = v.porta :=
  rfl
@[simp] theorem Voice.refreshEnvs_bendUp (v : Voice) (fsI : F32) : (Voice.refreshEnvs fsI v).bendUp = v.bendUp :=
  rfl
@[simp] theorem Voice.refreshEnvs_bendDown (v : Voice) (fsI : F32) : (Voice.refreshEnvs fsI v).bendDown = v.bendDown :=
  rfl
@[simp] theorem Voice.refreshEnvs_fenvInvert (v : Voice) (fsI : F32) : (Voice.refreshEnvs fsI v).fenvInvert = v.fenvInvert :=
  rfl
@[simp] theorem Voice.refreshEnvs_legato (v : Voice) (fsI : F32) : (Voice.refreshEnvs fsI v).legato = v.legato :=
  rfl
@[simp] theorem Voice.refreshEnvs_mod (v : Voice) (fsI : F32) : (Voice.refreshEnvs fsI v).mod = v.mod := rfl

/-! ### `Voice.setRate` -/

@[simp] theorem Voice.setRate_note (v : Voice) (fsI : F32) : (Voice.setRate fsI v).note = v.note := rfl
@[simp] theorem Voice.setRate_pitchBend (v : Voice) (fsI : F32) : (Voice.setRate fsI v).pitchBend = v.pitchBend :=
  rfl
@[simp] theorem Voice.setRate_gate (v : Voice) (fsI : F32) : (Voice.setRate fsI v).gate = v.gate := rfl
@[simp] theorem Voice.setRate_sustHold (v : Voice) (fsI : F32) : (Voice.setRate fsI v).sustHold = v.sustHold :=
  rfl
@[simp] theorem Voice.setRate_active (v : Voice) (fsI : F32) : (Voice.setRate fsI v).active = v.active := rfl
@[simp] theorem Voice.setRate_velocity (v : Voice) (fsI : F32) : (Voice.setRate fsI v).velocity = v.velocity :=
  rfl
@[simp] theorem Voice.setRate_slop (v : Voice) (fsI : F32) : (Voice.setRate fsI v).slop = v.slop := rfl
@[simp] theorem Voice.setRate_osc (v : Voice) (fsI : F32) : (Voice.setRate fsI v).osc = v.osc := rfl
@[simp] theorem Voice.setRate_ampEnv (v : Voice) (fsI : F32) :
    (Voice.setRate fsI v).ampEnv = v.ampEnv.refresh (v.ampCtx fsI) := rfl
@[simp] theorem Voice.setRate_fltEnv (v : Voice) (fsI : F32) :
    (Voice.setRate fsI v).fltEnv = v.fltEnv.refresh (v.fltCtx fsI) := rfl
@[simp] theorem Voice.setRate_flt (v : Voice) (fsI : F32) :
    (Voice.setRate fsI v).flt = v.flt.setRate fsI := rfl
@[simp] theorem Voice.setRate_lfo2 (v : Voice) (fsI : F32) : (Voice.setRate fsI v).lfo2 = v.lfo2 := rfl
@[simp] theorem Voice.setRate_dlAenv (v : Voice) (fsI : F32) : (Voice.setRate fsI v).dlAenv = v.dlAenv := rfl
@[simp] theorem Voice.setRate_dlFenv (v : Voice) (fsI : F32) : (Voice.setRate fsI v).dlFenv = v.dlFenv := rfl
@[simp] theorem Voice.setRate_dlLfo (v : Voice) (fsI : F32) : (Voice.setRate fsI v).dlLfo = v.dlLfo := rfl
@[simp] theorem Voice.setRate_dlAenv1 (v : Voice) (fsI : F32) : (Voice.setRate fsI v).dlAenv1 = v.dlAenv1 :=
  rfl
@[simp] theorem Voice.setRate_portaState (v : Voice) (fsI : F32) : (Voice.setRate fsI v).portaState = v.portaState :=
  rfl
@[simp] theorem Voice.setRate_brightState (v : Voice) (fsI : F32) : (Voice.setRate fsI v).brightState = v.brightState :=
  rfl
@[simp] theorem Voice.setRate_cutoff (v : Voice) (fsI : F32) : (Voice.setRate fsI v).cutoff = v.cutoff := rfl
@[simp] theorem Voice.setRate_fenvAmt (v : Voice) (fsI : F32) : (Voice.setRate fsI v).fenvAmt = v.fenvAmt :=
  rfl
@[simp] theorem Voice.setRate_keyFollow (v : Voice) (fsI : F32) : (Voice.setRate fsI v).keyFollow = v.keyFollow :=
  rfl
@[simp] theorem Voice.setRate_porta (v : Voice) (fsI : F32) : (Voice.setRate fsI v).porta = v.porta := rfl
@[simp] theorem Voice.setRate_bendUp (v : Voice) (fsI : F32) : (Voice.setRate fsI v).bendUp = v.bendUp := rfl
@[simp] theorem Voice.setRate_bendDown (v : Voice) (fsI : F32) : (Voice.setRate fsI v).bendDown = v.bendDown :=
  rfl
@[simp] theorem Voice.setRate_fenvInvert (v : Voice) (fsI : F32) : (Voice.setRate fsI v).fenvInvert = v.fenvInvert :=
  rfl
@[simp] theorem Voice.setRate_legato (v : Voice) (fsI : F32) : (Voice.setRate fsI v).legato = v.legato := rfl
@[simp] theorem Voice.setRate_mod (v : Voice) (fsI : F32) : (Voice.setRate fsI v).mod = v.mod := rfl

/-! ### `Voice.attackBoth` -/

@[simp] theorem Voice.attackBoth_note (v : Voice) (fsI : F32) : (Voice.attackBoth fsI v).note = v.note := rfl
@[simp] theorem Voice.attackBoth_pitchBend (v : Voice) (fsI : F32) : (Voice.attackBoth fsI v).pitchBend = v.pitchBend :=
  rfl
@[simp] theorem Voice.attackBoth_gate (v : Voice) (fsI : F32) : (Voice.attackBoth fsI v).gate = v.gate := rfl
@[simp] theorem Voice.attackBoth_sustHold (v : Voice) (fsI : F32) : (Voice.attackBoth fsI v).sustHold = v.sustHold :=
  rfl
@[simp] theorem Voice.attackBoth_active (v : Voice) (fsI : F32) : (Voice.attackBoth fsI v).active = v.active :=
  rfl
@[simp] theorem Voice.attackBoth_velocity (v : Voice) (fsI : F32) : (Voice.attackBoth fsI v).velocity = v.velocity :=
  rfl
@[simp] theorem Voice.attackBoth_slop (v : Voice) (fsI : F32) : (Voice.attackBoth fsI v).slop = v.slop := rfl
@[simp] theorem Voice.attackBoth_osc (v : Voice) (fsI : F32) : (Voice.attackBoth fsI v).osc = v.osc := rfl
@[simp] theorem Voice.attackBoth_ampEnv (v : Voice) (fsI : F32) :
    (Voice.attackBoth fsI v).ampEnv = v.ampEnv.triggerAttack (v.ampCtx fsI) := rfl
@[simp] theorem Voice.attackBoth_fltEnv (v : Voice) (fsI : F32) :
    (Voice.attackBoth fsI v).fltEnv = v.fltEnv.triggerAttack (v.fltCtx fsI) := rfl
@[simp] theorem Voice.attackBoth_flt (v : Voice) (fsI : F32) : (Voice.attackBoth fsI v).flt = v.flt := rfl
@[simp] theorem Voice.attackBoth_lfo2 (v : Voice) (fsI : F32) : (Voice.attackBoth fsI v).lfo2 = v.lfo2 := rfl
@[simp] theorem Voice.attackBoth_dlAenv (v : Voice) (fsI : F32) : (Voice.attackBoth fsI v).dlAenv = v.dlAenv :=
  rfl
@[simp] theorem Voice.attackBoth_dlFenv (v : Voice) (fsI : F32) : (Voice.attackBoth fsI v).dlFenv = v.dlFenv :=
  rfl
@[simp] theorem Voice.attackBoth_dlLfo (v : Voice) (fsI : F32) : (Voice.attackBoth fsI v).dlLfo = v.dlLfo :=
  rfl
@[simp] theorem Voice.attackBoth_dlAenv1 (v : Voice) (fsI : F32) : (Voice.attackBoth fsI v).dlAenv1 = v.dlAenv1 :=
  rfl
@[simp] theorem Voice.attackBoth_portaState (v : Voice) (fsI : F32) : (Voice.attackBoth fsI v).portaState = v.portaState :=
  rfl
@[simp] theorem Voice.attackBoth_brightState (v : Voice) (fsI : F32) : (Voice.attackBoth fsI v).brightState = v.brightState :=
  rfl
@[simp] theorem Voice.attackBoth_cutoff (v : Voice) (fsI : F32) : (Voice.attackBoth fsI v).cutoff = v.cutoff :=
  rfl
@[simp] theorem Voice.attackBoth_fenvAmt (v : Voice) (fsI : F32) : (Voice.attackBoth fsI v).fenvAmt = v.fenvAmt :=
  rfl
@[simp] theorem Voice.attackBoth_keyFollow (v : Voice) (fsI : F32) : (Voice.attackBoth fsI v).keyFollow = v.keyFollow :=
  rfl
@[simp] theorem Voice.attackBoth_porta (v : Voice) (fsI : F32) : (Voice.attackBoth fsI v).porta = v.porta :=
  rfl
@[simp] theorem Voice.attackBoth_bendUp (v : Voice) (fsI : F32) : (Voice.attackBoth fsI v).bendUp = v.bendUp :=
  rfl
@[simp] theorem Voice.attackBoth_bendDown (v : Voice) (fsI : F32) : (Voice.attackBoth fsI v).bendDown = v.bendDown :=
  rfl
@[simp] theorem Voice.attackBoth_fenvInvert (v : Voice) (fsI : F32) : (Voice.attackBoth fsI v).fenvInvert = v.fenvInvert :=
  rfl
@[simp] theorem Voice.attackBoth_legato (v : Voice) (fsI : F32) : (Voice.attackBoth fsI v).legato = v.legato :=
  rfl
@[simp] theorem Voice.attackBoth_mod (v : Voice) (fsI : F32) : (Voice.attackBoth fsI v).mod = v.mod := rfl

/-! ### `Voice.releaseBoth` -/

@[simp] theorem Voice.releaseBoth_note (v : Voice) (fsI : F32) : (Voice.releaseBoth fsI v).note = v.note :=
  rfl
@[simp] theorem Voice.releaseBoth_pitchBend (v : Voice) (fsI : F32) : (Voice.releaseBoth fsI v).pitchBend = v.pitchBend :=
  rfl
@[simp] theorem Voice.releaseBoth_gate (v : Voice) (fsI : F32) : (Voice.releaseBoth fsI v).gate = v.gate :=
  rfl
@[simp] theorem Voice.releaseBoth_sustHold (v : Voice) (fsI : F32) : (Voice.releaseBoth fsI v).sustHold = v.sustHold :=
  rfl
@[simp] theorem Voice.releaseBoth_active (v : Voice) (fsI : F32) : (Voice.releaseBoth fsI v).active = v.active :=
  rfl
@[simp] theorem Voice.releaseBoth_velocity (v : Voice) (fsI : F32) : (Voice.releaseBoth fsI v).velocity = v.velocity :=
  rfl
@[simp] theorem Voice.releaseBoth_slop (v : Voice) (fsI : F32) : (Voice.releaseBoth fsI v).slop = v.slop :=
  rfl
@[simp] theorem Voice.releaseBoth_osc (v : Voice) (fsI : F32) : (Voice.releaseBoth fsI v).osc = v.osc := rfl
@[simp] theorem Voice.releaseBoth_ampEnv (v : Voice) (fsI : F32) :
    (Voice.releaseBoth fsI v).ampEnv = v.ampEnv.triggerRelease (v.ampCtx fsI) := rfl
@[simp] theorem Voice.releaseBoth_fltEnv (v : Voice) (fsI : F32) :
    (Voice.releaseBoth fsI v).fltEnv = v.fltEnv.triggerRelease (v.fltCtx fsI) := rfl
@[simp] theorem Voice.releaseBoth_flt (v : Voice) (fsI : F32) : (Voice.releaseBoth fsI v).flt = v.flt := rfl
@[simp] theorem Voice.releaseBoth_lfo2 (v : Voice) (fsI : F32) : (Voice.releaseBoth fsI v).lfo2 = v.lfo2 :=
  rfl
@[simp] theorem Voice.releaseBoth_dlAenv (v : Voice) (fsI : F32) : (Voice.releaseBoth fsI v).dlAenv = v.dlAenv :=
  rfl
@[simp] theorem Voice.releaseBoth_dlFenv (v : Voice) (fsI : F32) : (Voice.releaseBoth fsI v).dlFenv = v.dlFenv :=
  rfl
@[simp] theorem Voice.releaseBoth_dlLfo (v : Voice) (fsI : F32) : (Voice.releaseBoth fsI v).dlLfo = v.dlLfo :=
  rfl
@[simp] theorem Voice.releaseBoth_dlAenv1 (v : Voice) (fsI : F32) : (Voice.releaseBoth fsI v).dlAenv1 = v.dlAenv1 :=
  rfl
@[simp] theorem Voice.releaseBoth_portaState (v : Voice) (fsI : F32) : (Voice.releaseBoth fsI v).portaState = v.portaState :=
  rfl
@[simp] theorem Voice.releaseBoth_brightState (v : Voice) (fsI : F32) : (Voice.releaseBoth fsI v).brightState = v.brightState :=
  rfl
@[simp] theorem Voice.releaseBoth_cutoff (v : Voice) (fsI : F32) : (Voice.releaseBoth fsI v).cutoff = v.cutoff :=
  rfl
@[simp] theorem Voice.releaseBoth_fenvAmt (v : Voice) (fsI : F32) : (Voice.releaseBoth fsI v).fenvAmt = v.fenvAmt :=
  rfl
@[simp] theorem Voice.releaseBoth_keyFollow (v : Voice) (fsI : F32) : (Voice.releaseBoth fsI v).keyFollow = v.keyFollow :=
  rfl
@[simp] theorem Voice.releaseBoth_porta (v : Voice) (fsI : F32) : (Voice.releaseBoth fsI v).porta = v.porta :=
  rfl
@[simp] theorem Voice.releaseBoth_bendUp (v : Voice) (fsI : F32) : (Voice.releaseBoth fsI v).bendUp = v.bendUp :=
  rfl
@[simp] theorem Voice.releaseBoth_bendDown (v : Voice) (fsI : F32) : (Voice.releaseBoth fsI v).bendDown = v.bendDown :=
  rfl
@[simp] theorem Voice.releaseBoth_fenvInvert (v : Voice) (fsI : F32) : (Voice.releaseBoth fsI v).fenvInvert = v.fenvInvert :=
  rfl
@[simp] theorem Voice.releaseBoth_legato (v : Voice) (fsI : F32) : (Voice.releaseBoth fsI v).legato = v.legato :=
  rfl
@[simp] theorem Voice.releaseBoth_mod (v : Voice) (fsI : F32) : (Voice.releaseBoth fsI v).mod = v.mod := rfl

/-! ### `Voice.silenceEnvs` -/

@[simp] theorem Voice.silenceEnvs_note (v : Voice) : (Voice.silenceEnvs v).note = v.note := rfl
@[simp] theorem Voice.silenceEnvs_pitchBend (v : Voice) : (Voice.silenceEnvs v).pitchBend = v.pitchBend := rfl
@[simp] theorem Voice.silenceEnvs_gate (v : Voice) : (Voice.silenceEnvs v).gate = v.gate := rfl
@[simp] theorem Voice.silenceEnvs_sustHold (v : Voice) : (Voice.silenceEnvs v).sustHold = v.sustHold := rfl
@[simp] theorem Voice.silenceEnvs_active (v : Voice) : (Voice.silenceEnvs v).active = v.active := rfl
@[simp] theorem Voice.silenceEnvs_velocity (v : Voice) : (Voice.silenceEnvs v).velocity = v.velocity := rfl
@[simp] theorem Voice.silenceEnvs_slop (v : Voice) : (Voice.silenceEnvs v).slop = v.slop := rfl
@[simp] theorem Voice.silenceEnvs_osc (v : Voice) : (Voice.silenceEnvs v).osc = v.osc := rfl
@[simp] theorem Voice.silenceEnvs_ampEnv (v : Voice) :
    (Voice.silenceEnvs v).ampEnv = v.ampEnv.toSilent := rfl
@[simp] theorem Voice.silenceEnvs_fltEnv (v : Voice) :
    (Voice.silenceEnvs v).fltEnv = v.fltEnv.toSilent := rfl
@[simp] theorem Voice.silenceEnvs_flt (v : Voice) : (Voice.silenceEnvs v).flt = v.flt := rfl
@[simp] theorem Voice.silenceEnvs_lfo2 (v : Voice) : (Voice.silenceEnvs v).lfo2 = v.lfo2 := rfl
@[simp] theorem Voice.silenceEnvs_dlAenv (v : Voice) : (Voice.silenceEnvs v).dlAenv = v.dlAenv := rfl
@[simp] theorem Voice.silenceEnvs_dlFenv (v : Voice) : (Voice.silenceEnvs v).dlFenv = v.dlFenv := rfl
@[simp] theorem Voice.silenceEnvs_dlLfo (v : Voice) : (Voice.silenceEnvs v).dlLfo = v.dlLfo := rfl
@[simp] theorem Voice.silenceEnvs_dlAenv1 (v : Voice) : (Voice.silenceEnvs v).dlAenv1 = v.dlAenv1 := rfl
@[simp] theorem Voice.silenceEnvs_portaState (v : Voice) : (Voice.silenceEnvs v).portaState = v.portaState :=
  rfl
@[simp] theorem Voice.silenceEnvs_brightState (v : Voice) : (Voice.silenceEnvs v).brightState = v.brightState :=
  rfl
@[simp] theorem Voice.silenceEnvs_cutoff (v : Voice) : (Voice.silenceEnvs v).cutoff = v.cutoff := rfl
@[simp] theorem Voice.silenceEnvs_fenvAmt (v : Voice) : (Voice.silenceEnvs v).fenvAmt = v.fenvAmt := rfl
@[simp] theorem Voice.silenceEnvs_keyFollow (v : Voice) : (Voice.silenceEnvs v).keyFollow = v.keyFollow := rfl
@[simp] theorem Voice.silenceEnvs_porta (v : Voice) : (Voice.silenceEnvs v).porta = v.porta := rfl
@[simp] theorem Voice.silenceEnvs_bendUp (v : Voice) : (Voice.silenceEnvs v).bendUp = v.bendUp := rfl
@[simp] theorem Voice.silenceEnvs_bendDown (v : Voice) : (Voice.silenceEnvs v).bendDown = v.bendDown := rfl
@[simp] theorem Voice.silenceEnvs_fenvInvert (v : Voice) : (Voice.silenceEnvs v).fenvInvert = v.fenvInvert :=
  rfl
@[simp] theorem Voice.silenceEnvs_legato (v : Voice) : (Voice.silenceEnvs v).legato = v.legato := rfl
@[simp] theorem Voice.silenceEnvs_mod (v : Voice) : (Voice.silenceEnvs v).mod = v.mod := rfl

/-! ### `Voice.sustOn` -/

@[simp] theorem Voice.sustOn_note (v : Voice) : (Voice.sustOn v).note = v.note := rfl
@[simp] theorem Voice.sustOn_pitchBend (v : Voice) : (Voice.sustOn v).pitchBend = v.pitchBend := rfl
@[simp] theorem Voice.sustOn_gate (v : Voice) : (Voice.sustOn v).gate = v.gate := rfl
@[simp] theorem Voice.sustOn_sustHold (v : Voice) :
    (Voice.sustOn v).sustHold = true := rfl
@[simp] theorem Voice.sustOn_active (v : Voice) : (Voice.sustOn v).active = v.active := rfl
@[simp] theorem Voice.sustOn_velocity (v : Voice) : (Voice.sustOn v).velocity = v.velocity := rfl
@[simp] theorem Voice.sustOn_slop (v : Voice) : (Voice.sustOn v).slop = v.slop := rfl
@[simp] theorem Voice.sustOn_osc (v : Voice) : (Voice.sustOn v).osc = v.osc := rfl
@[simp] theorem Voice.sustOn_ampEnv (v : Voice) : (Voice.sustOn v).ampEnv = v.ampEnv := rfl
@[simp] theorem Voice.sustOn_fltEnv (v : Voice) : (Voice.sustOn v).fltEnv = v.fltEnv := rfl
@[simp] theorem Voice.sustOn_flt (v : Voice) : (Voice.sustOn v).flt = v.flt := rfl
@[simp] theorem Voice.sustOn_lfo2 (v : Voice) : (Voice.sustOn v).lfo2 = v.lfo2 := rfl
@[simp] theorem Voice.sustOn_dlAenv (v : Voice) : (Voice.sustOn v).dlAenv = v.dlAenv := rfl
@[simp] theorem Voice.sustOn_dlFenv (v : Voice) : (Voice.sustOn v).dlFenv = v.dlFenv := rfl
@[simp] theorem Voice.sustOn_dlLfo (v : Voice) : (Voice.sustOn v).dlLfo = v.dlLfo := rfl
@[simp] theorem Voice.sustOn_dlAenv1 (v : Voice) : (Voice.sustOn v).dlAenv1 = v.dlAenv1 := rfl
@[simp] theorem Voice.sustOn_portaState (v : Voice) : (Voice.sustOn v).portaState = v.portaState := rfl
@[simp] theorem Voice.sustOn_brightState (v : Voice) : (Voice.sustOn v).brightState = v.brightState := rfl
@[simp] theorem Voice.sustOn_cutoff (v : Voice) : (Voice.sustOn v).cutoff = v.cutoff := rfl
@[simp] theorem Voice.sustOn_fenvAmt (v : Voice) : (Voice.sustOn v).fenvAmt = v.fenvAmt := rfl
@[simp] theorem Voice.sustOn_keyFollow (v : Voice) : (Voice.sustOn v).keyFollow = v.keyFollow := rfl
@[simp] theorem Voice.sustOn_porta (v : Voice) : (Voice.sustOn v).porta = v.porta := rfl
@[simp] theorem Voice.sustOn_bendUp (v : Voice) : (Voice.sustOn v).bendUp = v.bendUp := rfl
@[simp] theorem Voice.sustOn_bendDown (v : Voice) : (Voice.sustOn v).bendDown = v.bendDown := rfl
@[simp] theorem Voice.sustOn_fenvInvert (v : Voice) : (Voice.sustOn v).fenvInvert = v.fenvInvert := rfl
@[simp] theorem Voice.sustOn_legato (v : Voice) : (Voice.sustOn v).legato = v.legato := rfl
@[simp] theorem Voice.sustOn_mod (v : Voice) : (Voice.sustOn v).mod = v.mod := rfl

/-! ### `Voice.kill` -/

@[simp] theorem Voice.kill_note (v : Voice) : (Voice.kill v).note = v.note := rfl
@[simp] theorem Voice.kill_pitchBend (v : Voice) : (Voice.kill v).pitchBend = v.pitchBend := rfl
@[simp] theorem Voice.kill_gate (v : Voice) : (Voice.kill v).gate = v.gate := rfl
@[simp] theorem Voice.kill_sustHold (v : Voice) : (Voice.kill v).sustHold = v.sustHold := rfl
@[simp] theorem Voice.kill_active (v : Voice) :
    (Voice.kill v).active = false := rfl
@[simp] theorem Voice.kill_velocity (v : Voice) : (Voice.kill v).velocity = v.velocity := rfl
@[simp] theorem Voice.kill_slop (v : Voice) : (Voice.kill v).slop = v.slop := rfl
@[simp] theorem Voice.kill_osc (v : Voice) : (Voice.kill v).osc = v.osc := rfl
@[simp] theorem Voice.kill_ampEnv (v : Voice) :
    (Voice.kill v).ampEnv = v.ampEnv.toSilent := rfl
@[simp] theorem Voice.kill_fltEnv (v : Voice) :
    (Voice.kill v).fltEnv = v.fltEnv.toSilent := rfl
@[simp] theorem Voice.kill_flt (v : Voice) : (Voice.kill v).flt = v.flt := rfl
@[simp] theorem Voice.kill_lfo2 (v : Voice) : (Voice.kill v).lfo2 = v.lfo2 := rfl
@[simp] theorem Voice.kill_dlAenv (v : Voice) : (Voice.kill v).dlAenv = v.dlAenv := rfl
@[simp] theorem Voice.kill_dlFenv (v : Voice) : (Voice.kill v).dlFenv = v.dlFenv := rfl
@[simp] theorem Voice.kill_dlLfo (v : Voice) : (Voice.kill v).dlLfo = v.dlLfo := rfl
@[simp] theorem Voice.kill_dlAenv1 (v : Voice) : (Voice.kill v).dlAenv1 = v.dlAenv1 := rfl
@[simp] theorem Voice.kill_portaState (v : Voice) : (Voice.kill v).portaState = v.portaState := rfl
@[simp] theorem Voice.kill_brightState (v : Voice) : (Voice.kill v).brightState = v.brightState := rfl
@[simp] theorem Voice.kill_cutoff (v : Voice) : (Voice.kill v).cutoff = v.cutoff := rfl
@[simp] theorem Voice.kill_fenvAmt (v : Voice) : (Voice.kill v).fenvAmt = v.fenvAmt := rfl
@[simp] theorem Voice.kill_keyFollow (v : Voice) : (Voice.kill v).keyFollow = v.keyFollow := rfl
@[simp] theorem Voice.kill_porta (v : Voice) : (Voice.kill v).porta = v.porta := rfl
@[simp] theorem Voice.kill_bendUp (v : Voice) : (Voice.kill v).bendUp = v.bendUp := rfl
@[simp] theorem Voice.kill_bendDown (v : Voice) : (Voice.kill v).bendDown = v.bendDown := rfl
@[simp] theorem Voice.kill_fenvInvert (v : Voice) : (Voice.kill v).fenvInvert = v.fenvInvert := rfl
@[simp] theorem Voice.kill_legato (v : Voice) : (Voice.kill v).legato = v.legato := rfl
@[simp] theorem Voice.kill_mod (v : Voice) : (Voice.kill v).mod = v.mod := rfl

/-! ### `Voice.prepare` -/

@[simp] theorem Voice.prepare_note (v : Voice) : (Voice.prepare v).note = v.note :=
  by unfold Voice.prepare; split <;> rfl
@[simp] theorem Voice.prepare_pitchBend (v : Voice) : (Voice.prepare v).pitchBend = v.pitchBend :=
  by unfold Voice.prepare; split <;> rfl
@[simp] theorem Voice.prepare_gate (v : Voice) : (Voice.prepare v).gate = v.gate :=
  by unfold Voice.prepare; split <;> rfl
@[simp] theorem Voice.prepare_sustHold (v : Voice) : (Voice.prepare v).sustHold = v.sustHold :=
  by unfold Voice.prepare; split <;> rfl
@[simp] theorem Voice.prepare_active (v : Voice) : (Voice.prepare v).active = v.active :=
  by unfold Voice.prepare; split <;> rfl
@[simp] theorem Voice.prepare_velocity (v : Voice) : (Voice.prepare v).velocity = v.velocity :=
  by unfold Voice.prepare; split <;> rfl
@[simp] theorem Voice.prepare_slop (v : Voice) : (Voice.prepare v).slop = v.slop :=
  by unfold Voice.prepare; split <;> rfl
@[simp] theorem Voice.prepare_osc (v : Voice) : (Voice.prepare v).osc = v.osc :=
  by unfold Voice.prepare; split <;> rfl
@[simp] theorem Voice.prepare_flt (v : Voice) : (Voice.prepare v).flt = v.flt :=
  by unfold Voice.prepare; split <;> rfl
@[simp] theorem Voice.prepare_lfo2 (v : Voice) : (Voice.prepare v).lfo2 = v.lfo2 :=
  by unfold Voice.prepare; split <;> rfl
@[simp] theorem Voice.prepare_dlLfo (v : Voice) : (Voice.prepare v).dlLfo = v.dlLfo :=
  by unfold Voice.prepare; split <;> rfl
@[simp] theorem Voice.prepare_portaState (v : Voice) : (Voice.prepare v).portaState = v.portaState :=
  by unfold Voice.prepare; split <;> rfl
@[simp] theorem Voice.prepare_brightState (v : Voice) : (Voice.prepare v).brightState = v.brightState :=
  by unfold Voice.prepare; split <;> rfl
@[simp] theorem Voice.prepare_cutoff (v : Voice) : (Voice.prepare v).cutoff = v.cutoff :=
  by unfold Voice.prepare; split <;> rfl
@[simp] theorem Voice.prepare_fenvAmt (v : Voice) : (Voice.prepare v).fenvAmt = v.fenvAmt :=
  by unfold Voice.prepare; split <;> rfl
@[simp] theorem Voice.prepare_keyFollow (v : Voice) : (Voice.prepare v).keyFollow = v.keyFollow :=
  by unfold Voice.prepare; split <;> rfl
@[simp] theorem Voice.prepare_porta (v : Voice) : (Voice.prepare v).porta = v.porta :=
  by unfold Voice.prepare; split <;> rfl
@[simp] theorem Voice.prepare_bendUp (v : Voice) : (Voice.prepare v).bendUp = v.bendUp :=
  by unfold Voice.prepare; split <;> rfl
@[simp] theorem Voice.prepare_bendDown (v : Voice) : (Voice.prepare v).bendDown = v.bendDown :=
  by unfold Voice.prepare; split <;> rfl
@[simp] theorem Voice.prepare_fenvInvert (v : Voice) : (Voice.prepare v).fenvInvert = v.fenvInvert :=
  by unfold Voice.prepare; split <;> rfl
@[simp] theorem Voice.prepare_legato (v : Voice) : (Voice.prepare v).legato = v.legato :=
  by unfold Voice.prepare; split <;> rfl
@[simp] theorem Voice.prepare_mod (v : Voice) : (Voice.prepare v).mod = v.mod :=
  by unfold Voice.prepare; split <;> rfl

/-! ### `Voice.noteOnTriggers` -/

@[simp] theorem Voice.noteOnTriggers_note (v : Voice) (fsI : F32) : (Voice.noteOnTriggers fsI v).note = v.note :=
  by unfold Voice.noteOnTriggers; split <;> rfl
@[simp] theorem Voice.noteOnTriggers_pitchBend (v : Voice) (fsI : F32) : (Voice.noteOnTriggers fsI v).pitchBend = v.pitchBend :=
  by unfold Voice.noteOnTriggers; split <;> rfl
@[simp] theorem Voice.noteOnTriggers_gate (v : Voice) (fsI : F32) : (Voice.noteOnTriggers fsI v).gate = v.gate :=
  by unfold Voice.noteOnTriggers; split <;> rfl
@[simp] theorem Voice.noteOnTriggers_sustHold (v : Voice) (fsI : F32) : (Voice.noteOnTriggers fsI v).sustHold = v.sustHold :=
  by unfold Voice.noteOnTriggers; split <;> rfl
@[simp] theorem Voice.noteOnTriggers_active (v : Voice) (fsI : F32) : (Voice.noteOnTriggers fsI v).active = v.active :=
  by unfold Voice.noteOnTriggers; split <;> rfl
@[simp] theorem Voice.noteOnTriggers_velocity (v : Voice) (fsI : F32) : (Voice.noteOnTriggers fsI v).velocity = v.velocity :=
  by unfold Voice.noteOnTriggers; split <;> rfl
@[simp] theorem Voice.noteOnTriggers_slop (v : Voice) (fsI : F32) : (Voice.noteOnTriggers fsI v).slop = v.slop :=
  by unfold Voice.noteOnTriggers; split <;> rfl
@[simp] theorem Voice.noteOnTriggers_osc (v : Voice) (fsI : F32) : (Voice.noteOnTriggers fsI v).osc = v.osc :=
  by unfold Voice.noteOnTriggers; split <;> rfl
@[simp] theorem Voice.noteOnTriggers_flt (v : Voice) (fsI : F32) : (Voice.noteOnTriggers fsI v).flt = v.flt :=
  by unfold Voice.noteOnTriggers; split <;> rfl
@[simp] theorem Voice.noteOnTriggers_lfo2 (v : Voice) (fsI : F32) : (Voice.noteOnTriggers fsI v).lfo2 = v.lfo2 :=
  by unfold Voice.noteOnTriggers; split <;> rfl
@[simp] theorem Voice.noteOnTriggers_dlAenv (v : Voice) (fsI : F32) : (Voice.noteOnTriggers fsI v).dlAenv = v.dlAenv :=
  by unfold Voice.noteOnTriggers; split <;> rfl
@[simp] theorem Voice.noteOnTriggers_dlFenv (v : Voice) (fsI : F32) : (Voice.noteOnTriggers fsI v).dlFenv = v.dlFenv :=
  by unfold Voice.noteOnTriggers; split <;> rfl
@[simp] theorem Voice.noteOnTriggers_dlLfo (v : Voice) (fsI : F32) : (Voice.noteOnTriggers fsI v).dlLfo = v.dlLfo :=
  by unfold Voice.noteOnTriggers; split <;> rfl
@[simp] theorem Voice.noteOnTriggers_dlAenv1 (v : Voice) (fsI : F32) : (Voice.noteOnTriggers fsI v).dlAenv1 = v.dlAenv1 :=
  by unfold Voice.noteOnTriggers; split <;> rfl
@[simp] theorem Voice.noteOnTriggers_portaState (v : Voice) (fsI : F32) : (Voice.noteOnTriggers fsI v).portaState = v.portaState :=
  by unfold Voice.noteOnTriggers; split <;> rfl
@[simp] theorem Voice.noteOnTriggers_brightState (v : Voice) (fsI : F32) : (Voice.noteOnTriggers fsI v).brightState = v.brightState :=
  by unfold Voice.noteOnTriggers; split <;> rfl
@[simp] theorem Voice.noteOnTriggers_cutoff (v : Voice) (fsI : F32) : (Voice.noteOnTriggers fsI v).cutoff = v.cutoff :=
  by unfold Voice.noteOnTriggers; split <;> rfl
@[simp] theorem Voice.noteOnTriggers_fenvAmt (v : Voice) (fsI : F32) : (Voice.noteOnTriggers fsI v).fenvAmt = v.fenvAmt :=
  by unfold Voice.noteOnTriggers; split <;> rfl
@[simp] theorem Voice.noteOnTriggers_keyFollow (v : Voice) (fsI : F32) : (Voice.noteOnTriggers fsI v).keyFollow = v.keyFollow :=
  by unfold Voice.noteOnTriggers; split <;> rfl
@[simp] theorem Voice.noteOnTriggers_porta (v : Voice) (fsI : F32) : (Voice.noteOnTriggers fsI v).porta = v.porta :=
  by unfold Voice.noteOnTriggers; split <;> rfl
@[simp] theorem Voice.noteOnTriggers_bendUp (v : Voice) (fsI : F32) : (Voice.noteOnTriggers fsI v).bendUp = v.bendUp :=
  by unfold Voice.noteOnTriggers; split <;> rfl
@[simp] theorem Voice.noteOnTriggers_bendDown (v : Voice) (fsI : F32) : (Voice.noteOnTriggers fsI v).bendDown = v.bendDown :=
  by unfold Voice.noteOnTriggers; split <;> rfl
@[simp] theorem Voice.noteOnTriggers_fenvInvert (v : Voice) (fsI : F32) : (Voice.noteOnTriggers fsI v).fenvInvert = v.fenvInvert :=
  by unfold Voice.noteOnTriggers; split <;> rfl
@[simp] theorem Voice.noteOnTriggers_legato (v : Voice) (fsI : F32) : (Voice.noteOnTriggers fsI v).legato = v.legato :=
  by unfold Voice.noteOnTriggers; split <;> rfl
@[simp] theorem Voice.noteOnTriggers_mod (v : Voice) (fsI : F32) : (Voice.noteOnTriggers fsI v).mod = v.mod :=
  by unfold Voice.noteOnTriggers; split <;> rfl

/-! ### `Voice.noteOn` -/

@[simp] theorem Voice.noteOn_note (v : Voice) (fsI : F32) (n : Fin 128) (vel : F32) :
    (Voice.noteOn fsI n vel v).note = n := by simp [Voice.noteOn]
@[simp] theorem Voice.noteOn_pitchBend (v : Voice) (fsI : F32) (n : Fin 128) (vel : F32) : (Voice.noteOn fsI n vel v).pitchBend = v.pitchBend :=
  by simp [Voice.noteOn]
@[simp] theorem Voice.noteOn_gate (v : Voice) (fsI : F32) (n : Fin 128) (vel : F32) :
    (Voice.noteOn fsI n vel v).gate = true := by simp [Voice.noteOn]
@[simp] theorem Voice.noteOn_sustHold (v : Voice) (fsI : F32) (n : Fin 128) (vel : F32) : (Voice.noteOn fsI n vel v).sustHold = v.sustHold :=
  by simp [Voice.noteOn]
@[simp] theorem Voice.noteOn_active (v : Voice) (fsI : F32) (n : Fin 128) (vel : F32) :
    (Voice.noteOn fsI n vel v).active = true := by simp [Voice.noteOn]
@[simp] theorem Voice.noteOn_velocity (v : Voice) (fsI : F32) (n : Fin 128) (vel : F32) :
    (Voice.noteOn fsI n vel v).velocity = if feq vel velKeep then v.velocity else vel := by simp [Voice.noteOn]
@[simp] theorem Voice.noteOn_slop (v : Voice) (fsI : F32) (n : Fin 128) (vel : F32) : (Voice.noteOn fsI n vel v).slop = v.slop :=
  by simp [Voice.noteOn]
@[simp] theorem Voice.noteOn_osc (v : Voice) (fsI : F32) (n : Fin 128) (vel : F32) : (Voice.noteOn fsI n vel v).osc = v.osc :=
  by simp [Voice.noteOn]
@[simp] theorem Voice.noteOn_flt (v : Voice) (fsI : F32) (n : Fin 128) (vel : F32) : (Voice.noteOn fsI n vel v).flt = v.flt :=
  by simp [Voice.noteOn]
@[simp] theorem Voice.noteOn_lfo2 (v : Voice) (fsI : F32) (n : Fin 128) (vel : F32) :
    (Voice.noteOn fsI n vel v).lfo2 = v.lfo2.resetPhase := by simp [Voice.noteOn]
@[simp] theorem Voice.noteOn_dlLfo (v : Voice) (fsI : F32) (n : Fin 128) (vel : F32) : (Voice.noteOn fsI n vel v).dlLfo = v.dlLfo :=
  by simp [Voice.noteOn]
@[simp] theorem Voice.noteOn_portaState (v : Voice) (fsI : F32) (n : Fin 128) (vel : F32) : (Voice.noteOn fsI n vel v).portaState = v.portaState :=
  by simp [Voice.noteOn]
@[simp] theorem Voice.noteOn_brightState (v : Voice) (fsI : F32) (n : Fin 128) (vel : F32) : (Voice.noteOn fsI n vel v).brightState = v.brightState :=
  by simp [Voice.noteOn]
@[simp] theorem Voice.noteOn_cutoff (v : Voice) (fsI : F32) (n : Fin 128) (vel : F32) : (Voice.noteOn fsI n vel v).cutoff = v.cutoff :=
  by simp [Voice.noteOn]
@[simp] theorem Voice.noteOn_fenvAmt (v : Voice) (fsI : F32) (n : Fin 128) (vel : F32) : (Voice.noteOn fsI n vel v).fenvAmt = v.fenvAmt :=
  by simp [Voice.noteOn]
@[simp] theorem Voice.noteOn_keyFollow (v : Voice) (fsI : F32) (n : Fin 128) (vel : F32) : (Voice.noteOn fsI n vel v).keyFollow = v.keyFollow :=
  by simp [Voice.noteOn]
@[simp] theorem Voice.noteOn_porta (v : Voice) (fsI : F32) (n : Fin 128) (vel : F32) : (Voice.noteOn fsI n vel v).porta = v.porta :=
  by simp [Voice.noteOn]
@[simp] theorem Voice.noteOn_bendUp (v : Voice) (fsI : F32) (n : Fin 128) (vel : F32) : (Voice.noteOn fsI n vel v).bendUp = v.bendUp :=
  by simp [Voice.noteOn]
@[simp] theorem Voice.noteOn_bendDown (v : Voice) (fsI : F32) (n : Fin 128) (vel : F32) : (Voice.noteOn fsI n vel v).bendDown = v.bendDown :=
  by simp [Voice.noteOn]
@[simp] theorem Voice.noteOn_fenvInvert (v : Voice) (fsI : F32) (n : Fin 128) (vel : F32) : (Voice.noteOn fsI n vel v).fenvInvert = v.fenvInvert :=
  by simp [Voice.noteOn]
@[simp] theorem Voice.noteOn_legato (v : Voice) (fsI : F32) (n : Fin 128) (vel : F32) : (Voice.noteOn fsI n vel v).legato = v.legato :=
  by simp [Voice.noteOn]
@[simp] theorem Voice.noteOn_mod (v : Voice) (fsI : F32) (n : Fin 128) (vel : F32) : (Voice.noteOn fsI n vel v).mod = v.mod :=
  by simp [Voice.noteOn]

/-! ### `Voice.noteOff` -/

@[simp] theorem Voice.noteOff_note (v : Voice) (fsI : F32) : (Voice.noteOff fsI v).note = v.note :=
  by simp only [Voice.noteOff]; split <;> rfl
@[simp] theorem Voice.noteOff_pitchBend (v : Voice) (fsI : F32) : (Voice.noteOff fsI v).pitchBend = v.pitchBend :=
  by simp only [Voice.noteOff]; split <;> rfl
@[simp] theorem Voice.noteOff_gate (v : Voice) (fsI : F32) :
    (Voice.noteOff fsI v).gate = false := by simp only [Voice.noteOff]; split <;> rfl
@[simp] theorem Voice.noteOff_sustHold (v : Voice) (fsI : F32) : (Voice.noteOff fsI v).sustHold = v.sustHold :=
  by simp only [Voice.noteOff]; split <;> rfl
@[simp] theorem Voice.noteOff_active (v : Voice) (fsI : F32) : (Voice.noteOff fsI v).active = v.active :=
  by simp only [Voice.noteOff]; split <;> rfl
@[simp] theorem Voice.noteOff_velocity (v : Voice) (fsI : F32) : (Voice.noteOff fsI v).velocity = v.velocity :=
  by simp only [Voice.noteOff]; split <;> rfl
@[simp] theorem Voice.noteOff_slop (v : Voice) (fsI : F32) : (Voice.noteOff fsI v).slop = v.slop :=
  by simp only [Voice.noteOff]; split <;> rfl
@[simp] theorem Voice.noteOff_osc (v : Voice) (fsI : F32) : (Voice.noteOff fsI v).osc = v.osc :=
  by simp only [Voice.noteOff]; split <;> rfl
@[simp] theorem Voice.noteOff_flt (v : Voice) (fsI : F32) : (Voice.noteOff fsI v).flt = v.flt :=
  by simp only [Voice.noteOff]; split <;> rfl
@[simp] theorem Voice.noteOff_lfo2 (v : Voice) (fsI : F32) : (Voice.noteOff fsI v).lfo2 = v.lfo2 :=
  by simp only [Voice.noteOff]; split <;> rfl
@[simp] theorem Voice.noteOff_dlAenv (v : Voice) (fsI : F32) : (Voice.noteOff fsI v).dlAenv = v.dlAenv :=
  by simp only [Voice.noteOff]; split <;> rfl
@[simp] theorem Voice.noteOff_dlFenv (v : Voice) (fsI : F32) : (Voice.noteOff fsI v).dlFenv = v.dlFenv :=
  by simp only [Voice.noteOff]; split <;> rfl
@[simp] theorem Voice.noteOff_dlLfo (v : Voice) (fsI : F32) : (Voice.noteOff fsI v).dlLfo = v.dlLfo :=
  by simp only [Voice.noteOff]; split <;> rfl
@[simp] theorem Voice.noteOff_dlAenv1 (v : Voice) (fsI : F32) : (Voice.noteOff fsI v).dlAenv1 = v.dlAenv1 :=
  by simp only [Voice.noteOff]; split <;> rfl
@[simp] theorem Voice.noteOff_portaState (v : Voice) (fsI : F32) : (Voice.noteOff fsI v).portaState = v.portaState :=
  by simp only [Voice.noteOff]; split <;> rfl
@[simp] theorem Voice.noteOff_brightState (v : Voice) (fsI : F32) : (Voice.noteOff fsI v).brightState = v.brightState :=
  by simp only [Voice.noteOff]; split <;> rfl
@[simp] theorem Voice.noteOff_cutoff (v : Voice) (fsI : F32) : (Voice.noteOff fsI v).cutoff = v.cutoff :=
  by simp only [Voice.noteOff]; split <;> rfl
@[simp] theorem Voice.noteOff_fenvAmt (v : Voice) (fsI : F32) : (Voice.noteOff fsI v).fenvAmt = v.fenvAmt :=
  by simp only [Voice.noteOff]; split <;> rfl
@[simp] theorem Voice.noteOff_keyFollow (v : Voice) (fsI : F32) : (Voice.noteOff fsI v).keyFollow = v.keyFollow :=
  by simp only [Voice.noteOff]; split <;> rfl
@[simp] theorem Voice.noteOff_porta (v : Voice) (fsI : F32) : (Voice.noteOff fsI v).porta = v.porta :=
  by simp only [Voice.noteOff]; split <;> rfl
@[simp] theorem Voice.noteOff_bendUp (v : Voice) (fsI : F32) : (Voice.noteOff fsI v).bendUp = v.bendUp :=
  by simp only [Voice.noteOff]; split <;> rfl
@[simp] theorem Voice.noteOff_bendDown (v : Voice) (fsI : F32) : (Voice.noteOff fsI v).bendDown = v.bendDown :=
  by simp only [Voice.noteOff]; split <;> rfl
@[simp] theorem Voice.noteOff_fenvInvert (v : Voice) (fsI : F32) : (Voice.noteOff fsI v).fenvInvert = v.fenvInvert :=
  by simp only [Voice.noteOff]; split <;> rfl
@[simp] theorem Voice.noteOff_legato (v : Voice) (fsI : F32) : (Voice.noteOff fsI v).legato = v.legato :=
  by simp only [Voice.noteOff]; split <;> rfl
@[simp] theorem Voice.noteOff_mod (v : Voice) (fsI : F32) : (Voice.noteOff fsI v).mod = v.mod :=
  by simp only [Voice.noteOff]; split <;> rfl

/-! ### `Voice.sustOff` -/

@[simp] theorem Voice.sustOff_note (v : Voice) (fsI : F32) : (Voice.sustOff fsI v).note = v.note :=
  by simp only [Voice.sustOff]; split <;> rfl
@[simp] theorem Voice.sustOff_pitchBend (v : Voice) (fsI : F32) : (Voice.sustOff fsI v).pitchBend = v.pitchBend :=
  by simp only [Voice.sustOff]; split <;> rfl
@[simp] theorem Voice.sustOff_gate (v : Voice) (fsI : F32) : (Voice.sustOff fsI v).gate = v.gate :=
  by simp only [Voice.sustOff]; split <;> rfl
@[simp] theorem Voice.sustOff_sustHold (v : Voice) (fsI : F32) :
    (Voice.sustOff fsI v).sustHold = false := by simp only [Voice.sustOff]; split <;> rfl
@[simp] theorem Voice.sustOff_active (v : Voice) (fsI : F32) : (Voice.sustOff fsI v).active = v.active :=
  by simp only [Voice.sustOff]; split <;> rfl
@[simp] theorem Voice.sustOff_velocity (v : Voice) (fsI : F32) : (Voice.sustOff fsI v).velocity = v.velocity :=
  by simp only [Voice.sustOff]; split <;> rfl
@[simp] theorem Voice.sustOff_slop (v : Voice) (fsI : F32) : (Voice.sustOff fsI v).slop = v.slop :=
  by simp only [Voice.sustOff]; split <;> rfl
@[simp] theorem Voice.sustOff_osc (v : Voice) (fsI : F32) : (Voice.sustOff fsI v).osc = v.osc :=
  by simp only [Voice.sustOff]; split <;> rfl
@[simp] theorem Voice.sustOff_flt (v : Voice) (fsI : F32) : (Voice.sustOff fsI v).flt = v.flt :=
  by simp only [Voice.sustOff]; split <;> rfl
@[simp] theorem Voice.sustOff_lfo2 (v : Voice) (fsI : F32) : (Voice.sustOff fsI v).lfo2 = v.lfo2 :=
  by simp only [Voice.sustOff]; split <;> rfl
@[simp] theorem Voice.sustOff_dlAenv (v : Voice) (fsI : F32) : (Voice.sustOff fsI v).dlAenv = v.dlAenv :=
  by simp only [Voice.sustOff]; split <;> rfl
@[simp] theorem Voice.sustOff_dlFenv (v : Voice) (fsI : F32) : (Voice.sustOff fsI v).dlFenv = v.dlFenv :=
  by simp only [Voice.sustOff]; split <;> rfl
@[simp] theorem Voice.sustOff_dlLfo (v : Voice) (fsI : F32) : (Voice.sustOff fsI v).dlLfo = v.dlLfo :=
  by simp only [Voice.sustOff]; split <;> rfl
@[simp] theorem Voice.sustOff_dlAenv1 (v : Voice) (fsI : F32) : (Voice.sustOff fsI v).dlAenv1 = v.dlAenv1 :=
  by simp only [Voice.sustOff]; split <;> rfl
@[simp] theorem Voice.sustOff_portaState (v : Voice) (fsI : F32) : (Voice.sustOff fsI v).portaState = v.portaState :=
  by simp only [Voice.sustOff]; split <;> rfl
@[simp] theorem Voice.sustOff_brightState (v : Voice) (fsI : F32) : (Voice.sustOff fsI v).brightState = v.brightState :=
  by simp only [Voice.sustOff]; split <;> rfl
@[simp] theorem Voice.sustOff_cutoff (v : Voice) (fsI : F32) : (Voice.sustOff fsI v).cutoff = v.cutoff :=
  by simp only [Voice.sustOff]; split <;> rfl
@[simp] theorem Voice.sustOff_fenvAmt (v : Voice) (fsI : F32) : (Voice.sustOff fsI v).fenvAmt = v.fenvAmt :=
  by simp only [Voice.sustOff]; split <;> rfl
@[simp] theorem Voice.sustOff_keyFollow (v : Voice) (fsI : F32) : (Voice.sustOff fsI v).keyFollow = v.keyFollow :=
  by simp only [Voice.sustOff]; split <;> rfl
@[simp] theorem Voice.sustOff_porta (v : Voice) (fsI : F32) : (Voice.sustOff fsI v).porta = v.porta :=
  by simp only [Voice.sustOff]; split <;> rfl
@[simp] theorem Voice.sustOff_bendUp (v : Voice) (fsI : F32) : (Voice.sustOff fsI v).bendUp = v.bendUp :=
  by simp only [Voice.sustOff]; split <;> rfl
@[simp] theorem Voice.sustOff_bendDown (v : Voice) (fsI : F32) : (Voice.sustOff fsI v).bendDown = v.bendDown :=
  by simp only [Voice.sustOff]; split <;> rfl
@[simp] theorem Voice.sustOff_fenvInvert (v : Voice) (fsI : F32) : (Voice.sustOff fsI v).fenvInvert = v.fenvInvert :=
  by simp only [Voice.sustOff]; split <;> rfl
@[simp] theorem Voice.sustOff_legato (v : Voice) (fsI : F32) : (Voice.sustOff fsI v).legato = v.legato :=
  by simp only [Voice.sustOff]; split <;> rfl
@[simp] theorem Voice.sustOff_mod (v : Voice) (fsI : F32) : (Voice.sustOff fsI v).mod = v.mod :=
  by simp only [Voice.sustOff]; split <;> rfl

/-! ### Envelopes and delay lines of the note operations (R271, R272, R274) -/

theorem Voice.noteOnTriggers_ampEnv (fsI : F32) (w : Voice) :
    (w.noteOnTriggers fsI).ampEnv =
      if w.gate = false ∨ w.legato.getLsbD 0 = true then w.ampEnv.triggerAttack (w.ampCtx fsI) else w.ampEnv := by
  unfold Voice.noteOnTriggers
  cases w.gate <;> simp

theorem Voice.noteOnTriggers_fltEnv (fsI : F32) (w : Voice) :
    (w.noteOnTriggers fsI).fltEnv =
      if w.gate = false ∨ w.legato.getLsbD 1 = true then w.fltEnv.triggerAttack (w.fltCtx fsI) else w.fltEnv := by
  unfold Voice.noteOnTriggers
  cases w.gate <;> simp

theorem Voice.noteOn_ampEnv (fsI vel : F32) (n : Fin 128) (v : Voice) :
    (v.noteOn fsI n vel).ampEnv =
      if v.gate = false ∨ v.legato.getLsbD 0 = true then v.prepare.ampEnv.triggerAttack (v.ampCtx fsI)
      else v.prepare.ampEnv := by
  show (Voice.noteOnTriggers fsI _).ampEnv = _
  rw [Voice.noteOnTriggers_ampEnv]
  simp [Voice.ampCtx]

theorem Voice.noteOn_fltEnv (fsI vel : F32) (n : Fin 128) (v : Voice) :
    (v.noteOn fsI n vel).fltEnv =
      if v.gate = false ∨ v.legato.getLsbD 1 = true then v.prepare.fltEnv.triggerAttack (v.fltCtx fsI)
      else v.prepare.fltEnv := by
  show (Voice.noteOnTriggers fsI _).fltEnv = _
  rw [Voice.noteOnTriggers_fltEnv]
  simp [Voice.fltCtx]

theorem Voice.prepare_ampEnv (v : Voice) :
    v.prepare.ampEnv = if v.active then v.ampEnv else v.ampEnv.toSilent := by
  unfold Voice.prepare; split <;> rfl

theorem Voice.prepare_fltEnv (v : Voice) :
    v.prepare.fltEnv = if v.active then v.fltEnv else v.fltEnv.toSilent := by
  unfold Voice.prepare; split <;> rfl

theorem Voice.noteOn_lines (fsI vel : F32) (n : Fin 128) (v : Voice) :
    (v.noteOn fsI n vel).dlAenv = (if v.active then v.dlAenv else v.dlAenv.flush f0) ∧
    (v.noteOn fsI n vel).dlFenv = (if v.active then v.dlFenv else v.dlFenv.flush f0) ∧
    (v.noteOn fsI n vel).dlAenv1 = (if v.active then v.dlAenv1 else v.dlAenv1.flush f0) := by
  have h : (v.noteOn fsI n vel).dlAenv = v.prepare.dlAenv ∧ (v.noteOn fsI n vel).dlFenv = v.prepare.dlFenv ∧
      (v.noteOn fsI n vel).dlAenv1 = v.prepare.dlAenv1 := by
    refine ⟨?_, ?_, ?_⟩ <;> (unfold Voice.noteOn; simp)
  rw [h.1, h.2.1, h.2.2]
  unfold Voice.prepare
  split <;> exact ⟨rfl, rfl, rfl⟩

/-- What a note-off does to the envelopes (R272). -/
theorem Voice.noteOff_envs (fsI : F32) (v : Voice) :
    (v.noteOff fsI).ampEnv = (if v.sustHold then v.ampEnv else v.ampEnv.triggerRelease (v.ampCtx fsI)) ∧
    (v.noteOff fsI).fltEnv = (if v.sustHold then v.fltEnv else v.fltEnv.triggerRelease (v.fltCtx fsI)) := by
  unfold Voice.noteOff
  dsimp only
  split <;> exact ⟨rfl, rfl⟩

/-- What the release of the pedal does to the envelopes (R274). -/
theorem Voice.sustOff_envs (fsI : F32) (v : Voice) :
    (v.sustOff fsI).ampEnv = (if v.gate then v.ampEnv else v.ampEnv.triggerRelease (v.ampCtx fsI)) ∧
    (v.sustOff fsI).fltEnv = (if v.gate then v.fltEnv else v.fltEnv.triggerRelease (v.fltCtx fsI)) := by
  unfold Voice.sustOff
  dsimp only
  split <;> exact ⟨rfl, rfl⟩

end Sys2Proof.Machine
end

