-- ==== Sys2Proof/Laws/Sched.lean ====
section
/-! SUPPORT. What the scheduler's loops and the tick can do: one induction principle for each loop, one inversion
lemma for each stage of the tick, and the sample step with every intermediate value written out. -/

namespace Sys2Proof.Machine

/-! ### The voice queue -/

theorem vqNext_lt (c : VoiceCount) (i : Fin 32) : (vqNext c i).val < c.val := Nat.mod_lt _ c.property.1

theorem vqNext_val (c : VoiceCount) (i : Fin 32) : (vqNext c i).val = (i.val + 1) % c.val := rfl

theorem mem_voicesBelow (n : Nat) (i : Fin 32) : i ∈ voicesBelow n ↔ i.val < n := by
  simp [voicesBelow]

/-! ### Smallest element -/

/-- `argMin` answers an element of the list. -/
theorem argMin_mem {α : Type} {key : α → Nat} {l : List α} {x : α} (h : argMin key l = some x) : x ∈ l := by
  induction l generalizing x with
  | nil => simp [argMin] at h
  | cons y ys ih =>
    unfold argMin at h
    split at h
    · cases h; exact List.mem_cons_self
    · next z hz =>
      split at h
      · cases h; exact List.mem_cons_of_mem _ (ih hz)
      · cases h; exact List.mem_cons_self

/-- `argMin` answers nothing only on the empty list. -/
theorem argMin_eq_none {α : Type} {key : α → Nat} {l : List α} : argMin key l = none ↔ l = [] := by
  cases l with
  | nil => simp [argMin]
  | cons y ys =>
    unfold argMin
    split
    · simp
    · split <;> simp

/-- No element has a smaller key than the one `argMin` answers. -/
theorem argMin_le {α : Type} {key : α → Nat} {l : List α} {x y : α} (h : argMin key l = some x) (hy : y ∈ l) :
    key x ≤ key y := by
  induction l generalizing x with
  | nil => cases hy
  | cons z zs ih =>
    unfold argMin at h
    split at h
    · next hn =>
      obtain rfl := argMin_eq_none.1 hn
      cases h
      simp_all
    · next w hw =>
      rcases List.mem_cons.1 hy with rfl | hy
      · split at h
        · cases h; omega
        · cases h; exact le_refl _
      · have := ih hw hy
        split at h <;> cases h <;> omega

/-- `argMin` answers the first of the elements with the smallest key: an element before which every key is larger, and
after which none is smaller. -/
theorem argMin_first {α : Type} {key : α → Nat} (a b : List α) (x : α) (ha : ∀ y ∈ a, key x < key y)
    (hb : ∀ y ∈ b, key x ≤ key y) : argMin key (a ++ x :: b) = some x := by
  have hx : argMin key (x :: b) = some x := by
    unfold argMin
    split
    · rfl
    · next w hw =>
      have := hb w (argMin_mem hw)
      rw [if_neg (by omega)]
  induction a with
  | nil => exact hx
  | cons y ys ih =>
    rw [List.cons_append, argMin, ih fun z hz => ha z (List.mem_cons_of_mem _ hz)]
    simp [ha y List.mem_cons_self]

/-! ### Note-on -/

theorem getNext_fst (s : State) : s.getNext.1 = s.g.vqIdx := rfl

theorem getNext_snd (s : State) :
    s.getNext.2 = { s with g := { s.g with vqIdx := vqNext s.g.totalvc s.g.vqIdx } } := rfl

/-- The voice `nextVoiceToBeStolen` names is sounding, below the polyphony, and not taken yet. -/
theorem nextVoiceToBeStolen_mem {s : State} {taken : List (Fin 32)} {j : Fin 32}
    (h : s.nextVoiceToBeStolen taken = some j) : j.val < s.g.totalvc.val ∧ s.isActive j = true ∧ j ∉ taken := by
  have := argMin_mem h
  simp only [List.mem_filter, mem_voicesBelow, Bool.and_eq_true, Bool.not_eq_true', List.contains_eq_mem,
    decide_eq_false_iff_not] at this
  exact ⟨this.1, this.2.1, this.2.2⟩

/-- A property that every steal keeps is kept by the steal loop. -/
theorem stealLoop_induction {P : State → Prop} {n : Fin 128} {vel : F32}
    (hsteal : ∀ s j, P s → j.val < s.g.totalvc.val → s.isActive j = true → P (s.stealVoice j n vel)) :
    ∀ (k : Nat) (taken : List (Fin 32)) (s : State), P s → P (s.stealLoop n vel k taken).1
  | 0, _, _, h => h
  | k + 1, taken, s, h => by
    unfold State.stealLoop
    split
    · exact h
    · next j hj =>
      obtain ⟨h1, h2, -⟩ := nextVoiceToBeStolen_mem hj
      exact stealLoop_induction hsteal k _ _ (hsteal s j h h1 h2)

/-- A property that a queue step and the taking of a silent voice keep is kept by the allocation loop. -/
theorem allocLoop_induction {P : State → Prop} {n : Fin 128} {vel : F32} {needed : Nat}
    (hnext : ∀ s, P s → P s.getNext.2)
    (htake : ∀ s, P s → s.isActive s.g.vqIdx = false → P (s.getNext.2.voiceNoteOn s.g.vqIdx n vel)) :
    ∀ (k : Nat) (taken : List (Fin 32)) (s : State), P s → P (s.allocLoop n vel needed k taken)
  | 0, _, _, h => h
  | k + 1, taken, s, h => by
    unfold State.allocLoop
    split
    · exact h
    · dsimp only
      by_cases hc : (!s.getNext.2.isActive s.getNext.1 && !taken.contains s.getNext.1) = true
      · rw [if_pos hc]
        simp only [Bool.and_eq_true, Bool.not_eq_true'] at hc
        exact allocLoop_induction hnext htake k _ _ (htake s h hc.1)
      · rw [if_neg hc]
        exact allocLoop_induction hnext htake k _ _ (hnext s h)

/-- A property that recording the age, a steal, a queue step and the taking of a silent voice keep is kept by a
note-on. -/
theorem setNoteOn_induction {P : State → Prop} {n : Fin 128} {vel : F32} {s : State} (h : P (s.recordAge n))
    (hsteal : ∀ s j, P s → j.val < s.g.totalvc.val → s.isActive j = true → P (s.stealVoice j n vel))
    (hnext : ∀ s, P s → P s.getNext.2)
    (htake : ∀ s, P s → s.isActive s.g.vqIdx = false → P (s.getNext.2.voiceNoteOn s.g.vqIdx n vel)) :
    P (s.setNoteOn n vel) := by
  unfold State.setNoteOn
  dsimp only
  split
  · exact allocLoop_induction hnext htake _ _ _ (stealLoop_induction hsteal _ _ _ h)
  · exact allocLoop_induction hnext htake _ _ _ h

/-! ### Note-off -/

/-- The key `pendingKey` names is pending and another one. -/
theorem pendingKey_some {s : State} {n k : Fin 128} (h : s.pendingKey n = some k) :
    k ≠ n ∧ 0 < (s.g.stolen.get (noteEntry k)).toNat := by
  have := argMin_mem h
  simpa [List.mem_filter] using this

/-- There is no pending key exactly when no other key is counted. -/
theorem pendingKey_none {s : State} {n : Fin 128} :
    s.pendingKey n = none ↔ ∀ k : Fin 128, k ≠ n → s.g.stolen.get (noteEntry k) = 0#32 := by
  unfold State.pendingKey
  rw [argMin_eq_none, List.filter_eq_nil_iff]
  constructor
  · intro h k hk
    have := h k (List.mem_finRange k)
    simp only [Bool.and_eq_true, decide_eq_true_eq, not_and, not_lt] at this
    exact BitVec.eq_of_toNat_eq (Nat.le_zero.1 (this hk))
  · intro h k _
    simp only [Bool.and_eq_true, decide_eq_true_eq, not_and, not_lt]
    intro hk
    rw [h k hk]; exact le_refl _

/-- What a note-off does to one voice below the polyphony. -/
theorem noteOffVoice_cases (n : Fin 128) (s : State) (i : Fin 32) :
    (∃ k, (s.voices.get i).gate = true ∧ (s.voices.get i).note = n ∧ s.pendingKey n = some k ∧
      s.noteOffVoice n i = (s.voiceNoteOn i k velKeep).mapStolen k (· - 1#32)) ∨
    ((s.voices.get i).gate = true ∧ (s.voices.get i).note = n ∧ s.pendingKey n = none ∧
      s.noteOffVoice n i = s.setVoice i ((s.voices.get i).noteOff s.g.fsI)) ∨
    (¬((s.voices.get i).gate = true ∧ (s.voices.get i).note = n) ∧ s.noteOffVoice n i = s) := by
  unfold State.noteOffVoice
  dsimp only
  split
  · next h =>
    simp only [Bool.and_eq_true, decide_eq_true_eq] at h
    split
    · next k hk => exact Or.inl ⟨k, h.1, h.2, hk, rfl⟩
    · next hk => exact Or.inr (Or.inl ⟨h.1, h.2, hk, rfl⟩)
  · next h =>
    simp only [Bool.and_eq_true, decide_eq_true_eq] at h
    exact Or.inr (Or.inr ⟨h, rfl⟩)

/-- A property that the three choices of a note-off and the final clearing keep is kept by a note-off. -/
theorem setNoteOff_induction {P : State → Prop} {n : Fin 128} {s : State} (h : P s)
    (hpend : ∀ s i k, P s → i.val < s.g.totalvc.val → (s.voices.get i).gate = true → (s.voices.get i).note = n →
      s.pendingKey n = some k → P ((s.voiceNoteOn i k velKeep).mapStolen k (· - 1#32)))
    (hoff : ∀ s i, P s → i.val < s.g.totalvc.val → P (s.setVoice i ((s.voices.get i).noteOff s.g.fsI)))
    (hclear : ∀ s, P s → P (s.mapStolen n fun _ => 0#32)) : P (s.setNoteOff n) := by
  unfold State.setNoteOff
  refine hclear _ ?_
  have : ∀ (l : List (Fin 32)) (r : State), P r → (∀ i ∈ l, i.val < r.g.totalvc.val) →
      P (l.foldl (State.noteOffVoice n) r) := by
    intro l
    induction l with
    | nil => intro r hr _; exact hr
    | cons i l ih =>
      intro r hr hl
      rw [List.foldl_cons]
      have hi := hl i List.mem_cons_self
      rcases noteOffVoice_cases n r i with ⟨k, h1, h2, h3, e⟩ | ⟨-, -, -, e⟩ | ⟨-, e⟩ <;> rw [e]
      · exact ih _ (hpend r i k hr hi h1 h2 h3) fun j hj => hl j (List.mem_cons_of_mem _ hj)
      · exact ih _ (hoff r i hr hi) fun j hj => hl j (List.mem_cons_of_mem _ hj)
      · exact ih _ hr fun j hj => hl j (List.mem_cons_of_mem _ hj)
  exact this _ s h fun i hi => (mem_voicesBelow _ _).1 hi

/-! ### The sample step -/

/-- A sample step is the controls, the oscillator block, and the rest (R289). -/
theorem Voice.processSample_cases (c : VoiceCtx) (d : Nat) (v : Voice) :
    (∃ e, v.osc.process c.fsI (fadd (v.controls c d).noteSemi v.bendSemi) (v.controls c d).routing.pto1
        (v.controls c d).routing.pto2 (v.controls c d).routing.pw1mod (v.controls c d).routing.pw2mod
        ((v.controls c d).lfo.draws + 1) = .error e ∧ v.processSample c d = .error e) ∨
    (∃ o, v.osc.process c.fsI (fadd (v.controls c d).noteSemi v.bendSemi) (v.controls c d).routing.pto1
        (v.controls c d).routing.pto2 (v.controls c d).routing.pw1mod (v.controls c d).routing.pw2mod
        ((v.controls c d).lfo.draws + 1) = .ok o ∧ v.processSample c d = .ok (v.finish c (v.controls c d) o)) := by
  unfold Voice.processSample
  dsimp only
  cases h : v.osc.process c.fsI (fadd (v.controls c d).noteSemi v.bendSemi) (v.controls c d).routing.pto1
    (v.controls c d).routing.pto2 (v.controls c d).routing.pw1mod (v.controls c d).routing.pw2mod
    ((v.controls c d).lfo.draws + 1) with
  | error e => exact Or.inl ⟨e, rfl, rfl⟩
  | ok o => exact Or.inr ⟨o, rfl, rfl⟩

/-- A sample step that has a result had one from the oscillator block, and what it keeps and changes of the voice. -/
theorem Voice.processSample_ok {c : VoiceCtx} {d : Nat} {v : Voice} {o : VoiceOut} (h : v.processSample c d = .ok o) :
    (∃ semi p1 p2 m1 m2 k q, v.osc.process c.fsI semi p1 p2 m1 m2 k = .ok q ∧ o.voice.osc = q.2) ∧
    o.voice.ampEnv = v.ampEnv.processSample (v.ampCtx c.fsI) ∧
    o.voice.fltEnv = v.fltEnv.processSample (v.fltCtx c.fsI) ∧
    o.voice.active = (v.active && (v.ampEnv.processSample (v.ampCtx c.fsI)).isActive) ∧
    o.voice.lfo2 = (v.lfo2.update c.fsI c.bpm d).lfo ∧
    o.draws = (v.lfo2.update c.fsI c.bpm d).draws + 2 ∧
    (∃ x g, o.voice.flt = (v.flt.apply c.fsI x g).2) ∧
    o.voice = { v with
      active := o.voice.active, osc := o.voice.osc, ampEnv := o.voice.ampEnv, fltEnv := o.voice.fltEnv,
      flt := o.voice.flt, lfo2 := o.voice.lfo2, dlAenv := o.voice.dlAenv, dlFenv := o.voice.dlFenv,
      dlLfo := o.voice.dlLfo, dlAenv1 := o.voice.dlAenv1, portaState := o.voice.portaState,
      brightState := o.voice.brightState } := by
  rcases Voice.processSample_cases c d v with ⟨e, -, he⟩ | ⟨q, hq, ho⟩
  · rw [he] at h; cases h
  · rw [ho] at h
    cases h
    exact ⟨⟨_, _, _, _, _, _, q, hq, rfl⟩, rfl, rfl, rfl, rfl, rfl, ⟨_, _, rfl⟩, rfl⟩

/-! ### The tick -/

/-- One queue step of a half-sample. -/
theorem runVoices_succ (c : VoiceCtx) (pan : Vec F32 8) (count : VoiceCount) (k : Nat) (m m' : Mix)
    (e : runVoices c pan count (k + 1) m = .ok m') :
    ((m.voices.get m.idx).active = false ∧ runVoices c pan count k { m with idx := vqNext count m.idx } = .ok m') ∨
    ((m.voices.get m.idx).active = true ∧ ∃ o, (m.voices.get m.idx).processSample c m.draws = .ok o ∧
      runVoices c pan count k (Mix.accumulate pan m.idx o { m with idx := vqNext count m.idx }) = .ok m') := by
  rw [runVoices] at e
  cases hs : m.queueStep c pan count with
  | error er => rw [hs] at e; cases e
  | ok m1 =>
    rw [hs] at e
    unfold Mix.queueStep at hs
    dsimp only at hs
    split at hs
    · next ha =>
      split at hs
      · cases hs
      · next o ho => cases hs; exact Or.inr ⟨ha, o, ho, e⟩
    · next ha => cases hs; exact Or.inl ⟨by simpa using ha, e⟩

/-- A property that a skip and a voice's sample step keep is kept by a half-sample's run over the queue. -/
theorem runVoices_induction {Q : Mix → Prop} {c : VoiceCtx} {pan : Vec F32 8} {count : VoiceCount}
    (hskip : ∀ m, Q m → Q { m with idx := vqNext count m.idx })
    (hrun : ∀ (m : Mix) (o : VoiceOut), Q m → (m.voices.get m.idx).active = true →
      (m.voices.get m.idx).processSample c m.draws = .ok o →
      Q (Mix.accumulate pan m.idx o { m with idx := vqNext count m.idx }))
    (k : Nat) (m m' : Mix) (h : Q m) (e : runVoices c pan count k m = .ok m') : Q m' := by
  induction k generalizing m with
  | zero => cases e; exact h
  | succ k ih =>
    rcases runVoices_succ c pan count k m m' e with ⟨-, e⟩ | ⟨ha, o, ho, e⟩
    · exact ih _ (hskip m h) e
    · exact ih _ (hrun m o h ha ho) e

/-- A run over the queue moves the cursor by its length, whatever the voices do. -/
theorem runVoices_idx {c : VoiceCtx} {pan : Vec F32 8} {count : VoiceCount} (k : Nat) (m m' : Mix)
    (hm : m.idx.val < count.val) (e : runVoices c pan count k m = .ok m') :
    m'.idx.val = (m.idx.val + k) % count.val := by
  induction k generalizing m with
  | zero => cases e; exact (Nat.mod_eq_of_lt hm).symm
  | succ k ih =>
    have step : ∀ m1 : Mix, m1.idx = vqNext count m.idx → runVoices c pan count k m1 = .ok m' →
        m'.idx.val = (m.idx.val + (k + 1)) % count.val := by
      intro m1 h1 e1
      rw [ih m1 (h1 ▸ vqNext_lt _ _) e1, h1, vqNext_val, Nat.mod_add_mod, Nat.add_assoc, Nat.add_comm 1 k]
    rcases runVoices_succ c pan count k m m' e with ⟨-, e⟩ | ⟨-, o, -, e⟩
    · exact step _ rfl e
    · exact step _ rfl e

/-- The context a half-sample gives every voice (R279, R316). -/
def State.voiceCtx (vibAmt : F32) (s : State) : VoiceCtx :=
  let L := s.g.lfo1.update s.g.fsI s.g.bpm s.draws
  { fsI := s.g.fsI, oversample := s.g.oversample, bpm := s.g.bpm, tuning := s.tuning, lfo1 := L.y,
    vib := fmul (s.g.vib.update s.g.fsI s.g.bpm L.draws).y vibAmt }

/-- The sums a half-sample starts from. -/
def State.mixStart (s : State) : Mix :=
  let L := s.g.lfo1.update s.g.fsI s.g.bpm s.draws
  ⟨s.voices, s.g.vqIdx, (s.g.vib.update s.g.fsI s.g.bpm L.draws).draws, f0, f0⟩

/-- A half-sample that has a result: the run over the queue had one, and both global LFOs took one update. -/
theorem halfSample_ok {s : State} {a : F32} {h : HalfOut} (e : s.halfSample a = .ok h) :
    ∃ m, runVoices (s.voiceCtx a) s.g.pan s.g.totalvc s.g.totalvc.val s.mixStart = .ok m ∧ h.l = m.l ∧ h.r = m.r ∧
      h.state = { s with
        voices := m.voices
        draws := m.draws
        g := { s.g with
          lfo1 := (s.g.lfo1.update s.g.fsI s.g.bpm s.draws).lfo
          vib := (s.g.vib.update s.g.fsI s.g.bpm (s.g.lfo1.update s.g.fsI s.g.bpm s.draws).draws).lfo
          vqIdx := m.idx } } := by
  unfold State.halfSample at e
  dsimp only at e
  split at e
  · cases e
  · next m hm => cases e; exact ⟨m, hm, rfl, rfl, rfl⟩

/-- What a half-sample delivers from what the run over the queue delivers. -/
def State.halfOut (s : State) (m : Mix) : HalfOut :=
  { state := { s with
      voices := m.voices
      draws := m.draws
      g := { s.g with
        lfo1 := (s.g.lfo1.update s.g.fsI s.g.bpm s.draws).lfo
        vib := (s.g.vib.update s.g.fsI s.g.bpm (s.g.lfo1.update s.g.fsI s.g.bpm s.draws).draws).lfo
        vqIdx := m.idx } }
    l := m.l
    r := m.r }

/-- A half-sample is its run over the queue, then both LFOs' new states (R316). -/
theorem halfSample_eq (s : State) (a : F32) :
    s.halfSample a =
      (runVoices (s.voiceCtx a) s.g.pan s.g.totalvc s.g.totalvc.val s.mixStart).map s.halfOut := by
  unfold State.halfSample
  dsimp only
  split
  · next e he =>
    rw [show runVoices (s.voiceCtx a) s.g.pan s.g.totalvc s.g.totalvc.val s.mixStart = .error e from he]; rfl
  · next m hm =>
    rw [show runVoices (s.voiceCtx a) s.g.pan s.g.totalvc s.g.totalvc.val s.mixStart = .ok m from hm]; rfl

/-- A tick at the host's rate (R316). -/
theorem tick_eq_plain {s : State} {h : HalfOut} (ho : s.g.oversample = false)
    (e : s.smooth.halfSample s.smooth.g.vibAmt = .ok h) : s.tick = .ok (h.state.writeOut h.l h.r) := by
  unfold State.tick
  dsimp only
  rw [e]
  exact if_neg (by show ¬s.g.oversample = true; simp [ho])

/-- An oversampled tick (R316). -/
theorem tick_eq_oversampled {s : State} {h0 h1 : HalfOut} (ho : s.g.oversample = true)
    (e0 : s.smooth.halfSample s.smooth.g.vibAmt = .ok h0)
    (e1 : h0.state.halfSample s.smooth.g.vibAmt = .ok h1) : s.tick = .ok (h1.state.decimate h0.l h0.r h1.l h1.r) := by
  unfold State.tick
  dsimp only
  rw [e0]
  dsimp only
  rw [e1]
  exact if_pos ho

/-- A tick that has a result is one half-sample, or two and the decimator (R316). -/
theorem tick_ok {s t : State} (e : s.tick = .ok t) :
    (s.g.oversample = false ∧ ∃ h, s.smooth.halfSample s.smooth.g.vibAmt = .ok h ∧ t = h.state.writeOut h.l h.r) ∨
    (s.g.oversample = true ∧ ∃ h0 h1, s.smooth.halfSample s.smooth.g.vibAmt = .ok h0 ∧
      h0.state.halfSample s.smooth.g.vibAmt = .ok h1 ∧ t = h1.state.decimate h0.l h0.r h1.l h1.r) := by
  unfold State.tick at e
  dsimp only at e
  split at e
  · cases e
  · next h0 hh0 =>
    split at e
    · next ho =>
      split at e
      · cases e
      · next h1 hh1 => cases e; exact Or.inr ⟨ho, h0, h1, hh0, hh1, rfl⟩
    · next ho => cases e; exact Or.inl ⟨by simpa [State.smooth] using ho, h0, hh0, rfl⟩

/-- A property of states that the smoothers, a half-sample and the write of the outputs keep is kept by a tick. -/
theorem tick_induction {P : State → Prop} {s t : State} (h : P s) (e : s.tick = .ok t)
    (hsmooth : ∀ s, P s → P s.smooth) (hhalf : ∀ s a h, P s → s.halfSample a = .ok h → P h.state)
    (hout : ∀ s l r, P s → P (s.writeOut l r)) (hdec : ∀ s l0 r0 l1 r1, P s → P (s.decimate l0 r0 l1 r1)) : P t := by
  rcases tick_ok e with ⟨-, h0, e0, rfl⟩ | ⟨-, h0, h1, e0, e1, rfl⟩
  · exact hout _ _ _ (hhalf _ _ _ (hsmooth _ h) e0)
  · exact hdec _ _ _ _ _ (hhalf _ _ _ (hhalf _ _ _ (hsmooth _ h) e0) e1)

/-- An LFO update keeps the parameters. -/
theorem Lfo.update_params (fsI bpm : F32) (d : Nat) (l : Lfo) :
    (l.update fsI bpm d).lfo.freq = l.freq ∧ (l.update fsI bpm d).lfo.rawRate = l.rawRate ∧
    (l.update fsI bpm d).lfo.sync = l.sync ∧ (l.update fsI bpm d).lfo.wave1 = l.wave1 ∧
    (l.update fsI bpm d).lfo.wave2 = l.wave2 ∧ (l.update fsI bpm d).lfo.wave3 = l.wave3 := by
  show _ ∧ _ ∧ _ ∧ _ ∧ _ ∧ _
  unfold Lfo.update Lfo.phaseStep
  dsimp only
  split <;> exact ⟨rfl, rfl, rfl, rfl, rfl, rfl⟩

theorem Lfo.update_draws (fsI bpm : F32) (d : Nat) (l : Lfo) :
    (l.update fsI bpm d).draws = d ∨ (l.update fsI bpm d).draws = d + 1 := by
  unfold Lfo.update
  dsimp only
  split <;> simp

end Sys2Proof.Machine
end

