-- ==== Sys2Proof/Laws/Alloc.lean ====
section
/-! SUPPORT. What the two loops of a note-on can do (`46_scheduler.md` R310 to R312): which voices the steal loop takes,
which voices the allocation loop takes and where it leaves the cursor; and which key a note-off restores (R314). -/

namespace Sys2Proof.Machine

/-! ### Counting voices -/

/-- A count over the 32 voices as the size of a set. -/
theorem countP_voices (p : Fin 32 → Bool) :
    (List.finRange 32).countP p = (Finset.univ.filter fun i => p i = true).card := by
  rw [List.countP_eq_length_filter, ← List.toFinset_card_of_nodup ((List.nodup_finRange 32).filter p)]
  congr 1
  ext i
  simp

/-- The number of active voices below the polyphony, as a count over all 32. -/
theorem countActiveVoices_eq (s : State) :
    s.countActiveVoices = (List.finRange 32).countP fun i => decide (i.val < s.g.totalvc.val) && s.isActive i := by
  unfold State.countActiveVoices voicesBelow
  rw [List.countP_filter]
  congr 1
  funext i
  exact Bool.and_comm _ _

/-! ### The pending key -/

/-- `argMin` answers the first of the elements with the smallest key. -/
theorem argMin_split {α : Type} {key : α → Nat} {l : List α} {x : α} (h : argMin key l = some x) :
    ∃ a b, l = a ++ x :: b ∧ (∀ y ∈ a, key x < key y) ∧ ∀ y ∈ b, key x ≤ key y := by
  induction l generalizing x with
  | nil => simp [argMin] at h
  | cons z zs ih =>
    unfold argMin at h
    split at h
    · next hn =>
      obtain rfl := argMin_eq_none.1 hn
      cases h
      exact ⟨[], [], rfl, by simp, by simp⟩
    · next w hw =>
      split at h
      · next hlt =>
        cases h
        obtain ⟨a, b, e, ha, hb⟩ := ih hw
        exact ⟨z :: a, b, by rw [e]; rfl, List.forall_mem_cons.2 ⟨hlt, ha⟩, hb⟩
      · next hge =>
        cases h
        exact ⟨[], zs, rfl, by simp, fun y hy => le_trans (not_lt.1 hge) (argMin_le hw hy)⟩

/-- The key `pendingKey` names: pending, of the largest age among the pending keys, and the lowest of that age (R314;
log 23 for the last). -/
theorem pendingKey_latest {s : State} {n k : Fin 128} (h : s.pendingKey n = some k) {j : Fin 128} (hj : j ≠ n)
    (hp : 0 < (s.g.stolen.get (noteEntry j)).toNat) :
    (s.g.voiceAge.get (noteEntry j)).toNat ≤ (s.g.voiceAge.get (noteEntry k)).toNat ∧
      (j < k → (s.g.voiceAge.get (noteEntry j)).toNat < (s.g.voiceAge.get (noteEntry k)).toNat) := by
  unfold State.pendingKey at h
  obtain ⟨a, b, e, ha, -⟩ := argMin_split h
  have hm : j ∈ (List.finRange 128).filter fun k =>
      decide (k ≠ n) && decide (0 < (s.g.stolen.get (noteEntry k)).toNat) := by
    simpa [List.mem_filter] using And.intro hj hp
  have hle := argMin_le h hm
  have hs := (List.pairwise_lt_finRange 128).filter fun k =>
    decide (k ≠ n) && decide (0 < (s.g.stolen.get (noteEntry k)).toNat)
  rw [e] at hm hs
  rw [List.pairwise_append, List.pairwise_cons] at hs
  have h1 := (s.g.voiceAge.get (noteEntry j)).isLt
  have h2 := (s.g.voiceAge.get (noteEntry k)).isLt
  refine ⟨by omega, fun hlt => ?_⟩
  rcases List.mem_append.1 hm with hm | hm
  · have := ha j hm
    omega
  · rcases List.mem_cons.1 hm with rfl | hm
    · exact absurd hlt (lt_irrefl _)
    · exact absurd hlt (hs.2.1.1 j hm).asymm

/-! ### The order of stealing -/

/-- Voice `i` is below the polyphony and active. -/
def State.soundsBelow (s : State) (i : Fin 32) : Bool := decide (i.val < s.g.totalvc.val) && s.isActive i

/-- Voice `j` is stolen before voice `i` (R311). -/
def State.stealsFirst (s : State) (j i : Fin 32) : Bool :=
  decide ((s.noteAge j).toNat < (s.noteAge i).toNat ∨ (s.noteAge j).toNat = (s.noteAge i).toNat ∧ j.val < i.val)

theorem stealsFirst_iff {s : State} {j i : Fin 32} : s.stealsFirst j i = true ↔
    (s.noteAge j).toNat < (s.noteAge i).toNat ∨ (s.noteAge j).toNat = (s.noteAge i).toNat ∧ j.val < i.val :=
  decide_eq_true_iff

/-- How many sounding voices are stolen before voice `i`. -/
def State.stealRank (s : State) (i : Fin 32) : Nat :=
  (List.finRange 32).countP fun j => s.soundsBelow j && s.stealsFirst j i

theorem stealRank_lt {s : State} {x i : Fin 32} (hx : s.soundsBelow x = true) (h : s.stealsFirst x i = true) :
    s.stealRank x < s.stealRank i := by
  unfold State.stealRank
  rw [countP_voices, countP_voices]
  refine Finset.card_lt_card (Finset.ssubset_iff_of_subset (fun j hj => ?_) |>.2 ⟨x, ?_, ?_⟩)
  · simp only [Finset.mem_filter, Finset.mem_univ, true_and, Bool.and_eq_true, stealsFirst_iff] at hj h ⊢
    exact ⟨hj.1, by omega⟩
  · simp [hx, h]
  · simp [stealsFirst_iff]

/-- The voice a steal takes is the one of rank `m` when those of lower rank are taken. -/
theorem nextVoiceToBeStolen_rank {s t : State} {taken : List (Fin 32)} {j : Fin 32} (hc : t.g.totalvc = s.g.totalvc)
    (hkeep : ∀ i ∉ taken, t.isActive i = s.isActive i ∧ t.noteAge i = s.noteAge i) (hn : taken.Nodup)
    (hmem : ∀ i, i ∈ taken ↔ s.soundsBelow i = true ∧ s.stealRank i < taken.length)
    (h : t.nextVoiceToBeStolen taken = some j) :
    s.soundsBelow j = true ∧ j ∉ taken ∧ s.stealRank j = taken.length ∧
      ∀ i, s.soundsBelow i = true → i ∉ taken → i ≠ j → s.stealsFirst j i = true := by
  obtain ⟨h1, h2, h3⟩ := nextVoiceToBeStolen_mem h
  have hj : s.soundsBelow j = true := by
    rw [(hkeep j h3).1] at h2
    rw [hc] at h1
    simp [State.soundsBelow, h1, h2]
  have hfirst : ∀ i, s.soundsBelow i = true → i ∉ taken → i ≠ j → s.stealsFirst j i = true := by
    intro i hi hit hne
    obtain ⟨a, b, e, ha, hb⟩ := argMin_split h
    have hs : ((voicesBelow t.g.totalvc.val).filter fun i => t.isActive i && !taken.contains i).Pairwise (· < ·) :=
      ((List.pairwise_lt_finRange 32).filter _).filter _
    rw [e, List.pairwise_append] at hs
    have hil : i ∈ a ++ j :: b := by
      rw [← e]
      simp only [State.soundsBelow, Bool.and_eq_true, decide_eq_true_eq] at hi
      simp only [List.mem_filter, mem_voicesBelow, Bool.and_eq_true, Bool.not_eq_true', List.contains_eq_mem,
        decide_eq_false_iff_not]
      exact ⟨hc ▸ hi.1, (hkeep i hit).1 ▸ hi.2, hit⟩
    rw [stealsFirst_iff, ← (hkeep i hit).2, ← (hkeep j h3).2]
    rcases List.mem_append.1 hil with hi' | hi'
    · exact Or.inl (ha i hi')
    · rcases List.mem_cons.1 hi' with rfl | hi'
      · exact absurd rfl hne
      · have h1 := hb i hi'
        have h2 : j < i := (List.pairwise_cons.1 hs.2.1).1 i hi'
        have h3 : j.val < i.val := h2
        omega
  refine ⟨hj, h3, ?_, hfirst⟩
  unfold State.stealRank
  rw [countP_voices, ← List.toFinset_card_of_nodup hn]
  congr 1
  ext i
  simp only [Finset.mem_filter, Finset.mem_univ, true_and, Bool.and_eq_true, List.mem_toFinset]
  constructor
  · rintro ⟨hi, hij⟩
    by_contra hit
    by_cases hne : i = j
    · subst hne; simp [stealsFirst_iff] at hij
    · have := hfirst i hi hit hne
      rw [stealsFirst_iff] at this hij
      omega
  · intro hit
    obtain ⟨hi, hr⟩ := (hmem i).1 hit
    refine ⟨hi, ?_⟩
    have hge : taken.length ≤ s.stealRank j := by
      by_contra hlt
      exact h3 ((hmem j).2 ⟨hj, not_le.1 hlt⟩)
    rw [stealsFirst_iff]
    by_contra hno
    have hne : i ≠ j := fun e => h3 (e ▸ hit)
    have hv : i.val ≠ j.val := fun e => hne (Fin.ext e)
    have := stealRank_lt hj (i := i) (stealsFirst_iff.2 (by omega))
    omega

/-- The state after a note-on took the voices of `taken` from `s`, those of `stolen` by stealing. -/
structure Took (n : Fin 128) (vel : F32) (s : State) (taken stolen : List (Fin 32)) (t : State) : Prop where
  frame : t = { s with voices := t.voices, g := { s.g with stolen := t.g.stolen, vqIdx := t.g.vqIdx } }
  voices : ∀ i, t.voices.get i = if i ∈ taken then (s.voices.get i).noteOn s.g.fsI n vel else s.voices.get i
  counts : ∀ e, t.g.stolen.get e =
    s.g.stolen.get e + BitVec.ofNat 32 (stolen.countP fun i => decide (noteEntry (s.voices.get i).note = e))

theorem Took.refl (n : Fin 128) (vel : F32) (s : State) : Took n vel s [] [] s := ⟨rfl, by simp, by simp⟩

/-- The steal loop takes the next `k` voices by rank (R310, R311). -/
theorem stealLoop_took {n : Fin 128} {vel : F32} {s : State} :
    ∀ (k : Nat) (taken : List (Fin 32)) (t : State), Took n vel s taken taken t → t.g.vqIdx = s.g.vqIdx →
      taken.Nodup →
      (∀ i, i ∈ taken ↔ s.soundsBelow i = true ∧ s.stealRank i < taken.length) →
      taken.length + k ≤ s.countActiveVoices →
      let r := t.stealLoop n vel k taken
      Took n vel s r.2 r.2 r.1 ∧ r.1.g.vqIdx = s.g.vqIdx ∧ r.2.Nodup ∧ r.2.length = taken.length + k ∧
        ∀ i, i ∈ r.2 ↔ s.soundsBelow i = true ∧ s.stealRank i < r.2.length := by
  intro k
  induction k with
  | zero => intro taken t h hq hn hm _; exact ⟨h, hq, hn, rfl, hm⟩
  | succ k ih =>
    intro taken t h hq hn hm hk
    have hc : t.g.totalvc = s.g.totalvc := by rw [h.frame]
    have hage : t.g.voiceAge = s.g.voiceAge := by rw [h.frame]
    have hfs : t.g.fsI = s.g.fsI := by rw [h.frame]; rfl
    have hkeep : ∀ i ∉ taken, t.isActive i = s.isActive i ∧ t.noteAge i = s.noteAge i := by
      intro i hi
      have := h.voices i
      rw [if_neg hi] at this
      simp [State.isActive, State.noteAge, this, hage]
    dsimp only
    unfold State.stealLoop
    split
    · next hnone =>
      exfalso
      -- every sounding voice is taken already, yet fewer are taken than sound
      have hall : ∀ i, s.soundsBelow i = true → i ∈ taken := by
        intro i hi
        by_contra hit
        have hl := argMin_eq_none.1 hnone
        have : i ∈ (voicesBelow t.g.totalvc.val).filter fun i => t.isActive i && !taken.contains i := by
          simp only [State.soundsBelow, Bool.and_eq_true, decide_eq_true_eq] at hi
          simp only [List.mem_filter, mem_voicesBelow, Bool.and_eq_true, Bool.not_eq_true', List.contains_eq_mem,
            decide_eq_false_iff_not]
          exact ⟨hc ▸ hi.1, (hkeep i hit).1 ▸ hi.2, hit⟩
        rw [hl] at this
        cases this
      have : s.countActiveVoices ≤ taken.length := by
        rw [countActiveVoices_eq, countP_voices, ← List.toFinset_card_of_nodup hn]
        refine Finset.card_le_card fun i hi => ?_
        rw [List.mem_toFinset]
        exact hall i (by simpa [State.soundsBelow] using hi)
      omega
    · next j hj =>
      obtain ⟨h1, h2, h3, h4⟩ := nextVoiceToBeStolen_rank hc hkeep hn hm hj
      have hvj : t.voices.get j = s.voices.get j := by rw [h.voices j, if_neg h2]
      have := ih (j :: taken) (t.stealVoice j n vel) ?_ hq (List.nodup_cons.2 ⟨h2, hn⟩) ?_
        (by rw [List.length_cons]; omega)
      · rw [List.length_cons] at this
        obtain ⟨a, b, c, d, e⟩ := this
        exact ⟨a, b, c, by omega, e⟩
      · refine ⟨?_, fun i => ?_, fun e => ?_⟩
        · have key : ∀ (t' : State) V S Q, t' = { s with voices := V, g := { s.g with stolen := S, vqIdx := Q } } →
              let u := t'.stealVoice j n vel
              u = { s with voices := u.voices, g := { s.g with stolen := u.g.stolen, vqIdx := u.g.vqIdx } } := by
            rintro _ V S Q rfl; rfl
          exact key t _ _ _ h.frame
        · show (t.voices.set j ((t.voices.get j).noteOn t.g.fsI n vel)).get i = _
          by_cases hij : j = i
          · subst hij
            rw [Vec.get_set_same, if_pos List.mem_cons_self, hvj, hfs]
          · rw [Vec.get_set_ne _ _ hij, h.voices i]
            simp [Ne.symm hij]
        · show (t.g.stolen.modify (noteEntry (t.voices.get j).note) (· + 1#32)).get e = _
          rw [hvj, Vec.modify]
          by_cases he : noteEntry (s.voices.get j).note = e
          · rw [he, Vec.get_set_same, h.counts e, List.countP_cons_of_pos (by simpa using he),
              ← BitVec.ofNat_add_ofNat, BitVec.add_assoc]
          · rw [Vec.get_set_ne _ _ he, h.counts e, List.countP_cons_of_neg (by simpa using he)]
      · intro i
        rw [List.mem_cons, List.length_cons, hm i]
        constructor
        · rintro (rfl | ⟨hi, hr⟩)
          · exact ⟨h1, by omega⟩
          · exact ⟨hi, by omega⟩
        · rintro ⟨hi, hr⟩
          by_cases hij : i = j
          · exact Or.inl hij
          · by_cases hit : i ∈ taken
            · exact Or.inr ((hm i).1 hit)
            · have := stealRank_lt h1 (h4 i hi hit hij)
              omega

/-! ### The order of allocation -/

/-- The voice the queue gives after `k` further calls (R301). -/
def State.queueVoice (s : State) (k : Nat) : Fin 32 :=
  ⟨(s.g.vqIdx.val + k) % s.g.totalvc.val,
    Nat.lt_of_lt_of_le (Nat.mod_lt _ s.g.totalvc.property.1) s.g.totalvc.property.2⟩

theorem queueVoice_zero {s : State} (h : s.g.vqIdx.val < s.g.totalvc.val) : s.queueVoice 0 = s.g.vqIdx :=
  Fin.ext (Nat.mod_eq_of_lt h)

theorem queueVoice_succ (s : State) (k : Nat) : vqNext s.g.totalvc (s.queueVoice k) = s.queueVoice (k + 1) := by
  apply Fin.ext
  rw [vqNext_val]
  show ((s.g.vqIdx.val + k) % _ + 1) % _ = (s.g.vqIdx.val + (k + 1)) % _
  rw [Nat.mod_add_mod, Nat.add_assoc]

/-- One round of the queue gives each voice once. -/
theorem queueVoice_injective {s : State} {k m : Nat} (hk : k < s.g.totalvc.val) (hm : m < s.g.totalvc.val)
    (h : s.queueVoice k = s.queueVoice m) : k = m := by
  have h : s.g.vqIdx.val + k ≡ s.g.vqIdx.val + m [MOD s.g.totalvc.val] := congrArg Fin.val h
  exact Nat.ModEq.eq_of_lt_of_lt (Nat.ModEq.add_left_cancel' _ h) hk hm

/-- How many of the first `p` voices of the queue are inactive. -/
def State.freeUpTo (s : State) (p : Nat) : Nat := (List.range p).countP fun m => !s.isActive (s.queueVoice m)

theorem freeUpTo_succ (s : State) (p : Nat) :
    s.freeUpTo (p + 1) = s.freeUpTo p + if s.isActive (s.queueVoice p) = true then 0 else 1 := by
  unfold State.freeUpTo
  rw [List.range_succ, List.countP_append, List.countP_singleton]
  cases s.isActive (s.queueVoice p) <;> rfl

/-- There are `n` voice indices below `n`. -/
theorem length_voicesBelow (n : Nat) (h : n ≤ 32) : (voicesBelow n).length = n := by
  unfold voicesBelow; interval_cases n <;> decide

/-- One round of the queue gives every voice below the polyphony. -/
theorem queueVoice_surjective (s : State) (i : Fin 32) (hi : i.val < s.g.totalvc.val) :
    ∃ p < s.g.totalvc.val, s.queueVoice p = i := by
  have hpos := s.g.totalvc.property.1
  refine ⟨(i.val + (s.g.totalvc.val - s.g.vqIdx.val % s.g.totalvc.val)) % s.g.totalvc.val, Nat.mod_lt _ hpos, ?_⟩
  apply Fin.ext
  show (s.g.vqIdx.val + _ % _) % _ = i.val
  have hm := Nat.mod_lt s.g.vqIdx.val hpos
  rw [Nat.add_mod_mod]
  have hd := Nat.div_add_mod s.g.vqIdx.val s.g.totalvc.val
  set T := s.g.totalvc.val
  have : s.g.vqIdx.val + (i.val + (T - s.g.vqIdx.val % T)) = i.val + T * (s.g.vqIdx.val / T + 1) := by
    rw [Nat.mul_add]; omega
  rw [this, Nat.add_mul_mod_self_left, Nat.mod_eq_of_lt hi]

/-- A round of the queue passes as many inactive voices as there are below the polyphony (R310). -/
theorem freeUpTo_round (s : State) : s.freeUpTo s.g.totalvc.val = s.g.totalvc.val - s.countActiveVoices := by
  have h1 : s.freeUpTo s.g.totalvc.val =
      (Finset.univ.filter fun i : Fin 32 => i.val < s.g.totalvc.val ∧ s.isActive i = false).card := by
    unfold State.freeUpTo
    rw [List.countP_eq_length_filter, ← List.toFinset_card_of_nodup (List.nodup_range.filter _)]
    refine Finset.card_bij (fun m _ => s.queueVoice m) ?_ ?_ ?_
    · intro m hm
      simp only [List.mem_toFinset, List.mem_filter, List.mem_range, Bool.not_eq_true'] at hm
      simp only [Finset.mem_filter, Finset.mem_univ, true_and]
      exact ⟨Nat.mod_lt _ s.g.totalvc.property.1, hm.2⟩
    · intro a ha b hb e
      simp only [List.mem_toFinset, List.mem_filter, List.mem_range, Bool.not_eq_true'] at ha hb
      exact queueVoice_injective ha.1 hb.1 e
    · intro i hi
      simp only [Finset.mem_filter, Finset.mem_univ, true_and] at hi
      obtain ⟨p, hp, e⟩ := queueVoice_surjective s i hi.1
      refine ⟨p, ?_, e⟩
      simp only [List.mem_toFinset, List.mem_filter, List.mem_range, Bool.not_eq_true']
      exact ⟨hp, by rw [e]; exact hi.2⟩
  have h2 : s.countActiveVoices +
      (Finset.univ.filter fun i : Fin 32 => i.val < s.g.totalvc.val ∧ s.isActive i = false).card = s.g.totalvc.val := by
    rw [countActiveVoices_eq, countP_voices]
    have h3 : (Finset.univ.filter fun i : Fin 32 => i.val < s.g.totalvc.val).card = s.g.totalvc.val := by
      have h4 := length_voicesBelow s.g.totalvc.val s.g.totalvc.property.2
      rw [voicesBelow, ← List.countP_eq_length_filter, countP_voices] at h4
      simpa using h4
    conv_rhs => rw [← h3]
    rw [← Finset.card_filter_add_card_filter_not
      (s := Finset.univ.filter fun i : Fin 32 => i.val < s.g.totalvc.val) (fun i => s.isActive i = true)]
    congr 1
    · congr 1; ext i; simp
    · congr 1; ext i; simp
  omega

/-- The allocation loop from position `p` of the queue: it stops at the first position `q` at which enough voices are
placed, or after the round, and has taken the inactive voices passed (R310, R312). -/
theorem allocLoop_took {n : Fin 128} {vel : F32} {needed : Nat} {b : State} {stolen : List (Fin 32)}
    (hact : ∀ i ∈ stolen, b.isActive i = true) :
    ∀ (r p : Nat) (taken : List (Fin 32)) (t : State), p + r = b.g.totalvc.val →
      t = { b with voices := t.voices, g := { b.g with vqIdx := b.queueVoice p } } →
      (∀ i, t.voices.get i =
        if ∃ m < p, i = b.queueVoice m ∧ b.isActive i = false then (b.voices.get i).noteOn b.g.fsI n vel
        else b.voices.get i) →
      (∀ i, i ∈ taken ↔ i ∈ stolen ∨ ∃ m < p, i = b.queueVoice m ∧ b.isActive i = false) →
      taken.length = stolen.length + b.freeUpTo p →
      (∀ m < p, stolen.length + b.freeUpTo m < needed) → stolen.length + b.freeUpTo p ≤ needed →
      ∃ q ≤ b.g.totalvc.val, (q = b.g.totalvc.val ∨ stolen.length + b.freeUpTo q = needed) ∧
        stolen.length + b.freeUpTo q ≤ needed ∧ (∀ m < q, stolen.length + b.freeUpTo m < needed) ∧
        let u := t.allocLoop n vel needed r taken
        u = { b with voices := u.voices, g := { b.g with vqIdx := b.queueVoice q } } ∧
        ∀ i, u.voices.get i =
          if ∃ m < q, i = b.queueVoice m ∧ b.isActive i = false then (b.voices.get i).noteOn b.g.fsI n vel
          else b.voices.get i := by
  intro r
  induction r with
  | zero =>
    intro p taken t hp ht hv _ _ hlt hle
    exact ⟨p, by omega, Or.inl (by omega), hle, hlt, ht, hv⟩
  | succ r ih =>
    intro p taken t hp ht hv hm hlen hlt hle
    unfold State.allocLoop
    by_cases hdone : taken.length = needed
    · rw [if_pos hdone]
      exact ⟨p, by omega, Or.inr (by omega), hle, hlt, ht, hv⟩
    · rw [if_neg hdone]
      have hidx : t.g.vqIdx = b.queueVoice p := by rw [ht]
      have hc : t.g.totalvc = b.g.totalvc := by rw [ht]
      have hfs : t.g.fsI = b.g.fsI := by rw [ht]; rfl
      have hnew : ¬∃ m < p, b.queueVoice p = b.queueVoice m ∧ b.isActive (b.queueVoice p) = false := by
        rintro ⟨m, hmp, e, -⟩
        exact absurd (queueVoice_injective (by omega) (by omega) e) (by omega)
      have hvp : t.voices.get (b.queueVoice p) = b.voices.get (b.queueVoice p) := by rw [hv, if_neg hnew]
      have hnext : t.getNext.2 = { b with voices := t.voices, g := { b.g with vqIdx := b.queueVoice (p + 1) } } := by
        have key : ∀ (t' : State) V Q, t' = { b with voices := V, g := { b.g with vqIdx := Q } } → ∀ j,
            { t' with g := { t'.g with vqIdx := j } } =
              { b with voices := t'.voices, g := { b.g with vqIdx := j } } := by
          rintro _ V Q rfl j; rfl
        rw [getNext_snd, hidx, hc, queueVoice_succ, key t _ _ ht]
      dsimp only
      rw [getNext_fst, hidx]
      have hcond : (!t.getNext.2.isActive (b.queueVoice p) && !taken.contains (b.queueVoice p)) =
          !b.isActive (b.queueVoice p) := by
        have h1 : t.getNext.2.isActive (b.queueVoice p) = b.isActive (b.queueVoice p) := by
          rw [hnext]; simp [State.isActive, hvp]
        rw [h1]
        by_cases ha : b.isActive (b.queueVoice p) = true
        · simp [ha]
        · have : b.queueVoice p ∉ taken := by
            rw [hm]
            rintro (h | h)
            · exact ha (hact _ h)
            · exact hnew h
          simp [this]
      rw [hcond]
      have hsplit : ∀ i, (∃ m < p + 1, i = b.queueVoice m ∧ b.isActive i = false) ↔
          (i = b.queueVoice p ∧ b.isActive i = false) ∨ ∃ m < p, i = b.queueVoice m ∧ b.isActive i = false := by
        intro i
        constructor
        · rintro ⟨m, hmp, h⟩
          by_cases e : m = p
          · subst e; exact Or.inl h
          · exact Or.inr ⟨m, by omega, h⟩
        · rintro (h | ⟨m, hmp, h⟩)
          · exact ⟨p, by omega, h⟩
          · exact ⟨m, by omega, h⟩
      have hstep : ∀ m < p + 1, stolen.length + b.freeUpTo m < needed := by
        intro m hmp
        by_cases e : m = p
        · subst e; omega
        · exact hlt m (by omega)
      by_cases ha : b.isActive (b.queueVoice p) = true
      · rw [if_neg (by simp [ha])]
        have hf : b.freeUpTo (p + 1) = b.freeUpTo p := by rw [freeUpTo_succ, if_pos ha, Nat.add_zero]
        refine ih (p + 1) taken t.getNext.2 (by omega) ?_ ?_ ?_ (by omega) hstep (by omega)
        · rw [hnext]
        · intro i
          show t.voices.get i = _
          rw [hv i]
          refine if_congr ?_ rfl rfl
          rw [hsplit]
          refine ⟨Or.inr, ?_⟩
          rintro (⟨rfl, h⟩ | h)
          · rw [ha] at h; cases h
          · exact h
        · intro i
          rw [hm i, hsplit]
          refine or_congr_right ⟨Or.inr, ?_⟩
          rintro (⟨rfl, h⟩ | h)
          · rw [ha] at h; cases h
          · exact h
      · rw [if_pos (by simp [ha])]
        have ha' : b.isActive (b.queueVoice p) = false := by simpa using ha
        have hf : b.freeUpTo (p + 1) = b.freeUpTo p + 1 := by rw [freeUpTo_succ, if_neg ha]
        refine ih (p + 1) (b.queueVoice p :: taken) _ (by omega) ?_ ?_ ?_
          (by rw [List.length_cons]; omega) hstep (by omega)
        · unfold State.voiceNoteOn State.setVoice
          rw [hnext]
        · intro i
          show (t.voices.set (b.queueVoice p) ((t.voices.get (b.queueVoice p)).noteOn t.g.fsI n vel)).get i = _
          by_cases hi : b.queueVoice p = i
          · subst hi
            rw [Vec.get_set_same, hvp, hfs, if_pos ((hsplit _).2 (Or.inl ⟨rfl, ha'⟩))]
          · rw [Vec.get_set_ne _ _ hi, hv i]
            refine if_congr ?_ rfl rfl
            rw [hsplit]
            refine ⟨Or.inr, ?_⟩
            rintro (⟨rfl, -⟩ | h)
            · exact absurd rfl hi
            · exact h
        · intro i
          rw [List.mem_cons, hm i, hsplit]
          constructor
          · rintro (rfl | h | h)
            · exact Or.inr (Or.inl ⟨rfl, ha'⟩)
            · exact Or.inl h
            · exact Or.inr (Or.inr h)
          · rintro (h | ⟨h, -⟩ | h)
            · exact Or.inr (Or.inl h)
            · exact Or.inl h
            · exact Or.inr (Or.inr h)

end Sys2Proof.Machine
end

