-- ==== Sys2Proof/Laws/Encoding.lean ====
section
/-! SUPPORT. The command word as its five fields: reading the fields of a packed word, packing the fields of a
word, and the decoder on a packed word of each format (`30_encoding.md` R101, R102). -/

namespace Sys2Proof

/-- Every bit of a packed word. -/
theorem pack_bit (op a b : BitVec 8) (v : F32) (i : Nat) :
    (pack op a b v).getLsbD i =
      if i < 32 then v.getLsbD i else if i < 40 then false else if i < 48 then b.getLsbD (i - 40)
      else if i < 56 then a.getLsbD (i - 48) else op.getLsbD (i - 56) := by
  unfold pack
  simp only [BitVec.getLsbD_append]
  split_ifs <;> first | omega | simp | (congr 1)

@[simp] theorem fieldOP_pack (op a b : BitVec 8) (v : F32) : fieldOP (pack op a b v) = op := by
  apply BitVec.eq_of_getLsbD_eq
  intro i hi
  rw [fieldOP, BitVec.getLsbD_extractLsb', pack_bit, if_neg (by omega), if_neg (by omega), if_neg (by omega),
    if_neg (by omega), Nat.add_sub_cancel_left]
  simp [hi]

@[simp] theorem fieldA_pack (op a b : BitVec 8) (v : F32) : fieldA (pack op a b v) = a := by
  apply BitVec.eq_of_getLsbD_eq
  intro i hi
  rw [fieldA, BitVec.getLsbD_extractLsb', pack_bit, if_neg (by omega), if_neg (by omega), if_neg (by omega),
    if_pos (by omega), Nat.add_sub_cancel_left]
  simp [hi]

@[simp] theorem fieldB_pack (op a b : BitVec 8) (v : F32) : fieldB (pack op a b v) = b := by
  apply BitVec.eq_of_getLsbD_eq
  intro i hi
  rw [fieldB, BitVec.getLsbD_extractLsb', pack_bit, if_neg (by omega), if_neg (by omega), if_pos (by omega),
    Nat.add_sub_cancel_left]
  simp [hi]

@[simp] theorem fieldZ_pack (op a b : BitVec 8) (v : F32) : fieldZ (pack op a b v) = 0#8 := by
  apply BitVec.eq_of_getLsbD_eq
  intro i hi
  rw [fieldZ, BitVec.getLsbD_extractLsb', pack_bit, if_neg (by omega), if_pos (by omega)]
  simp

@[simp] theorem fieldV_pack (op a b : BitVec 8) (v : F32) : fieldV (pack op a b v) = v := by
  apply BitVec.eq_of_getLsbD_eq
  intro i hi
  rw [fieldV, BitVec.getLsbD_extractLsb', pack_bit, if_pos (by omega), Nat.zero_add]
  simp [hi]

/-- A word with `Z = 0` is the packing of its other fields. -/
theorem pack_fields {w : CmdWord} (hz : fieldZ w = 0#8) : pack (fieldOP w) (fieldA w) (fieldB w) (fieldV w) = w := by
  apply BitVec.eq_of_getLsbD_eq
  intro i hi
  have hbit := congrArg (fun x : BitVec 8 => x.getLsbD (i - 32)) hz
  simp only [fieldZ, BitVec.getLsbD_extractLsb', BitVec.getLsbD_zero] at hbit
  rw [pack_bit]
  simp only [fieldOP, fieldA, fieldB, fieldV, BitVec.getLsbD_extractLsb']
  split_ifs with h1 h2 h3 h4
  · simp [h1]
  · have h : i - 32 < 8 := by omega
    rw [show 32 + (i - 32) = i by omega] at hbit
    rw [decide_eq_true h, Bool.true_and] at hbit
    exact hbit.symm
  · have h : i - 40 < 8 := by omega
    rw [show 40 + (i - 40) = i by omega]; simp [h]
  · have h : i - 48 < 8 := by omega
    rw [show 48 + (i - 48) = i by omega]; simp [h]
  · have h : i - 56 < 8 := by omega
    rw [show 56 + (i - 56) = i by omega]; simp [h]

/-! ### The decoder on each format -/

/-- A word whose row reads a command decodes to it. -/
theorem decode_of_read {w : CmdWord} {row : Row} {i : Instr} (h : opcodeRow (fieldOP w).toNat = some row)
    (hr : row.read w = some i) : decode w = .ok i := by
  unfold decode; rw [h]; dsimp only; rw [hr]

/-- A word of a row with a required-zero field that is not zero is refused. -/
theorem decode_of_unread {w : CmdWord} {row : Row} (h : opcodeRow (fieldOP w).toNat = some row)
    (hr : row.read w = none) : decode w = .error .nonzeroField := by
  unfold decode; rw [h]; dsimp only; rw [hr]

theorem decode_packN {op : BitVec 8} {i : Instr} (h : opcodeRow op.toNat = some (.n i)) :
    decode (packN op) = .ok i := by
  apply decode_of_read (by rw [packN, fieldOP_pack]; exact h)
  simp [Row.read, packN]

theorem decode_packF {op : BitVec 8} {mk : F32 → Instr} (h : opcodeRow op.toNat = some (.f mk)) (v : F32) :
    decode (packF op v) = .ok (mk v) := by
  apply decode_of_read (by rw [packF, fieldOP_pack]; exact h)
  simp [Row.read, packF]

theorem decode_packAF {op : BitVec 8} {mk : BitVec 8 → F32 → Instr} (h : opcodeRow op.toNat = some (.af mk))
    (a : BitVec 8) (v : F32) : decode (packAF op a v) = .ok (mk a v) := by
  apply decode_of_read (by rw [packAF, fieldOP_pack]; exact h)
  simp [Row.read, packAF]

theorem decode_packK {op : BitVec 8} {mk : BitVec 8 → BitVec 8 → F32 → Instr}
    (h : opcodeRow op.toNat = some (.k mk)) (a b : BitVec 8) (v : F32) : decode (packK op a b v) = .ok (mk a b v) := by
  apply decode_of_read (by rw [packK, fieldOP_pack]; exact h)
  simp [Row.read, packK]

end Sys2Proof
end

