-- ==== Sys2Proof/Laws/Exec.lean ====
section
/-! SUPPORT. What a command can do, once for all of `exec`: raise a fault, tick, run one of the note operations, set
the polyphony, or write parameters that leave sounding voices, phases and note tables alone. -/

namespace Sys2Proof.Machine

/-- The two states of a voice agree on what notes, envelopes' stages and phases say. -/
structure QuietVoice (v w : Voice) : Prop where
  note : w.note = v.note
  gate : w.gate = v.gate
  sustHold : w.sustHold = v.sustHold
  active : w.active = v.active
  velocity : w.velocity = v.velocity
  slop : w.slop = v.slop
  x1 : w.osc.x1 = v.osc.x1
  x2 : w.osc.x2 = v.osc.x2
  dlSyncFrac : w.osc.dlSyncFrac = v.osc.dlSyncFrac
  ampState : w.ampEnv.state = v.ampEnv.state
  fltState : w.fltEnv.state = v.fltEnv.state

/-- Two global register files agree on the queue, the note tables and the vibrato unit's fixed parameters. -/
structure QuietGlobal (g h : Global) : Prop where
  totalvc : h.totalvc = g.totalvc
  vqIdx : h.vqIdx = g.vqIdx
  stolen : h.stolen = g.stolen
  voiceAge : h.voiceAge = g.voiceAge
  counter : h.asPlayedCounter = g.asPlayedCounter
  vibWave1 : h.vib.wave1 = g.vib.wave1
  vibWave2 : h.vib.wave2 = g.vib.wave2
  vibWave3 : h.vib.wave3 = g.vib.wave3
  vibSync : h.vib.sync = g.vib.sync
  vibRaw : h.vib.rawRate = g.vib.rawRate

/-- A parameter write: what it leaves alone, and the register it marks. -/
structure QuietStep (s t : State) : Prop where
  voices : ∀ k, QuietVoice (s.voices.get k) (t.voices.get k)
  global : QuietGlobal s.g t.g
  written : t.g.written = s.g.written ∨ ∃ id, t.g.written = insertId id s.g.written
  fault : t.fault = s.fault
  inputs : t.inputs = s.inputs
  tuning : t.tuning = s.tuning
  outL : t.outL = s.outL
  outR : t.outR = s.outR

theorem QuietVoice.refl (v : Voice) : QuietVoice v v := ⟨rfl, rfl, rfl, rfl, rfl, rfl, rfl, rfl, rfl, rfl, rfl⟩

theorem QuietGlobal.refl (g : Global) : QuietGlobal g g := ⟨rfl, rfl, rfl, rfl, rfl, rfl, rfl, rfl, rfl, rfl⟩

/-- The outcomes of a command that answers a next state. -/
inductive ExecCase (i : Instr) (s : State) : State → Prop where
  | raised (c : FaultCause) : ExecCase i s (raise c (encode i) s)
  | ticked (t : State) (hi : i = .tick) (hc : s.configured = true) (ht : s.tick = .ok t) : ExecCase i s t
  | noteOn (n c : BitVec 8) (v : F32) (hi : i = .noteon n c v) : ExecCase i s (s.setNoteOn (noteOf n) v)
  | noteOff (n : BitVec 8) : ExecCase i s (s.setNoteOff (noteOf n))
  | sustOn : ExecCase i s s.sustainOn
  | sustOff : ExecCase i s s.sustainOff
  | notesOff : ExecCase i s s.allNotesOff
  | soundOff : ExecCase i s s.allSoundOff
  | polyphony (v : F32) : ExecCase i s ((s.setPolyphony (countParam v)).markWritten .polyphony)
  | quiet (t : State) (h : QuietStep s t) (hq : (∃ v, i = .playpos v) ∨ t.g.qnpos = s.g.qnpos)
      (hd : (∃ v, i = .setrate v) ∨ t.draws = s.draws) : ExecCase i s t

theorem checked_execCase {i : Instr} {s : State} {r c : Bool} {op : State → State} (h : ExecCase i s (op s)) :
    ExecCase i s (checked i r c op s) := by
  rcases checked_cases i r c op s with ⟨-, -, e⟩ | ⟨-, -, -, e⟩ | ⟨-, e⟩ <;> rw [e]
  · exact h
  · exact .raised _
  · exact .raised _

/-- A setter of global registers. -/
theorem quiet_mapGlobal (id : RegId) (f : Global → Global) (s : State) (hf : QuietGlobal s.g (f s.g))
    (hw : (f s.g).written = s.g.written) : QuietStep s ((s.mapGlobal f).markWritten id) where
  voices _ := QuietVoice.refl _
  global := ⟨hf.totalvc, hf.vqIdx, hf.stolen, hf.voiceAge, hf.counter, hf.vibWave1, hf.vibWave2, hf.vibWave3, hf.vibSync,
    hf.vibRaw⟩
  written := Or.inr ⟨id, by simp [State.markWritten, State.mapGlobal, hw]⟩
  fault := rfl
  inputs := rfl
  tuning := rfl
  outL := rfl
  outR := rfl

/-- A change of all voices. -/
theorem quiet_mapVoices (id : RegId) (f : Voice → Voice) (s : State) (hf : ∀ v, QuietVoice v (f v)) :
    QuietStep s ((s.mapVoices f).markWritten id) where
  voices k := by
    show QuietVoice _ ((s.voices.map f).get k)
    rw [Vec.get_map]; exact hf _
  global := ⟨rfl, rfl, rfl, rfl, rfl, rfl, rfl, rfl, rfl, rfl⟩
  written := Or.inr ⟨id, rfl⟩
  fault := rfl
  inputs := rfl
  tuning := rfl
  outL := rfl
  outR := rfl

/-! ### Envelope updates that keep the stage -/

@[simp] theorem Env.setAttack_state (c : EnvCtx) (x : F32) (e : Env) : (e.setAttack c x).state = e.state := by
  unfold Env.setAttack; dsimp only; split <;> rfl
@[simp] theorem Env.setDecay_state (c : EnvCtx) (x : F32) (e : Env) : (e.setDecay c x).state = e.state := by
  unfold Env.setDecay; dsimp only; split <;> rfl
@[simp] theorem Env.setSustain_state (c : EnvCtx) (x : F32) (e : Env) : (e.setSustain c x).state = e.state := by
  unfold Env.setSustain; dsimp only; split <;> rfl
@[simp] theorem Env.setRelease_state (c : EnvCtx) (x : F32) (e : Env) : (e.setRelease c x).state = e.state := by
  unfold Env.setRelease; dsimp only; split <;> rfl
@[simp] theorem Env.refresh_state (c : EnvCtx) (e : Env) : (e.refresh c).state = e.state := by
  unfold Env.refresh; split <;> rfl

theorem quiet_refreshEnvs (fsI : F32) (v : Voice) : QuietVoice v (Voice.refreshEnvs fsI v) :=
  ⟨rfl, rfl, rfl, rfl, rfl, rfl, rfl, rfl, rfl, Env.refresh_state _ _, Env.refresh_state _ _⟩

theorem quiet_setRate (fsI : F32) (v : Voice) : QuietVoice v (Voice.setRate fsI v) :=
  ⟨rfl, rfl, rfl, rfl, rfl, rfl, rfl, rfl, rfl, Env.refresh_state _ _, Env.refresh_state _ _⟩

/-! ### The commands -/

theorem globalSetter_case {i : Instr} {id : RegId} {v : F32} {f : Global → Global} {s t : State}
    (h : globalSetter i id v f s = .next t) (hf : QuietGlobal s.g (f s.g)) (hw : (f s.g).written = s.g.written)
    (hq : (f s.g).qnpos = s.g.qnpos) : ExecCase i s t := by
  obtain rfl : checked i (unitRange v) false (fun s => (s.mapGlobal f).markWritten id) s = t := by
    simpa [globalSetter, setter, command] using h
  exact checked_execCase (.quiet _ (quiet_mapGlobal id f s hf hw) (Or.inr hq) (Or.inr rfl))

theorem voiceSetter_case {i : Instr} {id : RegId} {v : F32} {f : Voice → Voice} {s t : State}
    (h : voiceSetter i id v f s = .next t) (hf : ∀ b, QuietVoice b (f b)) : ExecCase i s t := by
  obtain rfl : checked i (unitRange v) false (fun s => (s.mapVoices f).markWritten id) s = t := by
    simpa [voiceSetter, setter, command] using h
  exact checked_execCase (.quiet _ (quiet_mapVoices id f s hf) (Or.inr rfl) (Or.inr rfl))

theorem setter_case {i : Instr} {id : RegId} {r : Bool} {op : State → State} {s t : State}
    (h : setter i id r op s = .next t) (ho : ExecCase i s ((op s).markWritten id)) : ExecCase i s t := by
  obtain rfl : checked i r false (fun s => (op s).markWritten id) s = t := by simpa [setter, command] using h
  exact checked_execCase ho

theorem command_case {i : Instr} {r : Bool} {op : State → State} {s t : State}
    (h : command i r op s = .next t) (ho : ExecCase i s (op s)) : ExecCase i s t := by
  obtain rfl : checked i r false op s = t := by simpa [command] using h
  exact checked_execCase ho

theorem configuredCommand_case {i : Instr} {r : Bool} {op : State → State} {s t : State}
    (h : configuredCommand i r op s = .next t) (ho : ExecCase i s (op s)) : ExecCase i s t := by
  obtain rfl : checked i r true op s = t := by simpa [configuredCommand] using h
  exact checked_execCase ho

theorem execTick_case {s t : State} (h : execTick s = .next t) : ExecCase .tick s t := by
  unfold execTick at h
  split at h
  · next hc =>
    split at h
    · next ht => cases h; exact .ticked _ rfl hc ht
    · cases h
  · cases h; exact .raised _

theorem setSampleRate_quiet (hz : F32) (s : State) : QuietStep s ((s.setSampleRate hz).markWritten .fs) where
  voices k := by
    simp only [State.markWritten_voices, State.setSampleRate, Vec.get_mapIdx]
    split
    · exact ⟨rfl, rfl, rfl, rfl, rfl, rfl, rfl, rfl, rfl, Env.refresh_state _ _, Env.refresh_state _ _⟩
    · exact ⟨rfl, rfl, rfl, rfl, rfl, rfl, rfl, rfl, rfl, rfl, rfl⟩
  global := ⟨rfl, rfl, rfl, rfl, rfl, rfl, rfl, rfl, rfl, rfl⟩
  written := Or.inr ⟨_, rfl⟩
  fault := rfl
  inputs := rfl
  tuning := rfl
  outL := rfl
  outR := rfl

theorem setOversample_quiet (b : Bool) (s : State) : QuietStep s ((s.setOversample b).markWritten .oversample) where
  voices k := by
    simp only [State.markWritten_voices, State.setOversample, Vec.get_map]
    split
    · exact ⟨rfl, rfl, rfl, rfl, rfl, rfl, rfl, rfl, rfl, Env.refresh_state _ _, Env.refresh_state _ _⟩
    · exact ⟨rfl, rfl, rfl, rfl, rfl, rfl, rfl, rfl, rfl, rfl, rfl⟩
  global := ⟨rfl, rfl, rfl, rfl, rfl, rfl, rfl, rfl, rfl, rfl⟩
  written := Or.inr ⟨_, rfl⟩
  fault := rfl
  inputs := rfl
  tuning := rfl
  outL := rfl
  outR := rfl

theorem restartLfos_quiet (bpm : F32) (s : State) :
    QuietStep s (((s.mapGlobal fun g => { g with bpm := bpm }).restartLfos).markWritten .bpm) where
  voices k := by
    simp only [State.markWritten_voices, State.restartLfos, State.mapGlobal_voices, Vec.get_map]
    split <;> exact ⟨rfl, rfl, rfl, rfl, rfl, rfl, rfl, rfl, rfl, rfl, rfl⟩
  global := ⟨rfl, rfl, rfl, rfl, rfl, rfl, rfl, rfl, rfl, rfl⟩
  written := Or.inr ⟨_, rfl⟩
  fault := rfl
  inputs := rfl
  tuning := rfl
  outL := rfl
  outR := rfl

theorem setMod_quiet (m : Fin Config.modCount) (v : F32) (s : State) :
    QuietStep s ((s.setMod m v).markWritten (.mod m)) :=
  quiet_mapVoices _ _ _ fun _ =>
    ⟨rfl, rfl, rfl, rfl, rfl, rfl, rfl, rfl, rfl, Env.refresh_state _ _, Env.refresh_state _ _⟩

/-- A write of a controller target: no register is marked. -/
theorem quiet_mapGlobal_only (f : Global → Global) (s : State) (hf : QuietGlobal s.g (f s.g))
    (hw : (f s.g).written = s.g.written) : QuietStep s (s.mapGlobal f) where
  voices _ := QuietVoice.refl _
  global := hf
  written := Or.inl hw
  fault := rfl
  inputs := rfl
  tuning := rfl
  outL := rfl
  outR := rfl

/-- Everything a command that answers a next state can have done. -/
theorem exec_case {i : Instr} {s t : State} (h : exec i s = .next t) : ExecCase i s t := by
  cases i with
  | setrate v => exact setter_case h (.quiet _ (setSampleRate_quiet v s) (Or.inr rfl) (Or.inl ⟨v, rfl⟩))
  | tick => exact execTick_case h
  | playpos v =>
    exact command_case h (.quiet _ (quiet_mapGlobal_only _ _ ⟨rfl, rfl, rfl, rfl, rfl, rfl, rfl, rfl, rfl, rfl⟩ rfl)
      (Or.inl ⟨v, rfl⟩) (Or.inr rfl))
  | playhead a bpm =>
    refine setter_case h ?_
    dsimp only
    split
    · exact .quiet _ (restartLfos_quiet bpm s) (Or.inr rfl) (Or.inr rfl)
    · exact .quiet _ (quiet_mapGlobal _ _ _ ⟨rfl, rfl, rfl, rfl, rfl, rfl, rfl, rfl, rfl, rfl⟩ rfl) (Or.inr rfl) (Or.inr rfl)
  | noteon n c v => exact configuredCommand_case h (.noteOn n c v rfl)
  | noteoff n c v => exact configuredCommand_case h (.noteOff n)
  | suston => exact configuredCommand_case h .sustOn
  | sustoff => exact configuredCommand_case h .sustOff
  | allnotesoff => exact configuredCommand_case h .notesOff
  | allsoundoff => exact configuredCommand_case h .soundOff
  | pitchwheel v =>
    exact command_case h (.quiet _ (quiet_mapGlobal_only _ _ ⟨rfl, rfl, rfl, rfl, rfl, rfl, rfl, rfl, rfl, rfl⟩ rfl)
      (Or.inr rfl) (Or.inr rfl))
  | modwheel v =>
    exact command_case h (.quiet _ (quiet_mapGlobal_only _ _ ⟨rfl, rfl, rfl, rfl, rfl, rfl, rfl, rfl, rfl, rfl⟩ rfl)
      (Or.inr rfl) (Or.inr rfl))
  | polyphony v => exact setter_case h (.polyphony v)
  | oversample v => exact setter_case h (.quiet _ (setOversample_quiet _ s) (Or.inr rfl) (Or.inr rfl))
  | pan a v =>
    exact setter_case h (.quiet _ (quiet_mapGlobal _ _ _ ⟨rfl, rfl, rfl, rfl, rfl, rfl, rfl, rfl, rfl, rfl⟩ rfl)
      (Or.inr rfl) (Or.inr rfl))
  | modparam a v =>
    refine command_case h ?_
    split
    · exact .quiet _ (setMod_quiet _ _ _) (Or.inr rfl) (Or.inr rfl)
    · exact .quiet _ ⟨fun _ => QuietVoice.refl _, QuietGlobal.refl _, Or.inl rfl, rfl, rfl, rfl, rfl, rfl⟩ (Or.inr rfl)
        (Or.inr rfl)
  | ampattack v | ampdecay v | ampsustain v | amprelease v | fltattack v | fltdecay v | fltsustain v | fltrelease v =>
    refine voiceSetter_case h fun b => ⟨rfl, rfl, rfl, rfl, rfl, rfl, rfl, rfl, rfl, ?_, ?_⟩ <;> simp
  | volume v | unison v | univoices v | voicepriority v | vibratorate v | lfo1rate v | lfo1wave1 v | lfo1wave2 v
  | lfo1wave3 v | lfo1sync v | cutoff v =>
    exact globalSetter_case h ⟨rfl, rfl, rfl, rfl, rfl, rfl, rfl, rfl, rfl, rfl⟩ rfl rfl
  | _ v => exact voiceSetter_case h fun b => ⟨rfl, rfl, rfl, rfl, rfl, rfl, rfl, rfl, rfl, rfl, rfl⟩

/-- Everything a step that answers a next state can have done. -/
inductive StepCase (s : State) : State → Prop where
  | idle (h : s.inputs = []) : StepCase s s
  | illegal (w : CmdWord) (rest : List HostInput) (h : s.inputs = .command w :: rest) :
      StepCase s (raise .illegalCommand w { s with inputs := rest })
  | command (w : CmdWord) (rest : List HostInput) (i : Instr) (t : State) (h : s.inputs = .command w :: rest)
      (hd : decode w = .ok i) (he : exec i { s with inputs := rest } = .next t)
      (hc : ExecCase i { s with inputs := rest } t) : StepCase s t
  | reset (rest : List HostInput) (h : s.inputs = .reset :: rest) : StepCase s (State.resetWith s.draws s.tuning rest)
  | tuning (table : Vec F64 128) (rest : List HostInput) (h : s.inputs = .tuning table :: rest) :
      StepCase s { s with tuning := table, inputs := rest }

theorem step_case {s t : State} (h : step s = .next t) : StepCase s t := by
  unfold step at h
  split at h
  · next hi => cases h; exact .idle hi
  · next w rest hi =>
    unfold runWord at h
    split at h
    · next i hd => exact .command w rest i t hi hd h (exec_case h)
    · cases h; exact .illegal w rest hi
  · next rest hi => cases h; exact .reset rest hi
  · next table rest hi => cases h; exact .tuning table rest hi

end Sys2Proof.Machine
end

