-- ==== Sys2Proof/Laws/Float.lean ====
section
/-! SUPPORT. The arithmetic under the binary32 operations: what rounding to nearest even does, once and for all
(`00_scope.md` R12), and the reading of packed bit patterns. -/

namespace Sys2Proof.Machine

theorem unitsOfBits_scaled {k q : Nat} (hq : q ≤ 2 ^ 24) (hk : k = 0 ∨ 2 ^ 23 ≤ q) :
    unitsOfBits (k * 2 ^ 23 + q) = q * 2 ^ k := by
  rcases Nat.lt_or_ge q (2 ^ 23) with h | h
  · obtain rfl : k = 0 := by omega
    have : q / 2 ^ 23 = 0 := Nat.div_eq_of_lt h
    have hm := Nat.mod_eq_of_lt h
    simp only [unitsOfBits, Nat.zero_mul, Nat.zero_add, this, hm, if_true, Nat.pow_zero, Nat.mul_one]
  · rcases Nat.lt_or_ge q (2 ^ 24) with h2 | h2
    · have e : (k * 2 ^ 23 + q) / 2 ^ 23 = k + 1 := by omega
      have f : (k * 2 ^ 23 + q) % 2 ^ 23 = q - 2 ^ 23 := by omega
      have g : 2 ^ 23 + (q - 2 ^ 23) = q := by omega
      simp only [unitsOfBits, e, f, g]
      simp
    · obtain rfl : q = 2 ^ 24 := by omega
      have e : (k * 2 ^ 23 + 2 ^ 24) / 2 ^ 23 = k + 2 := by omega
      have f : (k * 2 ^ 23 + 2 ^ 24) % 2 ^ 23 = 0 := by omega
      simp only [unitsOfBits, e, f]
      have : k + 2 - 1 = k + 1 := by omega
      simp [this, Nat.pow_succ]; omega

/-- Every magnitude is a significand scaled by a power of two. -/
theorem bits_split (m : Nat) :
    ∃ k q, m = k * 2 ^ 23 + q ∧ q < 2 ^ 24 ∧ (k = 0 ∨ 2 ^ 23 ≤ q) := by
  refine ⟨m / 2 ^ 23 - 1, m - (m / 2 ^ 23 - 1) * 2 ^ 23, ?_, ?_, ?_⟩ <;> omega

theorem unitsOfBits_lt_succ (m : Nat) : unitsOfBits m < unitsOfBits (m + 1) := by
  obtain ⟨k, q, rfl, hq, hk⟩ := bits_split m
  rw [unitsOfBits_scaled hq.le hk, Nat.add_assoc, unitsOfBits_scaled hq (by omega)]
  exact Nat.mul_lt_mul_of_pos_right (Nat.lt_succ_self q) (Nat.two_pow_pos k)

theorem unitsOfBits_strictMono : StrictMono unitsOfBits := strictMono_nat_of_lt_succ unitsOfBits_lt_succ

theorem rne_lt (n d : Nat) (hd : 0 < d) (q : Nat) (h : 2 * n < (2 * q + 1) * d) : rne n d ≤ q := by
  have h1 := Nat.div_add_mod n d
  have h2 := Nat.mod_lt n hd
  unfold rne; dsimp only
  generalize n / d = a at *
  generalize n % d = r at *
  subst h1
  have : a < q + 1 := by
    by_contra hc
    have : (q+1) * d ≤ a * d := Nat.mul_le_mul_right _ (by omega)
    nlinarith
  rcases Nat.lt_or_ge a q with ha | ha
  · split
    · omega
    · split
      · omega
      · rcases Nat.mod_two_eq_zero_or_one a with h | h <;> omega
  · obtain rfl : a = q := by omega
    have : 2 * r < d := by nlinarith
    simp [this]

theorem lt_rne (n d : Nat) (hd : 0 < d) (q : Nat) (h : (2 * q + 1) * d < 2 * n) : q < rne n d := by
  have h1 := Nat.div_add_mod n d
  have h2 := Nat.mod_lt n hd
  unfold rne; dsimp only
  generalize n / d = a at *
  generalize n % d = r at *
  subst h1
  have : q ≤ a := by
    by_contra hc
    have : (a+1) * d ≤ q * d := Nat.mul_le_mul_right _ (by omega)
    nlinarith
  rcases Nat.lt_or_ge q a with ha | ha
  · split
    · omega
    · split
      · omega
      · omega
  · obtain rfl : a = q := by omega
    have h3 : d < 2 * r := by nlinarith
    have h4 : ¬ 2 * r < d := by omega
    simp [h3, h4]

theorem rne_tie (n d : Nat) (hd : 0 < d) (q : Nat) (h : (2 * q + 1) * d = 2 * n) : rne n d = q + q % 2 := by
  have h1 := Nat.div_add_mod n d
  have h2 := Nat.mod_lt n hd
  unfold rne; dsimp only
  generalize n / d = a at *
  generalize n % d = r at *
  subst h1
  have ha : a = q := by
    rcases Nat.lt_trichotomy a q with hc | hc | hc
    · have : (a+1) * d ≤ q * d := Nat.mul_le_mul_right _ (by omega)
      nlinarith
    · exact hc
    · have : (q+1) * d ≤ a * d := Nat.mul_le_mul_right _ (by omega)
      nlinarith
  subst ha
  have : 2 * r = d := by nlinarith
  have h3 : ¬ d < 2 * r := by omega
  have h4 : ¬ 2 * r < d := by omega
  simp [h3, h4]

/-- The scale that `roundBits` chooses. -/
theorem roundBits_eq (n d : Nat) (hd : 0 < d) :
    ∃ k q, q = rne n (d * 2 ^ k) ∧ q ≤ 2 ^ 24 ∧ n < 2 ^ 24 * (d * 2 ^ k) ∧
      (k = 0 ∨ 2 ^ 23 ≤ q ∧ 2 ^ 23 * (d * 2 ^ k) ≤ n) ∧
      roundBits n d = if k * 2 ^ 23 + q < infBits then k * 2 ^ 23 + q else infBits := by
  set k := Nat.log2 (n / d) - 23 with hk
  have hD : 0 < d * 2 ^ k := Nat.mul_pos hd (Nat.two_pow_pos k)
  have hup : n < 2 ^ 24 * (d * 2 ^ k) := by
    have : n / d < 2 ^ (k + 24) := by
      rcases Nat.eq_zero_or_pos (n / d) with h | h
      · rw [h]; positivity
      · exact Nat.lt_of_lt_of_le Nat.lt_log2_self (Nat.pow_le_pow_right (by decide) (by omega))
    rw [Nat.div_lt_iff_lt_mul hd] at this
    calc n < _ := this
      _ = _ := by ring
  refine ⟨k, _, rfl, rne_lt _ _ hD _ (by omega), hup, ?_, rfl⟩
  rcases Nat.eq_zero_or_pos k with h | h
  · exact .inl h
  · have h0 : n / d ≠ 0 := by
      intro h0; rw [h0] at hk; simp at hk; omega
    have h1 : 2 ^ (k + 23) ≤ n / d := by
      have := Nat.log2_self_le h0
      rwa [show k + 23 = Nat.log2 (n / d) by omega]
    have h2 : 2 ^ 23 * (d * 2 ^ k) ≤ n := by
      calc _ = 2 ^ (k + 23) * d := by ring
        _ ≤ n := (Nat.le_div_iff_mul_le hd).1 h1
    have : 2 ^ 23 - 1 < rne n (d * 2 ^ k) := lt_rne _ _ hD _ (by omega)
    exact .inr ⟨by omega, h2⟩

theorem roundBits_le_inf (n d : Nat) : roundBits n d ≤ infBits := by
  unfold roundBits; dsimp only; split <;> omega

/-- Rounding goes down strictly below the midpoint of two neighbouring magnitudes. -/
theorem roundBits_le {n d m : Nat} (hd : 0 < d) (h : 2 * n < (unitsOfBits m + unitsOfBits (m + 1)) * d) :
    roundBits n d ≤ m := by
  obtain ⟨k, q, hq, hq2, -, hk, he⟩ := roundBits_eq n d hd
  have hD : 0 < d * 2 ^ k := Nat.mul_pos hd (Nat.two_pow_pos k)
  suffices k * 2 ^ 23 + q ≤ m by rw [he]; split <;> omega
  by_contra hc
  have hm : unitsOfBits (m + 1) ≤ unitsOfBits (k * 2 ^ 23 + q) := unitsOfBits_strictMono.monotone (by omega)
  rw [unitsOfBits_scaled hq2 (hk.imp_right And.left)] at hm
  have hm' := unitsOfBits_lt_succ m
  by_cases hs : k = 0 ∨ 2 ^ 23 < q
  · obtain ⟨p, rfl⟩ : ∃ p, q = p + 1 := ⟨q - 1, by omega⟩
    have hp : unitsOfBits m ≤ unitsOfBits (k * 2 ^ 23 + p) := unitsOfBits_strictMono.monotone (by omega)
    rw [unitsOfBits_scaled (by omega) (by omega)] at hp
    have : ¬ 2 * n < (2 * p + 1) * (d * 2 ^ k) := fun hlt => by
      have := rne_lt n _ hD p hlt
      omega
    apply this
    calc 2 * n < _ := h
      _ ≤ (p * 2 ^ k + (p + 1) * 2 ^ k) * d := Nat.mul_le_mul_right _ (Nat.add_le_add hp hm)
      _ = _ := by ring
  · obtain ⟨rfl, hlo⟩ : q = 2 ^ 23 ∧ 2 ^ 23 * (d * 2 ^ k) ≤ n := by omega
    have : (unitsOfBits m + unitsOfBits (m + 1)) * d ≤ 2 * n :=
      calc _ ≤ (2 ^ 23 * 2 ^ k + 2 ^ 23 * 2 ^ k) * d := Nat.mul_le_mul_right _ (by omega)
        _ = 2 * (2 ^ 23 * (d * 2 ^ k)) := by ring
        _ ≤ _ := by omega
    omega

/-- Rounding goes up strictly above the midpoint of two neighbouring magnitudes; the neighbour of the largest
finite magnitude is infinity. -/
theorem lt_roundBits {n d m : Nat} (hd : 0 < d) (hm : m < infBits)
    (h : (unitsOfBits m + unitsOfBits (m + 1)) * d < 2 * n) : m < roundBits n d := by
  obtain ⟨k, q, hq, hq2, hup, hk, he⟩ := roundBits_eq n d hd
  have hD : 0 < d * 2 ^ k := Nat.mul_pos hd (Nat.two_pow_pos k)
  suffices m < k * 2 ^ 23 + q by rw [he]; split <;> omega
  by_contra hc
  have hb : unitsOfBits (k * 2 ^ 23 + q) ≤ unitsOfBits m := unitsOfBits_strictMono.monotone (by omega)
  have hb' : unitsOfBits (k * 2 ^ 23 + q + 1) ≤ unitsOfBits (m + 1) := unitsOfBits_strictMono.monotone (by omega)
  rw [unitsOfBits_scaled hq2 (hk.imp_right And.left)] at hb
  by_cases hs : q < 2 ^ 24
  · rw [Nat.add_assoc, unitsOfBits_scaled hs (by omega)] at hb'
    have : ¬ (2 * q + 1) * (d * 2 ^ k) < 2 * n := fun hlt => by
      have := lt_rne n _ hD q hlt
      omega
    apply this
    calc _ = (q * 2 ^ k + (q + 1) * 2 ^ k) * d := by ring
      _ ≤ _ := Nat.mul_le_mul_right _ (Nat.add_le_add hb hb')
      _ < _ := h
  · obtain rfl : q = 2 ^ 24 := by omega
    have hlt := unitsOfBits_lt_succ m
    have : 2 * n ≤ (unitsOfBits m + unitsOfBits (m + 1)) * d :=
      calc 2 * n ≤ 2 * (2 ^ 24 * (d * 2 ^ k)) := by omega
        _ = (2 ^ 24 * 2 ^ k + 2 ^ 24 * 2 ^ k) * d := by ring
        _ ≤ _ := Nat.mul_le_mul_right _ (by omega)
    omega

/-- At the midpoint of two neighbouring magnitudes rounding goes to the even one. -/
theorem roundBits_tie {n d m : Nat} (hd : 0 < d) (hm : m < infBits)
    (h : (unitsOfBits m + unitsOfBits (m + 1)) * d = 2 * n) : roundBits n d = m + m % 2 := by
  obtain ⟨j, p, rfl, hp, hj⟩ := bits_split m
  obtain ⟨k, q, hq, hq2, hup, hk, he⟩ := roundBits_eq n d hd
  rw [unitsOfBits_scaled hp.le hj, Nat.add_assoc, unitsOfBits_scaled (show p + 1 ≤ 2 ^ 24 from hp) (by omega)] at h
  have h' : (2 * p + 1) * (d * 2 ^ j) = 2 * n := by rw [← h]; ring
  have hjk : k = j := by
    rcases Nat.lt_trichotomy k j with hlt | heq | hgt
    · exfalso
      have hp' : 2 ^ 23 ≤ p := by omega
      have : 2 ^ (k + 1) ≤ 2 ^ j := Nat.pow_le_pow_right (by decide) hlt
      have : d * (2 * 2 ^ k) ≤ d * 2 ^ j := Nat.mul_le_mul_left _ (by rwa [Nat.pow_succ, Nat.mul_comm] at this)
      have : 2 ^ 24 * (d * 2 ^ j) ≤ (2 * p + 1) * (d * 2 ^ j) := Nat.mul_le_mul_right _ (by omega)
      have e : d * (2 * 2 ^ k) = 2 * (d * 2 ^ k) := by ring
      omega
    · exact heq
    · exfalso
      have hlo : 2 ^ 23 * (d * 2 ^ k) ≤ n := by omega
      have : 2 ^ (j + 1) ≤ 2 ^ k := Nat.pow_le_pow_right (by decide) hgt
      have : d * (2 * 2 ^ j) ≤ d * 2 ^ k := Nat.mul_le_mul_left _ (by rwa [Nat.pow_succ, Nat.mul_comm] at this)
      have h3 : (2 * p + 1) * (d * 2 ^ j) ≤ (2 ^ 25 - 1) * (d * 2 ^ j) := Nat.mul_le_mul_right _ (by omega)
      have e : d * (2 * 2 ^ j) = 2 * (d * 2 ^ j) := by ring
      have := Nat.mul_pos hd (Nat.two_pow_pos j)
      omega
  subst hjk
  rw [rne_tie n _ (Nat.mul_pos hd (Nat.two_pow_pos k)) p h'] at hq
  subst hq
  have : (k * 2 ^ 23 + p) % 2 = p % 2 := by omega
  rw [he, this]
  split
  · omega
  · have hi : infBits % 2 = 0 := by decide
    omega

theorem roundBits_exact (m : Nat) (hm : m ≤ infBits) : roundBits (unitsOfBits m) 1 = m := by
  apply Nat.le_antisymm
  · apply roundBits_le Nat.one_pos
    have := unitsOfBits_lt_succ m
    omega
  · rcases m with _ | m
    · exact Nat.zero_le _
    · apply lt_roundBits Nat.one_pos (by omega)
      have := unitsOfBits_lt_succ m
      omega


theorem roundBits_le_of_le {n d m : Nat} (hd : 0 < d) (h : n ≤ unitsOfBits m * d) : roundBits n d ≤ m := by
  apply roundBits_le hd
  have := Nat.mul_lt_mul_of_pos_right (unitsOfBits_lt_succ m) hd
  rw [Nat.add_mul]
  omega

theorem le_roundBits_of_le {n d m : Nat} (hd : 0 < d) (hm : m ≤ infBits) (h : unitsOfBits m * d ≤ n) :
    m ≤ roundBits n d := by
  rcases m with _ | m
  · exact Nat.zero_le _
  · apply lt_roundBits hd (by omega)
    have := Nat.mul_lt_mul_of_pos_right (unitsOfBits_lt_succ m) hd
    rw [Nat.add_mul]
    omega

/-- Rounding keeps the order of the exact ratios. -/
theorem roundBits_mono {n d n' d' : Nat} (hd : 0 < d) (hd' : 0 < d') (h : n * d' ≤ n' * d) :
    roundBits n d ≤ roundBits n' d' := by
  by_contra hc
  have hi := roundBits_le_inf n d
  obtain ⟨m, hm⟩ : ∃ m, m = roundBits n' d' := ⟨_, rfl⟩
  have h1 : ¬ 2 * n < (unitsOfBits m + unitsOfBits (m + 1)) * d := fun hlt => by
    have := roundBits_le hd hlt; omega
  have h2 : ¬ (unitsOfBits m + unitsOfBits (m + 1)) * d' < 2 * n' := fun hlt => by
    have := lt_roundBits hd' (by omega) hlt; omega
  generalize hS : unitsOfBits m + unitsOfBits (m + 1) = S at *
  have h3 : S * d * d' ≤ 2 * n * d' := Nat.mul_le_mul_right _ (by omega)
  have h4 : 2 * n' * d ≤ S * d' * d := Nat.mul_le_mul_right _ (by omega)
  have h5 : S * d' * d = S * d * d' := by ring
  have h6 : 2 * n * d' ≤ 2 * n' * d := by
    rw [Nat.mul_assoc, Nat.mul_assoc]; exact Nat.mul_le_mul_left _ h
  have e1 : S * d = 2 * n := Nat.eq_of_mul_eq_mul_right hd' (by omega)
  have e2 : S * d' = 2 * n' := Nat.eq_of_mul_eq_mul_right hd (by omega)
  have t1 := roundBits_tie hd (m := m) (by omega) (by rw [hS]; exact e1)
  have t2 := roundBits_tie hd' (m := m) (by omega) (by rw [hS]; exact e2)
  omega

/-! ### Bit patterns -/

theorem toNat_fpack {s : Bool} {m : Nat} (hm : m < 2 ^ 31) :
    (fpack s m).toNat = (if s then 2 ^ 31 else 0) + m := by
  unfold fpack
  rw [BitVec.toNat_ofNat, Nat.mod_eq_of_lt]
  split <;> omega

theorem infBits_lt : infBits < 2 ^ 31 := by decide

@[simp] theorem fmagBits_fpack {s : Bool} {m : Nat} (hm : m < 2 ^ 31) : fmagBits (fpack s m) = m := by
  unfold fmagBits
  rw [toNat_fpack hm]
  split <;> omega

theorem fsign_eq (x : F32) : fsign x = decide (2 ^ 31 ≤ x.toNat) := by
  unfold fsign
  rw [BitVec.getLsbD, Nat.testBit_eq_decide_div_mod_eq]
  have := x.isLt
  congr 1
  apply propext
  constructor <;> intro h <;> omega

@[simp] theorem fsign_fpack {s : Bool} {m : Nat} (hm : m < 2 ^ 31) : fsign (fpack s m) = s := by
  rw [fsign_eq, toNat_fpack hm]
  cases s <;> simp
  omega

theorem fpack_self (x : F32) : fpack (fsign x) (fmagBits x) = x := by
  apply BitVec.eq_of_toNat_eq
  have := x.isLt
  have h : fmagBits x < 2 ^ 31 := Nat.mod_lt _ (by decide)
  rw [toNat_fpack h, fsign_eq]
  unfold fmagBits at *
  by_cases h : 2 ^ 31 ≤ x.toNat
  · rw [if_pos (decide_eq_true h)]; omega
  · rw [if_neg (by simpa using h)]; omega

theorem fmagBits_lt (x : F32) : fmagBits x < 2 ^ 31 := Nat.mod_lt _ (by decide)

theorem funits_fpack {s : Bool} {m : Nat} (hm : m < 2 ^ 31) : funits (fpack s m) = unitsOfBits m := by
  rw [funits, fmagBits_fpack hm]

theorem roundBits_lt (n d : Nat) : roundBits n d < 2 ^ 31 := Nat.lt_of_le_of_lt (roundBits_le_inf n d) infBits_lt

@[simp] theorem fmagBits_roundUnits (s : Bool) (n d : Nat) : fmagBits (roundUnits s n d) = roundBits n d :=
  fmagBits_fpack (roundBits_lt n d)

@[simp] theorem fsign_roundUnits (s : Bool) (n d : Nat) : fsign (roundUnits s n d) = s :=
  fsign_fpack (roundBits_lt n d)

/-- No rounded value is a NaN. -/
@[simp] theorem isNaN_roundUnits (s : Bool) (n d : Nat) : isNaN (roundUnits s n d) = false := by
  simp [isNaN, roundBits_le_inf]

/-- A finite number rounded again is itself. -/
theorem roundUnits_funits (x : F32) (hx : isFinite x = true) : roundUnits (fsign x) (funits x) 1 = x := by
  have h : fmagBits x < infBits := by simpa [isFinite] using hx
  rw [roundUnits, funits, roundBits_exact _ h.le, fpack_self]

theorem isNaN_of_isFinite {x : F32} (hx : isFinite x = true) : isNaN x = false := by
  simp only [isFinite, isNaN, decide_eq_true_eq, decide_eq_false_iff_not] at *; omega

theorem isInf_of_isFinite {x : F32} (hx : isFinite x = true) : isInf x = false := by
  simp only [isFinite, isInf, decide_eq_true_eq, beq_eq_false_iff_ne] at *; omega

/-- The order of finite numbers is the order of their exact values. -/
theorem fkey_le_iff (x y : F32) : fkey x ≤ fkey y ↔ fint x ≤ fint y := by
  have hx := unitsOfBits_strictMono.le_iff_le (a := fmagBits x) (b := fmagBits y)
  have hy := unitsOfBits_strictMono.le_iff_le (a := fmagBits y) (b := fmagBits x)
  have h0 : ∀ m, m ≤ unitsOfBits m := fun _ => unitsOfBits_strictMono.le_apply
  have hz : unitsOfBits 0 = 0 := by decide
  have hxz := unitsOfBits_strictMono.le_iff_le (a := fmagBits x) (b := 0)
  have hyz := unitsOfBits_strictMono.le_iff_le (a := fmagBits y) (b := 0)
  unfold fkey fint funits
  cases fsign x <;> cases fsign y <;> simp <;> omega

/-- A NaN of the arithmetic is a NaN, whatever its free bits. -/
@[simp] theorem isNaN_freeNaN (op : Config.NanOp) (a b : F32) : isNaN (freeNaN op a b) = true := by
  have hc : freeNaN op a b &&& 0x7FC00000#32 = 0x7FC00000#32 := by
    unfold freeNaN
    ext i hi
    simp only [BitVec.getElem_and, BitVec.getElem_or]
    cases (0x7FC00000#32)[i] <;> simp
  have h : (freeNaN op a b).toNat &&& 0x7FC00000 = 0x7FC00000 := by
    simpa [BitVec.toNat_and] using congrArg BitVec.toNat hc
  have h2 : fmagBits (freeNaN op a b) &&& 0x7FC00000 % 2 ^ 31 = 0x7FC00000 := by
    rw [fmagBits, ← Nat.and_mod_two_pow, h]
  have h3 : 0x7FC00000 ≤ fmagBits (freeNaN op a b) := h2 ▸ Nat.and_le_left
  have : infBits < fmagBits (freeNaN op a b) := Nat.lt_of_lt_of_le (by decide) h3
  simpa [isNaN] using this

end Sys2Proof.Machine
end

