-- ==== Sys2Proof/Laws/Law.lean ====
section
/-! SUPPORT. What the rules let one assume of the open laws and constants (`00_scope.md` R7, R8, R371, R372). -/

namespace Sys2Proof.Machine

/-- A constrained value is an allowed one as soon as some value is known to be allowed. -/
theorem constrained_allowed {α : Type} {allowed : α → Bool} {raw fallback : α} (h : allowed fallback = true) :
    allowed (constrained allowed raw fallback) = true := by
  unfold constrained; split
  · assumption
  · exact h

theorem fle_trans {a b c : F32} (h1 : fle a b = true) (h2 : fle b c = true) : fle a c = true := by
  simp only [fle, Bool.and_eq_true, Bool.not_eq_true', decide_eq_true_eq] at *
  exact ⟨⟨h1.1.1, h2.1.2⟩, h1.2.trans h2.2⟩

theorem fle_refl {a : F32} (h : isNaN a = false) : fle a a = true := by simp [fle, h]

theorem envAtkFloor_range : flt f0 envAtkFloor = true ∧ flt envAtkFloor envAtkTarget = true := by
  have := constrained_allowed (allowed := fun x => flt f0 x && flt x envAtkTarget) (raw := Config.envAtkFloor)
    (fallback := f1) (by decide +kernel)
  simpa [envAtkFloor] using this

theorem envAtkTimeAdj_pos : flt f0 envAtkTimeAdj = true :=
  constrained_allowed (allowed := fun x => flt f0 x) (by decide +kernel)

theorem selfOscCapHqHz_ge : fle selfOscCapHz selfOscCapHqHz = true :=
  constrained_allowed (allowed := fun x => fle selfOscCapHz x) (by decide +kernel)

/-- Every entry of the table before the last is in `[1/8, 4]`. -/
theorem syncRatioAt_range (k : Nat) : fle (lit 1 8) (syncRatioAt k) = true ∧ fle (syncRatioAt k) f4 = true := by
  induction k with
  | zero => exact ⟨by decide +kernel, by decide +kernel⟩
  | succ k ih =>
    rw [syncRatioAt, constrained]
    split
    · next h =>
      simp only [Bool.and_eq_true] at h
      exact ⟨fle_trans ih.1 h.1, h.2⟩
    · exact ih

/-- Every entry of `SYNC_RATIOS` is in `[1/8, 4]` (R7). -/
theorem syncRatio_range (k : Fin Config.syncLen) : fle (lit 1 8) (syncRatio k) = true ∧ fle (syncRatio k) f4 = true := by
  unfold syncRatio
  split
  · exact ⟨by decide +kernel, by decide +kernel⟩
  · exact syncRatioAt_range _

/-- `SYNC_RATIOS` is non-decreasing from each entry to the next (R7). -/
theorem syncRatioAt_succ (k : Nat) : fle (syncRatioAt k) (syncRatioAt (k + 1)) = true := by
  have hn : isNaN (syncRatioAt k) = false := by
    have := (syncRatioAt_range k).1
    simp only [fle, Bool.and_eq_true, Bool.not_eq_true'] at this
    exact this.1.2
  rw [syncRatioAt, constrained]
  split
  · next h => simp only [Bool.and_eq_true] at h; exact h.1
  · exact fle_refl hn

/-- The end points of `Law.logsc` (R371). -/
theorem logsc_ends (lo hi skew : F32) : logsc f0 lo hi skew = lo ∧ logsc f1 lo hi skew = hi := by
  have h0 : feq f0 f0 = true := by decide +kernel
  have h1 : feq f1 f0 = false := by decide +kernel
  have h2 : feq f1 f1 = true := by decide +kernel
  simp [logsc, h0, h1, h2]

/-- The constraints of R372 hold of the range the model uses. -/
theorem lawRange_allowed (n : Nat) : rangeAllowed n (lawRange n) = true := by
  refine constrained_allowed (allowed := rangeAllowed n) ?_
  have h1 : isFinite f1 = true := by decide +kernel
  have h2 : flt f0 f1 = true := by decide +kernel
  have h4 : inUnit f1 = true := by decide +kernel
  have h5 : isFinite (fsub f1 f1) = true := by decide +kernel
  have h6 : linsc f1 f1 f1 = f1 := by decide +kernel
  simp [rangeAllowed, h1, h2, h4, h5, h6]

theorem lawRange_finite (n : Nat) :
    isFinite (lawRange n).lo = true ∧ isFinite (lawRange n).hi = true ∧ isFinite (lawRange n).skew = true := by
  have := lawRange_allowed n
  simp only [rangeAllowed, Bool.and_eq_true] at this
  exact ⟨this.1.1.1.1.1, this.1.1.1.1.2, this.1.1.1.2⟩

/-- Both ends of the range of an envelope time are positive (R372, U5). -/
theorem lawRange_time {n : Nat} (h : n ∈ timeIds) : flt f0 (lawRange n).lo = true ∧ flt f0 (lawRange n).hi = true := by
  have := lawRange_allowed n
  simp only [rangeAllowed, Bool.and_eq_true, List.contains_iff_mem.2 h, Bool.not_true, Bool.false_or] at this
  exact this.1.1.2

/-- What the range of a pulse width or level must not do: overflow (U5). -/
theorem lawRange_finiteImage {n : Nat} (h : n ∈ finiteImageIds) :
    isFinite (fsub (lawRange n).hi (lawRange n).lo) = true ∧
    isFinite (linsc f1 (lawRange n).lo (lawRange n).hi) = true := by
  have := lawRange_allowed n
  simp only [rangeAllowed, Bool.and_eq_true, List.contains_iff_mem.2 h, Bool.not_true, Bool.false_or] at this
  exact this.2

/-- The range of `MULTIMODE` (R372, U5). -/
theorem lawRange_multimode :
    inUnit (lawRange 39).lo = true ∧ inUnit (lawRange 39).hi = true ∧
    inUnit (linsc f1 (lawRange 39).lo (lawRange 39).hi) = true := by
  have := lawRange_allowed 39
  simp only [rangeAllowed, Bool.and_eq_true, beq_self_eq_true, Bool.not_true, Bool.false_or] at this
  exact ⟨this.1.2.1.1, this.1.2.1.2, this.1.2.2⟩

theorem fle_flt_trans {a b c : F32} (h1 : flt a b = true) (h2 : fle b c = true) : flt a c = true := by
  simp only [flt, fle, Bool.and_eq_true, Bool.not_eq_true', decide_eq_true_eq] at *
  exact ⟨⟨h1.1.1, h2.1.2⟩, by omega⟩

theorem isTimeRange_iff (r : Config.Range) : isTimeRange r = true ↔ ∃ n ∈ timeIds, lawRange n = r := by
  simp [isTimeRange, List.any_eq_true]

/-- The value `Law.logsc` has strictly between its end points is one the rules allow. -/
theorem logscAllowed_lo {lo hi skew : F32} (h : isNaN lo = false) : logscAllowed lo hi skew lo = true := by
  simp only [logscAllowed, Bool.and_eq_true, Bool.or_eq_true, Bool.not_eq_true']
  refine ⟨?_, ?_⟩
  · by_cases hl : fle lo hi = true
    · exact Or.inr ⟨fle_refl h, hl⟩
    · exact Or.inl (by simpa using hl)
  · by_cases ht : isTimeRange ⟨lo, hi, skew⟩ = true
    · obtain ⟨n, hn, e⟩ := (isTimeRange_iff _).1 ht
      have h1 := (lawRange_time hn).1
      have h2 := (lawRange_finite n).1
      rw [e] at h1 h2
      exact Or.inr ⟨h1, h2⟩
    · exact Or.inl (by simpa using ht)

theorem logsc_allowed {x lo hi skew : F32} (h : isNaN lo = false) (h0 : flt f0 x = true) (h1 : flt x f1 = true) :
    logscAllowed lo hi skew (logsc x lo hi skew) = true := by
  have e0 : feq x f0 = false := by
    simp only [flt, feq, Bool.and_eq_true, decide_eq_true_eq] at *
    simp; intros; omega
  have e1 : feq x f1 = false := by
    simp only [flt, feq, Bool.and_eq_true, decide_eq_true_eq] at *
    simp; intros; omega
  simp only [logsc, e0, e1, h0, h1, Bool.and_self, if_true, Bool.false_eq_true, if_false]
  exact constrained_allowed (logscAllowed_lo h)

/-- An envelope time is positive and finite at every value of its knob (R192, U5). -/
theorem logParam_time {n : Nat} (hn : n ∈ timeIds) {x : F32} (hx : inUnit x = true) :
    flt f0 (logParam n x) = true ∧ isFinite (logParam n x) = true := by
  obtain ⟨hl, hh⟩ := lawRange_time hn
  obtain ⟨fl, fh, -⟩ := lawRange_finite n
  have hx' := hx
  simp only [inUnit, Bool.and_eq_true] at hx
  unfold logParam
  by_cases h0 : feq x f0 = true
  · rw [logsc, if_pos h0]; exact ⟨hl, fl⟩
  by_cases h1 : feq x f1 = true
  · rw [logsc, if_neg h0, if_pos h1]; exact ⟨hh, fh⟩
  have g0 : flt f0 x = true := by
    simp only [fle, feq, flt, Bool.and_eq_true, decide_eq_true_eq, Bool.not_eq_true'] at *
    refine ⟨hx.1.1, ?_⟩
    by_contra hc
    exact h0 ⟨⟨hx.1.1.2, hx.1.1.1⟩, by omega⟩
  have g1 : flt x f1 = true := by
    simp only [fle, feq, flt, Bool.and_eq_true, decide_eq_true_eq, Bool.not_eq_true'] at *
    refine ⟨hx.2.1, ?_⟩
    by_contra hc
    exact h1 ⟨⟨hx.2.1.1, hx.2.1.2⟩, by omega⟩
  have ha := logsc_allowed (lo := (lawRange n).lo) (hi := (lawRange n).hi) (skew := (lawRange n).skew)
    (by simp only [isFinite, isNaN, decide_eq_true_eq, decide_eq_false_iff_not] at *; omega) g0 g1
  have ht : isTimeRange ⟨(lawRange n).lo, (lawRange n).hi, (lawRange n).skew⟩ = true := (isTimeRange_iff _).2 ⟨n, hn, rfl⟩
  simp only [logscAllowed, ht, Bool.and_eq_true, Bool.not_true, Bool.false_or] at ha
  exact ha.2

/-- A semitone index of 0 is the reference (R171). -/
theorem numExp_zero {x : F32} (h : feq x f0 = true) : numExp x = f1 := by rw [numExp, if_pos h]

theorem lawRcor_good (fsI : F32) :
    isFinite (lawRcor fsI).1 = true ∧ isFinite (lawRcor fsI).2 = true ∧ flt f0 (lawRcor fsI).2 = true := by
  have := constrained_allowed (allowed := fun p : F32 × F32 => isFinite p.1 && isFinite p.2 && flt f0 p.2)
    (raw := Config.lawRcor fsI) (fallback := (f1, f1)) (by decide +kernel)
  simpa [lawRcor, Bool.and_eq_true, and_assoc] using this

theorem lawEnvSlop_pos (slop : F32) (mod : List F32) : flt f0 (lawEnvSlop slop mod) = true :=
  constrained_allowed (allowed := fun x => flt f0 x) (by decide +kernel)

/-- `linsc` reads its range once each and subtracts first (R370). -/
theorem linParam_eq (n : Nat) (x : F32) :
    linParam n x = fadd (lawRange n).lo (fmul x (fsub (lawRange n).hi (lawRange n).lo)) := rfl

end Sys2Proof.Machine
end

