-- ==== Sys2Proof/Laws/Image.lean ====
section
/-! SUPPORT. The order of rounded sums and products, and what it says of the images of the parameter ranges: between
its two ends `linsc` leaves neither the interval of its first and last image nor the finite numbers (`00_scope.md` R12,
`48_commands_params.md` R370, R372, `93_implementation_defined.md` U5). -/

namespace Sys2Proof.Machine

/-! ### Order -/

theorem fkey_roundUnits (s : Bool) (n d : Nat) :
    fkey (roundUnits s n d) = if s then -(roundBits n d : Int) else (roundBits n d : Int) := by
  simp [fkey]

theorem isFinite_iff_fkey (x : F32) : isFinite x = true ↔ (fkey x).natAbs < infBits := by
  unfold isFinite fkey
  cases fsign x <;> simp

theorem roundBits_zero (d : Nat) (hd : 0 < d) : roundBits 0 d = 0 := Nat.le_zero.1 (roundBits_le_of_le hd (by simp))

@[simp] theorem isNaN_fpack_zero (s : Bool) : isNaN (fpack s 0) = false := by cases s <;> decide

@[simp] theorem isNaN_ofUnits (z : Bool) (i : Int) : isNaN (ofUnits z i) = false := by
  unfold ofUnits; split <;> simp

theorem fkey_ofUnits (z : Bool) (i : Int) :
    fkey (ofUnits z i) = if i < 0 then -(roundBits i.natAbs 1 : Int) else (roundBits i.natAbs 1 : Int) := by
  unfold ofUnits
  split
  · next h =>
    subst h
    simp [fkey, roundBits_zero 1 Nat.one_pos]
  · rw [fkey_roundUnits]
    by_cases h : i < 0 <;> simp [h]

/-- Rounding keeps the order of exact values. -/
theorem fkey_ofUnits_mono {z w : Bool} {i j : Int} (h : i ≤ j) : fkey (ofUnits z i) ≤ fkey (ofUnits w j) := by
  have hm : ∀ a b : Nat, a ≤ b → roundBits a 1 ≤ roundBits b 1 := fun a b h =>
    roundBits_mono Nat.one_pos Nat.one_pos (by simpa using h)
  have h0 : roundBits 0 1 = 0 := roundBits_zero 1 Nat.one_pos
  rw [fkey_ofUnits, fkey_ofUnits]
  split_ifs with h1 h2 h2
  · have := hm j.natAbs i.natAbs (by omega); omega
  · omega
  · omega
  · have := hm i.natAbs j.natAbs (by omega); omega

/-- The sum of two finite numbers is the rounded exact sum. -/
theorem fadd_finite {a b : F32} (ha : isFinite a = true) (hb : isFinite b = true) :
    fadd a b = ofUnits (fsign a && fsign b) (fint a + fint b) := by
  simp [fadd, faddOp, isNaN_of_isFinite ha, isNaN_of_isFinite hb, isInf_of_isFinite ha, isInf_of_isFinite hb]

/-- Addition keeps the order of its second operand. -/
theorem fadd_mono {a b c : F32} (ha : isFinite a = true) (hb : isFinite b = true) (hc : isFinite c = true)
    (h : fkey b ≤ fkey c) : fkey (fadd a b) ≤ fkey (fadd a c) := by
  rw [fadd_finite ha hb, fadd_finite ha hc]
  exact fkey_ofUnits_mono (by have := (fkey_le_iff b c).1 h; omega)

theorem isNaN_fadd_finite {a b : F32} (ha : isFinite a = true) (hb : isFinite b = true) : isNaN (fadd a b) = false := by
  rw [fadd_finite ha hb]; exact isNaN_ofUnits _ _

/-- A finite number is the rounded value of its units. -/
theorem fkey_ofUnits_fint (z : Bool) {a : F32} (ha : isFinite a = true) : fkey (ofUnits z (fint a)) = fkey a := by
  have h : fmagBits a < infBits := by simpa [isFinite] using ha
  have hf : (fint a).natAbs = funits a := by unfold fint; split <;> simp
  have hr : roundBits (fint a).natAbs 1 = fmagBits a := by rw [hf, funits, roundBits_exact _ h.le]
  rw [fkey_ofUnits, hr]
  unfold fkey fint
  have hu : fmagBits a ≤ funits a := unitsOfBits_strictMono.le_apply
  have hz : funits a = 0 → fmagBits a = 0 := by omega
  cases fsign a <;> simp
  omega

/-- Adding a zero changes no number. -/
theorem fadd_zero_key {a z : F32} (ha : isFinite a = true) (hz : fkey z = 0) : fkey (fadd a z) = fkey a := by
  have hm : fmagBits z = 0 := by unfold fkey at hz; split at hz <;> omega
  have hf : isFinite z = true := by simp [isFinite, hm, infBits]
  have hi : fint z = 0 := by simp [fint, funits, hm, unitsOfBits]
  rw [fadd_finite ha hf, hi, Int.add_zero, fkey_ofUnits_fint _ ha]

/-! ### A product with a number in `[0, 1]` -/

theorem fmagBits_le_one {x : F32} (h : inUnit x = true) : fmagBits x ≤ 0x3F800000 := by
  simp only [inUnit, fle, Bool.and_eq_true, decide_eq_true_eq] at h
  have h1 := h.2.2
  have h0 := h.1.2
  have e1 : fkey f1 = 0x3F800000 := by decide
  have e0 : fkey f0 = 0 := by decide
  rw [e1] at h1
  rw [e0] at h0
  unfold fkey at h0 h1
  split at h0 <;> simp_all

/-- A product with a number in `[0, 1]` is finite, lies between 0 and the other factor, and is the factor at 1. -/
theorem fmul_unit {x r : F32} (hx : inUnit x = true) (hr : isFinite r = true) :
    isFinite (fmul x r) = true ∧ fmagBits (fmul x r) ≤ fmagBits r ∧
      (fkey r ≤ fkey (fmul x r) ∧ fkey (fmul x r) ≤ 0 ∨ 0 ≤ fkey (fmul x r) ∧ fkey (fmul x r) ≤ fkey r) := by
  have hm := fmagBits_le_one hx
  have hrm : fmagBits r < infBits := by simpa [isFinite] using hr
  have hxf : isFinite x = true := decide_eq_true (Nat.lt_of_le_of_lt hm (by decide))
  have e : fmul x r = roundUnits (fsign x != fsign r) (funits x * funits r) (2 ^ 149) := by
    simp [fmul, isNaN_of_isFinite hxf, isNaN_of_isFinite hr, isInf_of_isFinite hxf, isInf_of_isFinite hr]
  have hu : funits x ≤ 2 ^ 149 := by
    have := unitsOfBits_strictMono.monotone hm
    have e1 : unitsOfBits 0x3F800000 = 2 ^ 149 := by decide
    rw [e1] at this
    exact this
  have hb : roundBits (funits x * funits r) (2 ^ 149) ≤ fmagBits r :=
    roundBits_le_of_le (by decide) (by
      rw [Nat.mul_comm (unitsOfBits (fmagBits r))]
      exact Nat.mul_le_mul_right _ hu)
  have hmag : fmagBits (fmul x r) ≤ fmagBits r := by rw [e, fmagBits_roundUnits]; exact hb
  refine ⟨by simp only [isFinite, decide_eq_true_eq]; omega, hmag, ?_⟩
  have hz : fsign x = true → roundBits (funits x * funits r) (2 ^ 149) = 0 := by
    intro hs
    have h0 : fmagBits x = 0 := by
      simp only [inUnit, fle, Bool.and_eq_true, decide_eq_true_eq] at hx
      have h0 := hx.1.2
      have e0 : fkey f0 = 0 := by decide
      rw [e0, fkey, hs] at h0
      simp at h0
      omega
    have hu0 : funits x = 0 := by rw [funits, h0]; rfl
    rw [hu0, Nat.zero_mul]
    exact roundBits_zero _ (by decide)
  rw [e, fkey_roundUnits]
  unfold fkey
  generalize roundBits (funits x * funits r) (2 ^ 149) = b at *
  cases hsx : fsign x
  · cases fsign r <;> simp <;> omega
  · rw [hz hsx]
    cases fsign r <;> simp

theorem fmul_one_key {r : F32} (hr : isFinite r = true) : fkey (fmul f1 r) = fkey r := by
  have hrm : fmagBits r < infBits := by simpa [isFinite] using hr
  have e : fmul f1 r = roundUnits (fsign r) (2 ^ 149 * funits r) (2 ^ 149) := by
    have h1 : isNaN f1 = false := by decide
    have h2 : isInf f1 = false := by decide
    have h3 : fsign f1 = false := by decide
    have h4 : funits f1 = 2 ^ 149 := by decide
    simp [fmul, h1, h2, h3, h4, isNaN_of_isFinite hr, isInf_of_isFinite hr]
  have hb : roundBits (2 ^ 149 * funits r) (2 ^ 149) = fmagBits r := by
    apply le_antisymm
    · exact roundBits_le_of_le (by decide) (by rw [funits, Nat.mul_comm])
    · exact le_roundBits_of_le (by decide) hrm.le (by rw [funits, Nat.mul_comm])
  rw [e, fkey_roundUnits, hb, fkey]

/-! ### The images of a linear range -/

/-- An image of `linsc` at a number in `[0, 1]` lies between the first and the last image. -/
theorem linsc_between {x lo hi : F32} (hx : inUnit x = true) (hl : isFinite lo = true) (hd : isFinite (fsub hi lo) = true) :
    (fkey lo ≤ fkey (linsc x lo hi) ∧ fkey (linsc x lo hi) ≤ fkey (linsc f1 lo hi) ∨
      fkey (linsc f1 lo hi) ≤ fkey (linsc x lo hi) ∧ fkey (linsc x lo hi) ≤ fkey lo) ∧
    isNaN (linsc x lo hi) = false := by
  obtain ⟨hf, -, hb⟩ := fmul_unit hx hd
  obtain ⟨hf1, -, -⟩ := fmul_unit (x := f1) (by decide) hd
  have h1 := fmul_one_key hd
  refine ⟨?_, isNaN_fadd_finite hl hf⟩
  have hz : fkey f0 = 0 := by decide
  have h0 := fadd_zero_key hl hz
  have hf0 : isFinite f0 = true := by decide
  unfold linsc
  rw [← h0]
  rcases hb with ⟨ha, hb⟩ | ⟨ha, hb⟩
  · exact Or.inr ⟨fadd_mono hl hf1 hf (by omega), fadd_mono hl hf hf0 (by omega)⟩
  · exact Or.inl ⟨fadd_mono hl hf0 hf (by omega), fadd_mono hl hf hf1 (by omega)⟩

theorem inUnit_iff_fkey {x : F32} : inUnit x = true ↔ isNaN x = false ∧ 0 ≤ fkey x ∧ fkey x ≤ 0x3F800000 := by
  have e1 : fkey f1 = 0x3F800000 := by decide
  have e0 : fkey f0 = 0 := by decide
  have n1 : isNaN f1 = false := by decide
  have n0 : isNaN f0 = false := by decide
  simp [inUnit, fle, e1, e0, n1, n0]
  tauto

/-- A linear image over a range whose last image does not overflow is finite. -/
theorem linsc_finite {x lo hi : F32} (hx : inUnit x = true) (hl : isFinite lo = true) (hd : isFinite (fsub hi lo) = true)
    (h1 : isFinite (linsc f1 lo hi) = true) : isFinite (linsc x lo hi) = true := by
  rw [isFinite_iff_fkey] at *
  rcases (linsc_between hx ((isFinite_iff_fkey _).2 hl) ((isFinite_iff_fkey _).2 hd)).1 with h | h <;> omega

/-- A pulse width or level has a finite image at every value of its knob (U5). -/
theorem linParam_finite {n : Nat} (hn : n ∈ finiteImageIds) {x : F32} (hx : inUnit x = true) :
    isFinite (linParam n x) = true :=
  linsc_finite hx (lawRange_finite n).1 (lawRange_finiteImage hn).1 (lawRange_finiteImage hn).2

theorem inUnit_finite {x : F32} (h : inUnit x = true) : isFinite x = true :=
  decide_eq_true (Nat.lt_of_le_of_lt (fmagBits_le_one h) (by decide))

@[simp] theorem fmagBits_fneg (x : F32) : fmagBits (fneg x) = fmagBits x := by
  unfold fmagBits fneg
  rw [BitVec.toNat_xor, Nat.xor_mod_two_pow]
  simp

@[simp] theorem fsign_fneg (x : F32) : fsign (fneg x) = !fsign x := by simp [fsign, fneg]

@[simp] theorem isFinite_fneg (x : F32) : isFinite (fneg x) = isFinite x := by simp [isFinite]

@[simp] theorem fint_fneg (x : F32) : fint (fneg x) = -fint x := by
  unfold fint funits
  rw [fmagBits_fneg, fsign_fneg]
  cases fsign x <;> simp

/-- The difference of two finite numbers is the rounded exact difference. -/
theorem fsub_finite {a b : F32} (ha : isFinite a = true) (hb : isFinite b = true) :
    fsub a b = ofUnits (fsign a && !fsign b) (fint a - fint b) := by
  have hb' : isFinite (fneg b) = true := by simpa using hb
  simp [fsub, faddOp, isNaN_of_isFinite ha, isNaN_of_isFinite hb', isInf_of_isFinite ha, isInf_of_isFinite hb',
    Int.sub_eq_add_neg]

theorem fint_inUnit {x : F32} (h : inUnit x = true) : 0 ≤ fint x ∧ fint x ≤ 2 ^ 149 := by
  have h' := h
  simp only [inUnit, fle, Bool.and_eq_true, decide_eq_true_eq] at h
  have e1 : fint f1 = 2 ^ 149 := by decide
  have e0 : fint f0 = 0 := by decide
  have h0 := (fkey_le_iff _ _).1 h.1.2
  have h1 := (fkey_le_iff _ _).1 h.2.2
  rw [e0] at h0
  rw [e1] at h1
  exact ⟨h0, h1⟩

/-- The difference of two numbers in `[0, 1]` is finite. -/
theorem fsub_inUnit {a b : F32} (ha : inUnit a = true) (hb : inUnit b = true) : isFinite (fsub a b) = true := by
  have h1 := fint_inUnit ha
  have h2 := fint_inUnit hb
  rw [fsub_finite (inUnit_finite ha) (inUnit_finite hb), isFinite_iff_fkey, fkey_ofUnits]
  have hu : unitsOfBits 0x3F800000 = 2 ^ 149 := by decide
  have : roundBits (fint a - fint b).natAbs 1 ≤ 0x3F800000 := roundBits_le_of_le Nat.one_pos (by rw [hu]; omega)
  have hi : (0x3F800000 : Nat) < infBits := by decide
  split <;> omega

/-- `MULTIMODE` has an image in `[0, 1]` at every value of its knob (R251, U5). -/
theorem linParam_multimode {x : F32} (hx : inUnit x = true) : inUnit (linParam 39 x) = true := by
  obtain ⟨hl, hh, h1⟩ := lawRange_multimode
  obtain ⟨hb, hn⟩ := linsc_between hx (inUnit_finite hl) (fsub_inUnit hh hl)
  have e0 := inUnit_iff_fkey.1 hl
  have e1 := inUnit_iff_fkey.1 h1
  refine inUnit_iff_fkey.2 ⟨hn, ?_⟩
  unfold linParam
  omega

end Sys2Proof.Machine
end

