-- ==== Sys2Proof/Laws/Osc.lean ====
section
/-! SUPPORT. What each stage of the oscillator block changes and keeps: the table select of every primitive, the
parameters, the phases, and the block as a whole. -/

namespace Sys2Proof.Machine

/-! ### The table select of a primitive -/

@[simp] theorem OscPrim.output_d2 {n : Nat} (P : OscPrim n) (x : F32) : (P.output x).2.d2 = P.d2 := rfl
@[simp] theorem sawLeader_d2 {n : Nat} (P : OscPrim n) (x delta : F32) : (sawLeader P x delta).d2 = P.d2 := by
  unfold sawLeader; split <;> rfl
@[simp] theorem pulseLeader_d2 {n : Nat} (P : OscPrim n) (x0 x delta w : F32) :
    (pulseLeader P x0 x delta w).d2 = P.d2 := by unfold pulseLeader; dsimp only; split_ifs <;> rfl
@[simp] theorem triLeader_d2 {n : Nat} (P : OscPrim n) (x0 x delta : F32) : (triLeader P x0 x delta).d2 = P.d2 := by
  unfold triLeader; dsimp only; split_ifs <;> rfl
@[simp] theorem sawFollower_d2 {n : Nat} (P : OscPrim n) (x delta : F32) (r : Bool) (h : F32) :
    (sawFollower P x delta r h).d2 = P.d2 := by unfold sawFollower; dsimp only; split_ifs <;> rfl
@[simp] theorem pulseFollower_d2 {n : Nat} (P : OscPrim n) (x0 x delta w : F32) (r : Bool) (h : F32) :
    (pulseFollower P x0 x delta w r h).d2 = P.d2 := by unfold pulseFollower; dsimp only; split_ifs <;> rfl
@[simp] theorem triFollower_d2 {n : Nat} (P : OscPrim n) (x0 x delta : F32) (r : Bool) (h : F32) :
    (triFollower P x0 x delta r h).d2 = P.d2 := by unfold triFollower; dsimp only; split_ifs <;> rfl

/-! ### The stages of the block -/

/-- Two blocks agree on everything a sample step does not write: parameters and tuning slop. -/
def OscBlock.SameParams (o p : OscBlock) : Prop :=
  p = { o with
        x1 := p.x1, x2 := p.x2, saw1 := p.saw1, pul1 := p.pul1, tri1 := p.tri1, saw2 := p.saw2, pul2 := p.pul2,
        tri2 := p.tri2, noise := p.noise, dlSync := p.dlSync, dlSyncFrac := p.dlSyncFrac, dlOsc1 := p.dlOsc1 }

theorem OscBlock.SameParams.trans {o p q : OscBlock} (h : o.SameParams p) (k : p.SameParams q) : o.SameParams q := by
  unfold OscBlock.SameParams at *
  cases o; cases p; cases q
  simp only [OscBlock.mk.injEq] at *
  simp_all

theorem OscBlock.leader_sameParams (o : OscBlock) (d w : F32) : o.SameParams (o.leader d w).osc := rfl
@[simp] theorem OscBlock.leader_x2 (o : OscBlock) (d w : F32) : (o.leader d w).osc.x2 = o.x2 := rfl
@[simp] theorem OscBlock.leader_saw2 (o : OscBlock) (d w : F32) : (o.leader d w).osc.saw2 = o.saw2 := rfl
@[simp] theorem OscBlock.leader_pul2 (o : OscBlock) (d w : F32) : (o.leader d w).osc.pul2 = o.pul2 := rfl
@[simp] theorem OscBlock.leader_tri2 (o : OscBlock) (d w : F32) : (o.leader d w).osc.tri2 = o.tri2 := rfl
@[simp] theorem OscBlock.leader_dlSync (o : OscBlock) (d w : F32) : (o.leader d w).osc.dlSync = o.dlSync := rfl
@[simp] theorem OscBlock.leader_dlSyncFrac (o : OscBlock) (d w : F32) : (o.leader d w).osc.dlSyncFrac = o.dlSyncFrac := rfl
@[simp] theorem OscBlock.leader_dlOsc1 (o : OscBlock) (d w : F32) : (o.leader d w).osc.dlOsc1 = o.dlOsc1 := rfl
@[simp] theorem OscBlock.leader_noise (o : OscBlock) (d w : F32) : (o.leader d w).osc.noise = o.noise := rfl

theorem OscBlock.syncDelay_sameParams (o : OscBlock) (a : Bool) (b : F32) : o.SameParams (o.syncDelay a b).2.2 := rfl
@[simp] theorem OscBlock.syncDelay_x1 (o : OscBlock) (a : Bool) (b : F32) : (o.syncDelay a b).2.2.x1 = o.x1 := rfl
@[simp] theorem OscBlock.syncDelay_x2 (o : OscBlock) (a : Bool) (b : F32) : (o.syncDelay a b).2.2.x2 = o.x2 := rfl
@[simp] theorem OscBlock.syncDelay_saw1 (o : OscBlock) (a : Bool) (b : F32) : (o.syncDelay a b).2.2.saw1 = o.saw1 := rfl
@[simp] theorem OscBlock.syncDelay_pul1 (o : OscBlock) (a : Bool) (b : F32) : (o.syncDelay a b).2.2.pul1 = o.pul1 := rfl
@[simp] theorem OscBlock.syncDelay_tri1 (o : OscBlock) (a : Bool) (b : F32) : (o.syncDelay a b).2.2.tri1 = o.tri1 := rfl
@[simp] theorem OscBlock.syncDelay_saw2 (o : OscBlock) (a : Bool) (b : F32) : (o.syncDelay a b).2.2.saw2 = o.saw2 := rfl
@[simp] theorem OscBlock.syncDelay_pul2 (o : OscBlock) (a : Bool) (b : F32) : (o.syncDelay a b).2.2.pul2 = o.pul2 := rfl
@[simp] theorem OscBlock.syncDelay_tri2 (o : OscBlock) (a : Bool) (b : F32) : (o.syncDelay a b).2.2.tri2 = o.tri2 := rfl
@[simp] theorem OscBlock.syncDelay_dlOsc1 (o : OscBlock) (a : Bool) (b : F32) : (o.syncDelay a b).2.2.dlOsc1 = o.dlOsc1 := rfl
@[simp] theorem OscBlock.syncDelay_noise (o : OscBlock) (a : Bool) (b : F32) : (o.syncDelay a b).2.2.noise = o.noise := rfl

theorem OscBlock.follower_sameParams (o : OscBlock) (d w : F32) (a : Bool) (b : F32) : o.SameParams (o.follower d w a b).2 := rfl
@[simp] theorem OscBlock.follower_x1 (o : OscBlock) (d w : F32) (a : Bool) (b : F32) : (o.follower d w a b).2.x1 = o.x1 := rfl
@[simp] theorem OscBlock.follower_saw1 (o : OscBlock) (d w : F32) (a : Bool) (b : F32) : (o.follower d w a b).2.saw1 = o.saw1 := rfl
@[simp] theorem OscBlock.follower_pul1 (o : OscBlock) (d w : F32) (a : Bool) (b : F32) : (o.follower d w a b).2.pul1 = o.pul1 := rfl
@[simp] theorem OscBlock.follower_tri1 (o : OscBlock) (d w : F32) (a : Bool) (b : F32) : (o.follower d w a b).2.tri1 = o.tri1 := rfl
@[simp] theorem OscBlock.follower_dlSync (o : OscBlock) (d w : F32) (a : Bool) (b : F32) : (o.follower d w a b).2.dlSync = o.dlSync := rfl
@[simp] theorem OscBlock.follower_dlSyncFrac (o : OscBlock) (d w : F32) (a : Bool) (b : F32) : (o.follower d w a b).2.dlSyncFrac = o.dlSyncFrac := rfl
@[simp] theorem OscBlock.follower_dlOsc1 (o : OscBlock) (d w : F32) (a : Bool) (b : F32) : (o.follower d w a b).2.dlOsc1 = o.dlOsc1 := rfl
@[simp] theorem OscBlock.follower_noise (o : OscBlock) (d w : F32) (a : Bool) (b : F32) : (o.follower d w a b).2.noise = o.noise := rfl

theorem OscBlock.mix_sameParams (o : OscBlock) (a b : F32) (d : Nat) : o.SameParams (o.mix a b d).2 := rfl
@[simp] theorem OscBlock.mix_x1 (o : OscBlock) (a b : F32) (d : Nat) : (o.mix a b d).2.x1 = o.x1 := rfl
@[simp] theorem OscBlock.mix_x2 (o : OscBlock) (a b : F32) (d : Nat) : (o.mix a b d).2.x2 = o.x2 := rfl
@[simp] theorem OscBlock.mix_saw1 (o : OscBlock) (a b : F32) (d : Nat) : (o.mix a b d).2.saw1 = o.saw1 := rfl
@[simp] theorem OscBlock.mix_pul1 (o : OscBlock) (a b : F32) (d : Nat) : (o.mix a b d).2.pul1 = o.pul1 := rfl
@[simp] theorem OscBlock.mix_tri1 (o : OscBlock) (a b : F32) (d : Nat) : (o.mix a b d).2.tri1 = o.tri1 := rfl
@[simp] theorem OscBlock.mix_saw2 (o : OscBlock) (a b : F32) (d : Nat) : (o.mix a b d).2.saw2 = o.saw2 := rfl
@[simp] theorem OscBlock.mix_pul2 (o : OscBlock) (a b : F32) (d : Nat) : (o.mix a b d).2.pul2 = o.pul2 := rfl
@[simp] theorem OscBlock.mix_tri2 (o : OscBlock) (a b : F32) (d : Nat) : (o.mix a b d).2.tri2 = o.tri2 := rfl
@[simp] theorem OscBlock.mix_dlSync (o : OscBlock) (a b : F32) (d : Nat) : (o.mix a b d).2.dlSync = o.dlSync := rfl
@[simp] theorem OscBlock.mix_dlSyncFrac (o : OscBlock) (a b : F32) (d : Nat) : (o.mix a b d).2.dlSyncFrac = o.dlSyncFrac := rfl

theorem OscBlock.leader_d2 (o : OscBlock) (d w : F32) :
    (o.leader d w).osc.saw1.d2 = o.saw1.d2 ∧ (o.leader d w).osc.pul1.d2 = o.pul1.d2 ∧
    (o.leader d w).osc.tri1.d2 = o.tri1.d2 :=
  ⟨sawLeader_d2 _ _ _, pulseLeader_d2 _ _ _ _ _, triLeader_d2 _ _ _ _⟩

theorem OscBlock.follower_d2 (o : OscBlock) (d w : F32) (a : Bool) (b : F32) :
    (o.follower d w a b).2.saw2.d2 = o.saw2.d2 ∧ (o.follower d w a b).2.pul2.d2 = o.pul2.d2 ∧
    (o.follower d w a b).2.tri2.d2 = o.tri2.d2 :=
  ⟨sawFollower_d2 _ _ _ _ _, pulseFollower_d2 _ _ _ _ _ _ _, triFollower_d2 _ _ _ _ _ _⟩

/-- Oscillator 1's phase after its stage (R175). -/
theorem OscBlock.leader_phase (o : OscBlock) (d w : F32) :
    (o.leader d w).osc.x1 = if fle f1 (fadd o.x1 d) then fsub (fadd o.x1 d) f1 else fadd o.x1 d := rfl

/-- Oscillator 1's sync signals (R175). -/
theorem OscBlock.leader_sync (o : OscBlock) (d w : F32) :
    (o.leader d w).hsr = (fle f1 (fadd o.x1 d) && o.hardSync) ∧
    (o.leader d w).hsf = if fle f1 (fadd o.x1 d) then fdiv (fsub (fadd o.x1 d) f1) d else f0 := ⟨rfl, rfl⟩

/-- The delayed sync signals and their lines (R177). -/
theorem OscBlock.syncDelay_eq (o : OscBlock) (a : Bool) (b : F32) :
    (o.syncDelay a b).1 = (o.dlSync.feedReturn a).1 ∧ (o.syncDelay a b).2.1 = (o.dlSyncFrac.feedReturn b).1 ∧
    (o.syncDelay a b).2.2.dlSync = (o.dlSync.feedReturn a).2 ∧
    (o.syncDelay a b).2.2.dlSyncFrac = (o.dlSyncFrac.feedReturn b).2 := ⟨rfl, rfl, rfl, rfl⟩

/-- Oscillator 2's phase after its stage (R177). -/
theorem OscBlock.follower_phase (o : OscBlock) (d w : F32) (a : Bool) (b : F32) :
    (o.follower d w a b).2.x2 = followerPhase (fadd o.x2 d) d a b := rfl

/-! ### The block -/

/-- The oscillator block with every intermediate value written out (R183). -/
theorem OscBlock.process_eq (o : OscBlock) (fsI noteSemi pto1 pto2 pw1mod pw2mod : F32) (d : Nat) :
    o.process fsI noteSemi pto1 pto2 pw1mod pw2mod d =
      let w1 := pulseWidth o.pwBase1 pw1mod
      let w2 := pulseWidth o.pwBase2 pw2mod
      let d1 := o.delta1 fsI noteSemi pto1
      let L := o.leader d1 w1
      let D := L.osc.syncDelay L.hsr L.hsf
      let d2 := D.2.2.delta2 fsI noteSemi pto2 L.o1
      let F := D.2.2.follower d2 w2 D.1 D.2.1
      if phaseOk d1 o.x1 = true ∧ phaseOk d2 D.2.2.x2 = true then .ok (F.2.mix L.o1 F.1 d)
      else .error .phaseIncrementOutOfRange := by
  unfold OscBlock.process
  dsimp only
  split <;> split <;> simp_all

/-- A sample of the block: the increments and phases were in range (R136), and the stages ran one after another. -/
theorem OscBlock.process_ok {o : OscBlock} {fsI noteSemi pto1 pto2 pw1mod pw2mod : F32} {d : Nat} {q : F32 × OscBlock}
    (h : o.process fsI noteSemi pto1 pto2 pw1mod pw2mod d = .ok q) :
    ∃ d1 d2 w1 w2 : F32, ∃ L : LeaderOut, ∃ D : Bool × F32 × OscBlock, ∃ F : F32 × OscBlock,
      L = o.leader d1 w1 ∧ D = L.osc.syncDelay L.hsr L.hsf ∧ F = D.2.2.follower d2 w2 D.1 D.2.1 ∧
      q = F.2.mix L.o1 F.1 d ∧ phaseOk d1 o.x1 = true ∧ phaseOk d2 o.x2 = true := by
  rw [OscBlock.process_eq] at h
  dsimp only at h
  split at h
  · next hp =>
    cases h
    exact ⟨_, _, _, _, _, _, _, rfl, rfl, rfl, rfl, hp.1, hp.2⟩
  · cases h

/-- A sample of the block keeps its parameters, its tuning slop and every table select. -/
theorem OscBlock.process_keeps {o : OscBlock} {fsI noteSemi pto1 pto2 pw1mod pw2mod : F32} {d : Nat} {q : F32 × OscBlock}
    (h : o.process fsI noteSemi pto1 pto2 pw1mod pw2mod d = .ok q) :
    o.SameParams q.2 ∧ q.2.saw1.d2 = o.saw1.d2 ∧ q.2.pul1.d2 = o.pul1.d2 ∧ q.2.tri1.d2 = o.tri1.d2 ∧
    q.2.saw2.d2 = o.saw2.d2 ∧ q.2.pul2.d2 = o.pul2.d2 ∧ q.2.tri2.d2 = o.tri2.d2 := by
  obtain ⟨d1, d2, w1, w2, L, D, F, hL, hD, hF, hq, -, -⟩ := OscBlock.process_ok h
  have l := OscBlock.leader_d2 o d1 w1
  have f := OscBlock.follower_d2 D.2.2 d2 w2 D.1 D.2.1
  rw [← hL] at l
  rw [← hF] at f
  have e : q.2.saw1 = L.osc.saw1 ∧ q.2.pul1 = L.osc.pul1 ∧ q.2.tri1 = L.osc.tri1 ∧ q.2.saw2 = F.2.saw2 ∧
      q.2.pul2 = F.2.pul2 ∧ q.2.tri2 = F.2.tri2 ∧ D.2.2.saw2 = o.saw2 ∧ D.2.2.pul2 = o.pul2 ∧ D.2.2.tri2 = o.tri2 := by
    rw [hq, hF, hD, hL]; simp
  have hs : o.SameParams q.2 := by
    rw [hq]
    refine ((hL ▸ OscBlock.leader_sameParams o d1 w1 : o.SameParams L.osc).trans ?_).trans (OscBlock.mix_sameParams _ _ _ _)
    exact (hD ▸ OscBlock.syncDelay_sameParams L.osc L.hsr L.hsf : L.osc.SameParams D.2.2).trans
      (hF ▸ OscBlock.follower_sameParams D.2.2 d2 w2 D.1 D.2.1)
  refine ⟨hs, ?_, ?_, ?_, ?_, ?_, ?_⟩
  · rw [e.1, l.1]
  · rw [e.2.1, l.2.1]
  · rw [e.2.2.1, l.2.2]
  · rw [e.2.2.2.1, f.1, e.2.2.2.2.2.2.1]
  · rw [e.2.2.2.2.1, f.2.1, e.2.2.2.2.2.2.2.1]
  · rw [e.2.2.2.2.2.1, f.2.2, e.2.2.2.2.2.2.2.2]

/-- A sample of the block: its phases and its line of sync fractions. -/
theorem OscBlock.process_phases {o : OscBlock} {fsI noteSemi pto1 pto2 pw1mod pw2mod : F32} {d : Nat} {q : F32 × OscBlock}
    (h : o.process fsI noteSemi pto1 pto2 pw1mod pw2mod d = .ok q) :
    ∃ (d1 d2 hsf : F32) (hsr : Bool), phaseOk d1 o.x1 = true ∧ phaseOk d2 o.x2 = true ∧
      q.2.x1 = (if fle f1 (fadd o.x1 d1) then fsub (fadd o.x1 d1) f1 else fadd o.x1 d1) ∧
      hsf = (if fle f1 (fadd o.x1 d1) then fdiv (fsub (fadd o.x1 d1) f1) d1 else f0) ∧
      q.2.dlSyncFrac = (o.dlSyncFrac.feedReturn hsf).2 ∧
      q.2.x2 = followerPhase (fadd o.x2 d2) d2 hsr (o.dlSyncFrac.feedReturn hsf).1 := by
  obtain ⟨d1, d2, w1, w2, L, D, F, hL, hD, hF, hq, h1, h2⟩ := OscBlock.process_ok h
  refine ⟨d1, d2, _, D.1, h1, h2, ?_, rfl, ?_, ?_⟩
  · rw [hq, hF, hD, hL]; simp [OscBlock.leader_phase]
  · rw [hq, hF, hD, hL]
    simp only [OscBlock.mix_dlSyncFrac, OscBlock.follower_dlSyncFrac, (OscBlock.syncDelay_eq _ _ _).2.2.2,
      OscBlock.leader_dlSyncFrac, (OscBlock.leader_sync _ _ _).2]
  · have hx : D.2.2.x2 = o.x2 := by rw [hD, hL]; rfl
    have hf : D.2.1 = (o.dlSyncFrac.feedReturn L.hsf).1 := by rw [hD, hL]; rfl
    rw [hq, OscBlock.mix_x2, hF, OscBlock.follower_phase, hx, hf, hL, (OscBlock.leader_sync _ _ _).2]

end Sys2Proof.Machine
end

