-- ==== Sys2Proof/Laws/PerInstr.lean ====
section
/-! SUPPORT. `MatchesRow`: the word the encoder writes for a command is, on the bits of its row's mask, the
row's match value (`30_encoding.md` R103), one lemma per command. -/

namespace Sys2Proof.Laws.MatchesRow

/-- The encoded word, masked as its row says, is the row's match value. -/
def Statement (i : Instr) : Prop := encode i &&& i.rowMask = i.rowMatch

theorem packN_row (op : BitVec 8) : packN op &&& maskN = op ++ 0#56 := by
  revert op; decide

theorem pack_row (mask : CmdWord) (op a b : BitVec 8) (v : F32)
    (hv : ∀ i < 32, mask.getLsbD i = false) (hb : (∀ i < 8, mask.getLsbD (40 + i) = false) ∨ b = 0#8)
    (ha : (∀ i < 8, mask.getLsbD (48 + i) = false) ∨ a = 0#8) (ho : ∀ i < 8, mask.getLsbD (56 + i) = true) :
    pack op a b v &&& mask = op ++ 0#56 := by
  apply BitVec.eq_of_getLsbD_eq
  intro i hi
  rw [BitVec.getLsbD_and, pack_bit, BitVec.getLsbD_append]
  split_ifs with h1 h2 h3 h4 h5 <;> try omega
  · simp [hv i h1]
  · simp
  · rcases hb with h | h
    · have := h (i - 40) (by omega)
      rw [show 40 + (i - 40) = i by omega] at this
      simp [this]
    · simp [h]
  · rcases ha with h | h
    · have := h (i - 48) (by omega)
      rw [show 48 + (i - 48) = i by omega] at this
      simp [this]
    · simp [h]
  · have := ho (i - 56) (by omega)
    rw [show 56 + (i - 56) = i by omega] at this
    simp [this]

theorem packF_row (op : BitVec 8) (v : F32) : packF op v &&& maskF = op ++ 0#56 :=
  pack_row _ _ _ _ _ (by decide) (.inr rfl) (.inr rfl) (by decide)

theorem packAF_row (op a : BitVec 8) (v : F32) : packAF op a v &&& maskAF = op ++ 0#56 :=
  pack_row _ _ _ _ _ (by decide) (.inr rfl) (.inl (by decide)) (by decide)

theorem packK_row (op a b : BitVec 8) (v : F32) : packK op a b v &&& maskK = op ++ 0#56 :=
  pack_row _ _ _ _ _ (by decide) (.inl (by decide)) (.inl (by decide)) (by decide)

theorem setrate (v : F32) : Statement (.setrate v) := packF_row 0x01#8 v
theorem tick : Statement .tick := packN_row 0x02#8
theorem playpos (v : F32) : Statement (.playpos v) := packF_row 0x03#8 v
theorem playhead (a : BitVec 8) (v : F32) : Statement (.playhead a v) := packAF_row 0x04#8 a v
theorem noteon (a b : BitVec 8) (v : F32) : Statement (.noteon a b v) := packK_row 0x10#8 a b v
theorem noteoff (a b : BitVec 8) (v : F32) : Statement (.noteoff a b v) := packK_row 0x11#8 a b v
theorem suston : Statement .suston := packN_row 0x12#8
theorem sustoff : Statement .sustoff := packN_row 0x13#8
theorem allnotesoff : Statement .allnotesoff := packN_row 0x14#8
theorem allsoundoff : Statement .allsoundoff := packN_row 0x15#8
theorem pitchwheel (v : F32) : Statement (.pitchwheel v) := packF_row 0x16#8 v
theorem modwheel (v : F32) : Statement (.modwheel v) := packF_row 0x17#8 v
theorem volume (v : F32) : Statement (.volume v) := packF_row 0x20#8 v
theorem polyphony (v : F32) : Statement (.polyphony v) := packF_row 0x21#8 v
theorem unison (v : F32) : Statement (.unison v) := packF_row 0x22#8 v
theorem univoices (v : F32) : Statement (.univoices v) := packF_row 0x23#8 v
theorem oversample (v : F32) : Statement (.oversample v) := packF_row 0x24#8 v
theorem pan (a : BitVec 8) (v : F32) : Statement (.pan a v) := packAF_row 0x25#8 a v
theorem voicepriority (v : F32) : Statement (.voicepriority v) := packF_row 0x26#8 v
theorem vibratorate (v : F32) : Statement (.vibratorate v) := packF_row 0x27#8 v
theorem lfo1rate (v : F32) : Statement (.lfo1rate v) := packF_row 0x28#8 v
theorem lfo1wave1 (v : F32) : Statement (.lfo1wave1 v) := packF_row 0x29#8 v
theorem lfo1wave2 (v : F32) : Statement (.lfo1wave2 v) := packF_row 0x2a#8 v
theorem lfo1wave3 (v : F32) : Statement (.lfo1wave3 v) := packF_row 0x2b#8 v
theorem lfo1sync (v : F32) : Statement (.lfo1sync v) := packF_row 0x2c#8 v
theorem lfo2rate (v : F32) : Statement (.lfo2rate v) := packF_row 0x2d#8 v
theorem lfo2wave1 (v : F32) : Statement (.lfo2wave1 v) := packF_row 0x2e#8 v
theorem lfo2wave2 (v : F32) : Statement (.lfo2wave2 v) := packF_row 0x2f#8 v
theorem lfo2wave3 (v : F32) : Statement (.lfo2wave3 v) := packF_row 0x30#8 v
theorem lfo2sync (v : F32) : Statement (.lfo2sync v) := packF_row 0x31#8 v
theorem osc1pitch (v : F32) : Statement (.osc1pitch v) := packF_row 0x38#8 v
theorem osc2pitch (v : F32) : Statement (.osc2pitch v) := packF_row 0x39#8 v
theorem tune (v : F32) : Statement (.tune v) := packF_row 0x3a#8 v
theorem transpose (v : F32) : Statement (.transpose v) := packF_row 0x3b#8 v
theorem detune (v : F32) : Statement (.detune v) := packF_row 0x3c#8 v
theorem pw1 (v : F32) : Statement (.pw1 v) := packF_row 0x3d#8 v
theorem pw2 (v : F32) : Statement (.pw2 v) := packF_row 0x3e#8 v
theorem hardsync (v : F32) : Statement (.hardsync v) := packF_row 0x3f#8 v
theorem xmod (v : F32) : Statement (.xmod v) := packF_row 0x40#8 v
theorem osc1mix (v : F32) : Statement (.osc1mix v) := packF_row 0x41#8 v
theorem osc2mix (v : F32) : Statement (.osc2mix v) := packF_row 0x42#8 v
theorem ringmix (v : F32) : Statement (.ringmix v) := packF_row 0x43#8 v
theorem noisemix (v : F32) : Statement (.noisemix v) := packF_row 0x44#8 v
theorem noisecolor (v : F32) : Statement (.noisecolor v) := packF_row 0x45#8 v
theorem osc1saw (v : F32) : Statement (.osc1saw v) := packF_row 0x46#8 v
theorem osc1pulse (v : F32) : Statement (.osc1pulse v) := packF_row 0x47#8 v
theorem osc2saw (v : F32) : Statement (.osc2saw v) := packF_row 0x48#8 v
theorem osc2pulse (v : F32) : Statement (.osc2pulse v) := packF_row 0x49#8 v
theorem cutoff (v : F32) : Statement (.cutoff v) := packF_row 0x50#8 v
theorem resonance (v : F32) : Statement (.resonance v) := packF_row 0x51#8 v
theorem multimode (v : F32) : Statement (.multimode v) := packF_row 0x52#8 v
theorem bandpassblend (v : F32) : Statement (.bandpassblend v) := packF_row 0x53#8 v
theorem fourpole (v : F32) : Statement (.fourpole v) := packF_row 0x54#8 v
theorem selfoscpush (v : F32) : Statement (.selfoscpush v) := packF_row 0x55#8 v
theorem fenvamt (v : F32) : Statement (.fenvamt v) := packF_row 0x56#8 v
theorem fenvinvert (v : F32) : Statement (.fenvinvert v) := packF_row 0x57#8 v
theorem keyfollow (v : F32) : Statement (.keyfollow v) := packF_row 0x58#8 v
theorem ampattack (v : F32) : Statement (.ampattack v) := packF_row 0x60#8 v
theorem ampdecay (v : F32) : Statement (.ampdecay v) := packF_row 0x61#8 v
theorem ampsustain (v : F32) : Statement (.ampsustain v) := packF_row 0x62#8 v
theorem amprelease (v : F32) : Statement (.amprelease v) := packF_row 0x63#8 v
theorem fltattack (v : F32) : Statement (.fltattack v) := packF_row 0x64#8 v
theorem fltdecay (v : F32) : Statement (.fltdecay v) := packF_row 0x65#8 v
theorem fltsustain (v : F32) : Statement (.fltsustain v) := packF_row 0x66#8 v
theorem fltrelease (v : F32) : Statement (.fltrelease v) := packF_row 0x67#8 v
theorem portamento (v : F32) : Statement (.portamento v) := packF_row 0x70#8 v
theorem bendup (v : F32) : Statement (.bendup v) := packF_row 0x71#8 v
theorem benddown (v : F32) : Statement (.benddown v) := packF_row 0x72#8 v
theorem legato (v : F32) : Statement (.legato v) := packF_row 0x73#8 v
theorem modparam (a : BitVec 8) (v : F32) : Statement (.modparam a v) := packAF_row 0x7f#8 a v

end Sys2Proof.Laws.MatchesRow
end

