-- ==== Sys2Proof/Machine/Pseudo.lean ====
section
/-! DEFINITION. Listings and pseudo-commands (`30_encoding.md` R110, R111): the text of a command, and the command
lists the three pseudo-commands expand to. No word encodes a pseudo-command; the host presents the expansion. -/

namespace Sys2Proof.Machine

/-! ### Pseudo-commands (R111) -/

/-- `SETPLAYHEAD bpm, pos, reset`. -/
def setPlayhead (bpm pos : F32) (reset : BitVec 8) : List Instr := [.playpos pos, .playhead reset bpm]

/-- The Motherboard, vibrato and LFO part of `INITPARAMS v`: opcodes 0x20 to 0x31. -/
def initGlobals (v : F32) : List Instr :=
  [.volume v, .polyphony v, .unison v, .univoices v, .oversample v,
   .pan 0#8 v, .pan 1#8 v, .pan 2#8 v, .pan 3#8 v, .pan 4#8 v, .pan 5#8 v, .pan 6#8 v, .pan 7#8 v,
   .voicepriority v, .vibratorate v, .lfo1rate v, .lfo1wave1 v, .lfo1wave2 v, .lfo1wave3 v, .lfo1sync v,
   .lfo2rate v, .lfo2wave1 v, .lfo2wave2 v, .lfo2wave3 v, .lfo2sync v]

/-- The oscillator, filter, envelope and voice part of `INITPARAMS v`: opcodes 0x38 to 0x73. -/
def initVoices (v : F32) : List Instr :=
  [.osc1pitch v, .osc2pitch v, .tune v, .transpose v, .detune v, .pw1 v, .pw2 v, .hardsync v, .xmod v,
   .osc1mix v, .osc2mix v, .ringmix v, .noisemix v, .noisecolor v, .osc1saw v, .osc1pulse v, .osc2saw v, .osc2pulse v,
   .cutoff v, .resonance v, .multimode v, .bandpassblend v, .fourpole v, .selfoscpush v, .fenvamt v, .fenvinvert v,
   .keyfollow v,
   .ampattack v, .ampdecay v, .ampsustain v, .amprelease v, .fltattack v, .fltdecay v, .fltsustain v, .fltrelease v,
   .portamento v, .bendup v, .benddown v, .legato v]

/-- `INITPARAMS v`: every setter in ascending opcode order, `PAN` by slot, `MODPARAM` by index. -/
def initParams (v : F32) : List Instr :=
  initGlobals v ++ (initVoices v ++ (List.range Config.modCount).map fun m => .modparam (BitVec.ofNat 8 m) v)

/-- `BOOT hz, bpm`. -/
def boot (hz bpm : F32) : List Instr := .setrate hz :: (setPlayhead bpm f0 0#8 ++ initParams f0)

/-- The host will present the words of a command list after everything it already has to do. -/
def State.present (l : List Instr) (s : State) : State :=
  { s with inputs := s.inputs ++ l.map fun i => .command (encode i) }

/-! ### Listings (R110) -/

/-- A hexadecimal digit. -/
def hexDigit (n : Nat) : String := ["0", "1", "2", "3", "4", "5", "6", "7", "8", "9", "A", "B", "C", "D", "E", "F"].getD n ""

/-- A number as `k` hexadecimal digits. -/
def hexText : Nat → Nat → String
  | 0, _ => ""
  | k + 1, n => hexText k (n / 16) ++ hexDigit (n % 16)

/-- A value operand by its bit pattern. -/
def valueText (v : F32) : String := "#0x" ++ hexText 8 v.toNat

/-- An index operand. -/
def indexText (a : BitVec 8) : String := "0x" ++ hexText 2 a.toNat

/-- A listing line of the command a word encodes: the mnemonic, then the operands of its format in field order. -/
def listing (w : CmdWord) : Option String :=
  match decode w with
  | .error _ => none
  | .ok i =>
    match opcodeRow (fieldOP w).toNat with
    | some (.f _) => some (i.mnemonic ++ " " ++ valueText (fieldV w))
    | some (.af _) => some (i.mnemonic ++ " " ++ indexText (fieldA w) ++ ", " ++ valueText (fieldV w))
    | some (.k _) =>
      some (i.mnemonic ++ " " ++ indexText (fieldA w) ++ ", " ++ indexText (fieldB w) ++ ", " ++ valueText (fieldV w))
    | _ => some i.mnemonic

end Sys2Proof.Machine
end

