-- ==== Sys2Proof/Laws/Pseudo.lean ====
section
/-! SUPPORT. The bring-up list of `BOOT` runs to the end and leaves the block configured (`30_encoding.md` R111,
`70_reset_and_hazards.md` R483). -/

namespace Sys2Proof.Machine

/-- The state after a list of commands, where each answers a next state. -/
def runCommands : List Instr → State → Option State
  | [], s => some s
  | i :: rest, s =>
    match exec i s with
    | .next t => runCommands rest t
    | _ => none

/-- The command answers a next state in which the register is marked, and no other is unmarked. -/
def Marks (i : Instr) (id : RegId) : Prop :=
  ∀ s, ∃ t, exec i s = .next t ∧ ∀ x, (x = id ∨ x ∈ s.g.written) → x ∈ t.g.written

theorem setter_marks {i : Instr} {id : RegId} {r : Bool} {op : State → State} {s : State} (hr : r = true)
    (h : (op s).g.written = s.g.written) :
    ∃ t, setter i id r op s = .next t ∧ ∀ x, (x = id ∨ x ∈ s.g.written) → x ∈ t.g.written := by
  subst hr
  refine ⟨(op s).markWritten id, rfl, fun x hx => ?_⟩
  show x ∈ insertId id (op s).g.written
  rw [mem_insertId, h]; exact hx

theorem unitRange_f0 : unitRange f0 = true := by decide

theorem modparam_marks (m : Fin Config.modCount) : Marks (.modparam (BitVec.ofNat 8 m.val) f0) (.mod m) := by
  intro s
  have h1 : (BitVec.ofNat 8 m.val).toNat = m.val := by
    have := m.isLt; have := Config.modCount_le; simp; omega
  have h2 : modRange (BitVec.ofNat 8 m.val) = true := by simp only [modRange, h1]; exact decide_eq_true m.isLt
  have h3 : modIndexOf (BitVec.ofNat 8 m.val) = some m := by unfold modIndexOf; simp only [h1, m.isLt, dif_pos]
  refine ⟨(s.setMod m f0).markWritten (.mod m), ?_, fun x hx => (mem_insertId _ _ _).2 hx⟩
  show command _ _ _ s = _
  simp only [command, checked, h2, unitRange_f0, h3]
  rfl

/-- A list of commands, each marking its register, marks them all. -/
theorem runCommands_marks (l : List (Instr × RegId)) (h : ∀ p ∈ l, Marks p.1 p.2) (s : State) :
    ∃ t, runCommands (l.map Prod.fst) s = some t ∧ ∀ x, (x ∈ l.map Prod.snd ∨ x ∈ s.g.written) → x ∈ t.g.written := by
  induction l generalizing s with
  | nil => exact ⟨s, rfl, fun x hx => by simpa using hx⟩
  | cons p ps ih =>
    obtain ⟨t, h1, h2⟩ := h p (by simp) s
    obtain ⟨u, h3, h4⟩ := ih (fun q hq => h q (by simp [hq])) t
    refine ⟨u, by simp [runCommands, h1, h3], fun x hx => h4 x ?_⟩
    rcases hx with hx | hx
    · rcases List.mem_cons.1 hx with rfl | hx
      · exact Or.inr (h2 _ (Or.inl rfl))
      · exact Or.inl hx
    · exact Or.inr (h2 x (Or.inr hx))

theorem runCommands_append (l m : List Instr) (s : State) :
    runCommands (l ++ m) s = (runCommands l s).bind (runCommands m) := by
  induction l generalizing s with
  | nil => rfl
  | cons i l ih =>
    simp only [List.cons_append, runCommands]
    split
    · exact ih _
    · rfl

/-- The commands of `INITPARAMS` with the register each marks, global part. -/
def markedGlobals : List (Instr × RegId) := (initGlobals f0).zip (RegId.globalIds.drop 2)

/-- The same, voice part. -/
def markedVoices : List (Instr × RegId) := (initVoices f0).zip RegId.voiceIds

theorem markedGlobals_marks : ∀ p ∈ markedGlobals, Marks p.1 p.2 := by
  refine List.forall_iff_forall_mem.1 ?_
  repeat' refine And.intro ?_ ?_
  all_goals
    intro s
    dsimp only [exec]
    exact setter_marks (by decide)
      (by dsimp only [State.mapGlobal, State.mapVoices, State.setPolyphony, State.setOversample])

theorem markedVoices_marks : ∀ p ∈ markedVoices, Marks p.1 p.2 := by
  refine List.forall_iff_forall_mem.1 ?_
  repeat' refine And.intro ?_ ?_
  all_goals
    intro s
    dsimp only [exec]
    exact setter_marks (by decide)
      (by dsimp only [State.mapGlobal, State.mapVoices, State.setPolyphony, State.setOversample])

/-- The routing commands of `INITPARAMS 0` with the register each marks. -/
def markedMods : List (Instr × RegId) :=
  (List.finRange Config.modCount).map fun m => (.modparam (BitVec.ofNat 8 m.val) f0, .mod m)

theorem initParams_marked : initParams f0 = (markedGlobals ++ (markedVoices ++ markedMods)).map Prod.fst := by
  have h : (List.range Config.modCount).map (fun m => Instr.modparam (BitVec.ofNat 8 m) f0) = markedMods.map Prod.fst := by
    simp [markedMods, ← List.map_coe_finRange_eq_range, Function.comp_def]
  rw [List.map_append, List.map_append, ← h]
  rfl

/-- After `BOOT` the block is configured, whatever it did before (R111). -/
theorem boot_configured (hz bpm : F32) (s : State) (h1 : rateRange hz = true) (h2 : tempoRange bpm = true) :
    ∃ t, runCommands (boot hz bpm) s = some t ∧ t.configured = true := by
  have hb : boot hz bpm = [.setrate hz, .playpos f0, .playhead 0#8 bpm] ++ initParams f0 := rfl
  obtain ⟨a, e1, m1⟩ := setter_marks (i := .setrate hz) (id := .fs) (op := State.setSampleRate hz) (s := s) h1 rfl
  obtain ⟨b, e2, m2⟩ : ∃ b, exec (.playpos f0) a = .next b ∧ b.g.written = a.g.written := ⟨_, rfl, rfl⟩
  obtain ⟨c, e3, m3⟩ := setter_marks (i := .playhead 0#8 bpm) (id := .bpm) (r := resetFlagRange 0#8 && tempoRange bpm)
    (op := fun s =>
      let s := s.mapGlobal fun g => { g with bpm := bpm }
      if (0#8 : BitVec 8) = 1#8 then s.restartLfos else s) (s := b) (by rw [h2]; decide) rfl
  obtain ⟨t, e4, m4⟩ := runCommands_marks (markedGlobals ++ (markedVoices ++ markedMods)) (by
    intro p hp
    rcases List.mem_append.1 hp with hp | hp
    · exact markedGlobals_marks p hp
    · rcases List.mem_append.1 hp with hp | hp
      · exact markedVoices_marks p hp
      · obtain ⟨m, -, rfl⟩ := List.mem_map.1 hp
        exact modparam_marks m) c
  refine ⟨t, ?_, ?_⟩
  · rw [hb, runCommands_append]
    have e1' : exec (.setrate hz) s = .next a := e1
    have e3' : exec (.playhead 0#8 bpm) b = .next c := e3
    simp only [runCommands, e1', e2, e3', Option.bind_some, initParams_marked]
    exact e4
  · rw [State.configured, List.all_eq_true]
    intro x hx
    rw [List.contains_iff_mem]
    refine m4 x ?_
    have hc : x = .bpm ∨ x = .fs → x ∈ c.g.written := by
      rintro (rfl | rfl)
      · exact m3 _ (Or.inl rfl)
      · exact m3 _ (Or.inr (m2 ▸ m1 _ (Or.inl rfl)))
    simp only [RegId.all, List.mem_append] at hx
    rcases hx with hx | hx | hx
    · have hg : x = .fs ∨ x = .bpm ∨ x ∈ RegId.globalIds.drop 2 := by
        simpa [RegId.globalIds] using hx
      rcases hg with h | h | h
      · exact Or.inr (hc (Or.inr h))
      · exact Or.inr (hc (Or.inl h))
      · exact Or.inl (by rw [List.map_append]; exact List.mem_append_left _ h)
    · exact Or.inl (by
        rw [List.map_append, List.map_append]
        exact List.mem_append_right _ (List.mem_append_left _ hx))
    · refine Or.inl ?_
      rw [List.map_append, List.map_append]
      refine List.mem_append_right _ (List.mem_append_right _ ?_)
      simp only [markedMods, List.map_map]
      exact hx

end Sys2Proof.Machine
end

