-- ==== Sys2Proof/Tests/Slice0.lean ====
section
/-! SUPPORT. The model's own tests: the spec's worked encodings and vectors (`95_test_vectors.md`), one step each, and a
concrete witness for the hypotheses of every statement. Expected values come from the spec's text. -/

namespace Sys2Proof.Tests

-- One declaration after the other: the kernel evaluations below then take little memory.
set_option Elab.async false

open Sys2Proof.Machine Sys2Proof.Claims

/-! ### Helpers -/

/-- The reset state with every register written, so that `CONFIGURED` holds. -/
def cfg : State := { State.reset with g := { State.reset.g with written := RegId.all } }

/-- A change of the global registers. -/
def withG (f : Global → Global) (s : State) : State := { s with g := f s.g }

/-- Voice `i` changed. -/
def withV (i : Fin 32) (f : Voice → Voice) (s : State) : State := s.setVoice i (f (s.voices.get i))

/-- A voice sounding on a note, gated, both envelopes in Decay. -/
def playing (n : Fin 128) (v : Voice) : Voice :=
  { v with note := n, gate := true, active := true,
           ampEnv := { v.ampEnv with state := .decay }, fltEnv := { v.fltEnv with state := .decay } }

/-- Polyphony `n`. -/
def poly (n : VoiceCount) : State → State := withG fun g => { g with totalvc := n }

/-- The next state of an outcome (the reset state where there is none). -/
def nextOf : Result → State
  | .next s => s
  | _ => State.reset

/-- The state after one word from a state. -/
def after (w : Nat) (s : State) : State := nextOf (step (s.withFetchWord 64 w))

theorem cfg_configured : cfg.configured = true := (configured_iff _).2 fun id => RegId.mem_all id

theorem withG_configured {s : State} {f : Global → Global} (h : s.configured = true)
    (hf : (f s.g).written = s.g.written) : (withG f s).configured = true := by
  rw [configured_iff] at h ⊢
  intro id
  have := h id
  simpa [withG, hf] using this

theorem withV_configured {s : State} {i : Fin 32} {f : Voice → Voice} (h : s.configured = true) :
    (withV i f s).configured = true := by
  rw [configured_iff] at h ⊢
  exact h

theorem reset_not_configured : State.reset.configured = false := by
  rw [Bool.eq_false_iff, Ne, configured_iff]
  exact fun h => by simpa using (show RegId.fs ∈ ([] : List RegId) from h .fs)

/-! ### Decoding: the example of each command's rule (R341 to R440) -/

theorem test_decode_setrate : decodeTableWord 64 0x01000000473B8000 = some (.setrate 0x473B8000#32) := by decide
theorem test_decode_tick : decodeTableWord 64 0x0200000000000000 = some .tick := by decide
theorem test_decode_playpos : decodeTableWord 64 0x0300000041800000 = some (.playpos 0x41800000#32) := by decide
theorem test_decode_playhead : decodeTableWord 64 0x0401000042F00000 = some (.playhead 1#8 0x42F00000#32) := by decide
theorem test_decode_noteon : decodeTableWord 64 0x103C00003F4CCCCD = some (.noteon 60#8 0#8 0x3F4CCCCD#32) := by decide
theorem test_decode_noteoff : decodeTableWord 64 0x113C000000000000 = some (.noteoff 60#8 0#8 0x00000000#32) := by decide
theorem test_decode_suston : decodeTableWord 64 0x1200000000000000 = some .suston := by decide
theorem test_decode_sustoff : decodeTableWord 64 0x1300000000000000 = some .sustoff := by decide
theorem test_decode_allnotesoff : decodeTableWord 64 0x1400000000000000 = some .allnotesoff := by decide
theorem test_decode_allsoundoff : decodeTableWord 64 0x1500000000000000 = some .allsoundoff := by decide
theorem test_decode_pitchwheel : decodeTableWord 64 0x16000000BF800000 = some (.pitchwheel 0xBF800000#32) := by decide
theorem test_decode_modwheel : decodeTableWord 64 0x170000003F000000 = some (.modwheel 0x3F000000#32) := by decide
theorem test_decode_volume : decodeTableWord 64 0x200000003F000000 = some (.volume 0x3F000000#32) := by decide
theorem test_decode_polyphony : decodeTableWord 64 0x210000003E800000 = some (.polyphony 0x3E800000#32) := by decide
theorem test_decode_unison : decodeTableWord 64 0x220000003F800000 = some (.unison 0x3F800000#32) := by decide
theorem test_decode_univoices : decodeTableWord 64 0x2300000000000000 = some (.univoices 0x00000000#32) := by decide
theorem test_decode_oversample : decodeTableWord 64 0x240000003F800000 = some (.oversample 0x3F800000#32) := by decide
theorem test_decode_pan : decodeTableWord 64 0x250300003F000000 = some (.pan 3#8 0x3F000000#32) := by decide
theorem test_decode_voicepriority : decodeTableWord 64 0x2600000000000000 = some (.voicepriority 0x00000000#32) := by decide
theorem test_decode_vibratorate : decodeTableWord 64 0x270000003F000000 = some (.vibratorate 0x3F000000#32) := by decide
theorem test_decode_lfo1rate : decodeTableWord 64 0x280000003F000000 = some (.lfo1rate 0x3F000000#32) := by decide
theorem test_decode_lfo1wave1 : decodeTableWord 64 0x2900000000000000 = some (.lfo1wave1 0x00000000#32) := by decide
theorem test_decode_lfo1wave2 : decodeTableWord 64 0x2A00000000000000 = some (.lfo1wave2 0x00000000#32) := by decide
theorem test_decode_lfo1wave3 : decodeTableWord 64 0x2B00000000000000 = some (.lfo1wave3 0x00000000#32) := by decide
theorem test_decode_lfo1sync : decodeTableWord 64 0x2C0000003F800000 = some (.lfo1sync 0x3F800000#32) := by decide
theorem test_decode_lfo2rate : decodeTableWord 64 0x2D0000003F000000 = some (.lfo2rate 0x3F000000#32) := by decide
theorem test_decode_lfo2wave1 : decodeTableWord 64 0x2E0000003F800000 = some (.lfo2wave1 0x3F800000#32) := by decide
theorem test_decode_lfo2wave2 : decodeTableWord 64 0x2F0000003F800000 = some (.lfo2wave2 0x3F800000#32) := by decide
theorem test_decode_lfo2wave3 : decodeTableWord 64 0x300000003F800000 = some (.lfo2wave3 0x3F800000#32) := by decide
theorem test_decode_lfo2sync : decodeTableWord 64 0x3100000000000000 = some (.lfo2sync 0x00000000#32) := by decide
theorem test_decode_osc1pitch : decodeTableWord 64 0x380000003F000000 = some (.osc1pitch 0x3F000000#32) := by decide
theorem test_decode_osc2pitch : decodeTableWord 64 0x390000003F000000 = some (.osc2pitch 0x3F000000#32) := by decide
theorem test_decode_tune : decodeTableWord 64 0x3A0000003F000000 = some (.tune 0x3F000000#32) := by decide
theorem test_decode_transpose : decodeTableWord 64 0x3B0000003F000000 = some (.transpose 0x3F000000#32) := by decide
theorem test_decode_detune : decodeTableWord 64 0x3C0000003F000000 = some (.detune 0x3F000000#32) := by decide
theorem test_decode_pw1 : decodeTableWord 64 0x3D0000003F000000 = some (.pw1 0x3F000000#32) := by decide
theorem test_decode_pw2 : decodeTableWord 64 0x3E0000003F000000 = some (.pw2 0x3F000000#32) := by decide
theorem test_decode_hardsync : decodeTableWord 64 0x3F0000003F800000 = some (.hardsync 0x3F800000#32) := by decide
theorem test_decode_xmod : decodeTableWord 64 0x400000003F000000 = some (.xmod 0x3F000000#32) := by decide
theorem test_decode_osc1mix : decodeTableWord 64 0x410000003F000000 = some (.osc1mix 0x3F000000#32) := by decide
theorem test_decode_osc2mix : decodeTableWord 64 0x420000003F000000 = some (.osc2mix 0x3F000000#32) := by decide
theorem test_decode_ringmix : decodeTableWord 64 0x430000003F000000 = some (.ringmix 0x3F000000#32) := by decide
theorem test_decode_noisemix : decodeTableWord 64 0x440000003F000000 = some (.noisemix 0x3F000000#32) := by decide
theorem test_decode_noisecolor : decodeTableWord 64 0x450000003F000000 = some (.noisecolor 0x3F000000#32) := by decide
theorem test_decode_osc1saw : decodeTableWord 64 0x460000003F800000 = some (.osc1saw 0x3F800000#32) := by decide
theorem test_decode_osc1pulse : decodeTableWord 64 0x470000003F800000 = some (.osc1pulse 0x3F800000#32) := by decide
theorem test_decode_osc2saw : decodeTableWord 64 0x480000003F800000 = some (.osc2saw 0x3F800000#32) := by decide
theorem test_decode_osc2pulse : decodeTableWord 64 0x490000003F800000 = some (.osc2pulse 0x3F800000#32) := by decide
theorem test_decode_cutoff : decodeTableWord 64 0x500000003F000000 = some (.cutoff 0x3F000000#32) := by decide
theorem test_decode_resonance : decodeTableWord 64 0x510000003F000000 = some (.resonance 0x3F000000#32) := by decide
theorem test_decode_multimode : decodeTableWord 64 0x520000003F000000 = some (.multimode 0x3F000000#32) := by decide
theorem test_decode_bandpassblend : decodeTableWord 64 0x530000003F800000 = some (.bandpassblend 0x3F800000#32) := by decide
theorem test_decode_fourpole : decodeTableWord 64 0x540000003F800000 = some (.fourpole 0x3F800000#32) := by decide
theorem test_decode_selfoscpush : decodeTableWord 64 0x550000003F800000 = some (.selfoscpush 0x3F800000#32) := by decide
theorem test_decode_fenvamt : decodeTableWord 64 0x560000003F000000 = some (.fenvamt 0x3F000000#32) := by decide
theorem test_decode_fenvinvert : decodeTableWord 64 0x5700000000000000 = some (.fenvinvert 0x00000000#32) := by decide
theorem test_decode_keyfollow : decodeTableWord 64 0x580000003F000000 = some (.keyfollow 0x3F000000#32) := by decide
theorem test_decode_ampattack : decodeTableWord 64 0x600000003F000000 = some (.ampattack 0x3F000000#32) := by decide
theorem test_decode_ampdecay : decodeTableWord 64 0x610000003F000000 = some (.ampdecay 0x3F000000#32) := by decide
theorem test_decode_ampsustain : decodeTableWord 64 0x620000003F000000 = some (.ampsustain 0x3F000000#32) := by decide
theorem test_decode_amprelease : decodeTableWord 64 0x630000003F000000 = some (.amprelease 0x3F000000#32) := by decide
theorem test_decode_fltattack : decodeTableWord 64 0x640000003F000000 = some (.fltattack 0x3F000000#32) := by decide
theorem test_decode_fltdecay : decodeTableWord 64 0x650000003F000000 = some (.fltdecay 0x3F000000#32) := by decide
theorem test_decode_fltsustain : decodeTableWord 64 0x660000003F000000 = some (.fltsustain 0x3F000000#32) := by decide
theorem test_decode_fltrelease : decodeTableWord 64 0x670000003F000000 = some (.fltrelease 0x3F000000#32) := by decide
theorem test_decode_portamento : decodeTableWord 64 0x700000003F000000 = some (.portamento 0x3F000000#32) := by decide
theorem test_decode_bendup : decodeTableWord 64 0x710000003F000000 = some (.bendup 0x3F000000#32) := by decide
theorem test_decode_benddown : decodeTableWord 64 0x720000003F000000 = some (.benddown 0x3F000000#32) := by decide
theorem test_decode_legato : decodeTableWord 64 0x730000003F400000 = some (.legato 0x3F400000#32) := by decide
theorem test_decode_modparam : decodeTableWord 64 0x7F0200003E800000 = some (.modparam 2#8 0x3E800000#32) := by decide

/-! ### Decoding: illegal words and the byte order (`95_test_vectors.md` 2.1, R76) -/

theorem test_illegal_opcode_00 : decode 0x0000000000000000#64 = .error .reservedOpcode := by rfl
theorem test_illegal_opcode_ff : decode 0xFF00000000000000#64 = .error .reservedOpcode := by rfl
theorem test_illegal_opcode_05 : decode 0x0500000000000000#64 = .error .reservedOpcode := by rfl
theorem test_illegal_opcode_32 : decode 0x3200000000000000#64 = .error .reservedOpcode := by rfl
theorem test_illegal_tick_value : decode 0x0200000000000001#64 = .error .nonzeroField := by rfl
theorem test_illegal_volume_z : decode 0x200000013F000000#64 = .error .nonzeroField := by rfl
theorem test_illegal_volume_a : decode 0x200100003F000000#64 = .error .nonzeroField := by rfl
theorem test_illegal_pan_b : decode 0x250301003F000000#64 = .error .nonzeroField := by rfl
theorem test_illegal_noteon_z : decode 0x103C00013F4CCCCD#64 = .error .nonzeroField := by rfl
theorem test_channel_is_read : decode 0x103CFF003F4CCCCD#64 = .ok (.noteon 60#8 255#8 0x3F4CCCCD#32) := by rfl
theorem test_bytes_of_noteon :
    wordBytes 0x103C00003F4CCCCD#64 = [0xCD#8, 0xCC#8, 0x4C#8, 0x3F#8, 0x00#8, 0x00#8, 0x3C#8, 0x10#8] := by decide
theorem test_seven_bytes_are_no_word : decodeBytes (List.replicate 7 0#8) = none := by decide

/-! ### Well-formedness: an ill-formed command for each check (R105) -/

theorem test_wf_setrate_zero : (Instr.setrate 0x00000000#32).wellFormed = false := by decide +kernel
theorem test_wf_setrate_inf : (Instr.setrate 0x7F800000#32).wellFormed = false := by decide +kernel
theorem test_wf_setrate_nan : (Instr.setrate 0x7FC00000#32).wellFormed = false := by decide +kernel
theorem test_wf_setrate_least : (Instr.setrate 0x00000001#32).wellFormed = true := by decide +kernel
theorem test_wf_playpos_inf : (Instr.playpos 0xFF800000#32).wellFormed = false := by decide +kernel
theorem test_wf_playpos_negative : (Instr.playpos 0xFF7FFFFF#32).wellFormed = true := by decide +kernel
theorem test_wf_playhead_flag : (Instr.playhead 2#8 0x42F00000#32).wellFormed = false := by decide +kernel
theorem test_wf_playhead_negative : (Instr.playhead 1#8 0xC2F00000#32).wellFormed = false := by decide +kernel
theorem test_wf_playhead_zero : (Instr.playhead 1#8 0x80000000#32).wellFormed = true := by decide +kernel
theorem test_wf_noteon_note : (Instr.noteon 128#8 0#8 0x3F000000#32).wellFormed = false := by decide +kernel
theorem test_wf_noteon_velocity : (Instr.noteon 60#8 0#8 0x7FC00000#32).wellFormed = false := by decide +kernel
theorem test_wf_noteoff_note : (Instr.noteoff 200#8 0#8 0x3F000000#32).wellFormed = false := by decide +kernel
theorem test_wf_noteoff_velocity : (Instr.noteoff 60#8 0#8 0x3F800001#32).wellFormed = false := by decide +kernel
theorem test_wf_pitchwheel : (Instr.pitchwheel 0xBFC00000#32).wellFormed = false := by decide +kernel
theorem test_wf_modwheel : (Instr.modwheel 0xBF800000#32).wellFormed = false := by decide +kernel
theorem test_wf_pan_slot : (Instr.pan 8#8 0x3F000000#32).wellFormed = false := by decide +kernel
theorem test_wf_modparam_value : (Instr.modparam 0#8 0x40000000#32).wellFormed = false := by
  simp only [Instr.wellFormed, Bool.and_eq_false_iff]; right; decide +kernel
theorem test_wf_setter_two : (Instr.volume 0x40000000#32).wellFormed = false := by decide +kernel
theorem test_wf_setter_nan : (Instr.legato 0x7FC00000#32).wellFormed = false := by decide +kernel
theorem test_wf_setter_negative_zero : (Instr.volume 0x80000000#32).wellFormed = true := by decide +kernel
theorem test_wf_setter_one : (Instr.cutoff 0x3F800000#32).wellFormed = true := by decide +kernel

/-! ### Arithmetic on bit patterns: IEEE 754 by hand -/

theorem test_add_exact : fadd 0x3F000000#32 0x3E800000#32 = 0x3F400000#32 := by decide +kernel
/-- `1 + 2^−24` is a tie and goes to the even neighbour 1. -/
theorem test_add_tie_even : fadd 0x3F800000#32 0x33800000#32 = 0x3F800000#32 := by decide +kernel
theorem test_sub_cancels : fsub 0x3F800000#32 0x3F800000#32 = 0x00000000#32 := by decide +kernel
theorem test_mul_overflows : fmul 0x7F7FFFFF#32 0x40000000#32 = 0x7F800000#32 := by decide +kernel
/-- The least subnormal halved is a tie between 0 and itself. -/
theorem test_mul_underflows : fmul 0x00000001#32 0x3F000000#32 = 0x00000000#32 := by decide +kernel
theorem test_div_third : fdiv 0x3F800000#32 0x40400000#32 = 0x3EAAAAAB#32 := by decide +kernel
theorem test_div_by_zero : fdiv 0xBF800000#32 0x00000000#32 = 0xFF800000#32 := by decide +kernel
theorem test_mul_overflows_negative : fmul 0xFF7FFFFF#32 0x40000000#32 = 0xFF800000#32 := by decide +kernel
theorem test_add_zeros : fadd 0x80000000#32 0x80000000#32 = 0x80000000#32 ∧ fadd 0x80000000#32 0#32 = 0#32 := by
  decide +kernel
theorem test_floor_negative : ffloor 0xBF000000#32 = -1 := by decide +kernel
theorem test_literal_fifth : lit 8 10 = 0x3F4CCCCD#32 := by decide +kernel
/-- `60.0` in binary64 rounds to `60.0`. -/
theorem test_round64 : round64 0x404E000000000000#64 = 0x42700000#32 := by decide +kernel
theorem test_default_tuning : ofNat64 60 = 0x404E000000000000#64 := by decide +kernel

/-! ### Boundary faults from reset (`95_test_vectors.md` 2.1 and P3) -/

theorem test_fault_illegal : (after 0x0000000000000000 State.reset).fault = ⟨true, 1#8, 0#64⟩ := by decide +kernel
theorem test_fault_range : (after 0x2000000040000000 State.reset).fault = ⟨true, 2#8, 0x2000000040000000#64⟩ := by
  decide +kernel
theorem test_fault_unwritten : (after 0x2000000040000000 State.reset).g.written = [] := by decide +kernel
theorem test_fault_range_first : (after 0x108000003F000000 State.reset).fault.cause = 2#8 := by decide +kernel
theorem test_fault_first_wins :
    (after 0x0000000000000000 (after 0x2000000040000000 State.reset)).fault = ⟨true, 2#8, 0x2000000040000000#64⟩ := by
  decide +kernel
theorem test_fault_not_configured :
    (exec .tick State.reset) = .next (raise .notConfigured 0x0200000000000000#64 State.reset) := by
  simp [exec, execTick, reset_not_configured, encode, packN, pack]
theorem test_no_fault_volume : (after 0x200000003F000000 State.reset).fault.valid = false := by decide +kernel

/-! ### Commands, one step each -/

theorem test_setrate : (after 0x01000000473B8000 State.reset).g.fs = 0x473B8000#32 := by decide +kernel
theorem test_setrate_draws : (after 0x01000000473B8000 State.reset).draws = 224 := by decide +kernel
theorem test_playpos : (after 0x0300000041800000 State.reset).g.qnpos = 0x41800000#32 := by decide +kernel
theorem test_playhead : (after 0x0401000042F00000 State.reset).g.bpm = 0x42F00000#32 := by decide +kernel
/-- `PLAYHEAD 1` restarts a synced LFO. -/
theorem test_playhead_restarts :
    (after 0x0401000042F00000
      (withG (fun g => { g with lfo1 := { g.lfo1 with phase := 0x3F800000#32, sync := true } }) cfg)).g.lfo1.phase = 0#32 := by
  decide +kernel
theorem test_pitchwheel : (after 0x16000000BF800000 State.reset).g.smBend = ⟨0xBF800000#32, 0#32⟩ := by decide +kernel
theorem test_modwheel : (after 0x170000003F000000 State.reset).g.smMod.target = 0x3F000000#32 := by decide +kernel
theorem test_polyphony : (after 0x210000003E800000 State.reset).g.totalvc.val = 9 := by decide +kernel
theorem test_unison : (after 0x220000003F800000 State.reset).g.uni = true := by decide +kernel
theorem test_univoices : (after 0x2300000000000000 State.reset).g.univc.val = 1 := by decide +kernel
theorem test_oversample : ((after 0x240000003F800000 State.reset).voices.get 31).osc.tri2.d2 = true := by decide +kernel
theorem test_voicepriority : (after 0x260000003F800000 State.reset).g.priority = .lowest := by decide +kernel
theorem test_lfo1rate : (after 0x280000003F000000 State.reset).g.lfo1.rawRate = 0x3F000000#32 := by decide +kernel
theorem test_lfo1wave1 : (after 0x2900000000000000 State.reset).g.lfo1.wave1 = 0xBF800000#32 := by decide +kernel
theorem test_lfo1wave2 : (after 0x2A0000003F000000 State.reset).g.lfo1.wave2 = 0#32 := by decide +kernel
theorem test_lfo1wave3 : (after 0x2B0000003F800000 State.reset).g.lfo1.wave3 = 0x3F800000#32 := by decide +kernel
theorem test_lfo1sync : (after 0x2C0000003F800000 State.reset).g.lfo1.sync = true := by decide +kernel
theorem test_lfo2rate : ((after 0x2D0000003F000000 State.reset).voices.get 31).lfo2.rawRate = 0x3F000000#32 := by
  decide +kernel
theorem test_lfo2wave1 : ((after 0x2E0000003F800000 State.reset).voices.get 31).lfo2.wave1 = 0x3F800000#32 := by
  decide +kernel
theorem test_lfo2wave2 : ((after 0x2F0000003F800000 State.reset).voices.get 0).lfo2.wave2 = 0x3F800000#32 := by
  decide +kernel
theorem test_lfo2wave3 : ((after 0x300000003F800000 State.reset).voices.get 0).lfo2.wave3 = 0x3F800000#32 := by
  decide +kernel
theorem test_lfo2sync_half : ((after 0x310000003F000000 State.reset).voices.get 0).lfo2.sync = false := by decide +kernel
theorem test_hardsync : ((after 0x3F0000003F000001 State.reset).voices.get 7).osc.hardSync = true := by decide +kernel
theorem test_noisecolor : ((after 0x450000003F000000 State.reset).voices.get 7).osc.noiseColor = .pink := by decide +kernel
theorem test_osc1saw : ((after 0x460000003F800000 State.reset).voices.get 7).osc.saw1On = true := by decide +kernel
theorem test_osc1pulse : ((after 0x470000003F800000 State.reset).voices.get 7).osc.pul1On = true := by decide +kernel
theorem test_osc2saw : ((after 0x480000003F800000 State.reset).voices.get 7).osc.saw2On = true := by decide +kernel
theorem test_osc2pulse : ((after 0x490000003F800000 State.reset).voices.get 7).osc.pul2On = true := by decide +kernel
theorem test_cutoff_zero : (after 0x5000000000000000 State.reset).g.smCutoff.target = 0#32 := by decide +kernel
theorem test_cutoff_one : (after 0x500000003F800000 State.reset).g.smCutoff.target = 0x42F00000#32 := by decide +kernel
theorem test_bandpassblend : ((after 0x530000003F800000 State.reset).voices.get 1).flt.bandpassBlend = true := by
  decide +kernel
theorem test_fourpole : ((after 0x540000003F800000 State.reset).voices.get 1).flt.fourPole = true := by decide +kernel
theorem test_selfoscpush : ((after 0x550000003F800000 State.reset).voices.get 1).flt.selfOscPush = true := by
  decide +kernel
theorem test_fenvinvert : ((after 0x570000003F800000 State.reset).voices.get 1).fenvInvert = true := by decide +kernel
theorem test_legato : ((after 0x730000003F400000 State.reset).voices.get 1).legato = 3#2 := by decide +kernel
theorem test_legato_half : ((after 0x730000003F000000 State.reset).voices.get 1).legato = 2#2 := by decide +kernel

/-- The linear parameters store the image of their operand under their own range (R380 and on). -/
theorem test_linear_parameters :
    (after 0x200000003F000000 State.reset).g.volume = linParam 1 0x3F000000#32 ∧
    (after 0x250300003F000000 State.reset).g.pan.get 3 = linParam 6 0x3F000000#32 ∧
    ((after 0x380000003F000000 State.reset).voices.get 5).osc.pitch1 = linParam 19 0x3F000000#32 ∧
    ((after 0x390000003F000000 State.reset).voices.get 5).osc.pitch2 = linParam 20 0x3F000000#32 ∧
    ((after 0x440000003F000000 State.reset).voices.get 5).osc.mixNoise = linParam 31 0x3F000000#32 ∧
    ((after 0x710000003F000000 State.reset).voices.get 5).bendUp = linParam 55 0x3F000000#32 ∧
    ((after 0x720000003F000000 State.reset).voices.get 5).bendDown = linParam 56 0x3F000000#32 :=
  ⟨rfl, rfl, rfl, rfl, rfl, rfl, rfl⟩

/-- The logarithmic parameters store the image of their operand under their own range (R387, R425 and on). -/
theorem test_logarithmic_parameters :
    (after 0x270000003F000000 State.reset).g.vib.freq = logParam 8 0x3F000000#32 ∧
    ((after 0x600000003F000000 State.reset).voices.get 5).ampEnv.attack = logParam 46 0x3F000000#32 ∧
    ((after 0x670000003F000000 State.reset).voices.get 5).fltEnv.release = logParam 53 0x3F000000#32 ∧
    ((after 0x700000003F000000 State.reset).voices.get 5).porta = logParam 54 0x3F000000#32 :=
  ⟨rfl, rfl, rfl, rfl⟩

/-! ### The tick with no voice sounding (T6, P2) -/

theorem test_tick_smooths :
    (nextOf (exec .tick (withG (fun g => { g with fs := 0x473B8000#32, smCutoff := ⟨0x42700000#32, 0#32⟩ }) cfg))).g.smCutoff.state
      = fmul 0x42700000#32 (fmul smoothK (fdiv smoothRefHz 0x473B8000#32)) := by
  rw [show exec .tick (withG (fun g => { g with fs := 0x473B8000#32, smCutoff := ⟨0x42700000#32, 0#32⟩ }) cfg) =
      execTick (withG (fun g => { g with fs := 0x473B8000#32, smCutoff := ⟨0x42700000#32, 0#32⟩ }) cfg) from rfl]
  rw [execTick, if_pos (withG_configured cfg_configured rfl)]
  decide +kernel

/-! ### Delay lines (2.2) -/

theorem test_delay_one :
    feedAll (⟨Vec.replicate 1 0, 0⟩ : DelayLine Nat 1) [5, 6, 7] = [0, 5, 6] := by decide
theorem test_delay_two : feedAll (⟨Vec.replicate 2 0, 0⟩ : DelayLine Nat 2) [1, 2, 3, 4] = [0, 0, 1, 2] := by decide
theorem test_delay_four :
    feedAll (⟨Vec.replicate 4 0, 0⟩ : DelayLine Nat 4) [1, 2, 3, 4, 5] = [0, 0, 0, 0, 1] := by decide
theorem test_delay_flush_keeps_position :
    DelayLine.flush 0 (⟨⟨[3, 4], rfl⟩, 1⟩ : DelayLine Nat 2) = ⟨⟨[0, 0], rfl⟩, 1⟩ := by decide
theorem test_delay_bool :
    feedAll (⟨Vec.replicate 2 false, 0⟩ : DelayLine Bool 2) [true, false, false] = [false, false, true] := by decide

/-! ### Injector and drain (2.3, the toy table `[0, 0.25, 0]`) -/

def toyTable (k : Nat) : F32 := if k = 1 then 0x3E800000#32 else 0#32

def toyPrim (r : Vec F32 2) (b : Fin 2) : OscPrim 1 := ⟨r, b, ⟨Vec.replicate 1 0#32, 0⟩, false⟩

theorem test_inject_half :
    ((toyPrim (Vec.replicate 2 0#32) 0).mixIn toyTable 1 0x3F000000#32 0xBF800000#32).ring.toList
      = [0xBE000000#32, 0xBE000000#32] := by decide +kernel
theorem test_inject_zero :
    ((toyPrim (Vec.replicate 2 0#32) 0).mixIn toyTable 1 0#32 0x40000000#32).ring.toList = [0#32, 0x3F000000#32] := by
  decide +kernel
theorem test_inject_wraps :
    ((toyPrim (Vec.replicate 2 0#32) 1).mixIn toyTable 1 0#32 0x40000000#32).ring.toList = [0x3F000000#32, 0#32] := by
  decide +kernel
theorem test_inject_clamps :
    ((toyPrim (Vec.replicate 2 0#32) 0).mixIn toyTable 1 0x3FC00000#32 0x3F800000#32).ring.toList
      = [0x3E000000#32, 0#32] := by decide +kernel
theorem test_drain_twice :
    (drain (toyPrim ⟨[0xBE000000#32, 0xBE000000#32], rfl⟩ 0) 2).1 = [0xBE000000#32, 0xBE000000#32] := by decide +kernel

/-! ### Waveforms and oscillator events (2.4, 2.5) -/

theorem test_saw_wave : sawWave 0x3F400000#32 = 0x3E800000#32 := by decide +kernel
theorem test_pulse_wave_at_width : pulseWave 0x3F000000#32 0x3F000000#32 = 0xBF000000#32 := by decide +kernel
theorem test_tri_wave : triWave 0x3F000000#32 = 0x3F000000#32 := by decide +kernel
theorem test_saw_leader_no_wrap :
    sawLeader (toyPrim (Vec.replicate 2 0#32) 0) 0x3F400000#32 0x3E800000#32 = toyPrim (Vec.replicate 2 0#32) 0 := by
  decide +kernel
/-- 2.4, third row: a wrap exactly at 1, a step of −1 at fraction 0. -/
theorem test_saw_leader_wrap (P : OscPrim 1) :
    sawLeader P 0x3F800000#32 0x3E800000#32 = P.mixInImpulseCenter 0#32 0xBF800000#32 := by
  unfold sawLeader
  rw [if_pos (by decide +kernel), show fdiv (fsub 0x3F800000#32 f1) 0x3E800000#32 = 0#32 by decide +kernel,
    show fNegOne = 0xBF800000#32 by decide +kernel]
/-- R150 by hand: from 0.75 with delta 0.25 and fraction 0.25, p = 0.6875 and the step is −0.6875. -/
theorem test_saw_follower_reset (P : OscPrim 1) :
    sawFollower P 0x3F400000#32 0x3E800000#32 true 0x3E800000#32 = P.mixInImpulseCenter 0x3E800000#32 0xBF300000#32 := by
  unfold sawFollower
  rw [if_pos rfl, if_neg (by decide +kernel)]
  congr 1
theorem test_follower_reset_phase :
    followerPhase 0x3F400000#32 0x3E800000#32 true 0x3E800000#32 = 0x3D800000#32 := by decide +kernel
theorem test_follower_free_phase : followerPhase 0x3F400000#32 0x3E800000#32 false 0#32 = 0x3F400000#32 := by
  decide +kernel
theorem test_width_low : pulseWidth 0x3CF5C28F#32 0#32 = lit 1 10 := by decide +kernel
theorem test_width_high : pulseWidth 0x3FB33333#32 0#32 = 0x3F800000#32 := by decide +kernel
theorem test_wave_none : selectWave false false 1#32 2#32 3#32 = 3#32 := by decide
theorem test_wave_both : selectWave true true 0x3F000000#32 0x3E800000#32 0#32 = 0x3F400000#32 := by decide +kernel

/-- R185: a semitone index of 0 at 48 kHz is an increment of 440/48000 (R171). -/
theorem test_worked_example_increment :
    OscBlock.delta1 OscBlock.cleared 0x473B8000#32 0#32 0#32 = fdiv (lit 440 1) 0x473B8000#32 := by
  rw [OscBlock.delta1, show OscBlock.semitones OscBlock.cleared 0#32 OscBlock.cleared.pitch1 0#32 OscBlock.cleared.tuneSlop1
    = 0#32 by decide +kernel, pitchHz, numExp_zero (by decide +kernel)]
  decide +kernel
/-- R185: from phase 0.995 the wrap leaves 0.004166… and the sync fraction 0.4545…. -/
theorem test_worked_example_wrap :
    let d1 := fdiv (lit 440 1) 0x473B8000#32
    let x := fadd (lit 995 1000) d1
    fle f1 x = true ∧ flt (lit 4166 1000000) (fsub x f1) = true ∧ flt (fsub x f1) (lit 4168 1000000) = true ∧
      flt (lit 4545 10000) (fdiv (fsub x f1) d1) = true ∧ flt (fdiv (fsub x f1) d1) (lit 4546 10000) = true := by
  decide +kernel

/-! ### Envelope steps (2.6) -/

def ctx : EnvCtx := ⟨0x473B8000#32, 0x3F800000#32⟩

theorem test_env_decay :
    (Env.processSample ctx { Env.cleared with state := .decay, value := 0x3F000000#32, coef := 0xBF000000#32 }).value
      = 0x3E800000#32 := by decide +kernel
theorem test_env_decay_end :
    (Env.processSample ctx { Env.cleared with state := .decay, value := 0x3F000000#32, sustain := 0x3F000000#32 }).state
      = .sustain := by decide +kernel
theorem test_env_sustain_cap :
    (Env.processSample ctx { Env.cleared with state := .sustain, sustain := 0x3F800000#32 }).value = lit 9 10 := by
  decide +kernel
theorem test_env_sustain_level :
    (Env.processSample ctx { Env.cleared with state := .sustain, sustain := 0x3E99999A#32 }).value = lit 3 10 := by
  decide +kernel
theorem test_env_release_end :
    (Env.processSample ctx { Env.cleared with state := .release, value := lit 19 1000000 }).state = .silent := by
  decide +kernel
theorem test_env_release_step :
    (Env.processSample ctx { Env.cleared with state := .release, value := 0x3F000000#32, coef := 0xBF000000#32 }).value
      = 0x3E800000#32 := by decide +kernel
theorem test_env_trigger_release_silent : Env.triggerRelease ctx Env.cleared = Env.cleared := by decide +kernel

/-! ### LFO, filter helpers, quantisers, smoother (2.7 to 2.9) -/

theorem test_lfo_no_wrap :
    Lfo.wraps 0x473B8000#32 0#32 { Lfo.cleared with freq := 0x40C00000#32 } = false := by decide +kernel
theorem test_lfo_wrap :
    Lfo.wraps 0x473B8000#32 0#32 { Lfo.cleared with freq := 0x40C00000#32, phase := lit 31412 10000 } = true := by
  decide +kernel
theorem test_lfo_pair_zero : lfoPair 0#32 0x3F800000#32 0x3F800000#32 = 0#32 := by decide +kernel
theorem test_one_pole : tptStage 0#32 0x3F800000#32 0x3F800000#32 = (0x3F000000#32, 0x3F800000#32) := by decide +kernel
theorem test_one_pole_fixed : tptStage 0x3F800000#32 0x3F800000#32 0x3E800000#32 = (0x3F800000#32, 0x3F800000#32) := by
  decide +kernel
theorem test_tap_middle : mm4 0x3F000000#32 1#32 0x40000000#32 0x40800000#32 9#32 = 0x40400000#32 := by decide +kernel
theorem test_bool_half : boolParam 0x3F000000#32 = false := by decide +kernel
theorem test_bool_above : boolParam 0x3F000001#32 = true := by decide +kernel
theorem test_counts :
    (countParam 0#32).val = 1 ∧ (countParam 0x3E800000#32).val = 9 ∧ (countParam 0x3F000000#32).val = 17 ∧
      (countParam 0x3F800000#32).val = 32 := by decide +kernel
theorem test_count_eight : (countParam 0x3E67381D#32).val = 8 := by decide +kernel
theorem test_enum4 :
    [0#32, 0x3E800000#32, 0x3F000000#32, 0x3F400000#32, 0x3F800000#32].map (enumParam 4) = [0, 1, 2, 3, 3] := by
  decide +kernel
theorem test_enum3 : [0#32, lit 34 100, lit 67 100, 0x3F800000#32].map (enumParam 3) = [0, 1, 2, 2] := by decide +kernel
theorem test_smoother_fixed : (Smoother.step 0x473B8000#32 ⟨0x42700000#32, 0x42700000#32⟩).state = 0x42700000#32 := by
  decide +kernel
theorem test_cutoff_ceiling :
    cutoffCeiling ⟨0x473B8000#32, false, 0#32, defaultTuning, 0#32, 0#32⟩ false 0x47C35000#32 = lit 23880 1 := by
  decide +kernel
theorem test_cutoff_cap :
    cutoffCeiling ⟨0x473B8000#32, false, 0#32, defaultTuning, 0#32, 0#32⟩ true (lit 21000 1) = lit 19000 1 := by
  decide +kernel

/-! ### Scheduler traces (2.10, P1) -/

def four : VoiceCount := ⟨4, by decide⟩
def three : VoiceCount := ⟨3, by decide⟩
def two : VoiceCount := ⟨2, by decide⟩

/-- T1. -/
theorem test_queue : (vqNext three 0, vqNext three 1, vqNext three 2) = (1, 2, 0) := by decide
/-- T2, step 1. -/
theorem test_noteon_first :
    let t := (poly four cfg).setNoteOn 60 0x3F4CCCCD#32
    (t.voices.get 0).note = 60 ∧ (t.voices.get 0).velocity = 0x3F4CCCCD#32 ∧ t.g.vqIdx = 1 ∧
      t.g.asPlayedCounter = 1#64 ∧ t.g.voiceAge.get 60 = 1#64 ∧ (t.voices.get 1).active = false := by decide +kernel
/-- T3: the voice with the older note is taken and the note is counted. -/
def stealing : State :=
  withG (fun g => { g with voiceAge := (g.voiceAge.set 60 1#64).set 64 2#64, asPlayedCounter := 2#64 })
    (withV 1 (playing 64) (withV 0 (playing 60) (poly two cfg)))
theorem test_noteon_steals :
    let t := stealing.setNoteOn 67 0x3F000000#32
    (t.voices.get 0).note = 67 ∧ (t.voices.get 1).note = 64 ∧ t.g.stolen.get 60 = 1#32 ∧ t.g.asPlayedCounter = 3#64 ∧
      (t.voices.get 0).ampEnv.state = .decay := by decide +kernel
/-- T3, the note-off: the voice goes back to the key, its velocity kept. -/
theorem test_noteoff_returns :
    let t := (stealing.setNoteOn 67 0x3F000000#32).setNoteOff 67
    (t.voices.get 0).note = 60 ∧ (t.voices.get 0).velocity = 0x3F000000#32 ∧ t.g.stolen.get 60 = 0#32 ∧
      t.g.stolen.get 67 = 0#32 := by decide +kernel
/-- T4. -/
def unisonReady : State := withG (fun g => { g with uni := true, univc := three }) (poly four cfg)
theorem test_unison_noteon :
    let t := unisonReady.setNoteOn 60 0x3F800000#32
    (t.voices.get 2).note = 60 ∧ (t.voices.get 2).active = true ∧ (t.voices.get 3).active = false ∧ t.g.vqIdx = 3 := by
  decide +kernel
/-- Unison of three at polyphony 4 with voices 0, 1 and 3 sounding on notes of age 3, 1 and 2, the cursor on voice 3. -/
def mixedUnison : State :=
  withG (fun g => { g with
      uni := true, univc := three, vqIdx := 3, asPlayedCounter := 3#64
      voiceAge := ((g.voiceAge.set 60 3#64).set 62 1#64).set 64 2#64 })
    (withV 3 (playing 64) (withV 1 (playing 62) (withV 0 (playing 60) (poly four cfg))))
/-- R310: three needed, one available: the voices of ages 1 and 2 are stolen and counted, the free voice 2 is taken. -/
theorem test_unison_steals_and_takes :
    let t := mixedUnison.setNoteOn 67 0x3F800000#32
    (t.voices.get 0).note = 60 ∧ (t.voices.get 1).note = 67 ∧ (t.voices.get 2).note = 67 ∧ (t.voices.get 3).note = 67 ∧
      t.g.stolen.get 60 = 0#32 ∧ t.g.stolen.get 62 = 1#32 ∧ t.g.stolen.get 64 = 1#32 ∧ t.g.vqIdx = 3 := by
  decide +kernel
/-- T5: with the pedal down a note-off releases nothing. -/
theorem test_pedal_holds :
    let t := (withV 0 (playing 60) (poly two cfg)).sustainOn.setNoteOff 60
    (t.voices.get 0).gate = false ∧ (t.voices.get 0).ampEnv.state = .decay := by decide +kernel
theorem test_pedal_releases :
    let t := ((withV 0 (playing 60) (poly two cfg)).sustainOn.setNoteOff 60).sustainOff
    (t.voices.get 0).sustHold = false ∧ (t.voices.get 0).ampEnv.state = .release := by decide +kernel
theorem test_allnotesoff :
    let t := (withV 0 (playing 60) (poly two cfg)).allNotesOff
    (t.voices.get 0).gate = false ∧ (t.voices.get 0).active = true ∧ (t.voices.get 0).fltEnv.state = .release := by
  decide +kernel
theorem test_allsoundoff :
    let t := (withV 0 (playing 60) (poly two cfg)).allSoundOff
    (t.voices.get 0).active = false ∧ (t.voices.get 0).ampEnv.state = .silent := by decide +kernel
/-- A not sounding voice flushes its envelope lines at a note-on (R271). -/
theorem test_noteon_flushes :
    (Voice.noteOn 0x473B8000#32 60 0x3F800000#32
      { Voice.cleared 0 with dlAenv1 := ⟨Vec.replicate 1 0x3F800000#32, 0⟩ }).dlAenv1.buf.toList = [0#32] := by
  decide +kernel

/-! ### Listings and pseudo-commands (30_encoding.md R110 to R112) -/

theorem test_listing_pan : listing 0x250300003F000000#64 = some "PAN 0x03, #0x3F000000" := by decide +kernel
theorem test_listing_noteon : listing 0x103C00003F4CCCCD#64 = some "NOTEON 0x3C, 0x00, #0x3F4CCCCD" := by decide +kernel
theorem test_listing_tick : listing 0x0200000000000000#64 = some "TICK" := by decide +kernel
theorem test_listing_illegal : listing 0#64 = none := by decide +kernel
/-- R111 and 95_test_vectors.md P0. -/
theorem test_boot_words : ((boot 0x473B8000#32 0x42F00000#32).take 12).map encode =
  [0x01000000473B8000#64, 0x0300000000000000#64, 0x0400000042F00000#64, 0x2000000000000000#64, 0x2100000000000000#64,
   0x2200000000000000#64, 0x2300000000000000#64, 0x2400000000000000#64, 0x2500000000000000#64, 0x2501000000000000#64,
   0x2502000000000000#64, 0x2503000000000000#64] := by decide +kernel
theorem test_boot_length : (boot f0 f0).length = 67 + Config.modCount := by
  simp [boot, setPlayhead, initParams, initGlobals, initVoices]; omega

/-! ### Witnesses: a state and operands that meet the hypotheses of each statement -/

/-- A playing voice 0 on note 60, phases at the ends of their range. -/
def one : State :=
  withV 0 (fun v => { playing 60 v with osc := { v.osc with x1 := 0x3F7FFFFF#32, x2 := 0x80000000#32 } }) cfg

theorem one_configured : one.configured = true := withV_configured cfg_configured

theorem one_voice (i : Fin 32) (h : 0 ≠ i) : one.voices.get i = Voice.cleared (5 * i.val) := by
  unfold one withV
  rw [show ∀ s : State, ∀ v, (s.setVoice 0 v).voices = s.voices.set 0 v from fun _ _ => rfl, Vec.get_set_ne _ _ h]
  simp [cfg, State.reset, State.resetWith]

theorem witness_EncodeOfDecode : decode 0x103CFF003F4CCCCD#64 = .ok (.noteon 60#8 255#8 0x3F4CCCCD#32) := by rfl

theorem witness_WordIsCommandOfItsRow :
    decode 0x103CFF003F4CCCCD#64 = .ok (.noteon 60#8 255#8 0x3F4CCCCD#32) ∧
    0x103CFF003F4CCCCD#64 &&& (Instr.noteon 0#8 0#8 0#32).rowMask = (Instr.noteon 0#8 0#8 0#32).rowMatch ∧
    0x103CFF003F4CCCCD#64 &&& (Instr.noteon 1#8 1#8 1#32).rowMask = (Instr.noteon 1#8 1#8 1#32).rowMatch := by
  decide

theorem witness_IllegalWord :
    (∀ i : Instr, 0x200000013F000000#64 &&& i.rowMask ≠ i.rowMatch) ∧
    (State.reset.withFetchWord 64 0x200000013F000000).inputs = .command 0x200000013F000000#64 :: [] := by
  refine ⟨fun i => ?_, by decide⟩
  cases i <;> (simp only [Instr.rowMask, Instr.rowMatch]; decide)

theorem witness_StepRuns :
    (State.reset.withFetchWord 64 0x0200000000000000).inputs = .command 0x0200000000000000#64 :: [] ∧
    decode 0x0200000000000000#64 = .ok .tick := ⟨by decide, by rfl⟩

theorem witness_HostInputs :
    State.reset.inputs = [] ∧ { State.reset with inputs := [.reset] }.inputs = .reset :: [] ∧
    { State.reset with inputs := [.tuning defaultTuning] }.inputs = .tuning defaultTuning :: [] := ⟨rfl, rfl, rfl⟩

theorem witness_OutOfRange : (Instr.noteoff 128#8 0#8 0x3F000000#32).wellFormed = false := by decide +kernel

theorem witness_Unconfigured :
    Instr.tick.mnemonic ∈ ["TICK", "NOTEON", "NOTEOFF", "SUSTON", "SUSTOFF", "ALLNOTESOFF", "ALLSOUNDOFF"] ∧
    Instr.tick.wellFormed = true ∧
    ∃ id : RegId, id ∈ RegId.all ∧
      id ∉ (withG (fun g => { g with written := RegId.all.filter (· ≠ .legato) }) cfg).g.written :=
  ⟨by decide, rfl, .legato, RegId.mem_all _, by simp [withG]⟩

theorem tick_idle : ∃ t, cfg.tick = .ok t := ⟨_, rfl⟩

theorem exec_tick_idle : ∃ t, exec .tick cfg = .next t := by
  obtain ⟨t, h⟩ := tick_idle
  exact ⟨t, by simp [exec, execTick, cfg_configured, h]⟩

theorem witness_Accepted :
    (Instr.noteon 127#8 0#8 0x3F800000#32 ≠ .tick ∧ (Instr.noteon 127#8 0#8 0x3F800000#32).wellFormed = true ∧
      cfg.configured = true) ∧
    (Instr.volume 0x80000000#32 ≠ .tick ∧ (Instr.volume 0x80000000#32).wellFormed = true ∧
      (Instr.volume 0x80000000#32).needsConfigured = false) ∧
    (cfg.configured = true ∧ ∃ t, exec .tick cfg = .next t) :=
  ⟨⟨by decide, by decide +kernel, cfg_configured⟩, ⟨by decide, by decide +kernel, rfl⟩, cfg_configured, exec_tick_idle⟩

theorem witness_Sticky :
    let s := (raise .operandRange 1#64 State.reset).withFetchWord 64 0
    s.fault.valid = true ∧ (∀ rest, s.inputs ≠ .reset :: rest) ∧ ∃ t, step s = .next t :=
  ⟨rfl, fun _ => nofun, _, rfl⟩

/-- Voice 0 sounding with a phase outside `[0, 1)`: whatever the increments, the tick has no successor. -/
def stuck : State := withV 0 (fun v => { playing 60 v with osc := { v.osc with x1 := 0x40000000#32 } }) cfg

theorem halfSample_stuck (s : State) (a : F32) (hc : s.g.totalvc.val = 1) (hq : s.g.vqIdx = 0)
    (ha : (s.voices.get 0).active = true) (hx : flt (s.voices.get 0).osc.x1 f1 = false) :
    s.halfSample a = .error .phaseIncrementOutOfRange := by
  have hp : ∀ fsI semi p1 p2 m1 m2 d, (s.voices.get 0).osc.process fsI semi p1 p2 m1 m2 d =
      .error .phaseIncrementOutOfRange := by
    intros; simp [OscBlock.process, phaseOk, hx]
  have hv : ∀ c d, (s.voices.get 0).processSample c d = .error .phaseIncrementOutOfRange := by
    intro c d; simp only [Voice.processSample, hp]; rfl
  simp only [State.halfSample, hc, runVoices, Mix.queueStep, hq, ha, hv, if_true, Except.bind]

theorem stuck_tick : stuck.tick = .error .phaseIncrementOutOfRange := by
  rw [State.tick, halfSample_stuck stuck.smooth _ (by decide +kernel) (by decide +kernel) (by decide +kernel)
    (by decide +kernel)]

theorem witness_OnlyAConfiguredTickCanStop :
    Instr.suston ≠ .tick ∧ State.reset.configured = false ∧
    ∃ e, step (stuck.withFetchWord 64 0x0200000000000000) = .fault e := by
  refine ⟨by decide, reset_not_configured, .phaseIncrementOutOfRange, ?_⟩
  have : step (stuck.withFetchWord 64 0x0200000000000000) = execTick stuck := by rfl
  rw [this, execTick, if_pos (show stuck.configured = true from withV_configured cfg_configured), stuck_tick]

theorem witness_WrittenOnlyGrow :
    let s := cfg.withFetchWord 64 0x200000003F000000
    (∀ rest, s.inputs ≠ .reset :: rest) ∧ s.configured = true ∧ ∃ t, step s = .next t :=
  ⟨fun _ => nofun, cfg_configured, _, rfl⟩

theorem step_one : ∃ t, step (one.withFetchWord 64 0x210000003F800000) = .next t := ⟨_, rfl⟩

theorem one_active (i : Fin 32) (h : (one.voices.get i).active = true) : i = 0 := by
  by_contra hn
  rw [one_voice i (Ne.symm hn)] at h
  simp [Voice.cleared] at h

theorem all_canonical : WrittenCanonical RegId.all := by
  have h1 : WrittenCanonical (RegId.globalIds ++ RegId.voiceIds) := by unfold WrittenCanonical; decide +kernel
  have h2 : ∀ a ∈ RegId.globalIds ++ RegId.voiceIds, a.index < 17400 := by decide +kernel
  unfold WrittenCanonical RegId.all
  rw [← List.append_assoc, List.pairwise_append]
  refine ⟨h1, ?_, fun a ha b hb => ?_⟩
  · rw [List.pairwise_map]
    exact (List.pairwise_lt_finRange _).imp fun h => by simpa [RegId.index] using h
  · obtain ⟨m, -, rfl⟩ := List.mem_map.1 hb
    exact Nat.lt_of_lt_of_le (h2 a ha) (Nat.le_add_right _ _)

theorem witness_StateInvariant :
    (one.withFetchWord 64 0x210000003F800000).Inv ∧ ∃ t, step (one.withFetchWord 64 0x210000003F800000) = .next t := by
  refine ⟨⟨by decide +kernel, fun i h => ?_, by unfold Lfo.VibratoFixed; decide +kernel, by decide +kernel, by decide +kernel, all_canonical,
    Or.inl (by decide +kernel)⟩, step_one⟩
  rw [one_active i h]
  decide +kernel

theorem witness_PhasesInRange :
    (one.withFetchWord 64 0x210000003F800000).PhasesInRange ∧
      ∃ t, step (one.withFetchWord 64 0x210000003F800000) = .next t := by
  have hf : fracInRange f0 = true := by decide +kernel
  refine ⟨fun i => ?_, step_one⟩
  show (one.voices.get i).osc.Good
  by_cases h : 0 = i
  · subst h
    refine ⟨by decide +kernel, by decide +kernel, fun k => ?_⟩
    have : (one.voices.get 0).osc.dlSyncFrac = DelayLine.cleared Config.samples_pos f0 := by rfl
    rw [this]
    simpa [DelayLine.cleared] using hf
  · rw [one_voice i h]
    have hz : phaseInRange f0 = true := by decide +kernel
    refine ⟨hz, hz, fun k => ?_⟩
    simpa [Voice.cleared, OscBlock.cleared, DelayLine.cleared] using hf

theorem witness_GatedSound :
    (one.withFetchWord 64 0x210000003F800000).GatedSound ∧ (one.voices.get 0).gate = true ∧
      ∃ t, step (one.withFetchWord 64 0x210000003F800000) = .next t := by
  refine ⟨fun i h => ?_, by decide +kernel, step_one⟩
  show _ ∧ (one.voices.get i).ampEnv.Held ∧ (one.voices.get i).fltEnv.Held
  change (one.voices.get i).gate = true at h
  have : i = 0 := by
    by_contra hn
    rw [one_voice i (Ne.symm hn)] at h
    simp [Voice.cleared] at h
  subst this
  exact ⟨by decide +kernel, Or.inr (Or.inl (by decide +kernel)), Or.inr (Or.inl (by decide +kernel))⟩

theorem witness_WhatEachCommandMayWrite :
    (∃ t, exec (.volume 0#32) State.reset = .next t) ∧ (∃ t, exec .tick cfg = .next t) ∧
    (Instr.volume 0#32 ≠ .tick ∧ (∀ hz, Instr.volume 0#32 ≠ .setrate hz) ∧ (∀ p, Instr.volume 0#32 ≠ .playpos p) ∧
      ∀ n c v, Instr.volume 0#32 ≠ .noteon n c v) :=
  ⟨⟨_, rfl⟩, exec_tick_idle, by decide, fun _ => nofun, fun _ => nofun, fun _ _ _ => nofun⟩

theorem witness_RateAndTempoRanges :
    rateRange 0x00000001#32 = true ∧ rateRange 0x7F7FFFFF#32 = true ∧ rateRange 0x00000000#32 = false ∧
    rateRange 0x7F800000#32 = false ∧ tempoRange 0x80000000#32 = true ∧ tempoRange 0x7F7FFFFF#32 = true ∧
    tempoRange 0x80000001#32 = false ∧ tempoRange 0x7F800000#32 = false ∧ (0 : Nat) < (0x0001#8).toNat ∧
    1 < (2#8).toNat := by decide +kernel

theorem witness_ValueRanges :
    unitRange 0x00000000#32 = true ∧ unitRange 0x80000000#32 = true ∧ unitRange 0x3F800000#32 = true ∧
    unitRange 0x3F800001#32 = false ∧ unitRange 0x80000001#32 = false ∧ unitRange 0x7FC00000#32 = false ∧
    bipolarRange 0xBF800000#32 = true ∧ bipolarRange 0x3F800000#32 = true ∧ bipolarRange 0xBF800001#32 = false ∧
    positionRange 0xFF7FFFFF#32 = true ∧ positionRange 0xFF800000#32 = false ∧ (7#8).toNat = (7 : Fin 8).val ∧
    7 < (8#8).toNat := by decide +kernel

theorem witness_RequiredZeroFields : (0#8 ≠ 0#8 ∨ 0#8 ≠ 0#8 ∨ 1#8 ≠ 0#8) ∧ (1#8 ≠ 0#8 ∨ 0#8 ≠ 0#8) ∧ 1#56 ≠ 0#56 := by
  decide

/-- The middle voice of three is sounding and the cursor stands on it. -/
def busy : State := withG (fun g => { g with vqIdx := 1 }) (withV 1 (playing 60) (poly three cfg))

theorem busy_configured : busy.configured = true :=
  withG_configured (withV_configured (withG_configured cfg_configured rfl)) rfl

theorem noteOk {s : State} (h : s.configured = true) : NoteOk s 127#8 0x3F800000#32 :=
  ⟨h, by decide, by decide +kernel⟩

theorem witness_NoteonTakesTheNextFreeVoice :
    NoteOk busy 127#8 0x3F800000#32 ∧ busy.g.uni = false ∧ busy.g.vqIdx.val < busy.g.totalvc.val ∧
    1 < busy.g.totalvc.val ∧ (∀ m < 1, ∀ i : Fin 32, i.val = queueAt busy m → (busy.voices.get i).active = true) ∧
    (2 : Fin 32).val = queueAt busy 1 ∧ (busy.voices.get 2).active = false := by
  refine ⟨noteOk busy_configured, ?_⟩
  decide +kernel

theorem witness_NoteonStealsTheOldestNote :
    NoteOk stealing 127#8 0x3F800000#32 ∧ stealing.g.uni = false ∧
    (∀ i : Fin 32, i.val < stealing.g.totalvc.val → (stealing.voices.get i).active = true) ∧
    (0 : Fin 32).val < stealing.g.totalvc.val ∧
    (∀ i : Fin 32, i.val < stealing.g.totalvc.val →
      let age (i : Fin 32) : Nat :=
        ((aged (noteOf 127#8) stealing.g).voiceAge.get (noteEntry (stealing.voices.get i).note)).toNat
      age 0 < age i ∨ age 0 = age i ∧ (0 : Fin 32).val ≤ i.val) := by
  refine ⟨noteOk (withG_configured (withV_configured (withV_configured (withG_configured cfg_configured rfl))) rfl), ?_⟩
  decide +kernel

/-- Two voices on one note: equal ages, the lower index is taken. -/
def tied : State := withV 1 (playing 60) (withV 0 (playing 60) (poly two cfg))

theorem witness_NoteonStealsTheOldestNote_tie :
    NoteOk tied 127#8 0x3F800000#32 ∧ tied.g.uni = false ∧
    (∀ i : Fin 32, i.val < tied.g.totalvc.val → (tied.voices.get i).active = true) ∧
    (∀ i : Fin 32, i.val < tied.g.totalvc.val →
      let age (i : Fin 32) : Nat := ((aged (noteOf 127#8) tied.g).voiceAge.get (noteEntry (tied.voices.get i).note)).toNat
      age 0 < age i ∨ age 0 = age i ∧ (0 : Fin 32).val ≤ i.val) := by
  refine ⟨noteOk (withV_configured (withV_configured (withG_configured cfg_configured rfl))), ?_⟩
  decide +kernel

theorem witness_NoteonShortfall :
    NoteOk mixedUnison 127#8 0x3F800000#32 ∧ mixedUnison.g.vqIdx.val < mixedUnison.g.totalvc.val ∧
    neededVoices mixedUnison = 3 ∧ availVoices mixedUnison = 1 ∧
    (isStolen (noteOf 127#8) mixedUnison 1 = true ∧ isStolen (noteOf 127#8) mixedUnison 3 = true) ∧
    isStolen (noteOf 127#8) mixedUnison 0 = false ∧ isPlaced mixedUnison 2 ∧
    ¬isPlaced mixedUnison 0 ∧ freeBefore mixedUnison 3 = 0 ∧ freeBefore mixedUnison 4 = 1 := by
  refine ⟨noteOk (withG_configured (withV_configured (withV_configured (withV_configured
    (withG_configured cfg_configured rfl)))) rfl), by decide +kernel, by decide +kernel, by decide +kernel,
    by decide +kernel, by decide +kernel, by unfold isPlaced; decide +kernel, by unfold isPlaced; decide +kernel,
    by decide +kernel, by decide +kernel⟩

theorem witness_UnisonNoteon :
    NoteOk unisonReady 127#8 0x3F800000#32 ∧ unisonReady.g.uni = true ∧
    unisonReady.g.vqIdx.val < unisonReady.g.totalvc.val ∧ AllIdle unisonReady := by
  refine ⟨noteOk (withG_configured (withG_configured cfg_configured rfl) rfl), by decide +kernel, by decide +kernel, ?_⟩
  unfold AllIdle
  decide +kernel

theorem witness_NoteonConserves :
    one.Inv ∧ (∀ k, (one.g.stolen.get k).toNat + 32 < 2 ^ 32) ∧ (∃ t, exec (.noteon 127#8 0#8 0x3F800000#32) one = .next t) ∧
    ∃ i, (one.voices.get i).active = true ∧ (one.voices.get i).note = 60 := by
  refine ⟨⟨by decide +kernel, fun i h => ?_, by unfold Lfo.VibratoFixed; decide +kernel, by decide +kernel, by decide +kernel, all_canonical,
    Or.inl (by decide +kernel)⟩, by decide +kernel, ⟨_, rfl⟩, 0, by decide +kernel⟩
  rw [one_active i h]
  decide +kernel

theorem witness_NoteoffWithNoPendingKey :
    NoteOk one 60#8 0#32 ∧ (∀ k : Fin 128, k ≠ noteOf 60#8 → one.g.stolen.get (noteEntry k) = 0#32) ∧
    (0 : Fin 32).val < one.g.totalvc.val ∧ (one.voices.get 0).gate = true ∧ (one.voices.get 0).note = noteOf 60#8 := by
  refine ⟨⟨one_configured, by decide, by decide +kernel⟩, ?_⟩
  decide +kernel

/-- Keys 62 and 64 are pending, 64 the later one. -/
def pendingTwo : State :=
  withG (fun g => { g with
    voiceAge := (g.voiceAge.set 62 1#64).set 64 2#64, stolen := (g.stolen.set 62 1#32).set 64 1#32 }) one

theorem pendingTwo_configured : pendingTwo.configured = true := withG_configured one_configured rfl

theorem witness_NoteoffPending :
    NoteOk pendingTwo 60#8 0#32 ∧ (0 : Fin 32).val < pendingTwo.g.totalvc.val ∧
    (∀ m : Fin 32, m.val < pendingTwo.g.totalvc.val →
      ((pendingTwo.voices.get m).gate = true ∧ (pendingTwo.voices.get m).note = noteOf 60#8 ↔ m = 0)) ∧
    (64 : Fin 128) ≠ noteOf 60#8 ∧ 0 < (pendingTwo.g.stolen.get (noteEntry 64)).toNat ∧
    (∀ m : Fin 128, m ≠ noteOf 60#8 → m ≠ 64 → 0 < (pendingTwo.g.stolen.get (noteEntry m)).toNat →
      (pendingTwo.g.voiceAge.get (noteEntry m)).toNat < (pendingTwo.g.voiceAge.get (noteEntry 64)).toNat) := by
  refine ⟨⟨pendingTwo_configured, by decide, by decide +kernel⟩, ?_⟩
  decide +kernel

/-- Three unison voices gated on note 60 while keys 62 and 64 are pending, 64 the later one. -/
def unisonPending : State :=
  withV 2 (playing 60) (withV 1 (playing 60) (poly ⟨3, by decide⟩ pendingTwo))

theorem witness_NoteoffSeveral : NoteOk unisonPending 60#8 0#32 :=
  ⟨withV_configured (withV_configured (withG_configured pendingTwo_configured rfl)), by decide, by decide +kernel⟩

/-- R313 by hand: the first voice goes to the later key, the second to the earlier one, the third is released. -/
theorem test_noteoff_several :
    let t := unisonPending.setNoteOff 60
    (t.voices.get 0).note = 64 ∧ (t.voices.get 1).note = 62 ∧ (t.voices.get 1).gate = true ∧
      (t.voices.get 2).note = 60 ∧ (t.voices.get 2).gate = false ∧
      t.g.stolen.get 62 = 0#32 ∧ t.g.stolen.get 64 = 0#32 := by decide +kernel

theorem witness_StolenVoiceReturns :
    NoteOk cfg 60#8 0x3F4CCCCD#32 ∧ NoteOk cfg 62#8 0x3F000000#32 ∧ unitRange 0#32 = true ∧ 60#8 ≠ 62#8 ∧
    cfg.g.totalvc.val = 1 ∧ cfg.g.uni = false ∧ cfg.g.vqIdx = 0 ∧ (cfg.voices.get 0).active = false ∧
    ∀ k, cfg.g.stolen.get k = 0#32 := by
  refine ⟨⟨cfg_configured, by decide, by decide +kernel⟩, ⟨cfg_configured, by decide, by decide +kernel⟩, ?_⟩
  decide +kernel

theorem witness_NoteoffLeavesNoVoice : NoteOk pendingTwo 127#8 0x3F800000#32 := noteOk pendingTwo_configured

theorem witness_PedalAndPanic : State.reset.configured = false ∧ one.configured = true :=
  ⟨reset_not_configured, one_configured⟩

theorem witness_Unread :
    (∀ v, Instr.volume 0#32 ≠ .playpos v) ∧ (∀ v, Instr.volume 0#32 ≠ .voicepriority v) ∧
    NoteOk cfg 127#8 0x3F800000#32 ∧ unitRange 0x3F800000#32 = true :=
  ⟨fun _ => nofun, fun _ => nofun, noteOk cfg_configured, by decide +kernel⟩

theorem witness_Linsc : isFinite 0#32 = true ∧ isFinite (fsub (lit 120 1) 0#32) = true := by decide +kernel

theorem witness_Images :
    unitRange 0x80000000#32 = true ∧ unitRange 0x3F800000#32 = true ∧ 53 ∈ [46, 47, 49, 50, 51, 53] ∧
    52 ∈ [24, 25, 28, 29, 30, 31, 48, 52] := ⟨by decide +kernel, by decide +kernel, by decide, by decide⟩

theorem witness_Quantisers : unitRange 0x3F800000#32 = true ∧ unitRange 0#32 = true ∧ fle 0#32 0x3F800000#32 = true := by
  decide +kernel

theorem witness_DelayLine : 0 < [7, 8, 9].length ∧ 2 < [7, 8, 9].length ∧ 0 < 2 ^ 1 ∧ ¬2 < 2 ^ 1 := by decide

theorem witness_Ring :
    1 < 2 * 2 ^ 0 ∧ (0 : Fin (2 * 2 ^ 0)).val = ((toyPrim (Vec.replicate 2 0#32) 1).bP.val + 1) % (2 * 2 ^ 0) := by
  decide

/-- Positions 2.5 and −0 in tables of 3 and 4 entries: inside the last pair, and past it. -/
theorem witness_TableLookup :
    (2 ≤ 3 ∧ isFinite 0x40200000#32 = true ∧ fle 0#32 0x40200000#32 = true ∧ ffloor 0x40200000#32 = ((2 : Nat) : Int) ∧
      2 ≤ 4 - 2 ∧ 3 - 2 < 2) ∧
    isFinite 0x80000000#32 = true ∧ fle 0#32 0x80000000#32 = true ∧ ffloor 0x80000000#32 = ((0 : Nat) : Int) ∧ 0 ≤ 2 - 2 := by
  decide +kernel

/-- With every pitch at 0 and no cross-modulation both increments are 440/48000: the cleared block has a result at
48 kHz; with a phase outside `[0, 1)` it has none. -/
theorem witness_Oscillator :
    (∃ r, OscBlock.cleared.process 0x473B8000#32 0#32 0#32 0#32 0#32 0#32 0 = .ok r) ∧
    { OscBlock.cleared with x1 := 0x3F800000#32 }.process 0x473B8000#32 0#32 0#32 0#32 0#32 0#32 0 =
      .error .phaseIncrementOutOfRange ∧
    feq 0x80000000#32 0#32 = true := by
  have d1 := test_worked_example_increment
  refine ⟨?_, ?_, by decide +kernel⟩
  · have hd : phaseOk (fdiv (lit 440 1) 0x473B8000#32) 0#32 = true := by decide +kernel
    have ho : (OscBlock.cleared.leader (fdiv (lit 440 1) 0x473B8000#32) (pulseWidth 0#32 0#32)).o1 = 0#32 := by
      have ht : triLeader OscBlock.cleared.tri1 0#32 (fadd 0#32 (fdiv (lit 440 1) 0x473B8000#32))
          (fdiv (lit 440 1) 0x473B8000#32) = OscPrim.cleared Config.samples_pos := by
        unfold triLeader
        rw [if_neg (by decide +kernel), if_neg (by decide +kernel)]
        rfl
      unfold OscBlock.leader
      dsimp only [OscBlock.cleared] at ht ⊢
      rw [show f0 = 0#32 from rfl, ht]
      simp only [selectWave, OscPrim.output, OscPrim.getValue, OscPrim.aliasReduction, OscPrim.cleared, DelayLine.cleared,
        DelayLine.feedReturn, Vec.get_replicate, Bool.not_false, Bool.and_self, if_true]
      decide +kernel
    have d2 : OscBlock.cleared.delta2 0x473B8000#32 0#32 0#32 0#32 = fdiv (lit 440 1) 0x473B8000#32 := by
      rw [OscBlock.delta2, show fadd (OscBlock.semitones OscBlock.cleared 0#32 OscBlock.cleared.pitch2 0#32
        OscBlock.cleared.tuneSlop2) (fmul 0#32 OscBlock.cleared.xmod) = 0#32 by decide +kernel, pitchHz,
        numExp_zero (by decide +kernel)]
      decide +kernel
    rw [OscBlock.process_eq]
    dsimp only
    rw [d1]
    refine ⟨_, if_pos ⟨hd, ?_⟩⟩
    rw [show (pulseWidth OscBlock.cleared.pwBase1 0#32) = pulseWidth 0#32 0#32 from rfl, ho]
    exact (congrArg (fun x => phaseOk x 0#32) d2).trans hd
  · simp only [OscBlock.process]
    rw [if_neg (by simp [phaseOk, show flt 0x3F800000#32 f1 = false by decide +kernel])]

theorem witness_EnvelopeArms :
    { Env.cleared with state := .attack }.state = .attack ∧ { Env.cleared with state := .decay }.state = .decay ∧
    { Env.cleared with state := .sustain }.state = .sustain ∧ { Env.cleared with state := .release }.state = .release ∧
    Env.cleared.state = .silent := by decide

/-- Adjacent entries of the tempo table at its start, and its last entry. -/
theorem witness_SyncRatios :
    (∃ k m : Fin Config.syncLen, k.val = 0 ∧ k.val + 1 = m.val) ∧ ∃ k : Fin Config.syncLen, k.val + 1 = Config.syncLen := by
  have h : Config.syncLen = Config.syncLenPred2 + 2 := rfl
  exact ⟨⟨⟨0, by omega⟩, ⟨1, by omega⟩, rfl, rfl⟩, ⟨Config.syncLenPred2 + 1, by omega⟩, rfl⟩

theorem witness_Filter :
    Flt.cleared.fourPole = false ∧ { Flt.cleared with fourPole := true }.fourPole = true ∧
    ffloor (fmul 0x80000000#32 (lit 3 1)) ≤ 0 ∧ ffloor (fmul 0x3F000000#32 (lit 3 1)) = 1 ∧
    2 ≤ ffloor (fmul 0x3F800000#32 (lit 3 1)) := by decide +kernel

theorem witness_FilterTaps : isFinite 0x7F7FFFFF#32 = true ∧ isFinite 0x80000001#32 = true := by decide +kernel

theorem witness_Clamps :
    isNaN (fadd 0x7F800000#32 0xFF800000#32) = true ∧
    isNaN (fsub (fdiv 0x473B8000#32 (lit 2 1)) (lit 120 1)) = false ∧
    (VoiceCtx.mk 0x473B8000#32 true 0#32 defaultTuning 0#32 0#32).oversample = true := by
  refine ⟨?_, by decide +kernel, rfl⟩
  rw [show fadd 0x7F800000#32 0xFF800000#32 = freeNaN .add 0x7F800000#32 0xFF800000#32 from rfl]
  exact isNaN_freeNaN _ _ _

theorem witness_Arithmetic :
    (isFinite 0x7F7FFFFF#32 = true ∧ isFinite 0x00000001#32 = true ∧ fint 0x80000001#32 ≠ 0 ∧ fint 0x80000000#32 = 0 ∧
      isFinite 0x80000000#32 = true) ∧
    (fint 0x3F800000#32 + fint 0xBF800000#32 = 0 ∧ fint 0x80000000#32 - fint 0#32 = 0 ∧
      fint 0x80000000#32 * fint 0x7F7FFFFF#32 = 0) ∧
    (isNaN 0x7F800001#32 = true ∧ isNaN 0xFFFFFFFF#32 = true) ∧
    (0 < 1 ∧ ((0x7FEFFFFFFFFFFFFF#64).extractLsb' 52 11).toNat ≠ 2047 ∧
      ((0x8000000000000001#64).extractLsb' 52 11).toNat ≠ 2047) := by decide +kernel

theorem witness_SilentTick :
    (cfg.configured = true ∧ cfg.g.vqIdx.val < cfg.g.totalvc.val ∧ AllIdle cfg ∧ cfg.g.oversample = false) ∧
    (let s := withG (fun g => { g with oversample := true }) cfg
     s.configured = true ∧ s.g.vqIdx.val < s.g.totalvc.val ∧ AllIdle s ∧ s.g.oversample = true) := by
  refine ⟨⟨cfg_configured, by decide +kernel, ?_, by decide +kernel⟩,
    withG_configured cfg_configured rfl, by decide +kernel, ?_, by decide +kernel⟩
  · unfold AllIdle; decide +kernel
  · unfold AllIdle; decide +kernel

theorem witness_OneVoiceTick :
    one.configured = true ∧ one.g.totalvc.val = 1 ∧ one.g.vqIdx = 0 ∧ (one.voices.get 0).active = true ∧
    one.g.oversample = false := ⟨one_configured, by decide +kernel⟩

/-- Three voices, the middle one sounding and the cursor on it, in both modes. -/
theorem witness_ServingTick :
    (busy.configured = true ∧ busy.g.vqIdx.val < busy.g.totalvc.val ∧ queueOrder busy = [1, 2, 0]) ∧
    (let s := withG (fun g => { g with oversample := true }) busy
     s.configured = true ∧ s.g.vqIdx.val < s.g.totalvc.val ∧ s.g.oversample = true) :=
  ⟨⟨busy_configured, by decide +kernel, by decide +kernel⟩, withG_configured busy_configured rfl, by decide +kernel, rfl⟩

theorem witness_TickKeeps :
    cfg.configured = true ∧ cfg.g.vqIdx.val < cfg.g.totalvc.val ∧ ∃ t, exec .tick cfg = .next t :=
  ⟨cfg_configured, by decide +kernel, exec_tick_idle⟩

theorem witness_SampleStep : isFinite 0x7F7FFFFF#32 = true ∧ isFinite 0x80000000#32 = true := by decide +kernel

end Sys2Proof.Tests
end

