-- ==== Sys2Proof/Proofs/Arithmetic.lean ====
section
/-! SUPPORT. Rounding, the four operators, the comparisons and the conversions are those of IEEE 754 (`00_scope.md` R12, R13,
R15). The core is `roundedTo_roundUnits`: what `roundUnits` delivers is nearest to the exact value, ties to even. -/

namespace Sys2Proof.Machine

open Sys2Proof.Claims

/-! ### Signed magnitudes -/

/-- The integer of a sign and a magnitude: `fint` and `fkey` are both of this form. -/
def signed (s : Bool) (n : Nat) : Int := if s then -(n : Int) else (n : Int)

theorem fint_eq_signed (x : F32) : fint x = signed (fsign x) (funits x) := rfl

theorem fkey_eq_signed (x : F32) : fkey x = signed (fsign x) (fmagBits x) := rfl

@[simp] theorem natAbs_signed (s : Bool) (n : Nat) : (signed s n).natAbs = n := by cases s <;> simp [signed]

/-- An integer is its sign and its magnitude. -/
theorem signed_natAbs (i : Int) : signed (decide (i < 0)) i.natAbs = i := by
  by_cases h : i < 0
  · rw [decide_eq_true h]; show -(i.natAbs : Int) = i; omega
  · rw [decide_eq_false h]; show (i.natAbs : Int) = i; omega

@[simp] theorem signed_eq_zero {s : Bool} {n : Nat} : signed s n = 0 ↔ n = 0 := by cases s <;> simp [signed]

theorem signed_mul (s t : Bool) (m n : Nat) : signed s m * signed t n = signed (s != t) (m * n) := by
  cases s <;> cases t <;> simp [signed]

theorem signed_mul_natCast (s : Bool) (m n : Nat) : signed s m * (n : Int) = signed s (m * n) := by
  cases s <;> simp [signed]

/-- The sign of a non-zero divisor moves to the dividend. -/
theorem signed_mul_sign (s t : Bool) (m : Nat) {n : Nat} (hn : n ≠ 0) :
    signed s m * (signed t n).sign = signed (s != t) m := by
  have hp : (n : Int).sign = 1 := Int.sign_eq_one_of_pos (by omega)
  cases s <;> cases t <;> simp [signed, hp]

theorem signed_lt_zero {s : Bool} {n : Nat} (h : signed s n ≠ 0) : decide (signed s n < 0) = s := by
  have hn : n ≠ 0 := fun hn => h (signed_eq_zero.2 hn)
  cases s <;> simp [signed]
  omega

/-! ### Magnitudes near a rounded one -/

/-- A ratio lies at or above the midpoint of its rounding and any lower magnitude, and on it only in a tie. -/
theorem midpoint_le_of_lt_roundBits {n d m : Nat} (hd : 0 < d) (hm : m < roundBits n d) :
    (unitsOfBits m + unitsOfBits (roundBits n d)) * d ≤ 2 * n ∧
    ((unitsOfBits m + unitsOfBits (roundBits n d)) * d = 2 * n → roundBits n d % 2 = 0) := by
  obtain ⟨k, hk⟩ : ∃ k, roundBits n d = k + 1 := ⟨roundBits n d - 1, by omega⟩
  have hinf := roundBits_le_inf n d
  have hle : (unitsOfBits k + unitsOfBits (k + 1)) * d ≤ 2 * n := by
    by_contra hc
    have := roundBits_le hd (not_le.1 hc)
    omega
  have htie : (unitsOfBits k + unitsOfBits (k + 1)) * d = 2 * n → (k + 1) % 2 = 0 := fun h => by
    have := roundBits_tie hd (by omega) h
    omega
  have hmono : (unitsOfBits m + unitsOfBits (k + 1)) * d ≤ (unitsOfBits k + unitsOfBits (k + 1)) * d :=
    Nat.mul_le_mul_right _ (Nat.add_le_add_right (unitsOfBits_strictMono.monotone (by omega)) _)
  rw [hk]
  exact ⟨hmono.trans hle, fun h => htie (by omega)⟩

/-- A ratio lies at or below the midpoint of its rounding and any higher magnitude, and on it only in a tie. -/
theorem le_midpoint_of_roundBits_lt {n d m : Nat} (hd : 0 < d) (hfin : roundBits n d < infBits) (hm : roundBits n d < m) :
    2 * n ≤ (unitsOfBits (roundBits n d) + unitsOfBits m) * d ∧
    ((unitsOfBits (roundBits n d) + unitsOfBits m) * d = 2 * n → roundBits n d % 2 = 0) := by
  obtain ⟨k, hk⟩ : ∃ k, roundBits n d = k := ⟨_, rfl⟩
  rw [hk] at hfin hm ⊢
  have hle : 2 * n ≤ (unitsOfBits k + unitsOfBits (k + 1)) * d := by
    by_contra hc
    have := lt_roundBits hd hfin (not_le.1 hc)
    omega
  have htie : (unitsOfBits k + unitsOfBits (k + 1)) * d = 2 * n → k % 2 = 0 := fun h => by
    have := roundBits_tie hd hfin h
    omega
  have hmono : (unitsOfBits k + unitsOfBits (k + 1)) * d ≤ (unitsOfBits k + unitsOfBits m) * d :=
    Nat.mul_le_mul_right _ (Nat.add_le_add_left (unitsOfBits_strictMono.monotone hm) _)
  exact ⟨hle.trans hmono, fun h => htie (by omega)⟩

/-- Among the magnitudes the rounded one is nearest, and equally near to another only when it is even. -/
theorem roundBits_nearest {n d : Nat} (hd : 0 < d) (hfin : roundBits n d < infBits) (m : Nat) :
    ((n : Int) - (unitsOfBits (roundBits n d) * d : Nat)).natAbs ≤ ((n : Int) - (unitsOfBits m * d : Nat)).natAbs ∧
    (((n : Int) - (unitsOfBits (roundBits n d) * d : Nat)).natAbs = ((n : Int) - (unitsOfBits m * d : Nat)).natAbs →
      m ≠ roundBits n d → roundBits n d % 2 = 0) := by
  rcases Nat.lt_trichotomy m (roundBits n d) with hlt | heq | hgt
  · obtain ⟨hle, htie⟩ := midpoint_le_of_lt_roundBits hd hlt
    have hsep := Nat.mul_lt_mul_of_pos_right (unitsOfBits_strictMono hlt) hd
    rw [Nat.add_mul] at hle htie
    exact ⟨by omega, fun he _ => htie (by omega)⟩
  · exact ⟨by rw [heq], fun _ hne => absurd heq hne⟩
  · obtain ⟨hle, htie⟩ := le_midpoint_of_roundBits_lt hd hfin hgt
    have hsep := Nat.mul_lt_mul_of_pos_right (unitsOfBits_strictMono hgt) hd
    rw [Nat.add_mul] at hle htie
    exact ⟨by omega, fun he _ => htie (by omega)⟩

/-- Rounding overflows exactly from half a unit in the last place above the largest finite number. -/
theorem roundBits_eq_inf_iff {n d : Nat} (hd : 0 < d) :
    roundBits n d = infBits ↔ (unitsOfBits (infBits - 1) + unitsOfBits infBits) * d ≤ 2 * n := by
  have hlast : infBits - 1 < infBits := by decide
  constructor
  · intro h
    have := (midpoint_le_of_lt_roundBits (n := n) (m := infBits - 1) hd (by omega)).1
    rwa [h] at this
  · intro h
    have hle := roundBits_le_inf n d
    rcases Nat.lt_or_eq_of_le h with hlt | heq
    · have := lt_roundBits (m := infBits - 1) hd hlast hlt
      omega
    · have hodd : (infBits - 1) % 2 = 1 := by decide
      have := roundBits_tie (m := infBits - 1) hd hlast heq
      omega

/-! ### Rounding to nearest even -/

/-- The other sign never brings a magnitude nearer to an exact value, and not even as near as the same sign does
unless the value or the magnitude is 0. -/
theorem natAbs_signed_sub_ge (s t : Bool) (n u : Nat) :
    ((n : Int) - u).natAbs ≤ (signed s n - signed t u).natAbs ∧
    (signed s n - signed s u).natAbs = ((n : Int) - u).natAbs ∧
    ((signed s n - signed t u).natAbs = ((n : Int) - u).natAbs → s = t ∨ n = 0 ∨ u = 0) := by
  cases s <;> cases t <;> simp [signed] <;> omega

theorem fint_roundUnits (s : Bool) (n d : Nat) : fint (roundUnits s n d) = signed s (unitsOfBits (roundBits n d)) := by
  rw [fint_eq_signed, funits, fsign_roundUnits, fmagBits_roundUnits]

/-- Nearest among all finite numbers of both signs. -/
theorem roundUnits_nearest {s : Bool} {n d : Nat} (hd : 0 < d) (hfin : roundBits n d < infBits) (y : F32) :
    (signed s n - fint (roundUnits s n d) * d).natAbs ≤ (signed s n - fint y * d).natAbs ∧
    ((signed s n - fint (roundUnits s n d) * d).natAbs = (signed s n - fint y * d).natAbs →
      fint (roundUnits s n d) ≠ fint y → roundBits n d % 2 = 0) := by
  obtain ⟨hle, htie⟩ := roundBits_nearest hd hfin (fmagBits y)
  rw [fint_roundUnits, fint_eq_signed y, funits, signed_mul_natCast, signed_mul_natCast]
  obtain ⟨-, hr, -⟩ := natAbs_signed_sub_ge s s n (unitsOfBits (roundBits n d) * d)
  obtain ⟨hy, -, hsign⟩ := natAbs_signed_sub_ge s (fsign y) n (unitsOfBits (fmagBits y) * d)
  rw [hr]
  refine ⟨hle.trans hy, fun he hne => ?_⟩
  by_cases hm : fmagBits y = roundBits n d
  · rw [hm] at he hsign hne
    rcases hsign he.symm with hs | hn | hu
    · exact absurd (by rw [hs]) hne
    · rw [hn, roundBits_zero d hd]
    · have h0 : unitsOfBits (roundBits n d) = 0 := (Nat.mul_eq_zero.1 hu).resolve_right hd.ne'
      exact absurd (by rw [h0]; simp [signed]) hne
  · exact htie (by omega) hm

/-- `roundUnits` is rounding to nearest even of the exact value `± n / d`. -/
theorem roundedTo_roundUnits (s : Bool) (n : Nat) {d : Nat} (hd : 0 < d) :
    RoundedTo (signed s n) d (roundUnits s n d) := by
  refine ⟨isNaN_roundUnits s n d, ?_, fun hfin y _ => ?_, fun hp => ?_⟩
  · rw [natAbs_signed, isInf, fmagBits_roundUnits, beq_iff_eq]
    exact roundBits_eq_inf_iff hd
  · rw [isFinite, fmagBits_roundUnits, decide_eq_true_eq] at hfin
    rw [fmagBits_roundUnits]
    exact roundUnits_nearest hd hfin y
  · rw [fsign_roundUnits, signed_lt_zero hp]

theorem roundUnits_zero (s : Bool) {d : Nat} (hd : 0 < d) : roundUnits s 0 d = zero s := by
  rw [roundUnits, roundBits_zero d hd]
  cases s <;> rfl

theorem ofUnits_zero (z : Bool) : ofUnits z 0 = zero z := by cases z <;> rfl

theorem roundedTo_ofUnits (z : Bool) (i : Int) : RoundedTo i 1 (ofUnits z i) := by
  by_cases hi : i = 0
  · rw [hi, ofUnits_zero, ← roundUnits_zero z Nat.one_pos]
    have h := roundedTo_roundUnits z 0 Nat.one_pos
    rwa [signed_eq_zero.2 rfl] at h
  · have h := roundedTo_roundUnits (decide (i < 0)) i.natAbs Nat.one_pos
    rwa [signed_natAbs, ← show ofUnits z i = roundUnits (decide (i < 0)) i.natAbs 1 from if_neg hi] at h

/-! ### The infinities and zeros of the statements -/

theorem infinity_eq (s : Bool) : infinity s = fpack s infBits := by cases s <;> rfl

theorem zero_eq (s : Bool) : zero s = fpack s 0 := by cases s <;> rfl

@[simp] theorem isNaN_infinity (s : Bool) : isNaN (infinity s) = false := by cases s <;> decide

@[simp] theorem isInf_infinity (s : Bool) : isInf (infinity s) = true := by cases s <;> decide

@[simp] theorem fsign_infinity (s : Bool) : fsign (infinity s) = s := by cases s <;> decide

@[simp] theorem fmagBits_infinity (s : Bool) : fmagBits (infinity s) = infBits := by cases s <;> decide

@[simp] theorem fneg_infinity (s : Bool) : fneg (infinity s) = infinity (!s) := by cases s <;> decide

@[simp] theorem isNaN_fneg (x : F32) : isNaN (fneg x) = isNaN x := by simp [isNaN]

/-- The one number of no units is zero. -/
theorem funits_eq_zero_iff (x : F32) : funits x = 0 ↔ fmagBits x = 0 := by
  have h0 : unitsOfBits 0 = 0 := by decide
  rw [funits, ← h0]
  exact unitsOfBits_strictMono.injective.eq_iff

theorem fint_eq_zero_iff (x : F32) : fint x = 0 ↔ fmagBits x = 0 := by
  rw [fint_eq_signed, signed_eq_zero, funits_eq_zero_iff]

/-! ### The operators on finite numbers -/

/-- The product of two finite numbers is the rounded exact product. -/
theorem fmul_finite {a b : F32} (ha : isFinite a = true) (hb : isFinite b = true) :
    fmul a b = roundUnits (fsign a != fsign b) (funits a * funits b) (2 ^ 149) := by
  simp [fmul, isNaN_of_isFinite ha, isNaN_of_isFinite hb, isInf_of_isFinite ha, isInf_of_isFinite hb]

/-- The quotient of two finite numbers by cases of a zero divisor and a zero dividend. -/
theorem fdiv_finite {a b : F32} (ha : isFinite a = true) (hb : isFinite b = true) :
    fdiv a b =
      if fint b = 0 then (if fint a = 0 then freeNaN .div a b else infinity (fsign a != fsign b))
      else roundUnits (fsign a != fsign b) (funits a * 2 ^ 149) (funits b) := by
  simp [fdiv, isNaN_of_isFinite ha, isNaN_of_isFinite hb, isInf_of_isFinite ha, isInf_of_isFinite hb,
    fint_eq_zero_iff, infinity_eq]

theorem roundedTo_fadd {a b : F32} (ha : isFinite a = true) (hb : isFinite b = true) :
    RoundedTo (fint a + fint b) 1 (fadd a b) := by
  rw [fadd_finite ha hb]
  exact roundedTo_ofUnits _ _

theorem roundedTo_fsub {a b : F32} (ha : isFinite a = true) (hb : isFinite b = true) :
    RoundedTo (fint a - fint b) 1 (fsub a b) := by
  rw [fsub_finite ha hb]
  exact roundedTo_ofUnits _ _

theorem roundedTo_fmul {a b : F32} (ha : isFinite a = true) (hb : isFinite b = true) :
    RoundedTo (fint a * fint b) (2 ^ 149) (fmul a b) := by
  rw [fmul_finite ha hb, fint_eq_signed, fint_eq_signed, signed_mul]
  exact roundedTo_roundUnits _ _ (Nat.two_pow_pos 149)

theorem roundedTo_fdiv {a b : F32} (ha : isFinite a = true) (hb : isFinite b = true) (h : fint b ≠ 0) :
    RoundedTo (fint a * 2 ^ 149 * (fint b).sign) (fint b).natAbs (fdiv a b) := by
  have hu : funits b ≠ 0 := by rwa [fint_eq_signed, ne_eq, signed_eq_zero] at h
  have hp : fint a * 2 ^ 149 * (fint b).sign = signed (fsign a != fsign b) (funits a * 2 ^ 149) := by
    rw [fint_eq_signed, fint_eq_signed b, ← signed_mul_sign _ _ _ hu, ← signed_mul_natCast]
    norm_cast
  rw [fdiv_finite ha hb, if_neg h, hp, fint_eq_signed b, natAbs_signed]
  exact roundedTo_roundUnits _ _ (Nat.pos_of_ne_zero hu)

/-- A product of exact value 0 has the sign of the product. -/
theorem fmul_eq_zero {a b : F32} (ha : isFinite a = true) (hb : isFinite b = true) (h : fint a * fint b = 0) :
    fmul a b = zero (fsign a ^^ fsign b) := by
  rw [fint_eq_signed, fint_eq_signed, signed_mul, signed_eq_zero] at h
  rw [fmul_finite ha hb, h]
  exact roundUnits_zero _ (Nat.two_pow_pos 149)

/-- A quotient of exact value 0 has the sign of the quotient. -/
theorem fdiv_eq_zero {a b : F32} (ha : isFinite a = true) (hb : isFinite b = true) (h : fint b ≠ 0) (h0 : fint a = 0) :
    fdiv a b = zero (fsign a ^^ fsign b) := by
  rw [fint_eq_signed, ne_eq, signed_eq_zero] at h
  rw [fint_eq_signed, signed_eq_zero] at h0
  rw [fdiv_finite ha hb, if_neg (by rwa [fint_eq_signed, signed_eq_zero]), h0, Nat.zero_mul]
  exact roundUnits_zero _ (Nat.pos_of_ne_zero h)

/-! ### The operators on infinities -/

theorem fadd_infinity_left {a : F32} (s : Bool) (ha : isFinite a = true) : fadd (infinity s) a = infinity s := by
  simp [fadd, faddOp, isNaN_of_isFinite ha, isInf_of_isFinite ha]

theorem fadd_infinity_right {a : F32} (s : Bool) (ha : isFinite a = true) : fadd a (infinity s) = infinity s := by
  simp [fadd, faddOp, isNaN_of_isFinite ha, isInf_of_isFinite ha]

theorem fsub_infinity_left {a : F32} (s : Bool) (ha : isFinite a = true) : fsub (infinity s) a = infinity s := by
  have ha' : isFinite (fneg a) = true := by simpa using ha
  simp [fsub, faddOp, isNaN_of_isFinite ha, isInf_of_isFinite ha']

theorem fsub_infinity_right {a : F32} (s : Bool) (ha : isFinite a = true) : fsub a (infinity s) = infinity (!s) := by
  simp [fsub, faddOp, isNaN_of_isFinite ha, isInf_of_isFinite ha]

/-- Infinities of one sign add up; those of opposite signs have no sum. -/
theorem faddOp_infinity (op : Config.NanOp) (s t : Bool) :
    faddOp op (infinity s) (infinity t) =
      if s = t then infinity s else freeNaN op (infinity s) (infinity t) := by
  by_cases h : s = t <;> simp [faddOp, h]

/-- A product with an infinity has the sign of the product, but for a zero factor it is a NaN. -/
theorem fmul_infinity_left {b : F32} (s : Bool) (hb : isNaN b = false) :
    fmul (infinity s) b = if fint b = 0 then freeNaN .mul (infinity s) b else infinity (s ^^ fsign b) := by
  have hi : infBits ≠ 0 := by decide
  simp [fmul, hb, hi, fint_eq_zero_iff, infinity_eq (s ^^ fsign b)]

theorem fmul_infinity_right {a : F32} (s : Bool) (ha : isNaN a = false) :
    fmul a (infinity s) = if fint a = 0 then freeNaN .mul a (infinity s) else infinity (fsign a ^^ s) := by
  have hi : infBits ≠ 0 := by decide
  simp [fmul, ha, hi, fint_eq_zero_iff, infinity_eq (fsign a ^^ s)]

theorem fdiv_infinity_left {b : F32} (s : Bool) (hb : isFinite b = true) :
    fdiv (infinity s) b = infinity (s ^^ fsign b) := by
  simp [fdiv, isNaN_of_isFinite hb, isInf_of_isFinite hb, infinity_eq (s ^^ fsign b)]

theorem fdiv_infinity_right {a : F32} (s : Bool) (ha : isFinite a = true) :
    fdiv a (infinity s) = zero (fsign a ^^ s) := by
  simp [fdiv, isNaN_of_isFinite ha, isInf_of_isFinite ha, zero_eq]

theorem isNaN_fdiv_infinity (s t : Bool) : isNaN (fdiv (infinity s) (infinity t)) = true := by simp [fdiv]

/-! ### A NaN operand -/

theorem isNaN_operators_of_isNaN {a b : F32} (h : isNaN a = true ∨ isNaN b = true) :
    isNaN (fadd a b) = true ∧ isNaN (fsub a b) = true ∧ isNaN (fmul a b) = true ∧ isNaN (fdiv a b) = true := by
  rcases h with h | h <;> simp [fadd, fsub, faddOp, fmul, fdiv, h]

theorem comparisons_of_isNaN {a b : F32} (h : isNaN a = true ∨ isNaN b = true) :
    flt a b = false ∧ fle a b = false ∧ feq a b = false := by
  rcases h with h | h <;> simp [flt, fle, feq, h]

/-! ### Comparisons -/

theorem flt_iff_fkey {a b : F32} (ha : isNaN a = false) (hb : isNaN b = false) : flt a b = true ↔ fkey a < fkey b := by
  simp [flt, ha, hb]

theorem flt_iff_fint {a b : F32} (ha : isFinite a = true) (hb : isFinite b = true) :
    flt a b = true ↔ fint a < fint b := by
  rw [flt_iff_fkey (isNaN_of_isFinite ha) (isNaN_of_isFinite hb), ← not_le, ← not_le, fkey_le_iff]

theorem fle_iff_fint {a b : F32} (ha : isFinite a = true) (hb : isFinite b = true) :
    fle a b = true ↔ fint a ≤ fint b := by
  simp [fle, isNaN_of_isFinite ha, isNaN_of_isFinite hb, fkey_le_iff]

theorem feq_iff_fint {a b : F32} (ha : isFinite a = true) (hb : isFinite b = true) :
    feq a b = true ↔ fint a = fint b := by
  simp [feq, isNaN_of_isFinite ha, isNaN_of_isFinite hb, le_antisymm_iff (α := Int), fkey_le_iff]

theorem fkey_infinity (s : Bool) : fkey (infinity s) = signed s infBits := by
  rw [fkey_eq_signed, fsign_infinity, fmagBits_infinity]

/-- Every finite number lies strictly between the infinities. -/
theorem infinity_order {a : F32} (ha : isFinite a = true) :
    flt (infinity true) a = true ∧ flt a (infinity false) = true ∧
    flt a (infinity true) = false ∧ flt (infinity false) a = false := by
  have hk := (isFinite_iff_fkey a).1 ha
  have hn := isNaN_of_isFinite ha
  simp only [← Bool.not_eq_true, flt_iff_fkey (isNaN_infinity _) hn, flt_iff_fkey hn (isNaN_infinity _), fkey_infinity,
    signed]
  exact ⟨by simp; omega, by simp; omega, by simp; omega, by simp; omega⟩

/-! ### Floor, sign operations, literals and narrowing -/

/-- The floor is the integer at or below the exact value and less than 1 away. -/
theorem ffloor_bounds {a : F32} (ha : isFinite a = true) :
    ffloor a * 2 ^ 149 ≤ fint a ∧ fint a < (ffloor a + 1) * 2 ^ 149 := by
  rw [ffloor, if_pos ha, Int.fdiv_eq_ediv_of_nonneg _ (by positivity)]
  exact ⟨Int.ediv_mul_le _ (by positivity), Int.lt_ediv_add_one_mul_self _ (by positivity)⟩

theorem fmagBits_fabs (x : F32) : fmagBits (fabs x) = fmagBits x := by
  have hmask : (0x7FFFFFFF#32).toNat = 2 ^ 31 - 1 := rfl
  rw [fmagBits, fabs, BitVec.toNat_and, hmask, Nat.and_two_pow_sub_one_eq_mod, Nat.mod_mod, fmagBits]

theorem fsign_fabs (x : F32) : fsign (fabs x) = false := by simp [fsign, fabs]

theorem fint_fabs (x : F32) : fint (fabs x) = ((fint x).natAbs : Int) := by
  rw [fint_eq_signed x, natAbs_signed, fint_eq_signed, fsign_fabs, funits, fmagBits_fabs]
  rfl

theorem roundedTo_lit (n : Nat) {d : Nat} (hd : 0 < d) : RoundedTo ((n : Int) * 2 ^ 149) d (lit n d) := by
  have h := roundedTo_roundUnits false (n * 2 ^ 149) hd
  have hs : signed false (n * 2 ^ 149) = (n : Int) * 2 ^ 149 := by simp [signed]
  rwa [hs] at h

/-- The significand of a binary64 number of biased exponent `e` and fraction `f`, in units of `2^−1074`. -/
def units64 (e f : Nat) : Nat := if e = 0 then f else (2 ^ 52 + f) * 2 ^ (e - 1)

/-- Narrowing reads the exponent and fraction fields of the binary64 pattern and rounds the number they stand for. -/
theorem round64_eq (x : F64) (he : (x.extractLsb' 52 11).toNat ≠ 2047) :
    round64 x =
      roundUnits (x.getLsbD 63) (units64 (x.extractLsb' 52 11).toNat (x.extractLsb' 0 52).toNat) (2 ^ 925) := by
  have hexp : (x.extractLsb' 52 11).toNat = x.toNat / 2 ^ 52 % 2 ^ 11 := by
    rw [BitVec.extractLsb'_toNat, Nat.shiftRight_eq_div_pow]
  have hfrac : (x.extractLsb' 0 52).toNat = x.toNat % 2 ^ 52 := by
    rw [BitVec.extractLsb'_toNat, Nat.shiftRight_zero]
  rw [hexp] at he ⊢
  rw [hfrac]
  exact if_neg he

/-! ### The statement -/

/-- Settles O56. Each clause is the lemma of its operator; the clauses of one exactly rounded value all come from
`roundedTo_roundUnits`. -/
theorem arithmeticIsThatOfIeee754 : Obligations.ArithmeticIsThatOfIeee754 := by
  refine ⟨fun a b ha hb => ?finite, fun a b h => ?nan, fun a s t ha => ?infinite, fun a b ha hb => ?compare,
    fun a ha => ?floor, fun n d hd => roundedTo_lit n hd, fun x => ?narrow⟩
  case finite =>
    refine ⟨roundedTo_fadd ha hb, roundedTo_fsub ha hb, roundedTo_fmul ha hb, roundedTo_fdiv ha hb, fun h => ?_,
      fun h => ?_, fmul_eq_zero ha hb, fdiv_eq_zero ha hb, fun h h0 => ?_, fun h h0 => ?_⟩
    · rw [fadd_finite ha hb, h, ofUnits_zero]
    · rw [fsub_finite ha hb, h, ofUnits_zero]
    · rw [fdiv_finite ha hb, if_pos h, if_neg h0]
    · rw [fdiv_finite ha hb, if_pos h, if_pos h0, isNaN_freeNaN]
  case nan =>
    obtain ⟨hadd, hsub, hmul, hdiv⟩ := isNaN_operators_of_isNaN h
    exact ⟨hadd, hsub, hmul, hdiv, comparisons_of_isNaN h⟩
  case infinite =>
    have hn := isNaN_of_isFinite ha
    have ht : fint (infinity t) ≠ 0 := by rw [ne_eq, fint_eq_zero_iff, fmagBits_infinity]; decide
    refine ⟨fadd_infinity_left s ha, fadd_infinity_right s ha, fsub_infinity_left s ha, fsub_infinity_right s ha,
      ?_, ?_, ?_, ?_, fun h => ?_, fun h => ?_, ?_, isNaN_fdiv_infinity s t, fdiv_infinity_left s ha,
      fdiv_infinity_right s ha, infinity_order ha⟩
    · simp [fadd, faddOp_infinity]
    · simp [fadd, faddOp_infinity]
    · simp [fsub, faddOp_infinity]
    · simp [fsub, faddOp_infinity]
    · rw [fmul_infinity_left s hn, fmul_infinity_right s hn, if_neg h, if_neg h]
      exact ⟨rfl, rfl⟩
    · rw [fmul_infinity_left s hn, fmul_infinity_right s hn, if_pos h, if_pos h]
      exact ⟨isNaN_freeNaN _ _ _, isNaN_freeNaN _ _ _⟩
    · rw [fmul_infinity_left s (isNaN_infinity t), if_neg ht, fsign_infinity]
  case compare => exact ⟨flt_iff_fint ha hb, fle_iff_fint ha hb, feq_iff_fint ha hb⟩
  case floor =>
    obtain ⟨hle, hlt⟩ := ffloor_bounds ha
    exact ⟨hle, hlt, fint_fneg a, fint_fabs a⟩
  case narrow =>
    intro e f m he
    rw [round64_eq x he]
    exact roundedTo_roundUnits (x.getLsbD 63) m (by positivity)

end Sys2Proof.Machine
end

