-- ==== Sys2Proof/Proofs/ResetState.lean ====
section
/-! SUPPORT. The state reset leaves (R55 to R65, R482), voice by voice and register by register, and that it meets the
three invariants. -/

namespace Sys2Proof.Machine

/-! ### The parts of the reset state -/

@[simp] theorem resetWith_voice (d : Nat) (tuning : Vec F64 128) (inputs : List HostInput) (i : Fin 32) :
    (State.resetWith d tuning inputs).voices.get i = Voice.cleared (d + 5 * i.val) := Vec.get_ofFn _ _

@[simp] theorem resetWith_g (d : Nat) (tuning : Vec F64 128) (inputs : List HostInput) :
    (State.resetWith d tuning inputs).g = Global.cleared := rfl

/-- A delay line after reset: every slot the same, position 0. -/
theorem DelayLine.get_cleared {α : Type} {n : Nat} (h : 0 < n) (x : α) (k : Fin n) :
    (DelayLine.cleared h x).buf.get k = x := Vec.get_replicate _ _

/-- An oscillator primitive after reset (R57). -/
theorem OscPrim.cleared_eq {n : Nat} (h : 0 < n) :
    (∀ k, (OscPrim.cleared h).ring.get k = 0#32) ∧ (OscPrim.cleared h).bP.val = 0 ∧
      (∀ k, (OscPrim.cleared h).dl.buf.get k = 0#32) ∧ (OscPrim.cleared h).dl.pos.val = 0 ∧
      (OscPrim.cleared h).d2 = false :=
  ⟨fun _ => Vec.get_replicate _ _, rfl, fun _ => Vec.get_replicate _ _, rfl, rfl⟩

/-- Settles O8, from the cleared voice and its cleared delay lines. -/
theorem resetLeavesVoicesSilent : Obligations.ResetLeavesVoicesSilent := by
  intro d tuning inputs i
  dsimp only
  rw [resetWith_voice]
  refine ⟨⟨rfl, rfl, rfl, rfl, rfl, rfl, rfl, rfl, rfl⟩, ⟨rfl, rfl, rfl, rfl, rfl, rfl⟩,
    ⟨fun k => ⟨?_, ?_, ?_⟩, fun k => ?_, rfl, rfl, rfl, rfl⟩, fun k => ?slop, rfl⟩
  case slop => exact (Vec.get_ofFn _ _).trans (congrArg draw (Nat.add_assoc _ _ _))
  all_goals exact DelayLine.get_cleared _ _ k

/-- Settles O9, from the cleared oscillator block, the cleared LFOs and the cleared global registers. -/
theorem resetLeavesGlobalsClear : Obligations.ResetLeavesGlobalsClear := by
  intro d tuning inputs
  refine ⟨fun i => ?osc, ?lfo, ⟨rfl, rfl, rfl, rfl, rfl⟩, ⟨rfl, fun k => ⟨?_, ?_⟩, rfl, fun k => ⟨?_, ?_⟩⟩,
    ⟨rfl, rfl, rfl, rfl⟩, rfl, rfl, rfl, rfl⟩
  case osc =>
    dsimp only
    rw [resetWith_voice]
    refine ⟨rfl, rfl, rfl, fun P hP => ?_, fun k => ⟨?_, ?_, ?_⟩, rfl, rfl, rfl, rfl, rfl, rfl, rfl⟩
    · have hcleared : P = OscPrim.cleared Config.samples_pos := by simpa [Voice.cleared, OscBlock.cleared] using hP
      rw [hcleared]
      exact OscPrim.cleared_eq _
    all_goals exact DelayLine.get_cleared _ _ k
  case lfo =>
    intro l hl
    have hphase : l = Lfo.cleared ∨ l = { Lfo.cleared with wave1 := fNegOne } := by
      simp only [resetWith_g, resetWith_voice, List.mem_append, List.mem_cons, List.mem_map, List.not_mem_nil,
        or_false] at hl
      rcases hl with (h | h) | ⟨i, -, h⟩
      · exact .inl h
      · exact .inr h
      · exact .inl h.symm
    rcases hphase with rfl | rfl <;> exact ⟨rfl, rfl, rfl, rfl⟩
  all_goals exact Vec.get_replicate _ _

/-! ### The three invariants after reset -/

/-- The polyphony of 1 the reset state has is the model's choice (log 3). -/
theorem resetWith_inv (d : Nat) (tuning : Vec F64 128) (inputs : List HostInput) :
    (State.resetWith d tuning inputs).Inv := by
  refine ⟨Nat.one_pos, fun k hk => ?_, ⟨rfl, rfl, rfl, rfl, rfl⟩, Vec.get_replicate _ _, Vec.get_replicate _ _,
    List.Pairwise.nil, Or.inl ⟨rfl, rfl, rfl⟩⟩
  rw [resetWith_voice] at hk
  exact absurd hk Bool.false_ne_true

theorem resetWith_phasesInRange (d : Nat) (tuning : Vec F64 128) (inputs : List HostInput) :
    (State.resetWith d tuning inputs).PhasesInRange := fun k => by
  have hphase : phaseInRange f0 = true := by decide
  have hfrac : fracInRange f0 = true := by decide
  rw [resetWith_voice]
  refine ⟨hphase, hphase, fun j => ?_⟩
  have hline : (Voice.cleared (d + 5 * k.val)).osc.dlSyncFrac.buf.get j = f0 := DelayLine.get_cleared _ _ j
  rwa [hline]

theorem resetWith_gatedSound (d : Nat) (tuning : Vec F64 128) (inputs : List HostInput) :
    (State.resetWith d tuning inputs).GatedSound := fun i hi => by
  rw [resetWith_voice] at hi
  exact absurd hi Bool.false_ne_true

/-- Settles O20. None of the three depends on the draw number, the table or the acts to come. -/
theorem resetMeetsTheInvariants : Obligations.ResetMeetsTheInvariants := fun d tuning inputs =>
  ⟨resetWith_inv d tuning inputs, resetWith_phasesInRange d tuning inputs, resetWith_gatedSound d tuning inputs⟩

end Sys2Proof.Machine
end

