-- ==== Sys2Proof/Proofs/StateInvariant.lean ====
section
/-! SUPPORT. Every step keeps the invariant of the state (`State.Inv`): one lemma for each operation a command or a tick
is made of, then the cases of `exec_case` and `step_case`. -/

namespace Sys2Proof

/-- What holds of every element, at its index, holds after a write that keeps it at the index written. -/
theorem Vec.forall_get_set {α : Type} {n : Nat} {P : Fin n → α → Prop} {v : Vec α n} (h : ∀ k, P k (v.get k))
    {i : Fin n} {x : α} (hx : P i x) (k : Fin n) : P k ((v.set i x).get k) := by
  rw [Vec.get_set]
  split
  · next hik => exact hik ▸ hx
  · exact h k

end Sys2Proof

namespace Sys2Proof.Machine

/-! ### Entry 128 of the note tables (R38, R39) -/

theorem noteEntry_ne_lastEntry (n : Fin 128) : noteEntry n ≠ lastEntry := fun h =>
  absurd (congrArg Fin.val h) (Nat.ne_of_lt n.isLt)

@[simp] theorem clearStolen_lastEntry (t : Vec (BitVec 32) 129) : (clearStolen t).get lastEntry = t.get lastEntry := by
  simp [clearStolen, lastEntry]

/-! ### The voices under a half-sample -/

/-- A property of the voices, each at its index, that a sample step keeps is kept by a half-sample. -/
theorem halfSample_forall_voice {P : Fin 32 → Voice → Prop} {s : State} {a : F32} {h : HalfOut}
    (e : s.halfSample a = .ok h) (hs : ∀ k, P k (s.voices.get k))
    (hstep : ∀ k c d v o, P k v → v.processSample c d = .ok o → P k o.voice) (k : Fin 32) :
    P k (h.state.voices.get k) := by
  obtain ⟨m, hm, -, -, hstate⟩ := halfSample_ok e
  have hQ : ∀ k, P k (m.voices.get k) :=
    runVoices_induction (Q := fun m => ∀ k, P k (m.voices.get k)) (fun _ hQ => hQ)
      (fun m o hQ _ ho => Vec.forall_get_set hQ (hstep _ _ _ _ _ (hQ m.idx) ho)) _ _ _ hs hm
  rw [hstate]
  exact hQ k

/-! ### The invariant under each operation -/

/-- New voices of which none at or beyond the polyphony is active keep the invariant. -/
theorem State.Inv.withVoices {s : State} (h : s.Inv) {voices : Vec Voice 32}
    (ha : ∀ k, (voices.get k).active = true → k.val < s.g.totalvc.val) : State.Inv { s with voices := voices } :=
  ⟨h.cursor, ha, h.vibrato, h.stolenLast, h.voiceAgeLast, h.written, h.fault⟩

/-- A change of all voices that leaves `active` alone or clears it keeps the invariant. -/
theorem State.Inv.mapVoices {s : State} (h : s.Inv) {f : Voice → Voice}
    (hf : ∀ v, (f v).active = true → v.active = true) :
    (s.mapVoices f).Inv :=
  h.withVoices fun k hk => h.activeBelow k (hf _ (by rwa [Vec.get_map] at hk))

/-- A write to a voice below the polyphony keeps the invariant. -/
theorem State.Inv.setVoice {s : State} (h : s.Inv) {j : Fin 32} (hj : j.val < s.g.totalvc.val) (v : Voice) :
    (s.setVoice j v).Inv :=
  h.withVoices (Vec.forall_get_set (P := fun k (w : Voice) => w.active = true → k.val < s.g.totalvc.val) h.activeBelow
    fun _ => hj)

theorem State.Inv.voiceNoteOn {s : State} (h : s.Inv) {j : Fin 32} (hj : j.val < s.g.totalvc.val) (n : Fin 128)
    (vel : F32) : (s.voiceNoteOn j n vel).Inv := h.setVoice hj _

theorem State.Inv.mapStolen {s : State} (h : s.Inv) (k : Fin 128) (f : BitVec 32 → BitVec 32) : (s.mapStolen k f).Inv :=
  ⟨h.cursor, h.activeBelow, h.vibrato, (Vec.get_modify_ne _ _ (noteEntry_ne_lastEntry k)).trans h.stolenLast,
    h.voiceAgeLast, h.written, h.fault⟩

theorem State.Inv.recordAge {s : State} (h : s.Inv) (n : Fin 128) : (s.recordAge n).Inv :=
  ⟨h.cursor, h.activeBelow, h.vibrato, h.stolenLast,
    (Vec.get_set_ne _ _ (noteEntry_ne_lastEntry n)).trans h.voiceAgeLast, h.written, h.fault⟩

theorem State.Inv.getNext {s : State} (h : s.Inv) : s.getNext.2.Inv :=
  ⟨vqNext_lt _ _, h.activeBelow, h.vibrato, h.stolenLast, h.voiceAgeLast, h.written, h.fault⟩

theorem State.Inv.markWritten {s : State} (h : s.Inv) (id : RegId) : (s.markWritten id).Inv :=
  ⟨h.cursor, h.activeBelow, h.vibrato, h.stolenLast, h.voiceAgeLast, insertId_canonical _ _ h.written, h.fault⟩

theorem FaultReg.legal_raised (c : FaultCause) (w : CmdWord) : FaultReg.Legal ⟨true, c.code, w⟩ :=
  Or.inr ⟨rfl, by cases c <;> simp [FaultCause.code]⟩

theorem State.Inv.raise {s : State} (h : s.Inv) (c : FaultCause) (w : CmdWord) : (raise c w s).Inv := by
  rw [raise_eq]
  refine ⟨h.cursor, h.activeBelow, h.vibrato, h.stolenLast, h.voiceAgeLast, h.written, ?_⟩
  show FaultReg.Legal (if s.fault.valid then s.fault else ⟨true, c.code, w⟩)
  split
  · exact h.fault
  · exact FaultReg.legal_raised c w

/-- A parameter write keeps the invariant. -/
theorem State.Inv.quiet {s t : State} (h : s.Inv) (q : QuietStep s t) : t.Inv where
  cursor := by rw [q.global.vqIdx, q.global.totalvc]; exact h.cursor
  activeBelow k hk := by rw [q.global.totalvc]; exact h.activeBelow k ((q.voices k).active ▸ hk)
  vibrato := by
    obtain ⟨h1, h2, h3, hsync, hraw⟩ := h.vibrato
    exact ⟨q.global.vibWave1.trans h1, q.global.vibWave2.trans h2, q.global.vibWave3.trans h3,
      q.global.vibSync.trans hsync, q.global.vibRaw.trans hraw⟩
  stolenLast := by rw [q.global.stolen]; exact h.stolenLast
  voiceAgeLast := by rw [q.global.voiceAge]; exact h.voiceAgeLast
  written := by
    rcases q.written with e | ⟨id, e⟩ <;> rw [e]
    · exact h.written
    · exact insertId_canonical _ _ h.written
  fault := by rw [q.fault]; exact h.fault

/-! ### Notes, panic and polyphony -/

theorem State.Inv.setNoteOn {s : State} (h : s.Inv) (n : Fin 128) (vel : F32) : (s.setNoteOn n vel).Inv :=
  setNoteOn_induction (P := State.Inv) (h.recordAge n) (fun _ _ h hj _ => (h.mapStolen _ _).voiceNoteOn hj n vel)
    (fun _ h => h.getNext) (fun _ h _ => h.getNext.voiceNoteOn h.cursor n vel)

theorem State.Inv.setNoteOff {s : State} (h : s.Inv) (n : Fin 128) : (s.setNoteOff n).Inv :=
  setNoteOff_induction (P := State.Inv) h (fun _ _ k h hi _ _ _ => (h.voiceNoteOn hi k velKeep).mapStolen k _)
    (fun _ _ h hi => h.setVoice hi _) (fun _ h => h.mapStolen n _)

theorem State.Inv.allNotesOff {s : State} (h : s.Inv) : s.allNotesOff.Inv := by
  refine ⟨h.cursor, fun k hk => h.activeBelow k ?_, h.vibrato, ?_, h.voiceAgeLast, h.written, h.fault⟩
  · simpa using hk
  · simpa using h.stolenLast

/-- The voices a new polyphony leaves out are silenced, and the cursor starts again below it (R305). -/
theorem State.Inv.setPolyphony {s : State} (h : s.Inv) (n : VoiceCount) : (s.setPolyphony n).Inv := by
  refine ⟨n.property.1, fun k hk => ?_, h.vibrato, h.stolenLast, h.voiceAgeLast, h.written, h.fault⟩
  show k.val < n.val
  by_contra hge
  simp [not_lt.1 hge] at hk

/-! ### The tick -/

theorem State.Inv.smooth {s : State} (h : s.Inv) : s.smooth.Inv := by
  refine ⟨h.cursor, fun k hk => h.activeBelow k ?_, h.vibrato, h.stolenLast, h.voiceAgeLast, h.written, h.fault⟩
  simpa using hk

/-- A sample step never makes a voice active (R288). -/
theorem Voice.active_of_processSample {c : VoiceCtx} {d : Nat} {v : Voice} {o : VoiceOut}
    (h : v.processSample c d = .ok o) (ha : o.voice.active = true) : v.active = true := by
  obtain ⟨-, -, -, hact, -⟩ := Voice.processSample_ok h
  rw [hact, Bool.and_eq_true] at ha
  exact ha.1

/-- An update of the vibrato unit keeps its fixed parameters. -/
theorem Lfo.VibratoFixed.update {l : Lfo} (h : l.VibratoFixed) (fsI bpm : F32) (d : Nat) :
    (l.update fsI bpm d).lfo.VibratoFixed := by
  obtain ⟨-, hraw, hsync, h1, h2, h3⟩ := Lfo.update_params fsI bpm d l
  unfold Lfo.VibratoFixed at *
  rwa [hraw, hsync, h1, h2, h3]

theorem State.Inv.halfSample {s : State} (h : s.Inv) {a : F32} {o : HalfOut} (e : s.halfSample a = .ok o) :
    o.state.Inv := by
  have hvoices := halfSample_forall_voice (P := fun k (v : Voice) => v.active = true → k.val < s.g.totalvc.val) e
    h.activeBelow fun _ _ _ _ _ hP ho ha => hP (Voice.active_of_processSample ho ha)
  obtain ⟨m, hm, -, -, hstate⟩ := halfSample_ok e
  have hidx : m.idx.val < s.g.totalvc.val := by
    rw [runVoices_idx _ _ _ h.cursor hm]
    exact Nat.mod_lt _ s.g.totalvc.property.1
  rw [hstate] at hvoices ⊢
  exact ⟨hidx, hvoices, h.vibrato.update _ _ _, h.stolenLast, h.voiceAgeLast, h.written, h.fault⟩

theorem State.Inv.tick {s t : State} (h : s.Inv) (e : s.tick = .ok t) : t.Inv :=
  tick_induction (P := State.Inv) h e (fun _ h => h.smooth) (fun _ _ _ h e => h.halfSample e)
    (fun _ _ _ h => ⟨h.cursor, h.activeBelow, h.vibrato, h.stolenLast, h.voiceAgeLast, h.written, h.fault⟩)
    (fun _ _ _ _ _ h => ⟨h.cursor, h.activeBelow, h.vibrato, h.stolenLast, h.voiceAgeLast, h.written, h.fault⟩)

/-! ### Commands and steps -/

theorem ExecCase.inv {i : Instr} {s t : State} (hc : ExecCase i s t) (h : s.Inv) : t.Inv := by
  cases hc with
  | raised c => exact h.raise c _
  | ticked _ _ _ ht => exact h.tick ht
  | noteOn n _ v => exact h.setNoteOn _ v
  | noteOff n => exact h.setNoteOff _
  | sustOn => exact h.mapVoices fun _ ha => ha
  | sustOff => exact h.mapVoices fun v ha => by rwa [Voice.sustOff_active] at ha
  | notesOff => exact h.allNotesOff
  | soundOff => exact h.allNotesOff.mapVoices fun _ => nofun
  | polyphony v => exact (h.setPolyphony _).markWritten _
  | quiet _ q => exact h.quiet q

/-- The host's acts and its tuning table are no part of the invariant. -/
theorem State.Inv.withHost {s : State} (h : s.Inv) (tuning : Vec F64 128) (inputs : List HostInput) :
    State.Inv { s with tuning := tuning, inputs := inputs } :=
  ⟨h.cursor, h.activeBelow, h.vibrato, h.stolenLast, h.voiceAgeLast, h.written, h.fault⟩

/-- Settles O17, by the cases of a step and of a command. -/
theorem everyStepKeepsTheStateInvariant : Obligations.EveryStepKeepsTheStateInvariant := by
  intro s t h hs
  cases step_case hs with
  | idle => exact h
  | illegal w rest => exact (h.withHost s.tuning rest).raise _ _
  | command _ rest _ _ _ _ _ hc => exact hc.inv (h.withHost s.tuning rest)
  | reset rest => exact resetWith_inv _ _ rest
  | tuning table rest => exact h.withHost table rest

end Sys2Proof.Machine
end

