-- ==== Sys2Proof/Proofs/CommandFrame.lean ====
section
/-! SUPPORT. What each command may write (R15, R48, R56, R184, R310, R343, R498): a frame for the commands that make no
sample, a frame for the tick, and which of the two each case of `exec_case` meets. -/

namespace Sys2Proof.Machine

/-! ### Commands that make no sample -/

/-- Two states of a voice with the same slop, oscillator phases and delayed sync fractions. -/
structure SameOscillators (v w : Voice) : Prop where
  slop : w.slop = v.slop
  x1 : w.osc.x1 = v.osc.x1
  x2 : w.osc.x2 = v.osc.x2
  dlSyncFrac : w.osc.dlSyncFrac = v.osc.dlSyncFrac

theorem SameOscillators.of_osc {u v w : Voice} (h : SameOscillators u v) (hslop : w.slop = v.slop)
    (hosc : w.osc = v.osc) : SameOscillators u w :=
  ⟨hslop.trans h.slop, (congrArg OscBlock.x1 hosc).trans h.x1, (congrArg OscBlock.x2 hosc).trans h.x2,
    (congrArg OscBlock.dlSyncFrac hosc).trans h.dlSyncFrac⟩

theorem SameOscillators.noteOn {u v : Voice} (h : SameOscillators u v) (fsI : F32) (n : Fin 128) (vel : F32) :
    SameOscillators u (v.noteOn fsI n vel) := h.of_osc (Voice.noteOn_slop _ _ _ _) (Voice.noteOn_osc _ _ _ _)

theorem SameOscillators.noteOff {u v : Voice} (h : SameOscillators u v) (fsI : F32) :
    SameOscillators u (v.noteOff fsI) := h.of_osc (Voice.noteOff_slop _ _) (Voice.noteOff_osc _ _)

/-- What a command that makes no sample keeps: slop, phases and sync fractions of every voice, the outputs, and what is
the host's. -/
structure NoSample (s t : State) : Prop where
  voices : ∀ k, SameOscillators (s.voices.get k) (t.voices.get k)
  inputs : t.inputs = s.inputs
  tuning : t.tuning = s.tuning
  outL : t.outL = s.outL
  outR : t.outR = s.outR

/-- What the note commands, the pedal, the panic commands, POLYPHONY and a fault keep besides: the draw counter and the
position. -/
structure NoteFrame (s t : State) : Prop extends NoSample s t where
  draws : t.draws = s.draws
  qnpos : t.g.qnpos = s.g.qnpos

/-- The note ages and their counter are the same. -/
def SameAges (s t : State) : Prop := t.g.asPlayedCounter = s.g.asPlayedCounter ∧ t.g.voiceAge = s.g.voiceAge

theorem NoteFrame.refl (s : State) : NoteFrame s s :=
  ⟨⟨fun _ => ⟨rfl, rfl, rfl, rfl⟩, rfl, rfl, rfl, rfl⟩, rfl, rfl⟩

/-- A write to one voice. -/
theorem NoteFrame.setVoice {s t : State} (h : NoteFrame s t) {j : Fin 32} {v : Voice}
    (hv : SameOscillators (s.voices.get j) v) : NoteFrame s (t.setVoice j v) :=
  ⟨⟨Vec.forall_get_set (P := fun k w => SameOscillators (s.voices.get k) w) h.voices hv, h.inputs, h.tuning, h.outL,
      h.outR⟩,
    h.draws, h.qnpos⟩

theorem NoteFrame.voiceNoteOn {s t : State} (h : NoteFrame s t) (j : Fin 32) (n : Fin 128) (vel : F32) :
    NoteFrame s (t.voiceNoteOn j n vel) := h.setVoice ((h.voices j).noteOn _ n vel)

/-- A change of the global registers that keeps the position. -/
theorem NoteFrame.withGlobal {s t : State} (h : NoteFrame s t) {g : Global} (hg : g.qnpos = t.g.qnpos) :
    NoteFrame s { t with g := g } :=
  ⟨⟨h.voices, h.inputs, h.tuning, h.outL, h.outR⟩, h.draws, hg.trans h.qnpos⟩

theorem NoteFrame.mapStolen {s t : State} (h : NoteFrame s t) (k : Fin 128) (f : BitVec 32 → BitVec 32) :
    NoteFrame s (t.mapStolen k f) := h.withGlobal rfl

theorem NoteFrame.getNext {s t : State} (h : NoteFrame s t) : NoteFrame s t.getNext.2 := h.withGlobal rfl

/-- A change of all voices that keeps slop and oscillator block. -/
theorem NoteFrame.mapVoices {s t : State} (h : NoteFrame s t) {f : Voice → Voice}
    (hf : ∀ v, (f v).slop = v.slop ∧ (f v).osc = v.osc) : NoteFrame s (t.mapVoices f) := by
  refine ⟨⟨fun k => ?_, h.inputs, h.tuning, h.outL, h.outR⟩, h.draws, h.qnpos⟩
  rw [State.mapVoices_voices, Vec.get_map]
  exact (h.voices k).of_osc (hf _).1 (hf _).2

theorem raise_noteFrame (c : FaultCause) (w : CmdWord) (s : State) : NoteFrame s (raise c w s) := by
  rw [raise_eq]
  exact ⟨⟨(NoteFrame.refl s).voices, rfl, rfl, rfl, rfl⟩, rfl, rfl⟩

theorem setNoteOn_noteFrame (s : State) (n : Fin 128) (vel : F32) : NoteFrame s (s.setNoteOn n vel) :=
  setNoteOn_induction (P := NoteFrame s) ((NoteFrame.refl s).withGlobal rfl)
    (fun _ _ h _ _ => (h.mapStolen _ _).voiceNoteOn _ n vel) (fun _ h => h.getNext)
    (fun _ h _ => h.getNext.voiceNoteOn _ n vel)

theorem setNoteOff_noteFrame (s : State) (n : Fin 128) : NoteFrame s (s.setNoteOff n) ∧ SameAges s (s.setNoteOff n) :=
  setNoteOff_induction (P := fun t => NoteFrame s t ∧ SameAges s t) ⟨.refl s, rfl, rfl⟩
    (fun _ _ _ h _ _ _ _ => ⟨(h.1.voiceNoteOn _ _ _).mapStolen _ _, h.2⟩)
    (fun _ i h _ => ⟨h.1.setVoice ((h.1.voices i).noteOff _), h.2⟩) (fun _ h => ⟨h.1.mapStolen _ _, h.2⟩)

theorem allNotesOff_noteFrame (s : State) : NoteFrame s s.allNotesOff :=
  ((NoteFrame.refl s).mapVoices fun _ => ⟨Voice.noteOff_slop _ _, Voice.noteOff_osc _ _⟩).withGlobal rfl

theorem setPolyphony_noteFrame (s : State) (n : VoiceCount) : NoteFrame s (s.setPolyphony n) := by
  refine ⟨⟨fun k => ?_, rfl, rfl, rfl, rfl⟩, rfl, rfl⟩
  rw [State.setPolyphony_voices, Vec.get_mapIdx]
  split
  · exact (((NoteFrame.refl s).voices k).noteOff _).of_osc rfl rfl
  · exact (NoteFrame.refl s).voices k

theorem QuietStep.noSample {s t : State} (q : QuietStep s t) : NoSample s t where
  voices k := ⟨(q.voices k).slop, (q.voices k).x1, (q.voices k).x2, (q.voices k).dlSyncFrac⟩
  inputs := q.inputs
  tuning := q.tuning
  outL := q.outL
  outR := q.outR

/-! ### The tick -/

/-- What a tick keeps: every voice's slop, what is the host's, the position and the note ages. -/
structure TickFrame (s t : State) : Prop where
  slop : ∀ k, (t.voices.get k).slop = (s.voices.get k).slop
  inputs : t.inputs = s.inputs
  tuning : t.tuning = s.tuning
  qnpos : t.g.qnpos = s.g.qnpos
  ages : SameAges s t

theorem TickFrame.smooth {s t : State} (h : TickFrame s t) : TickFrame s t.smooth := by
  refine ⟨fun k => ?_, h.inputs, h.tuning, h.qnpos, h.ages⟩
  rw [State.smooth_voices, Vec.get_map]
  exact h.slop k

/-- A sample step keeps the slop (R56). -/
theorem Voice.processSample_slop {c : VoiceCtx} {d : Nat} {v : Voice} {o : VoiceOut} (h : v.processSample c d = .ok o) :
    o.voice.slop = v.slop := by
  obtain ⟨-, -, -, -, -, -, -, hvoice⟩ := Voice.processSample_ok h
  rw [hvoice]

theorem TickFrame.halfSample {s t : State} (h : TickFrame s t) {a : F32} {o : HalfOut} (e : t.halfSample a = .ok o) :
    TickFrame s o.state := by
  have hslop := halfSample_forall_voice (P := fun k (v : Voice) => v.slop = (s.voices.get k).slop) e h.slop
    fun _ _ _ _ _ hP ho => (Voice.processSample_slop ho).trans hP
  obtain ⟨m, -, -, -, hstate⟩ := halfSample_ok e
  rw [hstate] at hslop ⊢
  exact ⟨hslop, h.inputs, h.tuning, h.qnpos, h.ages⟩

theorem tick_tickFrame {s t : State} (e : s.tick = .ok t) : TickFrame s t :=
  tick_induction (P := TickFrame s) ⟨fun _ => rfl, rfl, rfl, rfl, rfl, rfl⟩ e (fun _ h => h.smooth)
    (fun _ _ _ h e => h.halfSample e) (fun _ _ _ h => ⟨h.slop, h.inputs, h.tuning, h.qnpos, h.ages⟩)
    (fun _ _ _ _ _ h => ⟨h.slop, h.inputs, h.tuning, h.qnpos, h.ages⟩)

/-! ### Every command -/

/-- What a command did, as far as its frame goes: a tick; a parameter write; or a note, panic or polyphony command or a
fault, of which only a note-on writes the ages. -/
theorem ExecCase.frame {i : Instr} {s t : State} (hc : ExecCase i s t) :
    (i = .tick ∧ s.tick = .ok t) ∨
    (QuietStep s t ∧ ((∃ v, i = .playpos v) ∨ t.g.qnpos = s.g.qnpos) ∧ ((∃ v, i = .setrate v) ∨ t.draws = s.draws)) ∨
    (NoteFrame s t ∧ ((∃ n c v, i = .noteon n c v) ∨ SameAges s t)) := by
  cases hc with
  | raised c => exact .inr (.inr ⟨raise_noteFrame _ _ _, .inr (by simp [SameAges])⟩)
  | ticked _ hi _ ht => exact .inl ⟨hi, ht⟩
  | noteOn n c v hi => exact .inr (.inr ⟨setNoteOn_noteFrame _ _ _, .inl ⟨n, c, v, hi⟩⟩)
  | noteOff n => exact .inr (.inr ⟨(setNoteOff_noteFrame _ _).1, .inr (setNoteOff_noteFrame _ _).2⟩)
  | sustOn => exact .inr (.inr ⟨(NoteFrame.refl s).mapVoices fun _ => ⟨rfl, rfl⟩, .inr ⟨rfl, rfl⟩⟩)
  | sustOff =>
    exact .inr (.inr ⟨(NoteFrame.refl s).mapVoices fun _ => ⟨Voice.sustOff_slop _ _, Voice.sustOff_osc _ _⟩,
      .inr ⟨rfl, rfl⟩⟩)
  | notesOff => exact .inr (.inr ⟨allNotesOff_noteFrame s, .inr ⟨rfl, rfl⟩⟩)
  | soundOff => exact .inr (.inr ⟨(allNotesOff_noteFrame s).mapVoices fun _ => ⟨rfl, rfl⟩, .inr ⟨rfl, rfl⟩⟩)
  | polyphony v => exact .inr (.inr ⟨(setPolyphony_noteFrame s _).withGlobal rfl, .inr ⟨rfl, rfl⟩⟩)
  | quiet _ q hq hd => exact .inr (.inl ⟨q, hq, hd⟩)

/-- Only a tick makes samples. -/
theorem ExecCase.tick_or_noSample {i : Instr} {s t : State} (hc : ExecCase i s t) :
    (i = .tick ∧ s.tick = .ok t) ∨ NoSample s t :=
  hc.frame.imp_right fun h => h.elim (fun q => q.1.noSample) fun f => f.1.toNoSample

/-- Settles O21, by the frame each command meets. -/
theorem whatEachCommandMayWrite : Obligations.WhatEachCommandMayWrite := by
  intro i s t h
  have hc := exec_case h
  have hns : i ≠ .tick → NoSample s t := fun hi => hc.tick_or_noSample.resolve_left fun htick => hi htick.1
  have hout : i ≠ .tick → t.outL = s.outL ∧ t.outR = s.outR := fun hi => ⟨(hns hi).outL, (hns hi).outR⟩
  have hphase : i ≠ .tick → ∀ k, (t.voices.get k).osc.x1 = (s.voices.get k).osc.x1 ∧
      (t.voices.get k).osc.x2 = (s.voices.get k).osc.x2 := fun hi k => ⟨((hns hi).voices k).x1, ((hns hi).voices k).x2⟩
  rcases hc.frame with ⟨hi, htick⟩ | ⟨q, hq, hd⟩ | ⟨f, hages⟩
  · have f := tick_tickFrame htick
    exact ⟨f.inputs, f.tuning, f.slop, hout, fun hn => absurd hi hn, fun _ => f.qnpos, fun _ => f.ages, hphase⟩
  · exact ⟨q.inputs, q.tuning, fun k => (q.voices k).slop, hout,
      fun _ hn => hd.resolve_left fun ⟨v, hv⟩ => hn v hv, fun hn => hq.resolve_left fun ⟨v, hv⟩ => hn v hv,
      fun _ => ⟨q.global.counter, q.global.voiceAge⟩, hphase⟩
  · exact ⟨f.inputs, f.tuning, fun k => (f.voices k).slop, hout, fun _ _ => f.draws, fun _ => f.qnpos,
      fun hn => hages.resolve_left fun ⟨n, c, v, hv⟩ => hn n c v hv, hphase⟩

end Sys2Proof.Machine
end

