-- ==== Sys2Proof/Proofs/Phases.lean ====
section
/-! SUPPORT. Every step keeps the oscillator phases in `[0, 1)` and the delayed sync fractions in `[0, 1]`. Only a
sample step writes them; under the precondition it checks (R136) the rounded sum, difference, quotient and product stay
in range, because each lies between two finite numbers and rounding keeps order. -/

namespace Sys2Proof.Machine

open Sys2Proof.Claims

/-! ### Ranges as exact values -/

/-- The largest number below 1. -/
def belowOne : F32 := 0x3F7FFFFF#32

/-- The largest number below 2. -/
def belowTwo : F32 := 0x3FFFFFFF#32

theorem fint_f0 : fint f0 = 0 := by decide
theorem fint_f1 : fint f1 = 2 ^ 149 := by decide
theorem fint_belowOne : fint belowOne = 2 ^ 149 - 2 ^ 125 := by decide
theorem fint_belowTwo : fint belowTwo = 2 ^ 150 - 2 ^ 126 := by decide
theorem isFinite_f0 : isFinite f0 = true := by decide
theorem isFinite_f1 : isFinite f1 = true := by decide
theorem isFinite_belowOne : isFinite belowOne = true := by decide
theorem isFinite_belowTwo : isFinite belowTwo = true := by decide

/-- A number from 0 up to a finite one is finite. -/
theorem isFinite_of_fkey {x y : F32} (hy : isFinite y = true) (h0 : 0 ≤ fkey x) (h : fkey x ≤ fkey y) :
    isFinite x = true := by
  rw [isFinite_iff_fkey] at *
  omega

/-- A phase is a finite number from 0 to the largest one below 1. -/
theorem phaseInRange_iff (x : F32) :
    phaseInRange x = true ↔ isFinite x = true ∧ 0 ≤ fint x ∧ fint x ≤ 2 ^ 149 - 2 ^ 125 := by
  have k0 : fkey f0 = 0 := by decide
  have k1 : fkey f1 = fkey belowOne + 1 := by decide
  have hlow := fkey_le_iff f0 x
  have hhigh := fkey_le_iff x belowOne
  rw [fint_f0, k0] at hlow
  rw [fint_belowOne] at hhigh
  have n0 : isNaN f0 = false := by decide
  have n1 : isNaN f1 = false := by decide
  simp only [phaseInRange, fle, flt, n0, n1, k0, k1, Bool.not_false, Bool.true_and, Bool.and_true, Bool.and_eq_true,
    Bool.not_eq_true', decide_eq_true_eq, Int.lt_add_one_iff]
  constructor
  · rintro ⟨⟨-, h0⟩, -, h1⟩
    exact ⟨isFinite_of_fkey isFinite_belowOne h0 h1, hlow.1 h0, hhigh.1 h1⟩
  · rintro ⟨hf, h0, h1⟩
    exact ⟨⟨isNaN_of_isFinite hf, hlow.2 h0⟩, isNaN_of_isFinite hf, hhigh.2 h1⟩

/-- The precondition of a sample: an increment in `(0, 1)` and a phase in `[0, 1)` (R136). -/
theorem phaseOk_iff (delta x0 : F32) :
    phaseOk delta x0 = true ↔ flt f0 delta = true ∧ phaseInRange delta = true ∧ phaseInRange x0 = true := by
  have hle : flt f0 delta = true → fle f0 delta = true := by
    simp only [flt, fle, Bool.and_eq_true, decide_eq_true_eq]
    exact fun h => ⟨h.1, h.2.le⟩
  simp only [phaseOk, phaseInRange, Bool.and_eq_true]
  tauto

/-! ### Rounded values between finite numbers -/

/-- The rounded value of what lies between two finite numbers is finite and between them. -/
theorem ofUnits_between {z : Bool} {i : Int} {a b : F32} (ha : isFinite a = true) (hb : isFinite b = true)
    (hai : fint a ≤ i) (hib : i ≤ fint b) :
    isFinite (ofUnits z i) = true ∧ fint a ≤ fint (ofUnits z i) ∧ fint (ofUnits z i) ≤ fint b := by
  have hlow := fkey_ofUnits_mono (z := z) (w := z) hai
  have hhigh := fkey_ofUnits_mono (z := z) (w := z) hib
  rw [fkey_ofUnits_fint z ha] at hlow
  rw [fkey_ofUnits_fint z hb] at hhigh
  refine ⟨?_, (fkey_le_iff _ _).1 hlow, (fkey_le_iff _ _).1 hhigh⟩
  rw [isFinite_iff_fkey] at *
  omega

/-- Neighbouring magnitudes below 2 are at most `2^126` units, a last place of `[1, 2)`, apart. -/
theorem unitsOfBits_succ_le {m : Nat} (h : m < 0x40000000) : unitsOfBits (m + 1) ≤ unitsOfBits m + 2 ^ 126 := by
  obtain ⟨k, q, rfl, hq, hk⟩ := bits_split m
  have hk126 : k ≤ 126 := by omega
  rw [unitsOfBits_scaled hq.le hk, Nat.add_assoc, unitsOfBits_scaled hq (by omega), Nat.succ_mul]
  exact Nat.add_le_add_left (Nat.pow_le_pow_right (by decide) hk126) _

/-- Below 2, rounding adds at most half a last place of `[1, 2)`. -/
theorem unitsOfBits_roundBits_le {n : Nat} (h : n ≤ 2 ^ 150) : unitsOfBits (roundBits n 1) ≤ n + 2 ^ 125 := by
  have hu : unitsOfBits 0x40000000 = 2 ^ 150 := by decide
  have hle : roundBits n 1 ≤ 0x40000000 := roundBits_le_of_le Nat.one_pos (by rw [hu]; omega)
  rcases Nat.eq_zero_or_pos (roundBits n 1) with hz | hpos
  · rw [hz]
    exact Nat.zero_le _
  · have hmid := (midpoint_le_of_lt_roundBits (m := roundBits n 1 - 1) Nat.one_pos (Nat.sub_lt hpos Nat.one_pos)).1
    have hgap := unitsOfBits_succ_le (m := roundBits n 1 - 1) (by omega)
    rw [Nat.sub_add_cancel hpos] at hgap
    omega

theorem fint_ofUnits_le {z : Bool} {i : Int} (h0 : 0 ≤ i) (h : i ≤ 2 ^ 150) : fint (ofUnits z i) ≤ i + 2 ^ 125 := by
  have hr := unitsOfBits_roundBits_le (n := i.natAbs) (by omega)
  unfold ofUnits
  split
  · next hz =>
    subst hz
    cases z <;> decide
  · rw [fint_roundUnits, show decide (i < 0) = false by simpa using h0]
    show (unitsOfBits (roundBits i.natAbs 1) : Int) ≤ _
    omega

/-! ### The phase after a sample -/

/-- An advanced phase is below 2, and exceeds 1 by no more than the increment: rounding cannot carry it past, since a
phase below 1 leaves half a last place of room. -/
theorem fadd_phase {x d : F32} (hx : phaseInRange x = true) (hd : phaseInRange d = true) :
    isFinite (fadd x d) = true ∧ 0 ≤ fint (fadd x d) ∧ fint (fadd x d) ≤ 2 ^ 150 - 2 ^ 126 ∧
      fint (fadd x d) - 2 ^ 149 ≤ fint d := by
  obtain ⟨hxf, hx0, hx1⟩ := (phaseInRange_iff x).1 hx
  obtain ⟨hdf, hd0, hd1⟩ := (phaseInRange_iff d).1 hd
  rw [fadd_finite hxf hdf]
  obtain ⟨hf, h0, h2⟩ := ofUnits_between (z := fsign x && fsign d) (i := fint x + fint d) isFinite_f0 isFinite_belowTwo
    (by rw [fint_f0]; omega) (by rw [fint_belowTwo]; omega)
  have hr := fint_ofUnits_le (z := fsign x && fsign d) (i := fint x + fint d) (by omega) (by omega)
  rw [fint_f0] at h0
  rw [fint_belowTwo] at h2
  exact ⟨hf, h0, h2, by omega⟩

/-- A wrapped phase is in range, and is at most the increment. -/
theorem fsub_phase {x d : F32} (hx : phaseInRange x = true) (hd : phaseInRange d = true)
    (h : fle f1 (fadd x d) = true) :
    phaseInRange (fsub (fadd x d) f1) = true ∧ fint (fsub (fadd x d) f1) ≤ fint d := by
  obtain ⟨hf, -, h2, hover⟩ := fadd_phase hx hd
  obtain ⟨hdf, -, -⟩ := (phaseInRange_iff d).1 hd
  rw [fle_iff_fint isFinite_f1 hf, fint_f1] at h
  rw [fsub_finite hf isFinite_f1, fint_f1]
  have hbetween : ∀ {b : F32}, isFinite b = true → fint (fadd x d) - 2 ^ 149 ≤ fint b → _ := fun hb hle =>
    ofUnits_between (z := fsign (fadd x d) && !fsign f1) isFinite_f0 hb (by rw [fint_f0]; omega) hle
  obtain ⟨hfin, h0, hone⟩ := hbetween isFinite_belowOne (by rw [fint_belowOne]; omega)
  rw [fint_f0] at h0
  rw [fint_belowOne] at hone
  exact ⟨(phaseInRange_iff _).2 ⟨hfin, h0, hone⟩, (hbetween hdf hover).2.2⟩

/-- The advanced phase, wrapped where it reaches 1, is in range (R175, R177). -/
theorem wrapped_phase {x d : F32} (hx : phaseInRange x = true) (hd : phaseInRange d = true) :
    phaseInRange (if fle f1 (fadd x d) then fsub (fadd x d) f1 else fadd x d) = true := by
  split
  · next h => exact (fsub_phase hx hd h).1
  · next h =>
    obtain ⟨hf, h0, -, -⟩ := fadd_phase hx hd
    rw [fle_iff_fint isFinite_f1 hf, not_le] at h
    rw [phaseInRange, Bool.and_eq_true, fle_iff_fint isFinite_f0 hf, flt_iff_fint hf isFinite_f1, fint_f0]
    exact ⟨h0, h⟩

/-- A quotient of numbers of which the dividend is the smaller lies in `[0, 1]`. -/
theorem fdiv_fracInRange {a b : F32} (ha : isFinite a = true) (hb : isFinite b = true) (h0 : 0 ≤ fint a)
    (hab : fint a ≤ fint b) (hpos : 0 < fint b) : fracInRange (fdiv a b) = true := by
  have hzero : ∀ s, fracInRange (zero s) = true := by decide
  rcases h0.eq_or_lt with hz | hapos
  · rw [fdiv_eq_zero ha hb hpos.ne' hz.symm]
    exact hzero _
  · have hunits : ∀ {x : F32}, 0 < fint x → fsign x = false ∧ fint x = funits x := by
      intro x hx
      unfold fint at *
      split at hx
      · omega
      · next hs => exact ⟨by simpa using hs, by simp [hs]⟩
    obtain ⟨hsa, hua⟩ := hunits hapos
    obtain ⟨hsb, hub⟩ := hunits hpos
    have hone : unitsOfBits 0x3F800000 = 2 ^ 149 := by decide
    have hle : roundBits (funits a * 2 ^ 149) (funits b) ≤ 0x3F800000 :=
      roundBits_le_of_le (by omega) (by rw [hone, Nat.mul_comm]; exact Nat.mul_le_mul_left _ (by omega))
    have hsign : (fsign a != fsign b) = false := by rw [hsa, hsb]; rfl
    rw [fdiv_finite ha hb, if_neg hpos.ne', hsign]
    refine inUnit_iff_fkey.2 ⟨isNaN_roundUnits _ _ _, ?_, ?_⟩ <;> rw [fkey_roundUnits, if_neg Bool.false_ne_true]
    · exact Int.natCast_nonneg _
    · exact Int.ofNat_le.2 hle

/-- The wrap fraction lies in `[0, 1]` (R134). -/
theorem wrap_fraction {x d : F32} (hx : phaseInRange x = true) (hd : phaseInRange d = true) (hpos : flt f0 d = true) :
    fracInRange (if fle f1 (fadd x d) then fdiv (fsub (fadd x d) f1) d else f0) = true := by
  split
  · next h =>
    obtain ⟨hwrap, hle⟩ := fsub_phase hx hd h
    obtain ⟨hwf, hw0, -⟩ := (phaseInRange_iff _).1 hwrap
    obtain ⟨hdf, -, -⟩ := (phaseInRange_iff d).1 hd
    rw [flt_iff_fint isFinite_f0 hdf, fint_f0] at hpos
    exact fdiv_fracInRange hwf hdf hw0 hle hpos
  · decide

/-- The phase a hard reset leaves, the increment times a fraction, is in range (R177). -/
theorem reset_phase {d h : F32} (hd : phaseInRange d = true) (hh : fracInRange h = true) :
    phaseInRange (fmul d h) = true := by
  obtain ⟨hdf, hd0, hd1⟩ := (phaseInRange_iff d).1 hd
  have hcomm : fmul d h = fmul h d := by
    rw [fmul_finite hdf (inUnit_finite hh), fmul_finite (inUnit_finite hh) hdf, Nat.mul_comm, bne_comm]
  obtain ⟨hf, -, hbetween⟩ := fmul_unit hh hdf
  have k0 : fkey f0 = 0 := by decide
  have hd0' := (fkey_le_iff f0 d).2 (by rwa [fint_f0])
  have hlow := fkey_le_iff f0 (fmul h d)
  have hhigh := fkey_le_iff (fmul h d) d
  rw [fint_f0] at hlow
  rw [hcomm]
  exact (phaseInRange_iff _).2 ⟨hf, hlow.1 (by omega), (hhigh.1 (by omega)).trans hd1⟩

/-- Oscillator 2's phase stays in range, reset or not (R177). -/
theorem followerPhase_inRange {x d h : F32} (r : Bool) (hx : phaseInRange x = true) (hd : phaseInRange d = true)
    (hh : fracInRange h = true) : phaseInRange (followerPhase (fadd x d) d r h) = true := by
  cases r with
  | true =>
    have hreset : followerPhase (fadd x d) d true h = fmul d h := if_pos rfl
    rw [hreset]
    exact reset_phase hd hh
  | false =>
    have hfree : followerPhase (fadd x d) d false h = if fle f1 (fadd x d) then fsub (fadd x d) f1 else fadd x d := by
      simp [followerPhase, wrapKept, keepEvent]
    rw [hfree]
    exact wrapped_phase hx hd

/-! ### The block, the tick, the step -/

/-- A sample of the oscillator block keeps its bounds. -/
theorem OscBlock.Good.process {o : OscBlock} (h : o.Good) {fsI noteSemi pto1 pto2 pw1mod pw2mod : F32} {d : Nat}
    {q : F32 × OscBlock} (e : o.process fsI noteSemi pto1 pto2 pw1mod pw2mod d = .ok q) : q.2.Good := by
  obtain ⟨-, -, hline⟩ := h
  obtain ⟨d1, d2, hsf, hsr, hok1, hok2, hx1, hhsf, hdl, hx2⟩ := OscBlock.process_phases e
  obtain ⟨hpos1, hd1, hp1⟩ := (phaseOk_iff _ _).1 hok1
  obtain ⟨-, hd2, hp2⟩ := (phaseOk_iff _ _).1 hok2
  have hfrac : fracInRange hsf = true := hhsf ▸ wrap_fraction hp1 hd1 hpos1
  obtain ⟨hout, hline'⟩ := feedReturn_forall (p := fun f => fracInRange f = true) o.dlSyncFrac hsf hline hfrac
  refine ⟨?_, ?_, ?_⟩
  · rw [hx1]
    exact wrapped_phase hp1 hd1
  · rw [hx2]
    exact followerPhase_inRange hsr hp2 hd2 hout
  · rw [hdl]
    exact hline'

theorem State.PhasesInRange.halfSample {s : State} (h : s.PhasesInRange) {a : F32} {o : HalfOut}
    (e : s.halfSample a = .ok o) : o.state.PhasesInRange :=
  halfSample_forall_voice (P := fun _ v => v.osc.Good) e h fun _ _ _ _ _ hP ho => by
    obtain ⟨⟨_, _, _, _, _, _, q, hq, hosc⟩, -⟩ := Voice.processSample_ok ho
    rw [hosc]
    exact hP.process hq

theorem State.PhasesInRange.smooth {s : State} (h : s.PhasesInRange) : s.smooth.PhasesInRange := fun k => by
  rw [State.smooth_voices, Vec.get_map]
  exact h k

theorem State.PhasesInRange.tick {s t : State} (h : s.PhasesInRange) (e : s.tick = .ok t) : t.PhasesInRange :=
  tick_induction (P := State.PhasesInRange) h e (fun _ h => h.smooth) (fun _ _ _ h e => h.halfSample e)
    (fun _ _ _ h => h) fun _ _ _ _ _ h => h

theorem OscBlock.Good.congr {o p : OscBlock} (h : o.Good) (h1 : p.x1 = o.x1) (h2 : p.x2 = o.x2)
    (hl : p.dlSyncFrac = o.dlSyncFrac) : p.Good := by
  unfold OscBlock.Good at *
  rwa [h1, h2, hl]

/-- A command that makes no sample keeps the phases. -/
theorem State.PhasesInRange.noSample {s t : State} (h : s.PhasesInRange) (f : NoSample s t) : t.PhasesInRange :=
  fun k => (h k).congr (f.voices k).x1 (f.voices k).x2 (f.voices k).dlSyncFrac

theorem ExecCase.phasesInRange {i : Instr} {s t : State} (hc : ExecCase i s t) (h : s.PhasesInRange) :
    t.PhasesInRange := hc.tick_or_noSample.elim (fun htick => h.tick htick.2) h.noSample

/-- Settles O18, by the cases of a step: a tick keeps the phases by `OscBlock.Good.process`, and no other command
writes them. -/
theorem everyStepKeepsPhasesInRange : Obligations.EveryStepKeepsPhasesInRange := by
  intro s t h hs
  cases step_case hs with
  | idle => exact h
  | illegal w rest =>
    exact State.PhasesInRange.noSample (s := { s with inputs := rest }) h (raise_noteFrame _ _ _).toNoSample
  | command _ rest _ _ _ _ _ hc => exact hc.phasesInRange (s := { s with inputs := rest }) h
  | reset rest => exact resetWith_phasesInRange _ _ rest
  | tuning table rest => exact h

end Sys2Proof.Machine
end

