-- ==== Sys2Proof/Proofs/UnreadRegisters.lean ====
section
/-! SUPPORT. No rule reads `G.qnpos` (R46, R343) and no behaviour depends on `G.priority` (R309, R386): every operation
gives the same outcome with another value there. Both registers are treated at once, as one of two overwrites; each operation
commutes with an overwrite, and so does every command that does not write the register itself. -/

namespace Sys2Proof.Machine

open Sys2Proof.Claims

/-! ### Overwriting an unread register -/

/-- Another value for one of the two registers no rule reads. -/
inductive Unread where
  | position (q : F32)
  | priority (p : Priority)

/-- The global registers with the other value. -/
def Global.overwrite (u : Unread) (g : Global) : Global :=
  match u with
  | .position q => { g with qnpos := q }
  | .priority p => { g with priority := p }

/-- The state with the other value. -/
def State.overwrite (u : Unread) (s : State) : State := { s with g := s.g.overwrite u }

/-- The command writes the register itself. -/
def Unread.WrittenBy (u : Unread) (i : Instr) : Prop :=
  match u with
  | .position _ => ∃ v, i = .playpos v
  | .priority _ => ∃ v, i = .voicepriority v

/-- An operation on states that takes no notice of the register and leaves it alone. -/
def Ignores (u : Unread) (op : State → State) : Prop := ∀ s, op (s.overwrite u) = (op s).overwrite u

variable (u : Unread)

@[simp] theorem overwrite_voices (s : State) : (s.overwrite u).voices = s.voices := rfl
@[simp] theorem overwrite_fsI (s : State) : (s.overwrite u).g.fsI = s.g.fsI := by cases u <;> rfl
@[simp] theorem overwrite_totalvc (s : State) : (s.overwrite u).g.totalvc = s.g.totalvc := by cases u <;> rfl
@[simp] theorem overwrite_voicesNeeded (s : State) : (s.overwrite u).g.voicesNeeded = s.g.voicesNeeded := by
  cases u <;> rfl
@[simp] theorem overwrite_configured (s : State) : (s.overwrite u).configured = s.configured := by cases u <;> rfl
@[simp] theorem overwrite_isActive (s : State) (i : Fin 32) : (s.overwrite u).isActive i = s.isActive i := rfl
@[simp] theorem overwrite_countActiveVoices (s : State) : (s.overwrite u).countActiveVoices = s.countActiveVoices := by
  cases u <;> rfl
@[simp] theorem overwrite_nextVoiceToBeStolen (s : State) (taken : List (Fin 32)) :
    (s.overwrite u).nextVoiceToBeStolen taken = s.nextVoiceToBeStolen taken := by cases u <;> rfl
@[simp] theorem overwrite_pendingKey (s : State) (n : Fin 128) : (s.overwrite u).pendingKey n = s.pendingKey n := by
  cases u <;> rfl

/-! ### Operations that ignore the register -/

theorem raise_ignores (c : FaultCause) (w : CmdWord) : Ignores u (raise c w) := fun s => by
  rw [raise_eq, raise_eq]; rfl

theorem voiceNoteOn_ignores (j : Fin 32) (n : Fin 128) (vel : F32) : Ignores u (State.voiceNoteOn j n vel) :=
  fun _ => by cases u <;> rfl

theorem mapStolen_ignores (k : Fin 128) (f : BitVec 32 → BitVec 32) : Ignores u (State.mapStolen k f) := fun _ => by
  cases u <;> rfl

theorem recordAge_ignores (n : Fin 128) : Ignores u (State.recordAge n) := fun _ => by cases u <;> rfl

theorem stealVoice_ignores (j : Fin 32) (n : Fin 128) (vel : F32) : Ignores u (State.stealVoice j n vel) := fun _ => by
  cases u <;> rfl

theorem getNext_overwrite (s : State) : (s.overwrite u).getNext = (s.getNext.1, s.getNext.2.overwrite u) := by
  cases u <;> rfl

theorem stealLoop_overwrite (n : Fin 128) (vel : F32) (k : Nat) (taken : List (Fin 32)) (s : State) :
    (s.overwrite u).stealLoop n vel k taken =
      ((s.stealLoop n vel k taken).1.overwrite u, (s.stealLoop n vel k taken).2) := by
  induction k generalizing taken s with
  | zero => rfl
  | succ k ih =>
    rw [State.stealLoop, State.stealLoop, overwrite_nextVoiceToBeStolen]
    cases s.nextVoiceToBeStolen taken with
    | none => rfl
    | some j =>
      dsimp only
      rw [stealVoice_ignores u, ih]

theorem allocLoop_ignores (n : Fin 128) (vel : F32) (needed k : Nat) (taken : List (Fin 32)) :
    Ignores u (State.allocLoop n vel needed k taken) := fun s => by
  induction k generalizing taken s with
  | zero => rfl
  | succ k ih =>
    rw [State.allocLoop, State.allocLoop, getNext_overwrite]
    dsimp only
    rw [overwrite_isActive, voiceNoteOn_ignores u, ih, ih]
    split_ifs <;> rfl

/-- The steal policy is the same for every priority (R309). -/
theorem setNoteOn_ignores (n : Fin 128) (vel : F32) : Ignores u (State.setNoteOn n vel) := fun s => by
  unfold State.setNoteOn
  dsimp only
  rw [recordAge_ignores u, overwrite_totalvc, overwrite_voicesNeeded, overwrite_countActiveVoices, stealLoop_overwrite]
  simp only [stealAllowed, and_true]
  split_ifs <;> (dsimp only; rw [overwrite_totalvc, allocLoop_ignores u])

theorem noteOffVoice_overwrite (n : Fin 128) (s : State) (i : Fin 32) :
    (s.overwrite u).noteOffVoice n i = (s.noteOffVoice n i).overwrite u := by
  unfold State.noteOffVoice
  dsimp only
  rw [overwrite_pendingKey, overwrite_voices, overwrite_fsI]
  split_ifs
  · cases s.pendingKey n with
    | none => rfl
    | some k =>
      dsimp only
      rw [voiceNoteOn_ignores u, mapStolen_ignores u]
  · rfl

theorem setNoteOff_ignores (n : Fin 128) : Ignores u (State.setNoteOff n) := fun s => by
  have hfold : ∀ (l : List (Fin 32)) (s : State),
      l.foldl (State.noteOffVoice n) (s.overwrite u) = (l.foldl (State.noteOffVoice n) s).overwrite u := by
    intro l
    induction l with
    | nil => exact fun _ => rfl
    | cons i l ih => exact fun s => by rw [List.foldl_cons, List.foldl_cons, noteOffVoice_overwrite, ih]
  unfold State.setNoteOff
  rw [overwrite_totalvc, hfold, mapStolen_ignores u]

/-! ### The tick -/

/-- A half-sample's result with the other value. -/
def HalfOut.overwrite (h : HalfOut) : HalfOut := { h with state := h.state.overwrite u }

theorem halfSample_overwrite (s : State) (a : F32) :
    (s.overwrite u).halfSample a = (s.halfSample a).map (HalfOut.overwrite u) := by
  have hrun : runVoices ((s.overwrite u).voiceCtx a) (s.overwrite u).g.pan (s.overwrite u).g.totalvc
      (s.overwrite u).g.totalvc.val (s.overwrite u).mixStart =
      runVoices (s.voiceCtx a) s.g.pan s.g.totalvc s.g.totalvc.val s.mixStart := by cases u <;> rfl
  rw [halfSample_eq, halfSample_eq, hrun]
  cases runVoices (s.voiceCtx a) s.g.pan s.g.totalvc s.g.totalvc.val s.mixStart with
  | error e => rfl
  | ok m => cases u <;> rfl

theorem smooth_ignores : Ignores u State.smooth := fun _ => by cases u <;> rfl

theorem writeOut_ignores (l r : F32) : Ignores u (State.writeOut l r) := fun _ => by cases u <;> rfl

theorem decimate_ignores (l0 r0 l1 r1 : F32) : Ignores u (State.decimate l0 r0 l1 r1) := fun s => by
  have hL : (s.overwrite u).g.decL = s.g.decL := by cases u <;> rfl
  have hR : (s.overwrite u).g.decR = s.g.decR := by cases u <;> rfl
  unfold State.decimate
  dsimp only
  rw [hL, hR, ← writeOut_ignores u]
  exact congrArg (State.writeOut _ _) (by cases u <;> rfl)

theorem tick_overwrite (s : State) : (s.overwrite u).tick = s.tick.map (State.overwrite u) := by
  unfold State.tick
  dsimp only
  have hamt : (s.smooth.overwrite u).g.vibAmt = s.smooth.g.vibAmt := by cases u <;> rfl
  have hover : (s.smooth.overwrite u).g.oversample = s.smooth.g.oversample := by cases u <;> rfl
  rw [smooth_ignores u, hamt, halfSample_overwrite, hover]
  cases s.smooth.halfSample s.smooth.g.vibAmt with
  | error e => rfl
  | ok h0 =>
    have hhalf : (h0.overwrite u).state.halfSample s.smooth.g.vibAmt =
        (h0.state.halfSample s.smooth.g.vibAmt).map (HalfOut.overwrite u) := halfSample_overwrite u _ _
    dsimp only [Except.map]
    rw [hhalf]
    split_ifs
    · cases h0.state.halfSample s.smooth.g.vibAmt with
      | error e => rfl
      | ok h1 => exact congrArg Except.ok (decimate_ignores u _ _ _ _ h1.state)
    · cases u <;> rfl

/-! ### Commands -/

theorem checked_ignores {i : Instr} {inRange needsCfg : Bool} {op : State → State} (h : Ignores u op) :
    Ignores u (checked i inRange needsCfg op) := fun s => by
  unfold checked
  rw [overwrite_configured]
  split_ifs
  · exact raise_ignores u _ _ s
  · exact h s
  · exact raise_ignores u _ _ s

theorem markWritten_ignores (id : RegId) : Ignores u (State.markWritten id) := fun _ => by cases u <;> rfl

theorem command_overwrite {i : Instr} {inRange : Bool} {op : State → State} (h : Ignores u op) (s : State) :
    command i inRange op (s.overwrite u) = mapNext (State.overwrite u) (command i inRange op s) :=
  congrArg Host.Outcome.next (checked_ignores u h s)

theorem configuredCommand_overwrite {i : Instr} {inRange : Bool} {op : State → State} (h : Ignores u op) (s : State) :
    configuredCommand i inRange op (s.overwrite u) = mapNext (State.overwrite u) (configuredCommand i inRange op s) :=
  congrArg Host.Outcome.next (checked_ignores u h s)

theorem setter_overwrite {i : Instr} {id : RegId} {inRange : Bool} {op : State → State} (h : Ignores u op) (s : State) :
    setter i id inRange op (s.overwrite u) = mapNext (State.overwrite u) (setter i id inRange op s) :=
  command_overwrite u (fun s => by rw [h s, markWritten_ignores u]) s

theorem globalSetter_overwrite {i : Instr} {id : RegId} {v : F32} {f : Global → Global}
    (h : ∀ g : Global, f (g.overwrite u) = (f g).overwrite u) (s : State) :
    globalSetter i id v f (s.overwrite u) = mapNext (State.overwrite u) (globalSetter i id v f s) :=
  setter_overwrite u (fun s => congrArg (fun g => { s with g := g }) (h s.g)) s

theorem voiceSetter_overwrite {i : Instr} {id : RegId} {v : F32} {f : Voice → Voice} (s : State) :
    voiceSetter i id v f (s.overwrite u) = mapNext (State.overwrite u) (voiceSetter i id v f s) :=
  setter_overwrite u (op := State.mapVoices f) (fun _ => rfl) s

theorem execTick_overwrite (s : State) : execTick (s.overwrite u) = mapNext (State.overwrite u) (execTick s) := by
  unfold execTick
  rw [overwrite_configured, tick_overwrite]
  split_ifs
  · cases s.tick <;> rfl
  · exact congrArg Host.Outcome.next (raise_ignores u _ _ s)

/-- Every command that does not write the register gives the same outcome with the other value in it. -/
theorem exec_overwrite (i : Instr) (s : State) (h : ¬u.WrittenBy i) :
    exec i (s.overwrite u) = mapNext (State.overwrite u) (exec i s) := by
  cases i with
  | setrate v => exact setter_overwrite u (fun s => by cases u <;> rfl) s
  | tick => exact execTick_overwrite u s
  | playpos v =>
    refine command_overwrite u (fun s => ?_) s
    cases u with
    | position q => exact absurd ⟨v, rfl⟩ h
    | priority p => rfl
  | playhead a bpm =>
    refine setter_overwrite u (fun s => ?_) s
    dsimp only
    split_ifs <;> cases u <;> rfl
  | noteon n c v => exact configuredCommand_overwrite u (setNoteOn_ignores u _ v) s
  | noteoff n c v => exact configuredCommand_overwrite u (setNoteOff_ignores u _) s
  | suston => exact configuredCommand_overwrite u (op := State.sustainOn) (fun _ => rfl) s
  | sustoff => exact configuredCommand_overwrite u (fun _ => by cases u <;> rfl) s
  | allnotesoff => exact configuredCommand_overwrite u (fun _ => by cases u <;> rfl) s
  | allsoundoff => exact configuredCommand_overwrite u (fun _ => by cases u <;> rfl) s
  | pitchwheel v => exact command_overwrite u (fun _ => by cases u <;> rfl) s
  | modwheel v => exact command_overwrite u (fun _ => by cases u <;> rfl) s
  | polyphony v => exact setter_overwrite u (fun _ => by cases u <;> rfl) s
  | oversample v => exact setter_overwrite u (fun _ => by cases u <;> rfl) s
  | pan a v => exact setter_overwrite u (fun _ => by cases u <;> rfl) s
  | voicepriority v =>
    refine globalSetter_overwrite u (fun g => ?_) s
    cases u with
    | position q => rfl
    | priority p => exact absurd ⟨v, rfl⟩ h
  | modparam a v =>
    refine command_overwrite u (fun s => ?_) s
    cases modIndexOf a with
    | none => rfl
    | some k => cases u <;> rfl
  | ampattack v | ampdecay v | ampsustain v | amprelease v | fltattack v | fltdecay v | fltsustain v | fltrelease v =>
    cases u <;> exact voiceSetter_overwrite _ s
  | volume v | unison v | univoices v | vibratorate v | lfo1rate v | lfo1wave1 v | lfo1wave2 v | lfo1wave3 v
  | lfo1sync v | cutoff v => exact globalSetter_overwrite u (fun _ => by cases u <;> rfl) s
  | _ v => exact voiceSetter_overwrite u s

/-- Settles O35, by `exec_overwrite` for the two registers and by the two note commands' meanings for their ignored
operands. -/
theorem channelAndPriorityAndPositionAreUnread : Obligations.ChannelAndPriorityAndPositionAreUnread := by
  refine ⟨fun i s q hi => exec_overwrite (.position q) i s fun ⟨v, hv⟩ => hi v hv,
    fun i s p hi => exec_overwrite (.priority p) i s fun ⟨v, hv⟩ => hi v hv, fun s note c c' v v' hok hv' => ?_⟩
  obtain ⟨hcfg, hnote, hv⟩ := hok
  have hrange : ∀ {w : F32}, unitRange w = true → (noteRange note && unitRange w) = true := fun hw => by
    rw [hw, Bool.and_true]
    exact decide_eq_true hnote
  constructor
  · exact (configuredCommand_accepted (hrange hv) hcfg).trans (configuredCommand_accepted (hrange hv) hcfg).symm
  · exact (configuredCommand_accepted (hrange hv) hcfg).trans (configuredCommand_accepted (hrange hv') hcfg).symm

end Sys2Proof.Machine
end

