-- ==== Sys2Proof/Proofs/Encoding.lean ====
section
/-! SUPPORT. The decoder, the encoder and the rows of the command list describe one encoding (`30_encoding.md` R101 to R109).
Two case splits carry everything: every command's word decodes to it (over the commands), and a listed row writes what it
reads (over the opcodes). The rest is argued per format, on the row. -/

namespace Sys2Proof

/-! ### The decoder by rows -/

/-- A word decodes to a command exactly when the row its opcode lists reads that command. -/
theorem decode_eq_ok_iff {w : CmdWord} {i : Instr} :
    decode w = .ok i ↔ ∃ row, opcodeRow (fieldOP w).toNat = some row ∧ row.read w = some i := by
  constructor
  · intro h
    cases hrow : opcodeRow (fieldOP w).toNat with
    | none => simp [decode, hrow] at h
    | some row =>
      cases hread : row.read w with
      | none => simp [decode_of_unread hrow hread] at h
      | some j =>
        rw [decode_of_read hrow hread] at h
        cases h
        exact ⟨row, rfl, hread⟩
  · rintro ⟨row, hrow, hread⟩
    exact decode_of_read hrow hread

/-- No operand of any command is lost between the encoder and the decoder. -/
theorem decode_encode (i : Instr) : decode (encode i) = .ok i := by
  cases i with
  | tick | suston | sustoff | allnotesoff | allsoundoff => exact decode_packN rfl
  | noteon a b v | noteoff a b v => exact decode_packK rfl a b v
  | playhead a v | pan a v | modparam a v => exact decode_packAF rfl a v
  | _ v => exact decode_packF rfl v

/-! ### Rows -/

/-- The mask of a row's format (R103). -/
def Row.mask : Row → CmdWord
  | .n _ => maskN
  | .f _ => maskF
  | .af _ => maskAF
  | .k _ => maskK

/-- The mnemonic of a row, read off its command with zero operands. -/
def Row.mnemonic : Row → String
  | .n i => i.mnemonic
  | .f mk => (mk 0#32).mnemonic
  | .af mk => (mk 0#8 0#32).mnemonic
  | .k mk => (mk 0#8 0#8 0#32).mnemonic

/-- A command lies in a row under an opcode: its word, mask, match value and mnemonic are what the row says. -/
structure Instr.LiesIn (op : BitVec 8) (row : Row) (word : CmdWord) (i : Instr) : Prop where
  encode_eq : encode i = word
  rowMask_eq : i.rowMask = row.mask
  rowMatch_eq : i.rowMatch = op ++ 0#56
  mnemonic_eq : i.mnemonic = row.mnemonic

/-- Every command a row makes of operands lies in that row, with those operands in its word. -/
def Row.Consistent (op : BitVec 8) : Row → Prop
  | .n i => i.LiesIn op (.n i) (packN op)
  | .f mk => ∀ v, (mk v).LiesIn op (.f mk) (packF op v)
  | .af mk => ∀ a v, (mk a v).LiesIn op (.af mk) (packAF op a v)
  | .k mk => ∀ a b v, (mk a b v).LiesIn op (.k mk) (packK op a b v)

/-- The command list, the encoder and the table of masks and match values agree row by row (R107). -/
theorem consistent_of_opcodeRow {op : BitVec 8} {row : Row} (h : opcodeRow op.toNat = some row) : row.Consistent op := by
  have hop : op = BitVec.ofNat 8 op.toNat := by simp
  unfold opcodeRow at h
  split at h <;> cases h
  all_goals
    rename_i hcode
    rw [hcode] at hop
    subst hop
    simp only [Row.Consistent]
    intros
    exact ⟨rfl, rfl, rfl, rfl⟩

/-- A word is a packed one exactly when each of its five fields is. -/
theorem eq_pack_iff {w : CmdWord} {op a b : BitVec 8} {v : F32} :
    w = pack op a b v ↔ fieldOP w = op ∧ fieldA w = a ∧ fieldB w = b ∧ fieldZ w = 0#8 ∧ fieldV w = v := by
  constructor
  · rintro rfl
    simp
  · rintro ⟨rfl, rfl, rfl, hz, rfl⟩
    exact (pack_fields hz).symm

/-- The command a consistent row reads from a word lies in that row, and the word is its encoding. -/
theorem Row.Consistent.liesIn {w : CmdWord} {row : Row} {i : Instr} (h : row.Consistent (fieldOP w))
    (hread : row.read w = some i) : i.LiesIn (fieldOP w) row w := by
  cases row with
  | n j =>
    obtain ⟨⟨ha, hb, hz, hv⟩, ⟨⟩⟩ := Option.ite_none_right_eq_some.1 hread
    rwa [Consistent, packN, ← eq_pack_iff.2 ⟨rfl, ha, hb, hz, hv⟩] at h
  | f mk =>
    obtain ⟨⟨ha, hb, hz⟩, ⟨⟩⟩ := Option.ite_none_right_eq_some.1 hread
    have hlies := h (fieldV w)
    rwa [packF, ← eq_pack_iff.2 ⟨rfl, ha, hb, hz, rfl⟩] at hlies
  | af mk =>
    obtain ⟨⟨hb, hz⟩, ⟨⟩⟩ := Option.ite_none_right_eq_some.1 hread
    have hlies := h (fieldA w) (fieldV w)
    rwa [packAF, ← eq_pack_iff.2 ⟨rfl, rfl, hb, hz, rfl⟩] at hlies
  | k mk =>
    obtain ⟨hz, ⟨⟩⟩ := Option.ite_none_right_eq_some.1 hread
    have hlies := h (fieldA w) (fieldB w) (fieldV w)
    rwa [packK, ← eq_pack_iff.2 ⟨rfl, rfl, rfl, hz, rfl⟩] at hlies

/-- A legal word is the encoding of its command, which lies in a listed row under the word's opcode. -/
theorem liesIn_of_decode {w : CmdWord} {i : Instr} (h : decode w = .ok i) :
    ∃ row, opcodeRow (fieldOP w).toNat = some row ∧ row.read w = some i ∧ i.LiesIn (fieldOP w) row w := by
  obtain ⟨row, hrow, hread⟩ := decode_eq_ok_iff.1 h
  exact ⟨row, hrow, hread, (consistent_of_opcodeRow hrow).liesIn hread⟩

/-! ### Match and mask -/

/-- The match value of an opcode is its word without operands (R103). -/
theorem append_zero_eq_pack (op : BitVec 8) : op ++ 0#56 = pack op 0#8 0#8 0#32 := by
  revert op
  decide

theorem and_ones8 (x : BitVec 8) : x &&& 255#8 = x := BitVec.and_allOnes

theorem and_ones32 (x : F32) : x &&& 4294967295#32 = x := BitVec.and_allOnes

/-- The fields a row's format requires to be zero are zero in the word (R102). -/
def Row.ZeroFields (w : CmdWord) : Row → Prop
  | .n _ => fieldA w = 0#8 ∧ fieldB w = 0#8 ∧ fieldZ w = 0#8 ∧ fieldV w = 0#32
  | .f _ => fieldA w = 0#8 ∧ fieldB w = 0#8 ∧ fieldZ w = 0#8
  | .af _ => fieldB w = 0#8 ∧ fieldZ w = 0#8
  | .k _ => fieldZ w = 0#8

theorem Row.exists_read_iff {row : Row} {w : CmdWord} : (∃ i, row.read w = some i) ↔ row.ZeroFields w := by
  cases row <;> simp [read, ZeroFields]

/-- A word agrees with a match value on a row's mask exactly when it has the opcode and its required-zero fields are zero:
on each field the mask is all ones or all zeros (R103). -/
theorem Row.and_mask_eq_iff {row : Row} {w : CmdWord} {op : BitVec 8} :
    w &&& row.mask = op ++ 0#56 ↔ fieldOP w = op ∧ row.ZeroFields w := by
  rw [append_zero_eq_pack, eq_pack_iff]
  cases row <;>
    simp [mask, maskN, maskF, maskAF, maskK, ZeroFields, fieldOP, fieldA, fieldB, fieldZ, fieldV, BitVec.extractLsb'_and,
      and_ones8, and_ones32]

/-- A row's mask is one of the four of R103. -/
theorem Row.mask_cases (row : Row) :
    row.mask = 0xFFFFFFFFFFFFFFFF#64 ∨ row.mask = 0xFFFFFFFF00000000#64 ∨
      row.mask = 0xFF00FFFF00000000#64 ∨ row.mask = 0xFF0000FF00000000#64 := by
  cases row <;> simp [mask, maskN, maskF, maskAF, maskK]

/-- A word that matches a command's row decodes to a command of that row: the row of `i` is the one `encode i` decodes by,
and `w` has its opcode. -/
theorem decode_of_matches {w : CmdWord} {i : Instr} (h : w &&& i.rowMask = i.rowMatch) :
    ∃ j : Instr, decode w = .ok j ∧ j.mnemonic = i.mnemonic := by
  obtain ⟨row, hrow, -, hi⟩ := liesIn_of_decode (decode_encode i)
  rw [hi.rowMask_eq, hi.rowMatch_eq, Row.and_mask_eq_iff] at h
  obtain ⟨hop, hzero⟩ := h
  obtain ⟨j, hread⟩ := Row.exists_read_iff.2 hzero
  rw [← hop] at hrow
  have hj := (consistent_of_opcodeRow hrow).liesIn hread
  exact ⟨j, decode_of_read hrow hread, hj.mnemonic_eq.trans hi.mnemonic_eq.symm⟩

/-- A word matches the row of the command it decodes to. -/
theorem matches_of_decode {w : CmdWord} {i : Instr} (h : decode w = .ok i) : w &&& i.rowMask = i.rowMatch := by
  obtain ⟨row, -, hread, hi⟩ := liesIn_of_decode h
  rw [hi.rowMask_eq, hi.rowMatch_eq, Row.and_mask_eq_iff]
  exact ⟨rfl, Row.exists_read_iff.1 ⟨i, hread⟩⟩

/-! ### The statements -/

/-- Settles O1, by the format of the command. -/
theorem decodeOfEncodeIsTheCommand : Obligations.DecodeOfEncodeIsTheCommand := decode_encode

/-- Settles O2, by the row the word decodes by. -/
theorem encodeOfDecodeIsTheWord : Obligations.EncodeOfDecodeIsTheWord := fun _ _ h =>
  have ⟨_, _, _, hi⟩ := liesIn_of_decode h
  hi.encode_eq

/-- Settles O3. No word matches two rows, because the decoder is a function: both rows give the command it decodes to. -/
theorem wordIsCommandOfItsRow : Obligations.WordIsCommandOfItsRow := by
  refine ⟨fun _ _ => matches_of_decode, fun _ _ => decode_of_matches, fun w i j hi hj => ?_, fun i => ?_⟩
  · obtain ⟨i', hdi, hmi⟩ := decode_of_matches hi
    obtain ⟨j', hdj, hmj⟩ := decode_of_matches hj
    obtain rfl : i' = j' := Except.ok.inj (hdi.symm.trans hdj)
    exact hmi.symm.trans hmj
  · obtain ⟨row, -, -, hi⟩ := liesIn_of_decode (decode_encode i)
    exact ⟨hi.rowMatch_eq, hi.rowMask_eq ▸ row.mask_cases⟩

end Sys2Proof

namespace Sys2Proof.Machine

/-- A step with a command word next runs that word. -/
theorem step_command {s : State} {w : CmdWord} {rest : List HostInput} (h : s.inputs = .command w :: rest) :
    step s = runWord w { s with inputs := rest } := by
  rw [step, h]

/-- A legal word runs its command. -/
theorem runWord_of_decode {w : CmdWord} {i : Instr} (h : decode w = .ok i) (s : State) : runWord w s = exec i s := by
  rw [runWord, h]

/-- Settles O6. -/
theorem stepRunsTheDecodedCommand : Obligations.StepRunsTheDecodedCommand := fun _ _ _ _ hs hd =>
  (step_command hs).trans (runWord_of_decode hd _)

end Sys2Proof.Machine
end

