-- ==== Sys2Proof/Proofs/OperandRanges.lean ====
section
/-! SUPPORT. The operand ranges of R105 (`30_encoding.md`) as sets of bit patterns, and the range each command asks of its
operands. A range is an interval of `fkey`, the signed magnitude a comparison orders by; a bit pattern read as a natural
number gives its key (`fkey_eq_toNat`). -/

namespace Sys2Proof.Machine

open Sys2Proof.Claims

/-! ### Values -/

theorem isNaN_iff_toNat (v : F32) : isNaN v = true ↔ 0x7F800000 < v.toNat % 2 ^ 31 := decide_eq_true_iff

theorem isFinite_iff_toNat (v : F32) : isFinite v = true ↔ v.toNat % 2 ^ 31 < 0x7F800000 := decide_eq_true_iff

/-- Below `2^31` a pattern is its own key, from there on it is negative. -/
theorem fkey_eq_toNat (v : F32) :
    fkey v = if v.toNat < 2 ^ 31 then (v.toNat : Int) else 2 ^ 31 - (v.toNat : Int) := by
  have hv : v.toNat < 2 ^ 32 := v.isLt
  rw [fkey, fsign_eq, fmagBits]
  split_ifs with h1 h2 h2 <;> simp only [decide_eq_true_eq] at h1 <;> omega

theorem eq_negativeZero_iff (v : F32) : v = 0x80000000#32 ↔ v.toNat = 2 ^ 31 := BitVec.toNat_inj.symm

/-- Normalized values: up to the pattern of 1, and negative zero. -/
theorem unitRange_iff (v : F32) : unitRange v = true ↔ v.toNat ≤ 0x3F800000 ∨ v = 0x80000000#32 := by
  have hv : v.toNat < 2 ^ 32 := v.isLt
  rw [show unitRange v = inUnit v from rfl, inUnit_iff_fkey, fkey_eq_toNat, ← Bool.not_eq_true, isNaN_iff_toNat,
    eq_negativeZero_iff]
  split_ifs <;> omega

/-- Pitch wheel: both signs, up to the magnitude of 1. -/
theorem bipolarRange_iff (v : F32) :
    bipolarRange v = true ↔ v.toNat ≤ 0x3F800000 ∨ 0x80000000 ≤ v.toNat ∧ v.toNat ≤ 0xBF800000 := by
  have hv : v.toNat < 2 ^ 32 := v.isLt
  have hlow : isNaN fNegOne = false ∧ fkey fNegOne = -0x3F800000 := by decide
  have hhigh : isNaN f1 = false ∧ fkey f1 = 0x3F800000 := by decide
  have hkey : bipolarRange v = true ↔ ¬isNaN v = true ∧ -0x3F800000 ≤ fkey v ∧ fkey v ≤ 0x3F800000 := by
    simp only [bipolarRange, fle, hlow, hhigh, Bool.and_eq_true, Bool.not_eq_true', Bool.not_eq_true, decide_eq_true_eq]
    tauto
  rw [hkey, fkey_eq_toNat, isNaN_iff_toNat]
  split_ifs <;> omega

/-- Sample rate: every finite positive pattern. -/
theorem rateRange_iff (v : F32) : rateRange v = true ↔ 0 < v.toNat ∧ v.toNat < 0x7F800000 := by
  have hv : v.toNat < 2 ^ 32 := v.isLt
  have hkey : rateRange v = true ↔ isFinite v = true ∧ 0 < fkey v := by
    rw [rateRange, Bool.and_eq_true]
    exact and_congr_right fun hf => flt_iff_fkey (by decide) (isNaN_of_isFinite hf)
  rw [hkey, fkey_eq_toNat, isFinite_iff_toNat]
  split_ifs <;> omega

/-- Tempo: every finite non-negative pattern, and negative zero. -/
theorem tempoRange_iff (v : F32) : tempoRange v = true ↔ v.toNat < 0x7F800000 ∨ v = 0x80000000#32 := by
  have hv : v.toNat < 2 ^ 32 := v.isLt
  have hkey : tempoRange v = true ↔ isFinite v = true ∧ 0 ≤ fkey v := by
    rw [tempoRange, Bool.and_eq_true]
    exact and_congr_right fun hf => (fle_iff_fint (by decide) hf).trans (fkey_le_iff f0 v).symm
  rw [hkey, fkey_eq_toNat, isFinite_iff_toNat, eq_negativeZero_iff]
  split_ifs <;> omega

/-- Position: every finite pattern. -/
theorem positionRange_iff (v : F32) : positionRange v = true ↔ v.toNat % 2 ^ 31 < 0x7F800000 := isFinite_iff_toNat v

/-! ### Indices -/

theorem noteRange_iff (a : BitVec 8) : noteRange a = true ↔ a.toNat ≤ 127 := decide_eq_true_iff

theorem slotRange_iff (a : BitVec 8) : slotRange a = true ↔ a.toNat ≤ 7 := decide_eq_true_iff

theorem modRange_iff (a : BitVec 8) : modRange a = true ↔ a.toNat < Config.modCount := decide_eq_true_iff

theorem resetFlagRange_iff (a : BitVec 8) : resetFlagRange a = true ↔ a.toNat ≤ 1 := decide_eq_true_iff

/-! ### The ranges of each command -/

/-- The two operand fields of a packed word, as `InRange` reads them. -/
theorem extract_pack (op a b : BitVec 8) (v : F32) :
    (pack op a b v).extractLsb' 48 8 = a ∧ (pack op a b v).extractLsb' 0 32 = v :=
  ⟨fieldA_pack op a b v, fieldV_pack op a b v⟩

/-- A command is well-formed exactly when the index and the value in its word are in the ranges of R105. -/
theorem wellFormed_iff_inRange (i : Instr) :
    i.wellFormed = true ↔
      InRange i.mnemonic ((encode i).extractLsb' 48 8).toNat ((encode i).extractLsb' 0 32) := by
  cases i with
  | tick | suston | sustoff | allnotesoff | allsoundoff => simp [Instr.wellFormed, Instr.mnemonic, InRange]
  | noteon a b v | noteoff a b v =>
    simp [Instr.wellFormed, Instr.mnemonic, InRange, encode, packK, extract_pack, noteRange_iff, unitRange_iff]
  | playhead a v | pan a v | modparam a v =>
    simp [Instr.wellFormed, Instr.mnemonic, InRange, encode, packAF, extract_pack, resetFlagRange_iff, tempoRange_iff,
      slotRange_iff, modRange_iff, unitRange_iff]
  | _ v =>
    simp [Instr.wellFormed, Instr.mnemonic, InRange, encode, packF, extract_pack, rateRange_iff, positionRange_iff,
      bipolarRange_iff, unitRange_iff]

/-- Settles O10, range by range. -/
theorem operandRangesAsBitPatterns : Obligations.OperandRangesAsBitPatterns :=
  ⟨fun v => ⟨unitRange_iff v, bipolarRange_iff v, rateRange_iff v, tempoRange_iff v, positionRange_iff v⟩,
    fun a => ⟨noteRange_iff a, slotRange_iff a, modRange_iff a, resetFlagRange_iff a⟩, wellFormed_iff_inRange⟩

end Sys2Proof.Machine
end

