-- ==== Sys2Proof/Proofs/DelayLines.lean ====
section
/-! SUPPORT. Delay lines and correction rings as sequences in time (`40_delayline_blep_osc.md` R131, R137 to R139, with the
wrapped indices of R77): what comes back from a line fed a list, which slots an injection writes, what a ring drained
from its position gives, and the table lookup of R75. -/

namespace Sys2Proof.Machine

open Sys2Proof.Claims

/-! ### Delay lines -/

/-- One value fed: the slot `k` calls ahead of the new position is the one `k + 1` ahead of the old, but for the value
just fed, which stands `N − 1` calls ahead. -/
theorem feedReturn_get_ahead {α : Type} {m : Nat} (D : DelayLine α (2 ^ m)) (v : α) {k : Nat} (hk : k < 2 ^ m) :
    (D.feedReturn v).2.buf.get (Fin.ofNat (2 ^ m) ((D.feedReturn v).2.pos.val + k)) =
      if k + 1 < 2 ^ m then D.buf.get (Fin.ofNat (2 ^ m) (D.pos.val + (k + 1))) else v := by
  have hslot : Fin.ofNat (2 ^ m) ((D.feedReturn v).2.pos.val + k) = Fin.ofNat (2 ^ m) (D.pos.val + (k + 1)) := by
    apply Fin.ext
    simp [feedReturn_pos, Nat.add_assoc, Nat.add_comm 1 k]
  have hpos : D.pos = Fin.ofNat (2 ^ m) (D.pos.val + (k + 1)) ↔ ¬k + 1 < 2 ^ m := by
    have hlt := D.pos.isLt
    rw [Fin.ext_iff, Fin.val_ofNat]
    constructor
    · intro he hk1
      rcases Nat.lt_or_ge (D.pos.val + (k + 1)) (2 ^ m) with h | h
      · rw [Nat.mod_eq_of_lt h] at he; omega
      · rw [Nat.mod_eq_sub_mod h, Nat.mod_eq_of_lt (by omega)] at he; omega
    · intro hk1
      rw [show D.pos.val + (k + 1) = D.pos.val + 2 ^ m by omega, Nat.add_mod_right, Nat.mod_eq_of_lt hlt]
  rw [hslot, feedReturn_buf, Vec.get_set]
  simp only [hpos, ite_not]

/-- Settles O48, by induction on the values fed: each call reads the slot at the position, and what it writes there is
read again `N` calls later. -/
theorem delayLineReturnsValuesNCallsLater : Obligations.DelayLineReturnsValuesNCallsLater := by
  intro α m D xs
  induction xs generalizing D with
  | nil => intro k hk; cases hk
  | cons x xs ih =>
    intro k hk
    cases k with
    | zero => simp [feedAll]
    | succ k =>
      rw [feedAll, List.getElem?_cons_succ, ih _ k (Nat.lt_of_succ_lt_succ hk)]
      rcases Nat.lt_or_ge k (2 ^ m) with h | h
      · rw [if_pos h, feedReturn_get_ahead D x h]
        split
        · rfl
        · next hlast => rw [show k + 1 - 2 ^ m = 0 by omega, List.getElem?_cons_zero]
      · rw [if_neg (by omega), if_neg (by omega), Nat.succ_sub h, List.getElem?_cons_succ]

/-! ### The slots of a ring -/

/-- The ring slot `k` places after the position (R77). -/
def OscPrim.slot {n : Nat} (P : OscPrim n) (k : Nat) : Fin (2 * n) := wrapIndex P.bP.pos (P.bP.val + k)

theorem OscPrim.slot_val {m : Nat} (P : OscPrim (2 ^ m)) (k : Nat) :
    (P.slot k).val = (P.bP.val + k) % (2 * 2 ^ m) := by
  have hmask : (P.slot k).val = (P.bP.val + k) &&& (2 ^ (m + 1) - 1) := by rw [Nat.pow_succ']; rfl
  rw [hmask, Nat.and_two_pow_sub_one_eq_mod, Nat.pow_succ']

theorem OscPrim.eq_slot {m : Nat} {P : OscPrim (2 ^ m)} {k : Nat} {j : Fin (2 * 2 ^ m)}
    (h : j.val = (P.bP.val + k) % (2 * 2 ^ m)) : j = P.slot k := Fin.ext (h.trans (P.slot_val k).symm)

theorem OscPrim.slot_zero {m : Nat} (P : OscPrim (2 ^ m)) : P.slot 0 = P.bP :=
  (OscPrim.eq_slot (Nat.mod_eq_of_lt P.bP.isLt).symm).symm

/-- Two numbers below the length name different slots. -/
theorem OscPrim.slot_injOn {m : Nat} (P : OscPrim (2 ^ m)) : Set.InjOn P.slot (Set.Iio (2 * 2 ^ m)) := by
  intro a ha b hb h
  have hmod : P.bP.val + a ≡ P.bP.val + b [MOD 2 * 2 ^ m] := by
    rw [Nat.ModEq, ← OscPrim.slot_val, ← OscPrim.slot_val, h]
  exact hmod.add_left_cancel'.eq_of_lt_of_lt ha hb

/-- Every slot of the ring is one of those the position runs through. -/
theorem OscPrim.exists_slot_eq {m : Nat} (P : OscPrim (2 ^ m)) (j : Fin (2 * 2 ^ m)) :
    ∃ k < 2 * 2 ^ m, P.slot k = j := by
  have hj := j.isLt
  have hb := P.bP.isLt
  rcases Nat.lt_or_ge j.val P.bP.val with h | h
  · refine ⟨j.val + 2 * 2 ^ m - P.bP.val, by omega, (OscPrim.eq_slot ?_).symm⟩
    rw [Nat.add_sub_of_le (by omega), Nat.add_mod_right, Nat.mod_eq_of_lt hj]
  · refine ⟨j.val - P.bP.val, by omega, (OscPrim.eq_slot ?_).symm⟩
    rw [Nat.add_sub_of_le h, Nat.mod_eq_of_lt hj]

/-! ### Injection -/

/-- Elements changed one after another at different indices: each is changed once. -/
theorem get_foldl_modify_range {α : Type} {n : Nat} {idx : Nat → Fin n} (hidx : Set.InjOn idx (Set.Iio n))
    (f : Nat → α → α) (v : Vec α n) {k c : Nat} (hk : k < n) (hc : c ≤ n) :
    ((List.range c).foldl (fun r i => r.modify (idx i) (f i)) v).get (idx k) =
      if k < c then f k (v.get (idx k)) else v.get (idx k) := by
  induction c with
  | zero => rfl
  | succ c ih =>
    have ih := ih (by omega)
    rw [List.range_succ, List.foldl_append, List.foldl_cons, List.foldl_nil]
    rcases eq_or_ne k c with rfl | hne
    · rw [Vec.get_modify_same, ih, if_neg (by omega), if_pos (by omega)]
    · rw [Vec.get_modify_ne _ _ fun he => hne (hidx (show c < n by omega) hk he).symm, ih]
      simp only [show k < c + 1 ↔ k < c by omega]

/-- An injection adds to slot `k` its own residual (R137). -/
theorem mixIn_get_slot {m : Nat} (P : OscPrim (2 ^ m)) (T : Nat → F32) (b : Nat) (frac scale : F32) {k : Nat}
    (hk : k < 2 * 2 ^ m) :
    (P.mixIn T b frac scale).ring.get (P.slot k) =
      fadd (P.ring.get (P.slot k)) (injectTerm T b (2 * 2 ^ m * b + 1) frac scale k) :=
  (get_foldl_modify_range P.slot_injOn (fun i x => fadd x (injectTerm T b (2 * 2 ^ m * b + 1) frac scale i))
    P.ring hk le_rfl).trans (if_pos hk)

/-! ### Draining -/

/-- A drain moves the position on by one slot. -/
theorem aliasReduction_slot {m : Nat} (P : OscPrim (2 ^ m)) (k : Nat) : P.aliasReduction.2.slot k = P.slot (k + 1) := by
  apply OscPrim.eq_slot
  have hpos : P.aliasReduction.2.bP = P.slot 1 := rfl
  rw [OscPrim.slot_val, hpos, OscPrim.slot_val, Nat.mod_add_mod, Nat.add_assoc, Nat.add_comm 1 k]

/-- The drained slot is zero, the others are as they were (R139). -/
theorem aliasReduction_get_slot {m : Nat} (P : OscPrim (2 ^ m)) {k : Nat} (hk : k < 2 * 2 ^ m) :
    P.aliasReduction.2.ring.get (P.slot k) = if k = 0 then 0#32 else P.ring.get (P.slot k) := by
  rw [aliasReduction_ring, ← OscPrim.slot_zero, Vec.get_set]
  have h0 : P.slot 0 = P.slot k ↔ k = 0 :=
    ⟨fun h => (P.slot_injOn (Nat.zero_lt_of_lt hk) hk h).symm, fun h => by rw [h]⟩
  simp only [h0, f0]

/-- Drains write the ring and its position and nothing else. -/
theorem drain_frame {n : Nat} (P : OscPrim n) (c : Nat) :
    (drain P c).2 = { P with ring := (drain P c).2.ring, bP := (drain P c).2.bP } := by
  induction c generalizing P with
  | zero => rfl
  | succ c ih => exact ih P.aliasReduction.2

theorem drain_bP {m : Nat} (P : OscPrim (2 ^ m)) (c : Nat) : (drain P c).2.bP = P.slot c := by
  induction c generalizing P with
  | zero => exact P.slot_zero.symm
  | succ c ih => exact (ih _).trans (aliasReduction_slot P c)

/-- What `c` drains return, up to once around the ring. -/
theorem drain_returned {m : Nat} (P : OscPrim (2 ^ m)) {c k : Nat} (hc : c ≤ 2 * 2 ^ m) (hk : k < c) :
    (drain P c).1[k]? = some (P.ring.get (P.slot k)) := by
  induction c generalizing P k with
  | zero => cases hk
  | succ c ih =>
    cases k with
    | zero => rw [OscPrim.slot_zero]; rfl
    | succ k =>
      rw [drain, List.getElem?_cons_succ, ih _ (by omega) (by omega), aliasReduction_slot,
        aliasReduction_get_slot P (by omega), if_neg (Nat.succ_ne_zero k)]

/-- What `c` drains leave in the ring, up to once around it: the slots they went through are zero. -/
theorem drain_get_slot {m : Nat} (P : OscPrim (2 ^ m)) {c k : Nat} (hc : c ≤ 2 * 2 ^ m) (hk : k < 2 * 2 ^ m) :
    (drain P c).2.ring.get (P.slot k) = if k < c then 0#32 else P.ring.get (P.slot k) := by
  induction c generalizing P k with
  | zero => rfl
  | succ c ih =>
    rw [drain]
    cases k with
    | zero =>
      have hlast : P.slot 0 = P.aliasReduction.2.slot (2 * 2 ^ m - 1) := by
        rw [aliasReduction_slot, Nat.sub_add_cancel (by omega)]
        exact Fin.ext (by rw [OscPrim.slot_val, OscPrim.slot_val, Nat.add_mod_right, Nat.add_zero])
      rw [hlast, ih _ (by omega) (by omega), if_neg (by omega), ← hlast, aliasReduction_get_slot P hk, if_pos rfl,
        if_pos (Nat.succ_pos c)]
    | succ k =>
      rw [← aliasReduction_slot, ih _ (by omega) (by omega), aliasReduction_slot, aliasReduction_get_slot P hk,
        if_neg (Nat.succ_ne_zero k)]
      simp only [Nat.add_lt_add_iff_right]

/-- Drained once around, the ring is zero and its position where it was. -/
theorem drain_around {m : Nat} (P : OscPrim (2 ^ m)) :
    (drain P (2 * 2 ^ m)).2 = { P with ring := Vec.replicate _ 0#32 } := by
  have hring : (drain P (2 * 2 ^ m)).2.ring = Vec.replicate _ 0#32 := by
    apply Vec.eq_of_get
    intro j
    obtain ⟨k, hk, rfl⟩ := P.exists_slot_eq j
    rw [drain_get_slot P le_rfl hk, if_pos hk, Vec.get_replicate]
  have hpos : (drain P (2 * 2 ^ m)).2.bP = P.bP := by
    rw [drain_bP]
    exact Fin.ext (by rw [OscPrim.slot_val, Nat.add_mod_right, Nat.mod_eq_of_lt P.bP.isLt])
  rw [drain_frame, hring, hpos]

/-! ### Table lookup -/

/-- A number not below another is not less than it. -/
theorem flt_of_fle {a b : F32} (h : fle a b = true) : flt b a = false := by
  simp only [fle, flt, Bool.and_eq_true, decide_eq_true_eq] at *
  simp [not_lt.2 h.2]

/-- The lookup inside its domain (R75), with `k` the floor of the position. -/
theorem tableLookup_of_floor (T : Nat → F32) (len : Nat) {k : Nat} {p : F32} (hf : isFinite p = true)
    (hp : fle 0#32 p = true) (hk : ffloor p = (k : Int)) :
    tableLookup T len p =
      between T (min k (len - 2))
        (if k ≤ len - 2 then fsub p (ofNat32 (min k (len - 2)))
         else fmin (fsub p (ofNat32 (min k (len - 2)))) (lit 1 1)) := by
  have hin : (!isFinite p || flt p f0) = false := by rw [hf, flt_of_fle (a := f0) hp]; rfl
  simp only [tableLookup, hin, hk, Bool.false_eq_true, if_false, Int.toNat_natCast, between, f1]

/-- Settles O49: each clause is the lemma of its operation, slot by slot. -/
theorem injectedRingDrainsInOrder : Obligations.InjectedRingDrainsInOrder := by
  intro m P T b frac scale
  refine ⟨⟨mixIn_frame T b P frac scale, fun k j hk hj => ?inject⟩, ⟨drain_around P, fun k j hk hj => ?drain⟩,
    ⟨rfl, rfl⟩, fun len k p _ hf hp hfloor => ⟨fun hle => ?inside, fun hlt => ?past⟩⟩
  case inject =>
    rw [OscPrim.eq_slot hj]
    exact mixIn_get_slot P T b frac scale hk
  case drain =>
    rw [OscPrim.eq_slot hj]
    exact drain_returned P le_rfl hk
  case inside => rw [tableLookup_of_floor T len hf hp hfloor, if_pos hle, Nat.min_eq_left hle]
  case past => rw [tableLookup_of_floor T len hf hp hfloor, if_neg (by omega), Nat.min_eq_right (by omega)]

end Sys2Proof.Machine
end

