-- ==== Sys2Proof/Proofs/OscillatorEvents.lean ====
section
/-! SUPPORT. The leaders and followers of the oscillator primitives as lists of injections
(`40_delayline_blep_osc.md` R145 to R153): a step of the model is one event of the list, and an event the model guards by
an earlier one carries both guards. -/

namespace Sys2Proof.Machine

open Sys2Proof.Claims

/-! ### Lists of events -/

theorem injectAll_nil {n : Nat} (P : OscPrim n) : injectAll P [] = P := rfl

theorem injectAll_cons {n : Nat} (P : OscPrim n) (e : Event) (es : List Event) :
    injectAll P (e :: es) = injectAll (injectOne P e) es := rfl

/-- Two events of which the second needs the guard of the first. -/
theorem injectOne_nested {n : Nat} (P : OscPrim n) (g h c d : Bool) (f f' s s' : F32) :
    injectOne (injectOne P ⟨g, c, f, s⟩) ⟨g && h, d, f', s'⟩ =
      if g then injectOne (injectOne P ⟨true, c, f, s⟩) ⟨h, d, f', s'⟩ else P := by cases g <;> rfl

/-! ### Leaders (R145 to R147) -/

theorem sawLeader_events {n : Nat} (P : OscPrim n) (x delta : F32) :
    sawLeader P x delta = injectAll P [⟨fle f1 x, false, fdiv (fsub x f1) delta, fneg f1⟩] := rfl

theorem pulseLeader_events {n : Nat} (P : OscPrim n) (x0 x delta w : F32) :
    pulseLeader P x0 x delta w = injectAll P
      [⟨flt x0 w && fle w x, false, fdiv (fsub x w) delta, fneg f1⟩,
       ⟨fle f1 x, false, fdiv (fsub x f1) delta, f1⟩,
       ⟨fle f1 x && fle w (fsub x f1), false, fdiv (fsub (fsub x f1) w) delta, fneg f1⟩] := by
  rw [injectAll_cons, injectAll_cons, injectAll_cons, injectAll_nil, injectOne_nested]
  rfl

theorem triLeader_events {n : Nat} (P : OscPrim n) (x0 x delta : F32) :
    triLeader P x0 x delta = injectAll P
      [⟨flt x0 fHalf && fle fHalf x, true, fdiv (fsub x fHalf) delta, cornerDown delta⟩,
       ⟨fle f1 x, true, fdiv (fsub x f1) delta, cornerUp delta⟩,
       ⟨fle f1 x && fle fHalf (fsub x f1), true, fdiv (fsub x fOneAndHalf) delta, cornerDown delta⟩] := by
  rw [injectAll_cons, injectAll_cons, injectAll_cons, injectAll_nil, injectOne_nested]
  rfl

/-! ### Followers (R148 to R150, R152, R153) -/

theorem sawFollower_events {n : Nat} (P : OscPrim n) (x delta : F32) (reset : Bool) (hsFrac : F32) :
    sawFollower P x delta reset hsFrac = injectAll P
      [⟨wrapKept x delta reset hsFrac, false, fdiv (fsub x f1) delta, fneg f1⟩,
       ⟨reset, false, hsFrac, fneg (resetPhaseAt x delta (wrapKept x delta reset hsFrac) hsFrac)⟩] := rfl

theorem pulseFollower_events {n : Nat} (P : OscPrim n) (x0 x delta w : F32) (reset : Bool) (hsFrac : F32) :
    pulseFollower P x0 x delta w reset hsFrac = injectAll P
      [⟨flt x0 w && fle w x && keepEvent (fdiv (fsub x w) delta) reset hsFrac, false, fdiv (fsub x w) delta, fneg f1⟩,
       ⟨wrapKept x delta reset hsFrac, false, fdiv (fsub x f1) delta, f1⟩,
       ⟨wrapKept x delta reset hsFrac && fle w (fsub x f1) &&
          keepEvent (fdiv (fsub (fsub x f1) w) delta) reset hsFrac, false,
        fdiv (fsub (fsub x f1) w) delta, fneg f1⟩,
       ⟨reset && !flt (resetPhaseAt x delta (wrapKept x delta reset hsFrac) hsFrac) w, false, hsFrac, f1⟩] := by
  rw [Bool.and_assoc (wrapKept x delta reset hsFrac), injectAll_cons, injectAll_cons, injectAll_cons, injectOne_nested]
  rfl

theorem triFollower_events {n : Nat} (P : OscPrim n) (x0 x delta : F32) (reset : Bool) (hsFrac : F32) :
    triFollower P x0 x delta reset hsFrac = injectAll P
      [⟨flt x0 fHalf && fle fHalf x && keepEvent (fdiv (fsub x fHalf) delta) reset hsFrac, true,
        fdiv (fsub x fHalf) delta, cornerDown delta⟩,
       ⟨wrapKept x delta reset hsFrac, true, fdiv (fsub x f1) delta, cornerUp delta⟩,
       ⟨wrapKept x delta reset hsFrac && fle fHalf (fsub x f1) &&
          keepEvent (fdiv (fsub x fOneAndHalf) delta) reset hsFrac, true,
        fdiv (fsub x fOneAndHalf) delta, cornerDown delta⟩,
       ⟨reset, false, hsFrac, fsub fNegHalf (triWave (resetPhaseAt x delta (wrapKept x delta reset hsFrac) hsFrac))⟩,
       ⟨reset && !flt (resetPhaseAt x delta (wrapKept x delta reset hsFrac) hsFrac) fHalf, true, hsFrac,
        cornerUp delta⟩] := by
  rw [Bool.and_assoc (wrapKept x delta reset hsFrac), injectAll_cons, injectAll_cons, injectAll_cons, injectOne_nested,
    injectAll_cons, injectAll_cons, injectAll_nil, injectOne_nested]
  rfl

/-! ### A follower without a reset (R148) -/

theorem keepEvent_of_noReset (frac hsFrac : F32) : keepEvent frac false hsFrac = true := rfl

theorem wrapKept_of_noReset (x delta hsFrac : F32) : wrapKept x delta false hsFrac = fle f1 x := Bool.and_true _

theorem sawFollower_of_noReset {n : Nat} (P : OscPrim n) (x delta hsFrac : F32) :
    sawFollower P x delta false hsFrac = sawLeader P x delta := by
  rw [sawFollower_events, sawLeader_events, wrapKept_of_noReset]
  rfl

theorem pulseFollower_of_noReset {n : Nat} (P : OscPrim n) (x0 x delta w hsFrac : F32) :
    pulseFollower P x0 x delta w false hsFrac = pulseLeader P x0 x delta w := by
  rw [pulseFollower_events, pulseLeader_events]
  simp only [wrapKept_of_noReset, keepEvent_of_noReset, Bool.and_true]
  rfl

theorem triFollower_of_noReset {n : Nat} (P : OscPrim n) (x0 x delta hsFrac : F32) :
    triFollower P x0 x delta false hsFrac = triLeader P x0 x delta := by
  rw [triFollower_events, triLeader_events]
  simp only [wrapKept_of_noReset, keepEvent_of_noReset, Bool.and_true]
  rfl

/-- Settles O50: the lists above, with the model's names for the constants, the guards and the phases written out. -/
theorem oscillatorEventsFollowTheirRules : Obligations.OscillatorEventsFollowTheirRules :=
  ⟨fun _ P x0 x delta w hsFrac =>
      ⟨sawFollower_of_noReset P x delta hsFrac, pulseFollower_of_noReset P x0 x delta w hsFrac,
        triFollower_of_noReset P x0 x delta hsFrac⟩,
    fun _ P x0 x delta w =>
      ⟨sawLeader_events P x delta, pulseLeader_events P x0 x delta w, triLeader_events P x0 x delta⟩,
    fun _ P x0 x delta w reset hsFrac =>
      ⟨sawFollower_events P x delta reset hsFrac, pulseFollower_events P x0 x delta w reset hsFrac,
        triFollower_events P x0 x delta reset hsFrac⟩⟩

end Sys2Proof.Machine
end

