-- ==== Sys2Proof/Proofs/OscillatorSample.lean ====
section
/-! SUPPORT. One sample of the oscillator block (`41_oscillator_block.md` R171 to R184): each stage of the model is the
stage of the statement, and the sample is their composition where both preconditions of R136 hold. -/

namespace Sys2Proof.Machine

open Sys2Proof.Claims

/-! ### Parts of a stage -/

theorem pitchHz_eq_hzOf (s : F32) : pitchHz s = hzOf s := by rw [pitchHz, hzOf, pitchRefHz, fLn2Over12]

theorem output_eq_primOut {n : Nat} (P : OscPrim n) (naive : F32) : P.output naive = primOut P naive := rfl

/-- The selection of a waveform by cases of the two switches (R176). -/
theorem selectWave_eq_chosen (sawOn pulOn : Bool) (s p t : F32) :
    selectWave sawOn pulOn s p t = chosen sawOn pulOn s p t := by
  cases sawOn <;> cases pulOn <;> simp [selectWave, chosen, f0]

/-- Oscillator 2 wraps where no reset replaces its phase, so its wrap is kept (R148, R177). -/
theorem followerPhase_eq (y d2 : F32) (hsrD : Bool) (hsfD : F32) :
    followerPhase y d2 hsrD hsfD = if hsrD then fmul d2 hsfD else if fle f1 y then fsub y f1 else y := by
  cases hsrD with
  | true => rfl
  | false => rw [followerPhase, wrapKept_of_noReset]

/-! ### The stages -/

theorem leader_eq_osc1Result (o : OscBlock) (d1 w1 : F32) :
    (o.leader d1 w1).o1 = (osc1Result o d1 w1).1 ∧ (o.leader d1 w1).osc = (osc1Result o d1 w1).2 :=
  ⟨selectWave_eq_chosen _ _ _ _ _, rfl⟩

theorem follower_eq_osc2Result (o : OscBlock) (d2 w2 : F32) (hsrD : Bool) (hsfD : F32) :
    o.follower d2 w2 hsrD hsfD = osc2Result o d2 w2 hsrD hsfD := by
  unfold OscBlock.follower osc2Result
  simp only [followerPhase_eq, selectWave_eq_chosen, output_eq_primOut]
  rfl

/-! ### The reference pitch -/

/-- A number equal to 0 is one of the two zeros. -/
theorem eq_zero_of_feq {s : F32} (h : feq s 0#32 = true) : s = zero (fsign s) := by
  have hkey : fkey s = 0 := by
    simp only [feq, Bool.and_eq_true, decide_eq_true_eq] at h
    exact h.2
  have hmag : fmagBits s = 0 := by rwa [fkey_eq_signed, signed_eq_zero] at hkey
  rw [zero_eq, ← hmag, fpack_self]

/-- A semitone index of 0 is 440 Hz (R171). -/
theorem hzOf_zero {s : F32} (h : feq s 0#32 = true) : hzOf s = lit 440 1 := by
  have hexp : numExp (fmul fLn2Over12 s) = f1 := by
    apply numExp_zero
    rw [eq_zero_of_feq h]
    cases fsign s <;> decide +kernel
  rw [← pitchHz_eq_hzOf, pitchHz, hexp]
  decide +kernel

/-! ### The sample -/

theorem pulseWidth_eq_widthOf (base mod : F32) : pulseWidth base mod = widthOf base mod := by
  rw [pulseWidth, widthOf, pwMin, pwMax]

theorem delta1_eq (o : OscBlock) (fsI note pto : F32) :
    o.delta1 fsI note pto = fdiv (hzOf (semiSum o note o.pitch1 pto o.tuneSlop1)) fsI := by
  rw [OscBlock.delta1, pitchHz_eq_hzOf]; rfl

theorem delta2_eq (o : OscBlock) (fsI note pto o1 : F32) :
    o.delta2 fsI note pto o1 =
      fdiv (hzOf (fadd (semiSum o note o.pitch2 pto o.tuneSlop2) (fmul o1 o.xmod))) fsI := by
  rw [OscBlock.delta2, pitchHz_eq_hzOf]; rfl

/-- The sample as its stages, one after another, where both increments and both phases are in range (R136, R183). -/
theorem process_eq_stages (o : OscBlock) (fsI note p1 p2 m1 m2 : F32) (d : Nat) :
    o.process fsI note p1 p2 m1 m2 d =
      let d1 := o.delta1 fsI note p1
      let x := fadd o.x1 d1
      let A := osc1Result o d1 (widthOf o.pwBase1 m1)
      let D := A.2.syncDelay (fle f1 x && o.hardSync) (if fle f1 x then fdiv (fsub x f1) d1 else f0)
      let d2 := o.delta2 fsI note p2 A.1
      let B := osc2Result D.2.2 d2 (widthOf o.pwBase2 m2) D.1 D.2.1
      if phaseOk d1 o.x1 && phaseOk d2 o.x2 then .ok (B.2.mix A.1 B.1 d)
      else .error .phaseIncrementOutOfRange := by
  rw [OscBlock.process_eq]
  dsimp only
  simp only [follower_eq_osc2Result, leader_eq_osc1Result, OscBlock.leader_sync, pulseWidth_eq_widthOf,
    Bool.and_eq_true]
  rfl

/-- Settles O51: the stages in order, and the one fault where either precondition fails. -/
theorem oscillatorSampleFollowsItsRules : Obligations.OscillatorSampleFollowsItsRules := by
  refine ⟨fun o fsI note p1 p2 m1 m2 d => ?_, fun s => hzOf_zero⟩
  rw [process_eq_stages]
  dsimp only
  rw [delta1_eq, delta2_eq]
  split
  · next h => exact if_pos h
  · next h => exact if_neg h

end Sys2Proof.Machine
end

