-- ==== Sys2Proof/Proofs/Clamps.lean ====
section
/-! SUPPORT. The clamps of the pulse width (`41_oscillator_block.md` R174) and of the filter cutoff (R284). Both follow
from the order laws of `min` and `max`: the result is one of the two arguments, and a NaN argument is never chosen over
a number (R461). -/

namespace Sys2Proof.Machine

/-! ### Minimum and maximum -/

theorem fle_iff {a b : F32} : fle a b = true ↔ isNaN a = false ∧ isNaN b = false ∧ fkey a ≤ fkey b := by
  simp [fle, and_assoc]

theorem isNaN_left_of_fle {a b : F32} (h : fle a b = true) : isNaN a = false := by
  obtain ⟨ha, -, -⟩ := fle_iff.1 h
  exact ha

theorem isNaN_right_of_fle {a b : F32} (h : fle a b = true) : isNaN b = false := by
  obtain ⟨-, hb, -⟩ := fle_iff.1 h
  exact hb

theorem fle_of_flt {a b : F32} (ha : isNaN a = false) (hb : isNaN b = false) (h : flt a b = true) : fle a b = true :=
  fle_iff.2 ⟨ha, hb, ((flt_iff_fkey ha hb).1 h).le⟩

theorem fle_of_not_flt {a b : F32} (ha : isNaN a = false) (hb : isNaN b = false) (h : ¬ flt a b = true) :
    fle b a = true :=
  fle_iff.2 ⟨hb, ha, not_lt.1 (mt (flt_iff_fkey ha hb).2 h)⟩

theorem fmin_of_isNaN_left {a b : F32} (ha : isNaN a = true) (hb : isNaN b = false) : fmin a b = b := by
  simp [fmin, ha, hb]

theorem fmax_of_isNaN_left {a b : F32} (ha : isNaN a = true) (hb : isNaN b = false) : fmax a b = b := by
  simp [fmax, ha, hb]

/-- The minimum of two numbers is one of them, and not above the other; which one, where they are equal, is free. -/
theorem fmin_cases {a b : F32} (ha : isNaN a = false) (hb : isNaN b = false) :
    (fmin a b = a ∧ fle a b = true) ∨ (fmin a b = b ∧ fle b a = true) := by
  simp only [fmin, ha, hb, Bool.false_eq_true, if_false]
  split
  · next h => exact .inl ⟨rfl, fle_of_flt ha hb h⟩
  · next hab =>
    split
    · next h => exact .inr ⟨rfl, fle_of_flt hb ha h⟩
    · next hba =>
      split
      · exact .inl ⟨rfl, fle_of_not_flt hb ha hba⟩
      · exact .inr ⟨rfl, fle_of_not_flt ha hb hab⟩

/-- The maximum of two numbers is one of them, and not below the other; which one, where they are equal, is free. -/
theorem fmax_cases {a b : F32} (ha : isNaN a = false) (hb : isNaN b = false) :
    (fmax a b = a ∧ fle b a = true) ∨ (fmax a b = b ∧ fle a b = true) := by
  simp only [fmax, ha, hb, Bool.false_eq_true, if_false]
  split
  · next h => exact .inl ⟨rfl, fle_of_flt hb ha h⟩
  · next hba =>
    split
    · next h => exact .inr ⟨rfl, fle_of_flt ha hb h⟩
    · next hab =>
      split
      · exact .inl ⟨rfl, fle_of_not_flt ha hb hab⟩
      · exact .inr ⟨rfl, fle_of_not_flt hb ha hba⟩

/-- A minimum is not above a number it is taken with, whatever the other argument is. -/
theorem fmin_fle_right {a b : F32} (hb : isNaN b = false) : fle (fmin a b) b = true := by
  cases ha : isNaN a with
  | true => rw [fmin_of_isNaN_left ha hb]; exact fle_refl hb
  | false =>
    obtain ⟨e, h⟩ | ⟨e, -⟩ := fmin_cases ha hb
    · rwa [e]
    · rw [e]; exact fle_refl hb

theorem fmin_fle_left {a b : F32} (ha : isNaN a = false) (hb : isNaN b = false) : fle (fmin a b) a = true := by
  obtain ⟨e, -⟩ | ⟨e, h⟩ := fmin_cases ha hb
  · rw [e]; exact fle_refl ha
  · rwa [e]

theorem fle_fmin {a b c : F32} (ha : fle c a = true) (hb : fle c b = true) : fle c (fmin a b) = true := by
  obtain ⟨e, -⟩ | ⟨e, -⟩ := fmin_cases (isNaN_right_of_fle ha) (isNaN_right_of_fle hb)
  · rwa [e]
  · rwa [e]

/-- A maximum is not below a number it is taken with, whatever the other argument is. -/
theorem fle_fmax_right {a b : F32} (hb : isNaN b = false) : fle b (fmax a b) = true := by
  cases ha : isNaN a with
  | true => rw [fmax_of_isNaN_left ha hb]; exact fle_refl hb
  | false =>
    obtain ⟨e, h⟩ | ⟨e, -⟩ := fmax_cases ha hb
    · rwa [e]
    · rw [e]; exact fle_refl hb

/-! ### The pulse width -/

theorem pwMin_fle_pwMax : fle pwMin pwMax = true := by decide +kernel

theorem pwMin_fle_pulseWidth (base mod : F32) : fle pwMin (pulseWidth base mod) = true :=
  fle_fmin (fle_fmax_right (isNaN_left_of_fle pwMin_fle_pwMax)) pwMin_fle_pwMax

theorem pulseWidth_fle_pwMax (base mod : F32) : fle (pulseWidth base mod) pwMax = true :=
  fmin_fle_right (isNaN_right_of_fle pwMin_fle_pwMax)

theorem fmin_pwMin_pwMax : fmin pwMin pwMax = pwMin := by decide +kernel

theorem pulseWidth_of_isNaN {base mod : F32} (h : isNaN (fadd base mod) = true) : pulseWidth base mod = pwMin := by
  rw [pulseWidth, fmax_of_isNaN_left h (isNaN_left_of_fle pwMin_fle_pwMax), fmin_pwMin_pwMax]

/-! ### The cutoff -/

/-- The first ceiling on the cutoff, `fsI/2 − 120` (R284). -/
def nyquistCeiling (fsI : F32) : F32 := fsub (fdiv fsI f2) cutoffGuardHz

/-- The second ceiling on the cutoff, which depends on the mode (R284). -/
def selfOscCap (oversample : Bool) : F32 := if oversample then selfOscCapHqHz else selfOscCapHz

theorem cutoffCeiling_of_noPush (c : VoiceCtx) (hz : F32) :
    cutoffCeiling c false hz = fmin hz (nyquistCeiling c.fsI) := by
  simp only [cutoffCeiling, nyquistCeiling, Bool.false_eq_true, if_false]

theorem cutoffCeiling_of_push (c : VoiceCtx) (hz : F32) :
    cutoffCeiling c true hz = fmin (fmin hz (nyquistCeiling c.fsI)) (selfOscCap c.oversample) := by
  simp only [cutoffCeiling, nyquistCeiling, selfOscCap, if_true]

theorem isNaN_selfOscCap (oversample : Bool) : isNaN (selfOscCap oversample) = false := by
  cases oversample with
  | false => exact isNaN_left_of_fle selfOscCapHqHz_ge
  | true => exact isNaN_right_of_fle selfOscCapHqHz_ge

theorem cutoffCeiling_fle_nyquistCeiling (c : VoiceCtx) (push : Bool) (hz : F32)
    (h : isNaN (nyquistCeiling c.fsI) = false) : fle (cutoffCeiling c push hz) (nyquistCeiling c.fsI) = true := by
  have hmin : fle (fmin hz (nyquistCeiling c.fsI)) (nyquistCeiling c.fsI) = true := fmin_fle_right h
  cases push with
  | false => rwa [cutoffCeiling_of_noPush]
  | true =>
    rw [cutoffCeiling_of_push]
    exact fle_trans (fmin_fle_left (isNaN_left_of_fle hmin) (isNaN_selfOscCap _)) hmin

theorem cutoffCeiling_fle_selfOscCap (c : VoiceCtx) (hz : F32) :
    fle (cutoffCeiling c true hz) (selfOscCap c.oversample) = true := by
  rw [cutoffCeiling_of_push]
  exact fmin_fle_right (isNaN_selfOscCap _)

/-- Settles O55: both clamps are a `min` or `max` with a number, which bounds the result even where the other argument
is a NaN. -/
theorem clampsHoldForEveryInput : Obligations.ClampsHoldForEveryInput := by
  refine ⟨fun base mod => ⟨pwMin_fle_pulseWidth base mod, pulseWidth_fle_pwMax base mod, pulseWidth_of_isNaN⟩, ?_,
    selfOscCapHqHz_ge⟩
  intro c push hz lim hlim
  refine ⟨cutoffCeiling_fle_nyquistCeiling c push hz hlim, ?_, ?_⟩
  · rintro rfl hmode
    have hcap := cutoffCeiling_fle_selfOscCap c hz
    rwa [hmode] at hcap
  · rintro rfl hmode
    have hcap := cutoffCeiling_fle_selfOscCap c hz
    rwa [hmode] at hcap

end Sys2Proof.Machine
end

