-- ==== Sys2Proof/Proofs/Envelope.lean ====
section
/-! SUPPORT. The envelope generator (`42_envelope.md` R191 to R202, R211): each coefficient, the refresh, and one equation
for the arm each state runs. -/

namespace Sys2Proof.Machine

open Sys2Proof.Claims

/-! ### The coefficients -/

theorem expCoef_eq_expRule (fsI target current tMs : F32) :
    expCoef fsI target current tMs = expRule fsI target current tMs := by rw [expCoef, expRule, envMs]

theorem Env.atkCoef_eq (c : EnvCtx) (e : Env) :
    e.atkCoef c = expRule c.fsI envAtkFloor (lit 13 10) (fmul (fmul e.attack c.slop) envAtkTimeAdj) := by
  rw [Env.atkCoef, expCoef_eq_expRule, EnvCtx.eff, envAtkTarget]

theorem Env.decCoef_eq (c : EnvCtx) (e : Env) :
    e.decCoef c =
      expRule c.fsI (fmax e.sustain (lit 2 100000)) (fmax e.value (lit 2 100000)) (fmul e.decay c.slop) := by
  rw [Env.decCoef, expCoef_eq_expRule, EnvCtx.eff, envSilentThresh]

theorem Env.relCoef_eq (c : EnvCtx) (e : Env) :
    e.relCoef c =
      if flt (lit 2 100000) e.value then expRule c.fsI (lit 2 100000) e.value (fmul e.release c.slop) else 0#32 := by
  rw [Env.relCoef, expCoef_eq_expRule, EnvCtx.eff, envSilentThresh, f0]

/-- A refresh writes the coefficient, and only in a segment that has one (R211). -/
theorem Env.refresh_withState (c : EnvCtx) (e : Env) (st : EnvStage) :
    Env.refresh c { e with state := st } =
      { e with
        state := st
        coef := match st with
          | .attack => Env.atkCoef c e
          | .decay => Env.decCoef c e
          | .release => Env.relCoef c e
          | .sustain => e.coef
          | .silent => e.coef } := by
  cases st with
  | attack => rfl
  | decay => rfl
  | sustain => rfl
  | release => rfl
  | silent => rfl

/-! ### The arm a sample step runs (R197) -/

section
variable {e : Env} (c : EnvCtx)

theorem Env.processSample_of_attack (h : e.state = .attack) : e.processSample c = e.attackArm c := by
  rw [Env.processSample, h]

theorem Env.processSample_of_decay (h : e.state = .decay) : e.processSample c = e.decayArm := by
  rw [Env.processSample, h]

theorem Env.processSample_of_sustain (h : e.state = .sustain) : e.processSample c = e.sustainArm := by
  rw [Env.processSample, h]

theorem Env.processSample_of_release (h : e.state = .release) : e.processSample c = e.releaseArm := by
  rw [Env.processSample, h]

theorem Env.processSample_of_silent (h : e.state = .silent) : e.processSample c = e.silentArm := by
  rw [Env.processSample, h]

end

/-! ### The arms -/

/-- What the Attack arm hands to the Decay arm in the same call: the value clamped, and the coefficient of the decay
from there (R198). -/
def Env.enterDecay (c : EnvCtx) (e : Env) : Env :=
  { e with
    value := fmin e.value envAtkClamp
    coef := Env.decCoef c { e with value := fmin e.value envAtkClamp }
    state := .decay }

/-- The Attack arm: through to the Decay arm above its threshold, else one step of the attack (R198). -/
theorem Env.attackArm_eq (c : EnvCtx) (e : Env) :
    e.attackArm c =
      if flt (fsub f1 Config.envAtkValueEnd) e.value then (e.enterDecay c).decayArm
      else { e with value := fsub e.value (fmul (fsub f1 e.value) e.coef) } := rfl

/-- Settles O52: the coefficients and the refresh, then the arm of each state. -/
theorem envelopeArmsFollowTheirRules : Obligations.EnvelopeArmsFollowTheirRules := by
  intro c e
  obtain ⟨hfloor, hbelow⟩ := envAtkFloor_range
  refine ⟨e.atkCoef_eq c, ⟨hfloor, hbelow, envAtkTimeAdj_pos⟩, e.decCoef_eq c, e.relCoef_eq c, e.refresh_withState c,
    ?attack, ?decay, ?sustain, ?release, ?silent⟩
  case attack =>
    intro h
    rw [Env.processSample_of_attack c h, Env.attackArm_eq, Env.decayArm]
    rfl
  case decay =>
    intro h
    rw [Env.processSample_of_decay c h, Env.decayArm, envDecayEps]
  case sustain =>
    intro h
    rw [Env.processSample_of_sustain c h, Env.sustainArm, envSusCap]
  case release =>
    intro h
    rw [Env.processSample_of_release c h, Env.releaseArm, envSilentThresh, dcEps, f0]
  case silent =>
    intro h
    rw [Env.processSample_of_silent c h, Env.silentArm, f0]

end Sys2Proof.Machine
end

