-- ==== Sys2Proof/Proofs/LfoUpdate.lean ====
section
/-! SUPPORT. The LFO update (`43_lfo.md` R220 to R225): the constants of the rules, the waveforms, the one-pole of
R240 and R242, and the order of the tempo table (R7). -/

namespace Sys2Proof.Machine

open Sys2Proof.Claims

/-! ### The constants of R222 and R223 as binary32 numbers -/

theorem fPi_eq_bits : fPi = 0x40490FDB#32 := by decide +kernel

theorem fTwoPi_eq_bits : fTwoPi = 0x40C90FDB#32 := by decide +kernel

theorem fHalfPi_eq_bits : fHalfPi = 0x3FC90FDB#32 := by decide +kernel

theorem fTwoOverPi_eq_bits : fTwoOverPi = 0x3F22F983#32 := by decide +kernel

/-! ### The one-pole (R240, R242) -/

/-- The one-pole is unwarped: its gain is `(fc/rate) × π`, with no tangent (R240). -/
theorem tptLp_eq_tptStage (st x fc rate : F32) :
    tptLp st x fc rate = tptStage st x (fmul (fdiv fc rate) 0x40490FDB#32) := by rw [tptLp, fPi_eq_bits]

theorem tptLp_eq_onePole (st x fc rate : F32) : tptLp st x fc rate = onePole st x fc rate := by
  rw [tptLp_eq_tptStage, tptStage, onePole, f1]

/-! ### The blended waveforms (R223, R224) -/

theorem lfoPair_eq_pairOf (k a b : F32) : lfoPair k a b = pairOf k a b := by rw [lfoPair, pairOf, f0]

theorem lfoTri_eq_lfoTriangle (p : F32) : lfoTri p = lfoTriangle p := by
  rw [lfoTri, lfoTriangle, fPi_eq_bits, fHalfPi_eq_bits, fTwoOverPi_eq_bits]

theorem lfoSquare_eq (p : F32) : lfoSquare p = if fle 0#32 p then lit 1 1 else fneg (lit 1 1) := by
  rw [lfoSquare, fNegOne, f0, f1]

theorem lfoGlide_eq (shPrev sh p : F32) :
    lfoGlide shPrev sh p =
      fadd shPrev (fmul (fsub sh shPrev) (fdiv (fadd p 0x40490FDB#32) 0x40C90FDB#32)) := by
  rw [lfoGlide, fPi_eq_bits, fTwoPi_eq_bits]

theorem Lfo.raw_eq_rawOf (l : Lfo) : l.raw = rawOf l := by
  simp only [Lfo.raw, rawOf, lfoPair_eq_pairOf, lfoSine, lfoTri_eq_lfoTriangle, lfoSaw, fPi_eq_bits, lfoSquare_eq,
    lfoGlide_eq]

/-! ### The phase step and the update (R221, R222, R225) -/

section
variable (fsI bpm : F32) (d : Nat) (l : Lfo)

theorem Lfo.advanced_eq : l.advanced fsI bpm = fadd l.phase (fdiv (fmul (l.inc bpm) 0x40C90FDB#32) fsI) := by
  rw [Lfo.advanced, fTwoPi_eq_bits]

theorem Lfo.wraps_eq : l.wraps fsI bpm = flt 0x40490FDB#32 (l.advanced fsI bpm) := by rw [Lfo.wraps, fPi_eq_bits]

theorem Lfo.phaseStep_eq :
    l.phaseStep fsI bpm d =
      if l.wraps fsI bpm then
        { l with phase := fsub (l.advanced fsI bpm) 0x40C90FDB#32, shPrev := l.sh, sh := draw d }
      else { l with phase := l.advanced fsI bpm } := by
  rw [Lfo.phaseStep, fTwoPi_eq_bits]

/-- The phase step leaves the state of the smoothing filter as it was, wrap or not. -/
@[simp] theorem Lfo.phaseStep_smooth : (l.phaseStep fsI bpm d).smooth = l.smooth := by
  rw [Lfo.phaseStep]
  split
  · rfl
  · rfl

/-- An update is the phase step, then the one-pole at 3 kHz over the blended waveforms and the tiny constant, which
writes the filter's state alone (R225). -/
theorem Lfo.update_eq :
    l.update fsI bpm d =
      let l1 := l.phaseStep fsI bpm d
      let y := onePole l.smooth (fadd (rawOf l1) (lit 1 1000000000000000000)) (lit 3000 1) fsI
      { y := y.1, lfo := { l1 with smooth := y.2 }, draws := if l.wraps fsI bpm then d + 1 else d } := by
  simp only [Lfo.update, Lfo.phaseStep_smooth, Lfo.raw_eq_rawOf, tptLp_eq_onePole, dcEps, lfoSmoothHz]

end

/-! ### The tempo table (R7) -/

theorem syncRatio_of_last {k : Fin Config.syncLen} (h : k.val + 1 = Config.syncLen) : syncRatio k = lit 4 1 := by
  rw [syncRatio, if_pos h, f4]

theorem syncRatio_of_not_last {k : Fin Config.syncLen} (h : k.val + 1 ≠ Config.syncLen) :
    syncRatio k = syncRatioAt k.val := by
  rw [syncRatio, if_neg h]

/-- The table has at least two entries, so its first entry is not its last. -/
theorem syncRatio_of_first {k : Fin Config.syncLen} (h : k.val = 0) : syncRatio k = lit 1 8 := by
  have hlen : Config.syncLen = Config.syncLenPred2 + 2 := rfl
  rw [syncRatio_of_not_last (by omega), h, syncRatioAt]

/-- No entry of the table is below the one before it: the last is 4, which bounds them all, and the others are chosen
not to fall. -/
theorem syncRatio_le_next {k m : Fin Config.syncLen} (h : k.val + 1 = m.val) :
    fle (syncRatio k) (syncRatio m) = true := by
  by_cases hm : m.val + 1 = Config.syncLen
  · obtain ⟨-, hk⟩ := syncRatio_range k
    rwa [syncRatio_of_last hm, ← f4]
  · have hk : k.val + 1 ≠ Config.syncLen := by omega
    rw [syncRatio_of_not_last hm, syncRatio_of_not_last hk, ← h]
    exact syncRatioAt_succ k.val

/-- Settles O53: the update as its phase step and its one-pole, then the one-pole's gain, then the tempo table. -/
theorem lfoUpdateFollowsItsRules : Obligations.LfoUpdateFollowsItsRules := by
  refine ⟨fun fsI bpm d l => ?update,
    fun st x fc rate => ⟨tptLp_eq_onePole st x fc rate, tptLp_eq_tptStage st x fc rate⟩,
    fun k => ⟨syncRatio_of_first, syncRatio_of_last, fun m => syncRatio_le_next⟩⟩
  case update =>
    rw [Lfo.update_eq, Lfo.phaseStep_eq, Lfo.wraps_eq, Lfo.advanced_eq, Lfo.inc]
    exact ⟨rfl, rfl, rfl⟩

end Sys2Proof.Machine
end

