-- ==== Sys2Proof/Proofs/Filter.lean ====
section
/-! SUPPORT. The filter step (`44_filter.md` R244 to R251) and its one-pole stage (R242): what each mode writes, and the
tap law by its three regions and at its ends. -/

namespace Sys2Proof.Machine

open Sys2Proof.Claims

/-! ### Factors and terms that change nothing (R12) -/

/-- Numbers that compare equal, as the two zeros do, are both finite or both not. -/
theorem isFinite_of_fkey_eq {a b : F32} (h : fkey a = fkey b) (hb : isFinite b = true) : isFinite a = true := by
  rw [isFinite_iff_fkey] at hb ⊢
  rwa [h]

theorem feq_of_fkey_eq {a b : F32} (h : fkey a = fkey b) (hb : isFinite b = true) : feq a b = true := by
  simp [feq, isNaN_of_isFinite hb, isNaN_of_isFinite (isFinite_of_fkey_eq h hb), h]

theorem fkey_zero (s : Bool) : fkey (zero s) = 0 := by
  cases s with
  | false => decide
  | true => decide

theorem fmul_f0_key {a : F32} (ha : isFinite a = true) : fkey (fmul f0 a) = 0 := by
  rw [fmul_eq_zero isFinite_f0 ha (by rw [fint_f0, Int.zero_mul])]
  exact fkey_zero _

theorem fadd_comm_finite {a b : F32} (ha : isFinite a = true) (hb : isFinite b = true) : fadd a b = fadd b a := by
  rw [fadd_finite ha hb, fadd_finite hb ha, Bool.and_comm, Int.add_comm]

/-- Where the arguments of a maximum are one number, the free choice between them (log 6) does not show. -/
theorem fmax_self {a : F32} (ha : isNaN a = false) : fmax a a = a := by
  obtain ⟨h, -⟩ | ⟨h, -⟩ := fmax_cases ha ha
  · exact h
  · exact h

theorem fmin_self {a : F32} (ha : isNaN a = false) : fmin a a = a := by
  obtain ⟨h, -⟩ | ⟨h, -⟩ := fmin_cases ha ha
  · exact h
  · exact h

/-! ### The one-pole stage (R242) -/

theorem tptStage_eq (st x g : F32) :
    tptStage st x g =
      let v := fdiv (fmul (fsub x st) g) (fadd (lit 1 1) g)
      (fadd v st, fadd (fadd v st) v) := by rw [tptStage, f1]

theorem tptStage_halfway : tptStage 0#32 (lit 1 1) (lit 1 1) = (lit 1 2, lit 1 1) := by decide +kernel

/-! ### The tap law (R251) -/

/-- The weighted sum of two neighbouring taps: `t` of the second, the rest of the first. -/
def tapMix (t a b : F32) : F32 := fadd (fmul (fsub f1 t) a) (fmul t b)

/-- How far the blend `m` lies into region `r`, held in 0 to 1. -/
def tapFraction (m : F32) (r : Nat) : F32 := fmin (fmax (fsub (fmul m f3) (ofNat32 r)) f0) f1

/-- The weight 0 leaves the first tap, which adding a zero does not change. -/
theorem tapMix_f0_key {a b : F32} (ha : isFinite a = true) (hb : isFinite b = true) :
    fkey (tapMix f0 a b) = fkey a := by
  have hone := fmul_one_key ha
  have hsub : fsub f1 f0 = f1 := by decide +kernel
  rw [tapMix, hsub, fadd_zero_key (isFinite_of_fkey_eq hone ha) (fmul_f0_key hb), hone]

/-- The weight 1 leaves the second tap, which adding to a zero does not change. -/
theorem tapMix_f1_key {a b : F32} (ha : isFinite a = true) (hb : isFinite b = true) :
    fkey (tapMix f1 a b) = fkey b := by
  have hone := fmul_one_key hb
  have hzero := fmul_f0_key ha
  have hfin := isFinite_of_fkey_eq hone hb
  have hsub : fsub f1 f1 = f0 := by decide +kernel
  rw [tapMix, hsub, fadd_comm_finite (isFinite_of_fkey_eq hzero isFinite_f0) hfin, fadd_zero_key hfin hzero, hone]

section
variable {m : F32} (y1 y2 y3 y4 : F32)

/-- The tap law mixes tap `r` with the next one, `r` the region the blend lies in. -/
theorem mm4_of_region {r : Nat} (h : (min (max (ffloor (fmul m f3)) 0) 2).toNat = r) :
    mm4 m y1 y2 y3 y4 = tapMix (tapFraction m r) (poleTap y1 y2 y3 y4 r) (poleTap y1 y2 y3 y4 (r + 1)) := by
  subst h
  rfl

theorem mm4_of_floor_le_zero (h : ffloor (fmul m f3) ≤ 0) : mm4 m y1 y2 y3 y4 = tapMix (tapFraction m 0) y4 y3 :=
  mm4_of_region y1 y2 y3 y4 (by omega)

theorem mm4_of_floor_eq_one (h : ffloor (fmul m f3) = 1) : mm4 m y1 y2 y3 y4 = tapMix (tapFraction m 1) y3 y2 :=
  mm4_of_region y1 y2 y3 y4 (by omega)

theorem mm4_of_two_le_floor (h : 2 ≤ ffloor (fmul m f3)) : mm4 m y1 y2 y3 y4 = tapMix (tapFraction m 2) y2 y1 :=
  mm4_of_region y1 y2 y3 y4 (by omega)

end

/-! ### The ends and the middle of the blend -/

section
variable {y1 y2 y3 y4 : F32}

theorem tapFraction_start : tapFraction (lit 0 1) 0 = f0 := by
  have hsub : fsub (fmul (lit 0 1) f3) (ofNat32 0) = f0 := by decide +kernel
  have hmin : fmin f0 f1 = f0 := by decide +kernel
  rw [tapFraction, hsub, fmax_self (isNaN_of_isFinite isFinite_f0), hmin]

theorem tapFraction_end : tapFraction (lit 1 1) 2 = f1 := by
  have hsub : fsub (fmul (lit 1 1) f3) (ofNat32 2) = f1 := by decide +kernel
  have hmax : fmax f1 f0 = f1 := by decide +kernel
  rw [tapFraction, hsub, hmax, fmin_self (isNaN_of_isFinite isFinite_f1)]

theorem tapFraction_middle : tapFraction (lit 1 2) 1 = lit 1 2 := by decide +kernel

theorem mm4_start (h3 : isFinite y3 = true) (h4 : isFinite y4 = true) :
    feq (mm4 (lit 0 1) y1 y2 y3 y4) y4 = true := by
  have hfloor : ffloor (fmul (lit 0 1) f3) ≤ 0 := by decide +kernel
  rw [mm4_of_floor_le_zero _ _ _ _ hfloor, tapFraction_start]
  exact feq_of_fkey_eq (tapMix_f0_key h4 h3) h4

theorem mm4_end (h1 : isFinite y1 = true) (h2 : isFinite y2 = true) : feq (mm4 (lit 1 1) y1 y2 y3 y4) y1 = true := by
  have hfloor : 2 ≤ ffloor (fmul (lit 1 1) f3) := by decide +kernel
  rw [mm4_of_two_le_floor _ _ _ _ hfloor, tapFraction_end]
  exact feq_of_fkey_eq (tapMix_f1_key h2 h1) h1

/-- Halfway the tap law is an even mix of the second and the third pole. -/
theorem mm4_middle : mm4 (lit 1 2) y1 y2 y3 y4 = fadd (fmul (lit 1 2) y3) (fmul (lit 1 2) y2) := by
  have hfloor : ffloor (fmul (lit 1 2) f3) = 1 := by decide +kernel
  have hsub : fsub f1 (lit 1 2) = lit 1 2 := by decide +kernel
  rw [mm4_of_floor_eq_one _ _ _ _ hfloor, tapFraction_middle, tapMix, hsub]

end

/-! ### The step in its two modes (R247) -/

theorem warp_eq (hz fsI : F32) : warp hz fsI = Config.numTan (fdiv (fmul 0x40490FDB#32 hz) fsI) := by
  rw [warp, fPi_eq_bits]

section
variable (fsI x hz : F32) {f : Flt}

theorem Flt.apply_of_twoPole (h : f.fourPole = false) : f.apply fsI x hz = f.apply2Pole x (warp hz fsI) := by
  simp [Flt.apply, h]

theorem Flt.apply_of_fourPole (h : f.fourPole = true) : f.apply fsI x hz = f.apply4Pole x (warp hz fsI) := by
  simp [Flt.apply, h]

end

/-- In 4-pole mode the resolved input runs through the four stages, each fed the output of the one before (R250). -/
theorem Flt.apply4Pole_eq (x g : F32) (f : Flt) :
    f.apply4Pole x g =
      (let y0 := Config.lawResolveFeedback4Pole
        { x := x, s1 := f.s1, s2 := f.s2, s3 := f.s3, s4 := f.s4, g := g, r24 := f.r24, selfOscPush := f.selfOscPush }
      let a := tptStage f.s1 y0 g
      let b := tptStage f.s2 a.1 g
      let c := tptStage f.s3 b.1 g
      let e := tptStage f.s4 c.1 g
      (mm4 f.multimode a.1 b.1 c.1 e.1,
        { f with
          s1 := fdiv (Config.numAtan (fmul a.2 f.rcor24)) f.rcor24
          s2 := b.2
          s3 := c.2
          s4 := e.2 })) := by
  unfold Flt.apply4Pole
  with_reducible rfl

/-- Settles O54: the tap law at its ends and in the middle, the one-pole stage, the tap law by region, then the step in
each mode. -/
theorem filterStepFollowsItsRules : Obligations.FilterStepFollowsItsRules := by
  refine ⟨fun y1 y2 y3 y4 h1 h2 h3 h4 => ⟨mm4_start h3 h4, mm4_end h1 h2⟩, fun y1 y2 y3 y4 => mm4_middle,
    tptStage_halfway, tptStage_eq,
    fun m y1 y2 y3 y4 =>
      ⟨mm4_of_floor_le_zero y1 y2 y3 y4, mm4_of_floor_eq_one y1 y2 y3 y4, mm4_of_two_le_floor y1 y2 y3 y4⟩,
    fun fsI x hz f => ⟨?twoPole, ?fourPole⟩⟩
  case twoPole =>
    intro h
    rw [Flt.apply_of_twoPole fsI x hz h, warp_eq, Flt.apply2Pole]
  case fourPole =>
    intro h
    rw [Flt.apply_of_fourPole fsI x hz h, warp_eq, Flt.apply4Pole_eq]

end Sys2Proof.Machine
end

