-- ==== Sys2Proof/Proofs/GatedVoices.lean ====
section
/-! SUPPORT. Every step keeps each gated voice active with both envelopes held (`45_voice.md` R270 to R274, R288). What
can be said of one voice is proved of one voice: every operation either leaves a gated voice's envelopes held, or leaves
the voice ungated. -/

namespace Sys2Proof.Machine

/-! ### Held envelopes (R198 to R200, R203) -/

theorem Env.Held.of_state {e f : Env} (h : e.Held) (hs : f.state = e.state) : f.Held := by
  unfold Env.Held at *
  rwa [hs]

theorem Env.held_triggerAttack (c : EnvCtx) (e : Env) : (e.triggerAttack c).Held := .inl rfl

theorem Env.Held.isActive {e : Env} (h : e.Held) : e.isActive = true := by
  obtain h | h | h := h <;> simp [Env.isActive, h]

theorem Env.held_decayArm {e : Env} (h : e.state = .decay) : e.decayArm.Held := by
  unfold Env.decayArm
  split
  · exact .inr (.inr rfl)
  · exact .inr (.inl h)

theorem Env.held_attackArm (c : EnvCtx) {e : Env} (h : e.state = .attack) : (e.attackArm c).Held := by
  rw [Env.attackArm_eq]
  split
  · exact Env.held_decayArm rfl
  · exact .inl h

/-- A sample step never leaves the held stages: only a release does. -/
theorem Env.Held.processSample {e : Env} (h : e.Held) (c : EnvCtx) : (e.processSample c).Held := by
  obtain h | h | h := h
  · rw [Env.processSample_of_attack c h]
    exact Env.held_attackArm c h
  · rw [Env.processSample_of_decay c h]
    exact Env.held_decayArm h
  · rw [Env.processSample_of_sustain c h]
    exact .inr (.inr h)

/-! ### One voice -/

/-- The invariant of one voice: if it is gated, it is sounding with both envelopes held. -/
def Voice.GatedSound (v : Voice) : Prop := v.gate = true → v.active = true ∧ v.ampEnv.Held ∧ v.fltEnv.Held

theorem State.gatedSound_iff (s : State) : s.GatedSound ↔ ∀ k, (s.voices.get k).GatedSound := Iff.rfl

theorem Voice.gatedSound_of_ungated {v : Voice} (h : v.gate = false) : v.GatedSound := fun hg => by
  rw [h] at hg
  cases hg

theorem Voice.GatedSound.congr {v w : Voice} (h : v.GatedSound) (hgate : w.gate = v.gate)
    (hactive : w.active = v.active) (hamp : w.ampEnv.state = v.ampEnv.state)
    (hflt : w.fltEnv.state = v.fltEnv.state) : w.GatedSound := fun hg => by
  obtain ⟨ha, hheld, hheld'⟩ := h (hgate ▸ hg)
  exact ⟨hactive.trans ha, hheld.of_state hamp, hheld'.of_state hflt⟩

/-- A note-on attacks both envelopes of an ungated voice; of a gated one it attacks those the legato mask names, and the
voice is sounding, so that the others stay as they are (R271). -/
theorem Voice.GatedSound.noteOn {v : Voice} (h : v.GatedSound) (fsI : F32) (n : Fin 128) (vel : F32) :
    (v.noteOn fsI n vel).GatedSound := fun _ => by
  have hkept : ¬ v.gate = false → v.prepare.ampEnv.Held ∧ v.prepare.fltEnv.Held := fun hg => by
    obtain ⟨ha, hheld⟩ := h (by simpa using hg)
    rwa [Voice.prepare_ampEnv, Voice.prepare_fltEnv, if_pos ha, if_pos ha]
  refine ⟨Voice.noteOn_active _ _ _ _, ?amp, ?flt⟩
  case amp =>
    rw [Voice.noteOn_ampEnv]
    split
    · exact Env.held_triggerAttack _ _
    · next hno => exact (hkept fun hg => hno (.inl hg)).1
  case flt =>
    rw [Voice.noteOn_fltEnv]
    split
    · exact Env.held_triggerAttack _ _
    · next hno => exact (hkept fun hg => hno (.inl hg)).2

theorem Voice.gatedSound_noteOff (fsI : F32) (v : Voice) : (v.noteOff fsI).GatedSound :=
  Voice.gatedSound_of_ungated (Voice.noteOff_gate _ _)

/-- A panic step comes after a note-off, which has taken the gate away. -/
theorem Voice.gatedSound_noteOff_kill (fsI : F32) (v : Voice) : (v.noteOff fsI).kill.GatedSound :=
  Voice.gatedSound_of_ungated (Voice.noteOff_gate _ _)

/-- The release of the pedal leaves a gated voice's envelopes alone (R274). -/
theorem Voice.GatedSound.sustOff {v : Voice} (h : v.GatedSound) (fsI : F32) : (v.sustOff fsI).GatedSound := fun hg => by
  obtain ⟨hamp, hflt⟩ := Voice.sustOff_envs fsI v
  rw [Voice.sustOff_gate] at hg
  rw [Voice.sustOff_active, hamp, hflt, if_pos hg, if_pos hg]
  exact h hg

/-- A sample step ends a voice only when its amplitude envelope is Silent, which a held one does not become (R288). -/
theorem Voice.GatedSound.processSample {v : Voice} (h : v.GatedSound) {c : VoiceCtx} {d : Nat} {o : VoiceOut}
    (e : v.processSample c d = .ok o) : o.voice.GatedSound := fun hg => by
  obtain ⟨-, hamp, hflt, hactive, -, -, -, hframe⟩ := Voice.processSample_ok e
  rw [hframe] at hg
  obtain ⟨ha, hheld, hheld'⟩ := h hg
  rw [hactive, hamp, hflt, ha, Bool.true_and]
  exact ⟨(hheld.processSample _).isActive, hheld.processSample _, hheld'.processSample _⟩

/-! ### All voices -/

theorem State.GatedSound.setVoice {s : State} (h : s.GatedSound) (j : Fin 32) {v : Voice} (hv : v.GatedSound) :
    (s.setVoice j v).GatedSound :=
  Vec.forall_get_set (P := fun _ w => Voice.GatedSound w) h hv

theorem State.GatedSound.voiceNoteOn {s : State} (h : s.GatedSound) (j : Fin 32) (n : Fin 128) (vel : F32) :
    (s.voiceNoteOn j n vel).GatedSound :=
  h.setVoice j (Voice.GatedSound.noteOn (h j) _ n vel)

theorem State.gatedSound_mapVoices {s : State} {f : Voice → Voice} (hf : ∀ k, (f (s.voices.get k)).GatedSound) :
    (s.mapVoices f).GatedSound := fun k => by
  rw [State.mapVoices_voices, Vec.get_map]
  exact hf k

theorem State.GatedSound.setNoteOn {s : State} (h : s.GatedSound) (n : Fin 128) (vel : F32) :
    (s.setNoteOn n vel).GatedSound :=
  setNoteOn_induction (P := State.GatedSound) h
    (fun s j h _ _ => State.GatedSound.voiceNoteOn (s := s.mapStolen _ _) h j n vel) (fun _ h => h)
    (fun s h _ => State.GatedSound.voiceNoteOn (s := s.getNext.2) h _ n vel)

theorem State.GatedSound.setNoteOff {s : State} (h : s.GatedSound) (n : Fin 128) : (s.setNoteOff n).GatedSound :=
  setNoteOff_induction (P := State.GatedSound) h (fun _ i k h _ _ _ _ => h.voiceNoteOn i k velKeep)
    (fun _ i h _ => h.setVoice i (Voice.gatedSound_noteOff _ _)) (fun _ h => h)

theorem State.gatedSound_allNotesOff (s : State) : s.allNotesOff.GatedSound := fun k => by
  rw [State.allNotesOff_voices, Vec.get_map]
  exact Voice.gatedSound_noteOff _ _

theorem State.gatedSound_allSoundOff (s : State) : s.allSoundOff.GatedSound := fun k => by
  rw [State.allSoundOff_voices, Vec.get_map, Vec.get_map]
  exact Voice.gatedSound_noteOff_kill _ _

/-- The voices a new polyphony leaves out lose their gate, the others stay as they are (R305). -/
theorem State.GatedSound.setPolyphony {s : State} (h : s.GatedSound) (n : VoiceCount) :
    (s.setPolyphony n).GatedSound := fun k => by
  rw [State.setPolyphony_voices, Vec.get_mapIdx]
  split
  · exact Voice.gatedSound_noteOff_kill _ _
  · exact h k

theorem State.GatedSound.smooth {s : State} (h : s.GatedSound) : s.smooth.GatedSound := fun k => by
  rw [State.smooth_voices, Vec.get_map]
  exact h k

theorem State.GatedSound.halfSample {s : State} (h : s.GatedSound) {a : F32} {o : HalfOut}
    (e : s.halfSample a = .ok o) : o.state.GatedSound :=
  halfSample_forall_voice (P := fun _ v => v.GatedSound) e h fun _ _ _ _ _ hP ho => hP.processSample ho

theorem State.GatedSound.tick {s t : State} (h : s.GatedSound) (e : s.tick = .ok t) : t.GatedSound :=
  tick_induction (P := State.GatedSound) h e (fun _ h => h.smooth) (fun _ _ _ h e => h.halfSample e)
    (fun _ _ _ h => h) fun _ _ _ _ _ h => h

/-- A parameter write changes neither the gate nor the stage of an envelope. -/
theorem State.GatedSound.quiet {s t : State} (h : s.GatedSound) (q : QuietStep s t) : t.GatedSound := fun k =>
  have hk := q.voices k
  Voice.GatedSound.congr (h k) hk.gate hk.active hk.ampState hk.fltState

theorem State.GatedSound.raise {s : State} (h : s.GatedSound) (c : FaultCause) (w : CmdWord) :
    (raise c w s).GatedSound := fun k => by
  rw [raise_voices]
  exact h k

theorem ExecCase.gatedSound {i : Instr} {s t : State} (hc : ExecCase i s t) (h : s.GatedSound) : t.GatedSound := by
  cases hc with
  | raised c => exact h.raise c _
  | ticked _ _ _ ht => exact h.tick ht
  | noteOn n _ v => exact h.setNoteOn _ v
  | noteOff n => exact h.setNoteOff _
  | sustOn => exact State.gatedSound_mapVoices h
  | sustOff => exact State.gatedSound_mapVoices fun k => Voice.GatedSound.sustOff (h k) _
  | notesOff => exact s.gatedSound_allNotesOff
  | soundOff => exact s.gatedSound_allSoundOff
  | polyphony v => exact h.setPolyphony _
  | quiet _ q => exact h.quiet q

/-- Settles O19, by the cases of a step and of a command. -/
theorem everyStepKeepsGatedVoicesSounding : Obligations.EveryStepKeepsGatedVoicesSounding := by
  intro s t h hs
  cases step_case hs with
  | idle => exact h
  | illegal w rest => exact State.GatedSound.raise (s := { s with inputs := rest }) h _ _
  | command _ rest _ _ _ _ _ hc => exact hc.gatedSound (s := { s with inputs := rest }) h
  | reset rest => exact resetWith_gatedSound _ _ rest
  | tuning table rest => exact h

end Sys2Proof.Machine
end

