-- ==== Sys2Proof/Proofs/VoiceSample.lean ====
section
/-! SUPPORT. A voice's sample step (`45_voice.md` R276 to R289): what its parts keep, and the step as the listing of
R289. -/

namespace Sys2Proof.Machine

open Sys2Proof.Claims

/-! ### What the parts of a sample step keep -/

theorem sameEnvParams_decayArm (e : Env) : SameEnvParams e.decayArm e := by
  unfold Env.decayArm
  split
  · exact ⟨rfl, rfl, rfl, rfl⟩
  · exact ⟨rfl, rfl, rfl, rfl⟩

theorem sameEnvParams_attackArm (c : EnvCtx) (e : Env) : SameEnvParams (e.attackArm c) e := by
  rw [Env.attackArm_eq]
  split
  · exact sameEnvParams_decayArm (e.enterDecay c)
  · exact ⟨rfl, rfl, rfl, rfl⟩

theorem sameEnvParams_releaseArm (e : Env) : SameEnvParams e.releaseArm e := by
  unfold Env.releaseArm
  split
  · exact ⟨rfl, rfl, rfl, rfl⟩
  · exact ⟨rfl, rfl, rfl, rfl⟩

theorem sameEnvParams_processSample (c : EnvCtx) (e : Env) : SameEnvParams (e.processSample c) e := by
  cases h : e.state with
  | attack => rw [Env.processSample_of_attack c h]; exact sameEnvParams_attackArm c e
  | decay => rw [Env.processSample_of_decay c h]; exact sameEnvParams_decayArm e
  | sustain => rw [Env.processSample_of_sustain c h]; exact ⟨rfl, rfl, rfl, rfl⟩
  | release => rw [Env.processSample_of_release c h]; exact sameEnvParams_releaseArm e
  | silent => rw [Env.processSample_of_silent c h]; exact ⟨rfl, rfl, rfl, rfl⟩

/-- Either filter mode writes the filter's states alone. -/
theorem sameFltParams_apply (fsI x hz : F32) (f : Flt) : SameFltParams (f.apply fsI x hz).2 f := by
  cases h : f.fourPole with
  | false => rw [Flt.apply_of_twoPole fsI x hz h]; rfl
  | true => rw [Flt.apply_of_fourPole fsI x hz h, Flt.apply4Pole_eq, SameFltParams]

/-- A sample step keeps every control of the voice. -/
theorem Voice.processSample_keeps {c : VoiceCtx} {d : Nat} {v : Voice} {o : VoiceOut}
    (h : v.processSample c d = .ok o) : SameVoiceControl o.voice v := by
  obtain ⟨⟨_, _, _, _, _, _, q, hq, hosc⟩, hamp, hflt, -, hlfo, -, ⟨x, g, hfilter⟩, hframe⟩ := Voice.processSample_ok h
  refine ⟨hframe, ?_, ?_, ?_, ?_, ?_⟩
  · rw [hosc]; exact OscBlock.process_keeps hq
  · rw [hamp]; exact sameEnvParams_processSample _ _
  · rw [hflt]; exact sameEnvParams_processSample _ _
  · rw [hfilter]; exact sameFltParams_apply _ _ _ _
  · rw [hlfo]; exact Lfo.update_params _ _ _ _

/-! ### The volume law (R287) -/

theorem lawLfoVolume_inUnit {volMod velocity : F32} (hm : isFinite volMod = true) (hv : isFinite velocity = true) :
    inUnit (lawLfoVolume volMod velocity) = true := by
  rw [lawLfoVolume, hm, hv]
  exact constrained_allowed (allowed := inUnit) (by decide +kernel)

/-! ### The listing of R289 -/

/-- The voice stays active exactly when it was and its amplitude envelope is not Silent after the step (R288). -/
theorem Voice.processSample_active {c : VoiceCtx} {d : Nat} {v : Voice} {o : VoiceOut}
    (h : v.processSample c d = .ok o) :
    o.voice.active = true ↔ v.active = true ∧ o.voice.ampEnv.state ≠ .silent := by
  obtain ⟨-, hamp, -, hactive, -⟩ := Voice.processSample_ok h
  rw [hactive, hamp, Bool.and_eq_true, Env.isActive, decide_eq_true_eq]

/-- The draws are the LFO's on a wrap, the dither's and the noise generator's. -/
theorem Voice.processSample_draws {c : VoiceCtx} {d : Nat} {v : Voice} {o : VoiceOut}
    (h : v.processSample c d = .ok o) : o.draws = d + 2 ∨ o.draws = d + 3 := by
  obtain ⟨-, -, -, -, -, hdraws, -⟩ := Voice.processSample_ok h
  obtain hd | hd := Lfo.update_draws c.fsI c.bpm d v.lfo2
  · exact .inl (by rw [hdraws, hd])
  · exact .inr (by rw [hdraws, hd])

/-- Settles O60: what a sample step writes and keeps, the listing, then the volume law. -/
theorem sampleStepFollowsItsListing : Obligations.SampleStepFollowsItsListing := by
  refine ⟨fun c d v => ?effects, fun c d v => ?listing, fun m k hm hk => ?volume⟩
  case effects =>
    split
    · next e _ => cases e; rfl
    · next o h =>
      obtain ⟨-, hamp, hflt, -, hlfo, hdraws, -⟩ := Voice.processSample_ok h
      exact ⟨Voice.processSample_keeps h, hamp, hflt, hlfo, Voice.processSample_active h, hdraws,
        Voice.processSample_draws h⟩
  case listing =>
    -- The model's stages, unfolded, are the listing's lines; both cases turn on whether the oscillator block stops.
    simp only [← tptLp_eq_onePole]
    split
    · next stop hstop =>
      obtain ⟨e, ho, h⟩ | ⟨o, ho, -⟩ := Voice.processSample_cases c d v
      · cases ho.symm.trans hstop
        exact h
      · cases ho.symm.trans hstop
    · next o hok =>
      obtain ⟨e, ho, -⟩ | ⟨o, ho, h⟩ := Voice.processSample_cases c d v
      · cases ho.symm.trans hok
      · cases ho.symm.trans hok
        exact h
  case volume =>
    have h := lawLfoVolume_inUnit hm hk
    rwa [inUnit, Bool.and_eq_true] at h

end Sys2Proof.Machine
end

