-- ==== Sys2Proof/Proofs/VoiceNotes.lean ====
section
/-! SUPPORT. The note operations of a voice (`45_voice.md` R271 to R274): each as the one update its rule writes. -/

namespace Sys2Proof.Machine

open Sys2Proof.Claims

/-- The two bits of the legato mask, as the model tests them and as the rule masks them (R271). -/
theorem legato_bits (m : BitVec 2) :
    (m.getLsbD 0 = true ↔ m &&& 1#2 ≠ 0#2) ∧ (m.getLsbD 1 = true ↔ m &&& 2#2 ≠ 0#2) := by
  revert m
  decide

/-- A note-on, field by field (R271). -/
theorem Voice.noteOn_eq_retriggered (fsI vel : F32) (n : Fin 128) (v : Voice) :
    v.noteOn fsI n vel = retriggered fsI n vel v := by
  obtain ⟨hdlAenv, hdlFenv, hdlAenv1⟩ := Voice.noteOn_lines fsI vel n v
  obtain ⟨hamp, hflt⟩ := legato_bits v.legato
  have hfields : v.noteOn fsI n vel =
      { v with
        dlAenv := (v.noteOn fsI n vel).dlAenv
        dlFenv := (v.noteOn fsI n vel).dlFenv
        dlAenv1 := (v.noteOn fsI n vel).dlAenv1
        velocity := (v.noteOn fsI n vel).velocity
        note := n
        ampEnv := (v.noteOn fsI n vel).ampEnv
        fltEnv := (v.noteOn fsI n vel).fltEnv
        gate := true
        active := true
        lfo2 := v.lfo2.resetPhase } := by
    unfold Voice.noteOn
    simp
  rw [hfields, hdlAenv, hdlFenv, hdlAenv1, Voice.noteOn_velocity, Voice.noteOn_ampEnv, Voice.noteOn_fltEnv,
    Voice.prepare_ampEnv, Voice.prepare_fltEnv]
  simp only [hamp, hflt]
  rfl

theorem Voice.noteOff_eq_keyUp (fsI : F32) (v : Voice) : v.noteOff fsI = keyUp fsI v := rfl

theorem Voice.sustOff_eq_pedalUp (fsI : F32) (v : Voice) : v.sustOff fsI = pedalUp fsI v := rfl

/-- Settles O29, one operation after another. -/
theorem voiceNoteOperationsFollowTheirRules : Obligations.VoiceNoteOperationsFollowTheirRules := fun fsI vel n v =>
  ⟨v.noteOn_eq_retriggered fsI vel n, v.noteOff_eq_keyUp fsI, rfl, v.sustOff_eq_pedalUp fsI⟩

end Sys2Proof.Machine
end

