-- ==== Sys2Proof/Proofs/NoteOn.lean ====
section
/-! SUPPORT. What a note-on takes (`46_scheduler.md` R310 to R312, R319): first the oldest sounding voices it lacks,
then the first inactive voices of the queue. The two loops are followed in `Laws/Alloc.lean`; here their results are
put together in the terms of the statements. -/

namespace Sys2Proof.Machine

open Sys2Proof.Claims

/-! ### Accepted note commands -/

theorem noteRange_and_unitRange {s : State} {note : BitVec 8} {vel : F32} (h : NoteOk s note vel) :
    (noteRange note && unitRange vel) = true := by
  obtain ⟨-, hnote, hvel⟩ := h
  rw [(noteRange_iff note).2 hnote, hvel]
  rfl

theorem exec_noteon {s : State} {note : BitVec 8} {vel : F32} (h : NoteOk s note vel) (channel : BitVec 8) :
    exec (.noteon note channel vel) s = .next (s.setNoteOn (noteOf note) vel) :=
  configuredCommand_accepted (noteRange_and_unitRange h) h.1

theorem exec_noteoff {s : State} {note : BitVec 8} {vel : F32} (h : NoteOk s note vel) (channel : BitVec 8) :
    exec (.noteoff note channel vel) s = .next (s.setNoteOff (noteOf note)) :=
  configuredCommand_accepted (noteRange_and_unitRange h) h.1

/-! ### The statements' terms -/

theorem ofNat_queueAt (s : State) (k : Nat) : Fin.ofNat 32 (queueAt s k) = s.queueVoice k :=
  Fin.ext (Nat.mod_eq_of_lt (s.queueVoice k).isLt)

theorem freeBefore_eq_freeUpTo (s : State) (p : Nat) : freeBefore s p = s.freeUpTo p := by
  simp only [freeBefore, ofNat_queueAt]
  rfl

theorem availVoices_eq (s : State) : availVoices s = s.g.totalvc.val - s.countActiveVoices := by
  rw [availVoices, countActiveVoices_eq]
  rfl

/-- A voice is stolen when it sounds and its rank, the new age recorded, is below the shortfall. -/
theorem isStolen_iff {n : Fin 128} {s : State} {i : Fin 32} :
    isStolen n s i = true ↔
      (s.recordAge n).soundsBelow i = true ∧ (s.recordAge n).stealRank i < neededVoices s - availVoices s := by
  rw [isStolen, Bool.and_eq_true, decide_eq_true_eq]
  rfl

theorem active_of_isStolen {n : Fin 128} {s : State} {i : Fin 32} (h : isStolen n s i = true) :
    (s.voices.get i).active = true := by
  rw [isStolen, sounding, Bool.and_eq_true, Bool.and_eq_true] at h
  exact h.1.2

theorem isStolen_of_noShortfall {n : Fin 128} {s : State} (h : neededVoices s ≤ availVoices s) (i : Fin 32) :
    isStolen n s i = false := by
  rw [Bool.eq_false_iff, Ne, isStolen_iff]
  omega

theorem neededVoices_of_noUnison {s : State} (h : s.g.uni = false) : neededVoices s = 1 := by
  have hpos := s.g.totalvc.property.1
  simp only [neededVoices, h, Bool.false_eq_true, if_false]
  omega

/-! ### Positions of the queue -/

theorem freeUpTo_mono (s : State) : Monotone s.freeUpTo :=
  monotone_nat_of_le_succ fun p => by rw [freeUpTo_succ]; exact Nat.le_add_right _ _

theorem freeUpTo_succ_of_inactive {s : State} {p : Nat} (h : s.isActive (s.queueVoice p) = false) :
    s.freeUpTo (p + 1) = s.freeUpTo p + 1 := by
  rw [freeUpTo_succ, h]
  rfl

/-- As far as every voice of the queue is active, none is free. -/
theorem freeUpTo_eq_zero {s : State} {k : Nat} (h : ∀ m < k, s.isActive (s.queueVoice m) = true) :
    s.freeUpTo k = 0 := by
  rw [State.freeUpTo, List.countP_eq_zero]
  intro m hm
  rw [h m (List.mem_range.1 hm)]
  decide

/-- With every voice below the polyphony idle, each position of the queue is free. -/
theorem freeUpTo_of_allIdle {s : State} (h : AllIdle s) (p : Nat) : s.freeUpTo p = p := by
  have hfree : ∀ m, s.isActive (s.queueVoice m) = false := fun m =>
    h _ (Nat.mod_lt _ s.g.totalvc.property.1)
  induction p with
  | zero => rfl
  | succ p ih => rw [freeUpTo_succ_of_inactive (hfree p), ih]

theorem availVoices_eq_freeUpTo (s : State) : availVoices s = s.freeUpTo s.g.totalvc.val := by
  rw [availVoices_eq, freeUpTo_round]

/-- With every voice below the polyphony active, none is available. -/
theorem availVoices_of_allActive {s : State}
    (h : ∀ i : Fin 32, i.val < s.g.totalvc.val → (s.voices.get i).active = true) : availVoices s = 0 := by
  rw [availVoices_eq_freeUpTo]
  exact freeUpTo_eq_zero fun m _ => h _ (Nat.mod_lt _ s.g.totalvc.property.1)

theorem availVoices_of_allIdle {s : State} (h : AllIdle s) : availVoices s = s.g.totalvc.val := by
  rw [availVoices_eq_freeUpTo, freeUpTo_of_allIdle h]

/-! ### The stolen voices -/

/-- A count over a list without repetitions is a count over all voices of those in the list. -/
theorem countP_eq_of_mem_iff {l : List (Fin 32)} (hn : l.Nodup) {q : Fin 32 → Bool} (hq : ∀ i, i ∈ l ↔ q i = true)
    (p : Fin 32 → Bool) : l.countP p = (List.finRange 32).countP fun i => q i && p i := by
  rw [countP_voices, List.countP_eq_length_filter, ← List.toFinset_card_of_nodup (hn.filter p)]
  congr 1
  ext i
  simp [hq]

/-- The state `b` is what the steals of a note-on of `n` from `s` leave, `taken` the voices stolen (R310, R311): as many
as are lacking, oldest first, with the queue where it was. -/
structure Stole (n : Fin 128) (vel : F32) (s b : State) (taken : List (Fin 32)) : Prop where
  took : Took n vel (s.recordAge n) taken taken b
  vqIdx : b.g.vqIdx = s.g.vqIdx
  nodup : taken.Nodup
  length : taken.length = neededVoices s - availVoices s
  mem : ∀ i, i ∈ taken ↔ isStolen n s i = true

/-- A note-on first steals, then allocates. -/
theorem setNoteOn_steals (n : Fin 128) (vel : F32) (s : State) :
    ∃ (b : State) (taken : List (Fin 32)), Stole n vel s b taken ∧
      s.setNoteOn n vel = b.allocLoop n vel (neededVoices s) s.g.totalvc.val taken := by
  have hcount : (s.recordAge n).countActiveVoices = s.countActiveVoices := rfl
  have hneeded : (s.recordAge n).g.voicesNeeded = neededVoices s := rfl
  have hvc : (s.recordAge n).g.totalvc = s.g.totalvc := rfl
  have havail := availVoices_eq s
  have hle : neededVoices s ≤ s.g.totalvc.val := Nat.min_le_right _ _
  unfold State.setNoteOn
  simp only [hcount, hneeded, hvc, ← havail, stealAllowed, and_true]
  by_cases hlack : availVoices s < neededVoices s
  · obtain ⟨htook, hidx, hnodup, hlen, hmem⟩ := stealLoop_took (neededVoices s - availVoices s) [] (s.recordAge n)
      (Took.refl n vel _) rfl List.nodup_nil (by simp) (by rw [hcount, List.length_nil]; omega)
    rw [List.length_nil, Nat.zero_add] at hlen
    have hvc' : ((s.recordAge n).stealLoop n vel (neededVoices s - availVoices s) []).1.g.totalvc = s.g.totalvc := by
      rw [htook.frame]; rfl
    refine ⟨_, _, ⟨htook, hidx, hnodup, hlen, fun i => ?_⟩, ?_⟩
    · rw [hmem, isStolen_iff, hlen]
    · rw [if_pos hlack, hvc']
  · refine ⟨_, [], ⟨Took.refl n vel _, rfl, List.nodup_nil, ?_, fun i => ?_⟩, ?_⟩
    · rw [List.length_nil]; omega
    · rw [isStolen_of_noShortfall (by omega)]
      simp
    · rw [if_neg hlack, hvc]

/-- Exactly the shortfall is stolen. -/
theorem countP_isStolen (n : Fin 128) (s : State) :
    (List.finRange 32).countP (isStolen n s) = neededVoices s - availVoices s := by
  obtain ⟨b, taken, h, -⟩ := setNoteOn_steals n f0 s
  have hcount := countP_eq_of_mem_iff h.nodup h.mem fun _ => true
  simp only [Bool.and_true, List.countP_true] at hcount
  rw [← h.length, hcount]

section

variable {n : Fin 128} {vel : F32} {s b : State} {taken : List (Fin 32)} (h : Stole n vel s b taken)

include h

theorem Stole.frame : b = { s with voices := b.voices, g := { aged n s.g with stolen := b.g.stolen } } := by
  have hframe := h.took.frame
  rw [h.vqIdx] at hframe
  exact hframe

theorem Stole.totalvc : b.g.totalvc = s.g.totalvc := by rw [h.frame]; rfl

theorem Stole.fsI : b.g.fsI = s.g.fsI := by rw [h.frame]; rfl

theorem Stole.queueVoice : b.queueVoice = s.queueVoice := by rw [h.frame]; rfl

theorem Stole.voices (i : Fin 32) :
    b.voices.get i = if i ∈ taken then retriggered s.g.fsI n vel (s.voices.get i) else s.voices.get i := by
  rw [h.took.voices, ← Voice.noteOn_eq_retriggered]
  rfl

/-- A stolen voice was active and stays so. -/
theorem Stole.isActive : b.isActive = s.isActive := by
  funext i
  rw [State.isActive, h.voices i]
  split
  · next hi => exact (active_of_isStolen ((h.mem i).1 hi)).symm
  · rfl

theorem Stole.freeUpTo : b.freeUpTo = s.freeUpTo := by
  funext p
  rw [State.freeUpTo, h.isActive, h.queueVoice]
  rfl

theorem Stole.counts (k : Fin 129) : b.g.stolen.get k =
    s.g.stolen.get k +
      BitVec.ofNat 32
        ((List.finRange 32).countP fun i => isStolen n s i && decide (noteEntry (s.voices.get i).note = k)) := by
  rw [h.took.counts, countP_eq_of_mem_iff h.nodup h.mem]
  rfl

/-- After the steals the allocation goes on to the first position of the queue before which enough voices are free, and
takes the inactive voices it passes (R312). -/
theorem Stole.alloc (hcursor : s.g.vqIdx.val < s.g.totalvc.val) :
    ∃ q ≤ s.g.totalvc.val, s.freeUpTo q = min (neededVoices s) (availVoices s) ∧
      (∀ p < q, s.freeUpTo p < min (neededVoices s) (availVoices s)) ∧
      let u := b.allocLoop n vel (neededVoices s) s.g.totalvc.val taken
      u = { b with voices := u.voices, g := { b.g with vqIdx := s.queueVoice q } } ∧
      ∀ i, u.voices.get i =
        if ∃ m < q, i = s.queueVoice m ∧ s.isActive i = false then (b.voices.get i).noteOn s.g.fsI n vel
        else b.voices.get i := by
  obtain ⟨q, hround, hend, hle, hfirst, hframe, hvoices⟩ := allocLoop_took (n := n) (vel := vel)
    (needed := neededVoices s) (b := b) (stolen := taken)
    (fun i hi => by rw [h.isActive]; exact active_of_isStolen ((h.mem i).1 hi))
    b.g.totalvc.val 0 taken b (Nat.zero_add _)
    (by rw [queueVoice_zero (by rw [h.vqIdx, h.totalvc]; exact hcursor)]) (by simp) (by simp) rfl (by simp)
    (by rw [h.length]; simp [State.freeUpTo])
  rw [h.totalvc, h.queueVoice] at hframe
  simp only [h.totalvc, h.length, h.freeUpTo, h.queueVoice, h.isActive, h.fsI] at hround hend hle hfirst hvoices
  have havail := availVoices_eq_freeUpTo s
  refine ⟨q, hround, ?_, fun p hp => ?_, hframe, hvoices⟩
  · rcases hend with rfl | hend <;> omega
  · have := hfirst p hp
    omega

end

/-- The allocation ends at once when enough voices are taken. -/
theorem allocLoop_of_enough {n : Fin 128} {vel : F32} {needed : Nat} {taken : List (Fin 32)}
    (h : taken.length = needed) (k : Nat) (s : State) : s.allocLoop n vel needed k taken = s := by
  cases k with
  | zero => rfl
  | succ k => rw [State.allocLoop, if_pos h]

/-! ### A whole note-on -/

/-- The state `t` is what a note-on of `n` from `s` leaves, its allocation having ended at position `q` of the queue. -/
structure NotedOn (n : Fin 128) (vel : F32) (s t : State) (q : Nat) : Prop where
  frame : t =
    { s with
      voices := t.voices
      g := { aged n s.g with vqIdx := Fin.ofNat 32 (queueAt s q), stolen := t.g.stolen } }
  round : q ≤ s.g.totalvc.val
  placed : freeBefore s q = min (neededVoices s) (availVoices s)
  first : ∀ p < q, freeBefore s p < min (neededVoices s) (availVoices s)
  taken : ∀ i, isStolen n s i = true ∨ isPlaced s i → t.voices.get i = retriggered s.g.fsI n vel (s.voices.get i)
  kept : ∀ i, isStolen n s i = false → ¬isPlaced s i → t.voices.get i = s.voices.get i
  counts : ∀ k, t.g.stolen.get k =
    s.g.stolen.get k +
      BitVec.ofNat 32
        ((List.finRange 32).countP fun i => isStolen n s i && decide (noteEntry (s.voices.get i).note = k))

/-- The voices placed are the inactive ones before the position at which the allocation ended (R312). -/
theorem isPlaced_iff {s : State} {q : Nat} (hround : q ≤ s.g.totalvc.val)
    (hplaced : s.freeUpTo q = min (neededVoices s) (availVoices s))
    (hfirst : ∀ p < q, s.freeUpTo p < min (neededVoices s) (availVoices s)) {i : Fin 32} :
    isPlaced s i ↔ ∃ m < q, i = s.queueVoice m ∧ s.isActive i = false := by
  constructor
  · rintro ⟨hfree, p, hp, hi, hlt⟩
    obtain rfl : i = s.queueVoice p := Fin.ext hi
    refine ⟨p, ?_, rfl, hfree⟩
    by_contra hqp
    have hsucc := freeUpTo_succ_of_inactive hfree
    have hend : s.freeUpTo (p + 1) ≤ s.freeUpTo s.g.totalvc.val := freeUpTo_mono s hp
    have hq : s.freeUpTo q ≤ s.freeUpTo p := freeUpTo_mono s (not_lt.1 hqp)
    rw [← availVoices_eq_freeUpTo] at hend
    rw [freeBefore_eq_freeUpTo] at hlt
    omega
  · rintro ⟨m, hm, rfl, hfree⟩
    refine ⟨hfree, m, by omega, rfl, ?_⟩
    have := hfirst m hm
    rw [freeBefore_eq_freeUpTo]
    omega

/-- What a note-on does when the queue's cursor is below the polyphony (R310 to R312). -/
theorem setNoteOn_notedOn (n : Fin 128) (vel : F32) {s : State} (hcursor : s.g.vqIdx.val < s.g.totalvc.val) :
    ∃ q, NotedOn n vel s (s.setNoteOn n vel) q := by
  obtain ⟨b, taken, h, hrest⟩ := setNoteOn_steals n vel s
  obtain ⟨q, hround, hplaced, hfirst, hframe, hvoices⟩ := h.alloc hcursor
  rw [← hrest] at hframe hvoices
  have hplace : ∀ i, isPlaced s i ↔ ∃ m < q, i = s.queueVoice m ∧ s.isActive i = false := fun i =>
    isPlaced_iff hround hplaced hfirst
  have hstolen : (s.setNoteOn n vel).g.stolen = b.g.stolen := by rw [hframe]
  refine ⟨q, ?frame, hround, ?placed, ?first, ?taken, ?kept, ?counts⟩
  case frame =>
    rw [ofNat_queueAt, hstolen]
    rw [h.frame] at hframe
    exact hframe
  case placed => rw [freeBefore_eq_freeUpTo]; exact hplaced
  case first => simpa only [freeBefore_eq_freeUpTo] using hfirst
  case taken =>
    intro i hi
    rw [hvoices, h.voices]
    by_cases hp : isPlaced s i
    · have hnot : i ∉ taken := fun hm => by
        have hactive := active_of_isStolen ((h.mem i).1 hm)
        rw [hp.1] at hactive
        cases hactive
      rw [if_pos ((hplace i).1 hp), if_neg hnot, Voice.noteOn_eq_retriggered]
    · rw [if_neg fun hm => hp ((hplace i).2 hm), if_pos ((h.mem i).2 (hi.resolve_right hp))]
  case kept =>
    intro i hs hp
    have hnot : i ∉ taken := fun hm => by
      have hst := (h.mem i).1 hm
      rw [hs] at hst
      cases hst
    rw [hvoices, h.voices, if_neg fun hm => hp ((hplace i).2 hm), if_neg hnot]
  case counts =>
    intro k
    rw [hstolen, h.counts]

/-- The state of a note-on from its voices and stolen counts. -/
theorem NotedOn.eq {n : Fin 128} {vel : F32} {s t : State} {q : Nat} (h : NotedOn n vel s t q)
    {voices : Vec Voice 32} {stolen : Vec (BitVec 32) 129} (hv : ∀ i, t.voices.get i = voices.get i)
    (hs : ∀ k, t.g.stolen.get k = stolen.get k) :
    t = { s with
      voices := voices
      g := { aged n s.g with vqIdx := Fin.ofNat 32 (queueAt s q), stolen := stolen } } := by
  obtain rfl := Vec.eq_of_get hv
  obtain rfl := Vec.eq_of_get hs
  exact h.frame

/-- Without a shortfall the stolen counts stay. -/
theorem NotedOn.counts_of_noShortfall {n : Fin 128} {vel : F32} {s t : State} {q : Nat} (h : NotedOn n vel s t q)
    (hle : neededVoices s ≤ availVoices s) (k : Fin 129) : t.g.stolen.get k = s.g.stolen.get k := by
  simp [h.counts, isStolen_of_noShortfall hle]

/-! ### Sounding notes (R319) -/

/-- Under the invariant no more voices are active than the polyphony. -/
theorem State.Inv.countP_active_le {s : State} (h : s.Inv) :
    ((List.finRange 32).countP fun i => (s.voices.get i).active) ≤ s.g.totalvc.val := by
  calc (List.finRange 32).countP (fun i => (s.voices.get i).active)
      ≤ (List.finRange 32).countP (fun i => decide (i.val < s.g.totalvc.val)) :=
        List.countP_mono_left fun i _ hi => decide_eq_true (h.activeBelow i hi)
    _ = (voicesBelow s.g.totalvc.val).length := List.countP_eq_length_filter
    _ = s.g.totalvc.val := length_voicesBelow _ s.g.totalvc.property.2

/-- A note-on leaves each sounding note sounding or counted as stolen: a voice that changes its note was stolen, and
that steal counts its old note (R319). -/
theorem NotedOn.sounding_or_counted {n : Fin 128} {vel : F32} {s t : State} {q : Nat} (h : NotedOn n vel s t q)
    (hcounts : ∀ k, (s.g.stolen.get k).toNat + 32 < 2 ^ 32) {i : Fin 32} (hi : (s.voices.get i).active = true) :
    ((t.voices.get i).active = true ∧ (t.voices.get i).note = (s.voices.get i).note) ∨
      0 < (t.g.stolen.get (noteEntry (s.voices.get i).note)).toNat := by
  cases hst : isStolen n s i with
  | false =>
    have hp : ¬isPlaced s i := fun hp => by
      rw [hp.1] at hi
      cases hi
    rw [h.kept i hst hp]
    exact .inl ⟨hi, rfl⟩
  | true =>
    right
    have hpos : 0 < (List.finRange 32).countP fun j =>
        isStolen n s j && decide (noteEntry (s.voices.get j).note = noteEntry (s.voices.get i).note) :=
      List.countP_pos_iff.2 ⟨i, List.mem_finRange i, by simp [hst]⟩
    have hlen : ((List.finRange 32).countP fun j =>
        isStolen n s j && decide (noteEntry (s.voices.get j).note = noteEntry (s.voices.get i).note)) ≤ 32 :=
      List.countP_le_length.trans (List.length_finRange).le
    have hfits := hcounts (noteEntry (s.voices.get i).note)
    rw [h.counts, BitVec.toNat_add, BitVec.toNat_ofNat, Nat.mod_eq_of_lt (a := List.countP _ _) (by omega),
      Nat.mod_eq_of_lt (by omega)]
    omega

/-! ### The statements -/

/-- Settles O25: one voice is needed and one is free, so that nothing is stolen and the allocation ends one past it. -/
theorem noteonTakesTheNextFreeVoice : Obligations.NoteonTakesTheNextFreeVoice := by
  intro s note channel vel k j hok huni hcursor hk hbusy hj hfree
  obtain rfl : j = s.queueVoice k := Fin.ext hj
  obtain ⟨q, h⟩ := setNoteOn_notedOn (noteOf note) vel hcursor
  have hneed := neededVoices_of_noUnison huni
  have hzero : s.freeUpTo k = 0 := freeUpTo_eq_zero fun m hm => hbusy m hm _ rfl
  have hone := freeUpTo_succ_of_inactive hfree
  have hend : s.freeUpTo (k + 1) ≤ s.freeUpTo s.g.totalvc.val := freeUpTo_mono s hk
  rw [← availVoices_eq_freeUpTo] at hend
  have hq : q = k + 1 := by
    have hplaced := h.placed
    rw [freeBefore_eq_freeUpTo] at hplaced
    rcases Nat.lt_trichotomy q (k + 1) with hlt | rfl | hgt
    · have : s.freeUpTo q ≤ s.freeUpTo k := freeUpTo_mono s (Nat.lt_succ_iff.1 hlt)
      omega
    · rfl
    · have := h.first _ hgt
      rw [freeBefore_eq_freeUpTo] at this
      omega
  have hplace : ∀ i, isPlaced s i ↔ i = s.queueVoice k := by
    intro i
    constructor
    · rintro ⟨hi, p, -, hip, hlt⟩
      obtain rfl : i = s.queueVoice p := Fin.ext hip
      rw [freeBefore_eq_freeUpTo] at hlt
      rcases Nat.lt_trichotomy p k with hpk | rfl | hpk
      · rw [hbusy p hpk _ rfl] at hi
        cases hi
      · rfl
      · have : s.freeUpTo (k + 1) ≤ s.freeUpTo p := freeUpTo_mono s hpk
        omega
    · rintro rfl
      refine ⟨hfree, k, hk, rfl, ?_⟩
      rw [freeBefore_eq_freeUpTo]
      omega
  have hle : neededVoices s ≤ availVoices s := by omega
  rw [exec_noteon hok, h.eq (stolen := s.g.stolen) (fun i => ?_) (h.counts_of_noShortfall hle), hq]
  · rfl
  · rw [Vec.get_set]
    split
    · next hi => rw [← hi]; exact h.taken _ (.inr ((hplace _).2 rfl))
    · next hi => exact h.kept i (isStolen_of_noShortfall hle i) fun hp => hi ((hplace i).1 hp).symm

/-- Settles O26: the one voice lacking is the one no other precedes, and the allocation has nothing left to do. -/
theorem noteonStealsTheOldestNote : Obligations.NoteonStealsTheOldestNote := by
  intro s note channel vel j hok huni hactive hj hold old
  obtain ⟨b, taken, h, hrest⟩ := setNoteOn_steals (noteOf note) vel s
  have hneed := neededVoices_of_noUnison huni
  have havail := availVoices_of_allActive hactive
  have hjmem : j ∈ taken := by
    have hzero : (s.recordAge (noteOf note)).stealRank j = 0 := by
      rw [State.stealRank, List.countP_eq_zero]
      intro i _ hi
      rw [Bool.and_eq_true, stealsFirst_iff, State.soundsBelow, Bool.and_eq_true, decide_eq_true_eq] at hi
      obtain ⟨⟨hi, -⟩, hfirst⟩ := hi
      have holder : ((s.recordAge (noteOf note)).noteAge j).toNat < ((s.recordAge (noteOf note)).noteAge i).toNat ∨
          ((s.recordAge (noteOf note)).noteAge j).toNat = ((s.recordAge (noteOf note)).noteAge i).toNat ∧
            j.val ≤ i.val := hold i hi
      omega
    rw [h.mem, isStolen_iff, hzero]
    refine ⟨?_, by omega⟩
    rw [State.soundsBelow, Bool.and_eq_true, decide_eq_true_eq]
    exact ⟨hj, hactive j hj⟩
  obtain ⟨i, rfl⟩ := List.length_eq_one_iff.1 (h.length.trans (by omega))
  obtain rfl := List.mem_singleton.1 hjmem
  rw [allocLoop_of_enough (by rw [hneed]; rfl)] at hrest
  have hvoices : b.voices = s.voices.set j (retriggered s.g.fsI (noteOf note) vel (s.voices.get j)) := by
    apply Vec.eq_of_get
    intro i
    rw [h.voices, Vec.get_set]
    by_cases hji : j = i
    · rw [if_pos hji, if_pos (List.mem_singleton.2 hji.symm), hji]
    · rw [if_neg hji, if_neg fun hi => hji (List.mem_singleton.1 hi).symm]
  have hstolen : b.g.stolen = s.g.stolen.set old (s.g.stolen.get old + 1#32) := by
    apply Vec.eq_of_get
    intro e
    rw [h.took.counts, Vec.get_set, List.countP_singleton]
    by_cases he : old = e
    · rw [if_pos he, if_pos (by exact decide_eq_true he), ← he]; rfl
    · rw [if_neg he, if_neg (by exact fun hd => he (of_decide_eq_true hd)), BitVec.add_zero]; rfl
  have hframe := h.frame
  rw [hvoices, hstolen] at hframe
  rw [exec_noteon hok, hrest, hframe]

/-- Settles O27: the general note-on, then one from idle, where position and free voices are the same number. -/
theorem noteonStealsTheShortfallAndTakesFreeVoices : Obligations.NoteonStealsTheShortfallAndTakesFreeVoices := by
  refine ⟨fun s note channel vel hok hcursor => ?general, fun s note channel vel hok huni hcursor hidle => ?idle⟩
  case general =>
    obtain ⟨q, h⟩ := setNoteOn_notedOn (noteOf note) vel hcursor
    exact ⟨_, q, exec_noteon hok channel, h.frame, ⟨h.round, h.placed, h.first⟩, fun i => ⟨h.taken i, h.kept i⟩,
      h.counts, countP_isStolen _ s⟩
  case idle =>
    obtain ⟨q, h⟩ := setNoteOn_notedOn (noteOf note) vel hcursor
    have havail := availVoices_of_allIdle hidle
    have hneed : neededVoices s = min s.g.univc.val s.g.totalvc.val := by simp [neededVoices, huni]
    have hle : neededVoices s ≤ availVoices s := by omega
    have hq : q = min s.g.univc.val s.g.totalvc.val := by
      have hplaced := h.placed
      rw [freeBefore_eq_freeUpTo, freeUpTo_of_allIdle hidle] at hplaced
      omega
    have hplace : ∀ i, isPlaced s i ↔ ∃ m < min s.g.univc.val s.g.totalvc.val, i.val = queueAt s m := by
      intro i
      constructor
      · rintro ⟨-, p, -, hi, hlt⟩
        rw [freeBefore_eq_freeUpTo, freeUpTo_of_allIdle hidle, hneed] at hlt
        exact ⟨p, hlt, hi⟩
      · rintro ⟨m, hm, hi⟩
        refine ⟨hidle i (hi ▸ Nat.mod_lt _ s.g.totalvc.property.1), m, by omega, hi, ?_⟩
        rwa [freeBefore_eq_freeUpTo, freeUpTo_of_allIdle hidle, hneed]
    refine ⟨_, exec_noteon hok channel, ?_, fun i => ?_⟩
    · rw [← hq]
      exact h.eq (fun _ => rfl) (h.counts_of_noShortfall hle)
    · split
      · next hi => exact h.taken i (.inr ((hplace i).2 hi))
      · next hi => exact h.kept i (isStolen_of_noShortfall hle i) fun hp => hi ((hplace i).1 hp)

/-- Settles O28: the invariant bounds the active voices; the notes are followed voice by voice. -/
theorem noteonConservesSoundingNotes : Obligations.NoteonConservesSoundingNotes := by
  intro s t note channel vel hinv hcounts ht
  refine ⟨((exec_case ht).inv hinv).countP_active_le, fun k hk => ?_⟩
  obtain ⟨i, hi, rfl⟩ := hk
  have hexec : exec (.noteon note channel vel) s = .next (checked (.noteon note channel vel)
      (noteRange note && unitRange vel) true (State.setNoteOn (noteOf note) vel) s) := rfl
  obtain rfl := Host.Outcome.next.inj (hexec.symm.trans ht)
  rcases checked_cases (.noteon note channel vel) (noteRange note && unitRange vel) true
    (State.setNoteOn (noteOf note) vel) s with ⟨-, -, e⟩ | ⟨-, -, -, e⟩ | ⟨-, e⟩
  · rw [e]
    obtain ⟨q, h⟩ := setNoteOn_notedOn (noteOf note) vel hinv.cursor
    exact (h.sounding_or_counted hcounts hi).imp_left fun hs => ⟨i, hs⟩
  · rw [e, raise_voices]
    exact .inl ⟨i, hi, rfl⟩
  · rw [e, raise_voices]
    exact .inl ⟨i, hi, rfl⟩

end Sys2Proof.Machine
end

