-- ==== Sys2Proof/Proofs/NoteOff.lean ====
section
/-! SUPPORT. What a note-off does (`46_scheduler.md` R313, R314, R320): the loop of R313 over pairs of voices and stolen
counts, each pass of which changes one voice and leaves it on another key or without its gate. -/

namespace Sys2Proof.Machine

open Sys2Proof.Claims

/-! ### The pending key (R314) -/

theorem ne_of_pendingAmong {n k : Fin 128} {age : Vec (BitVec 64) 129} {stolen : Vec (BitVec 32) 129}
    (h : pendingAmong n age stolen = some k) : k ≠ n := by
  have hk := List.find?_some h
  simp only [Bool.and_eq_true, decide_eq_true_eq] at hk
  exact hk.1.1

theorem pendingAmong_eq_none {n : Fin 128} {age : Vec (BitVec 64) 129} {stolen : Vec (BitVec 32) 129}
    (h : ∀ k : Fin 128, k ≠ n → stolen.get (noteEntry k) = 0#32) : pendingAmong n age stolen = none := by
  refine List.find?_eq_none.2 fun k _ hk => ?_
  simp only [Bool.and_eq_true, decide_eq_true_eq] at hk
  obtain ⟨⟨hkn, hpos⟩, -⟩ := hk
  rw [h k hkn] at hpos
  exact absurd hpos (by decide)

/-- The pending key is the pending one of largest age, of several the lowest (log 23). -/
theorem pendingAmong_eq_some {n k : Fin 128} {age : Vec (BitVec 64) 129} {stolen : Vec (BitVec 32) 129} (hk : k ≠ n)
    (hpos : 0 < (stolen.get (noteEntry k)).toNat)
    (hlatest : ∀ j : Fin 128, j ≠ n → 0 < (stolen.get (noteEntry j)).toNat →
      (age.get (noteEntry j)).toNat ≤ (age.get (noteEntry k)).toNat ∧
        (j < k → (age.get (noteEntry j)).toNat < (age.get (noteEntry k)).toNat)) :
    pendingAmong n age stolen = some k := by
  unfold pendingAmong
  rw [← List.ofFn_id]
  refine (List.find?_ofFn_eq_some_of_injective (f := id) Function.injective_id (i := k)).2 ⟨?_, fun j hjk hj => ?_⟩
  · simp only [id, Bool.and_eq_true, Bool.or_eq_true, Bool.not_eq_true', decide_eq_true_eq, decide_eq_false_iff_not,
      List.all_eq_true]
    exact ⟨⟨hk, hpos⟩, fun j _ => or_iff_not_imp_left.2 fun hj => (hlatest j (not_not.1 hj).1 (not_not.1 hj).2).1⟩
  · simp only [id, Bool.and_eq_true, Bool.or_eq_true, Bool.not_eq_true', decide_eq_true_eq, decide_eq_false_iff_not,
      List.all_eq_true, List.ofFn_id] at hj
    obtain ⟨⟨hjn, hjpos⟩, hall⟩ := hj
    have hlt := (hlatest j hjn hjpos).2 hjk
    rcases hall k (List.mem_finRange k) with hno | hle
    · exact hno ⟨hk, hpos⟩
    · omega

theorem pendingKey_eq_pendingAmong (s : State) (n : Fin 128) :
    s.pendingKey n = pendingAmong n s.g.voiceAge s.g.stolen := by
  cases h : s.pendingKey n with
  | none => exact (pendingAmong_eq_none (pendingKey_none.1 h)).symm
  | some k =>
    obtain ⟨hk, hpos⟩ := pendingKey_some h
    exact (pendingAmong_eq_some hk hpos fun j => pendingKey_latest h).symm

/-! ### One pass of the loop (R313) -/

/-- The voice is gated on the note. -/
abbrev Voice.GatedOn (n : Fin 128) (v : Voice) : Prop := v.gate = true ∧ v.note = n

section

variable {n : Fin 128} {g : Global} {a : Vec Voice 32 × Vec (BitVec 32) 129} {i : Fin 32}

theorem freed_of_notGated (h : ¬(a.1.get i).GatedOn n) : freed n g a i = a := if_neg h

theorem freed_of_pending {k : Fin 128} (h : (a.1.get i).GatedOn n) (hk : pendingAmong n g.voiceAge a.2 = some k) :
    freed n g a i =
      (a.1.set i (retriggered g.fsI k velKeep (a.1.get i)), a.2.set (noteEntry k) (a.2.get (noteEntry k) - 1#32)) := by
  unfold freed
  dsimp only
  rw [if_pos h, hk]

theorem freed_of_noPending (h : (a.1.get i).GatedOn n) (hk : pendingAmong n g.voiceAge a.2 = none) :
    freed n g a i = (a.1.set i (keyUp g.fsI (a.1.get i)), a.2) := by
  unfold freed
  dsimp only
  rw [if_pos h, hk]

theorem not_gatedOn_keyUp (fsI : F32) (v : Voice) : ¬(keyUp fsI v).GatedOn n := fun h => by
  have hgate := h.1
  rw [← Voice.noteOff_eq_keyUp, Voice.noteOff_gate] at hgate
  cases hgate

theorem freed_get_of_ne {j : Fin 32} (h : i ≠ j) : (freed n g a i).1.get j = a.1.get j := by
  by_cases hg : (a.1.get i).GatedOn n
  · cases hk : pendingAmong n g.voiceAge a.2 with
    | some k => rw [freed_of_pending hg hk, Vec.get_set_ne _ _ h]
    | none => rw [freed_of_noPending hg hk, Vec.get_set_ne _ _ h]
  · rw [freed_of_notGated hg]

theorem freed_not_gatedOn : ¬((freed n g a i).1.get i).GatedOn n := by
  by_cases hg : (a.1.get i).GatedOn n
  · cases hk : pendingAmong n g.voiceAge a.2 with
    | some k =>
      rw [freed_of_pending hg hk, Vec.get_set_same]
      exact fun h => ne_of_pendingAmong hk h.2
    | none =>
      rw [freed_of_noPending hg hk, Vec.get_set_same]
      exact not_gatedOn_keyUp _ _
  · rwa [freed_of_notGated hg]

end

/-! ### The loop -/

section

variable {n : Fin 128} {g : Global} {i : Fin 32}

/-- The loop leaves the voices it does not visit. -/
theorem foldl_freed_get_of_notMem {l : List (Fin 32)} (h : i ∉ l) (a : Vec Voice 32 × Vec (BitVec 32) 129) :
    (l.foldl (freed n g) a).1.get i = a.1.get i := by
  induction l generalizing a with
  | nil => rfl
  | cons j l ih =>
    have hji : j ≠ i := fun e => h (e ▸ List.mem_cons_self)
    rw [List.foldl_cons, ih fun hm => h (List.mem_cons_of_mem _ hm), freed_get_of_ne hji]

/-- The loop leaves no voice it visits gated on the note. -/
theorem foldl_freed_not_gatedOn {l : List (Fin 32)} (h : i ∈ l) (a : Vec Voice 32 × Vec (BitVec 32) 129) :
    ¬((l.foldl (freed n g) a).1.get i).GatedOn n := by
  induction l generalizing a with
  | nil => cases h
  | cons j l ih =>
    rw [List.foldl_cons]
    by_cases hil : i ∈ l
    · exact ih hil _
    · obtain rfl := (List.mem_cons.1 h).resolve_right hil
      rw [foldl_freed_get_of_notMem hil]
      exact freed_not_gatedOn

/-- Where no voice is gated on the note the loop does nothing. -/
theorem foldl_freed_of_notGated {l : List (Fin 32)} {a : Vec Voice 32 × Vec (BitVec 32) 129}
    (h : ∀ m ∈ l, ¬(a.1.get m).GatedOn n) : l.foldl (freed n g) a = a := by
  induction l with
  | nil => rfl
  | cons j l ih =>
    rw [List.foldl_cons, freed_of_notGated (h j List.mem_cons_self), ih fun m hm => h m (List.mem_cons_of_mem _ hm)]

/-- Where one voice alone is gated on the note the loop is the pass over that voice. -/
theorem foldl_freed_of_one {l : List (Fin 32)} {a : Vec Voice 32 × Vec (BitVec 32) 129} (hn : l.Nodup) (hi : i ∈ l)
    (h : ∀ m ∈ l, m ≠ i → ¬(a.1.get m).GatedOn n) : l.foldl (freed n g) a = freed n g a i := by
  induction l with
  | nil => cases hi
  | cons j l ih =>
    obtain ⟨hj, hn⟩ := List.nodup_cons.1 hn
    rw [List.foldl_cons]
    by_cases hji : j = i
    · subst hji
      refine foldl_freed_of_notGated fun m hm => ?_
      have hne : m ≠ j := fun e => hj (e ▸ hm)
      rw [freed_get_of_ne hne.symm]
      exact h m (List.mem_cons_of_mem _ hm) hne
    · rw [freed_of_notGated (h j List.mem_cons_self hji)]
      exact ih hn ((List.mem_cons.1 hi).resolve_left (Ne.symm hji)) fun m hm => h m (List.mem_cons_of_mem _ hm)

/-- With no pending key the loop releases the voices gated on the note and keeps the counts. -/
theorem foldl_freed_of_noPending (l : List (Fin 32)) {a : Vec Voice 32 × Vec (BitVec 32) 129}
    (h : pendingAmong n g.voiceAge a.2 = none) :
    (l.foldl (freed n g) a).2 = a.2 ∧
      ∀ i, (l.foldl (freed n g) a).1.get i =
        if i ∈ l ∧ (a.1.get i).GatedOn n then keyUp g.fsI (a.1.get i) else a.1.get i := by
  induction l generalizing a with
  | nil => exact ⟨rfl, fun i => (if_neg fun hi => List.not_mem_nil hi.1).symm⟩
  | cons j l ih =>
    rw [List.foldl_cons]
    by_cases hg : (a.1.get j).GatedOn n
    · rw [freed_of_noPending hg h]
      obtain ⟨hcounts, hvoices⟩ := ih (a := (a.1.set j (keyUp g.fsI (a.1.get j)), a.2)) h
      refine ⟨hcounts, fun i => ?_⟩
      rw [hvoices]
      by_cases hij : j = i
      · subst hij
        rw [Vec.get_set_same, if_neg fun hi => not_gatedOn_keyUp _ _ hi.2, if_pos ⟨List.mem_cons_self, hg⟩]
      · rw [Vec.get_set_ne _ _ hij]
        simp [Ne.symm hij]
    · rw [freed_of_notGated hg]
      obtain ⟨hcounts, hvoices⟩ := ih h
      refine ⟨hcounts, fun i => ?_⟩
      rw [hvoices]
      refine if_congr (and_congr_left fun hi => ?_) rfl rfl
      have hij : i ≠ j := fun e => hg (e ▸ hi)
      simp [hij]

end

/-! ### A whole note-off -/

/-- The state with the voices and the stolen counts of a pair. -/
def State.withFreed (s : State) (a : Vec Voice 32 × Vec (BitVec 32) 129) : State :=
  { s with voices := a.1, g := { s.g with stolen := a.2 } }

/-- One pass of the model's loop is one pass of the statement's (R313). -/
theorem noteOffVoice_withFreed (n : Fin 128) (s : State) (a : Vec Voice 32 × Vec (BitVec 32) 129) (i : Fin 32) :
    (s.withFreed a).noteOffVoice n i = s.withFreed (freed n s.g a i) := by
  have hpending : (s.withFreed a).pendingKey n = pendingAmong n s.g.voiceAge a.2 :=
    pendingKey_eq_pendingAmong (s.withFreed a) n
  rcases noteOffVoice_cases n (s.withFreed a) i with ⟨k, hgate, hnote, hk, e⟩ | ⟨hgate, hnote, hk, e⟩ | ⟨hno, e⟩
  · rw [e, freed_of_pending ⟨hgate, hnote⟩ (hpending.symm.trans hk), ← Voice.noteOn_eq_retriggered]
    rfl
  · rw [e, freed_of_noPending ⟨hgate, hnote⟩ (hpending.symm.trans hk), ← Voice.noteOff_eq_keyUp]
    rfl
  · rw [e, freed_of_notGated hno]

/-- A note-off is the loop of R313 over the voices below the polyphony, then the clearing of the note's own count. -/
theorem setNoteOff_eq (n : Fin 128) (s : State) :
    s.setNoteOff n =
      let r := (voicesBelow s.g.totalvc.val).foldl (freed n s.g) (s.voices, s.g.stolen)
      { s with voices := r.1, g := { s.g with stolen := r.2.set (noteEntry n) 0#32 } } := by
  have hloop := List.foldl_hom s.withFreed (init := (s.voices, s.g.stolen)) (l := voicesBelow s.g.totalvc.val)
    (noteOffVoice_withFreed n s)
  rw [State.setNoteOff, show s = s.withFreed (s.voices, s.g.stolen) from rfl]
  exact congrArg (State.mapStolen n fun _ => 0#32) hloop

/-! ### The statements -/

/-- Settles O30. -/
theorem noteoffWithNoPendingKeyReleases : Obligations.NoteoffWithNoPendingKeyReleases := by
  intro s note channel vel hok hstolen
  obtain ⟨hcounts, hvoices⟩ := foldl_freed_of_noPending (a := (s.voices, s.g.stolen)) (voicesBelow s.g.totalvc.val)
    (pendingAmong_eq_none (age := s.g.voiceAge) hstolen)
  refine ⟨_, exec_noteoff hok channel, ?_, fun i => ?_⟩
  · rw [setNoteOff_eq]
    dsimp only
    rw [hcounts]
  · rw [setNoteOff_eq]
    refine (hvoices i).trans ?_
    simp only [mem_voicesBelow]

theorem nodup_voicesBelow (n : Nat) : (voicesBelow n).Nodup := (List.nodup_finRange 32).filter _

/-- Settles O31: the loop as it stands, then its one pass that does something. -/
theorem noteoffGivesTheVoiceToThePendingKey : Obligations.NoteoffGivesTheVoiceToThePendingKey := by
  refine ⟨fun s note channel vel hok => ?loop, fun s note channel vel i k hok hi hgated hk hpos hlatest => ?one⟩
  case loop =>
    exact (exec_noteoff hok channel).trans (congrArg Host.Outcome.next (setNoteOff_eq _ s))
  case one =>
    have hkey : pendingAmong (noteOf note) s.g.voiceAge s.g.stolen = some k := by
      refine pendingAmong_eq_some hk hpos fun j hj hjpos => ?_
      by_cases hjk : j = k
      · subst hjk
        exact ⟨le_rfl, fun h => absurd h (lt_irrefl _)⟩
      · exact ⟨(hlatest j hj hjk hjpos).le, fun _ => hlatest j hj hjk hjpos⟩
    have hloop : (voicesBelow s.g.totalvc.val).foldl (freed (noteOf note) s.g) (s.voices, s.g.stolen) =
        freed (noteOf note) s.g (s.voices, s.g.stolen) i :=
      foldl_freed_of_one (nodup_voicesBelow _) ((mem_voicesBelow _ _).2 hi) fun m hm hne hg =>
        hne ((hgated m ((mem_voicesBelow _ _).1 hm)).1 hg)
    have hg : (s.voices.get i).GatedOn (noteOf note) := (hgated i hi).2 rfl
    rw [exec_noteoff hok, setNoteOff_eq, hloop, freed_of_pending hg hkey]

/-- Settles O33: the loop visits every voice below the polyphony and no other. -/
theorem noteoffLeavesNoVoiceGatedOnTheKey : Obligations.NoteoffLeavesNoVoiceGatedOnTheKey := by
  intro s note channel vel hok
  refine ⟨_, exec_noteoff hok channel, ?_⟩
  rw [setNoteOff_eq]
  refine ⟨rfl, Vec.get_set_same _ _ _, fun i => ⟨fun hi => ?_, fun hi => ?_⟩⟩
  · exact foldl_freed_not_gatedOn ((mem_voicesBelow _ _).2 hi) _
  · exact foldl_freed_get_of_notMem (fun h => absurd ((mem_voicesBelow _ _).1 h) (by omega)) _

/-! ### A stolen voice returns (R320) -/

/-- No velocity is the sentinel, which is negative (R271). -/
theorem feq_velKeep_of_unitRange {w : F32} (h : unitRange w = true) : feq w velKeep = false := by
  have hzero : fkey f0 = 0 := by decide
  have hkeep : fkey velKeep < 0 := by decide
  rw [unitRange, Bool.and_eq_true, fle_iff] at h
  obtain ⟨⟨-, -, hle⟩, -⟩ := h
  rw [feq, Bool.and_eq_false_iff, decide_eq_false_iff_not]
  omega

theorem feq_velKeep_self : feq velKeep velKeep = true := by decide

theorem noteOf_ne {a b : BitVec 8} (ha : a.toNat ≤ 127) (hb : b.toNat ≤ 127) (h : a ≠ b) : noteOf a ≠ noteOf b := by
  intro e
  have hval : a.toNat % 128 = b.toNat % 128 := congrArg Fin.val e
  exact h (BitVec.eq_of_toNat_eq (by omega))

theorem noteEntry_injective : Function.Injective noteEntry := fun a b h =>
  Fin.ext (show (noteEntry a).val = (noteEntry b).val from congrArg Fin.val h)

/-- A configured state at polyphony 1 with unison off, by its one voice and its stolen counts. -/
structure SoleVoice (s : State) (v : Voice) (stolen : Vec (BitVec 32) 129) : Prop where
  configured : s.configured = true
  totalvc : s.g.totalvc.val = 1
  uni : s.g.uni = false
  voice : s.voices.get 0 = v
  stolen : s.g.stolen = stolen

section

variable {s : State} {v : Voice} {stolen : Vec (BitVec 32) 129} (h : SoleVoice s v stolen)

include h

theorem SoleVoice.eq_zero {i : Fin 32} (hi : i.val < s.g.totalvc.val) : i = 0 :=
  Fin.ext (by rw [h.totalvc] at hi; exact Nat.lt_one_iff.1 hi)

/-- A note-on takes the one voice when it is idle. -/
theorem SoleVoice.noteon_idle {n : BitVec 8} {vel : F32} (hok : NoteOk s n vel) (c : BitVec 8) (hcursor : s.g.vqIdx = 0)
    (hidle : v.active = false) :
    ∃ t, exec (.noteon n c vel) s = .next t ∧ SoleVoice t (retriggered s.g.fsI (noteOf n) vel v) stolen := by
  obtain ⟨hcfg, hvc, huni, rfl, rfl⟩ := h
  refine ⟨_, noteonTakesTheNextFreeVoice s n c vel 0 0 hok huni (by rw [hcursor, hvc]; decide) (by omega)
    (fun m hm => absurd hm (Nat.not_lt_zero m)) (by rw [queueAt, hcursor, hvc]; rfl) hidle, ?_⟩
  exact ⟨hcfg, hvc, huni, Vec.get_set_same _ _ _, rfl⟩

/-- A note-on steals the one voice when it sounds. -/
theorem SoleVoice.noteon_steal {n : BitVec 8} {vel : F32} (hok : NoteOk s n vel) (c : BitVec 8)
    (hactive : v.active = true) :
    ∃ t, exec (.noteon n c vel) s = .next t ∧
      SoleVoice t (retriggered s.g.fsI (noteOf n) vel v)
        (stolen.set (noteEntry v.note) (stolen.get (noteEntry v.note) + 1#32)) := by
  have hzero {i : Fin 32} (hi : i.val < s.g.totalvc.val) : i = 0 := h.eq_zero hi
  have hlt : (0 : Fin 32).val < s.g.totalvc.val := s.g.totalvc.property.1
  obtain ⟨hcfg, hvc, huni, rfl, rfl⟩ := h
  refine ⟨_, noteonStealsTheOldestNote s n c vel 0 hok huni (fun i hi => ?_) hlt (fun i hi => ?_), ?_⟩
  · rw [hzero hi]; exact hactive
  · rw [hzero hi]; exact .inr ⟨rfl, le_rfl⟩
  · exact ⟨hcfg, hvc, huni, Vec.get_set_same _ _ _, rfl⟩

/-- A note-off of the one voice's key gives the voice to the one pending key. -/
theorem SoleVoice.noteoff_pending {n : BitVec 8} {vel : F32} (hok : NoteOk s n vel) (c : BitVec 8)
    (hgated : v.GatedOn (noteOf n)) {k : Fin 128} (hk : k ≠ noteOf n) (hpos : 0 < (stolen.get (noteEntry k)).toNat)
    (hother : ∀ m : Fin 128, m ≠ k → stolen.get (noteEntry m) = 0#32) :
    ∃ t, exec (.noteoff n c vel) s = .next t ∧
      SoleVoice t (retriggered s.g.fsI k velKeep v)
        ((stolen.set (noteEntry k) (stolen.get (noteEntry k) - 1#32)).set (noteEntry (noteOf n)) 0#32) := by
  have hzero {i : Fin 32} (hi : i.val < s.g.totalvc.val) : i = 0 := h.eq_zero hi
  have hlt : (0 : Fin 32).val < s.g.totalvc.val := s.g.totalvc.property.1
  obtain ⟨hcfg, hvc, huni, rfl, rfl⟩ := h
  refine ⟨_, noteoffGivesTheVoiceToThePendingKey.2 s n c vel 0 k hok hlt (fun m hm => ?_) hk hpos
    (fun m _ hmk hmpos => ?_), ?_⟩
  · rw [hzero hm]
    exact ⟨fun _ => rfl, fun _ => hgated⟩
  · rw [hother m hmk] at hmpos
    exact absurd hmpos (by decide)
  · exact ⟨hcfg, hvc, huni, Vec.get_set_same _ _ _, rfl⟩

end

/-- A voice returned to a key with the sentinel keeps the velocity it had. -/
theorem retriggered_velKeep_velocity (fsI : F32) (n : Fin 128) (v : Voice) :
    (retriggered fsI n velKeep v).velocity = v.velocity :=
  show (if feq velKeep velKeep then v.velocity else velKeep) = _ from if_pos feq_velKeep_self

theorem retriggered_velocity {w : F32} (hw : unitRange w = true) (fsI : F32) (n : Fin 128) (v : Voice) :
    (retriggered fsI n w v).velocity = w :=
  show (if feq w velKeep then v.velocity else w) = _ from if_neg (by rw [feq_velKeep_of_unitRange hw]; decide)

/-- Settles O32: the first note-on takes the idle voice, the second steals it, the note-off gives it back. -/
theorem stolenVoiceReturnsToItsKey : Obligations.StolenVoiceReturnsToItsKey := by
  rintro s a b c1 c2 c3 v w x ⟨hcfg, ha, hv⟩ ⟨-, hb, hw⟩ hx hab hvc huni hcursor hidle hzero
  have hne : noteOf a ≠ noteOf b := noteOf_ne ha hb hab
  have hentry {m k : Fin 128} (hmk : m ≠ k) : noteEntry m ≠ noteEntry k := fun e => hmk (noteEntry_injective e)
  obtain ⟨s1, h1, sole1⟩ := SoleVoice.noteon_idle ⟨hcfg, hvc, huni, rfl, rfl⟩ ⟨hcfg, ha, hv⟩ c1 hcursor hidle
  obtain ⟨s2, h2, sole2⟩ := sole1.noteon_steal ⟨sole1.configured, hb, hw⟩ c2 rfl
  have hcount : s2.g.stolen = s.g.stolen.set (noteEntry (noteOf a)) 1#32 := by
    rw [sole2.stolen, hzero]
    rfl
  obtain ⟨s3, h3, sole3⟩ := SoleVoice.noteoff_pending ⟨sole2.configured, sole2.totalvc, sole2.uni, sole2.voice, hcount⟩
    ⟨sole2.configured, hb, hx⟩ c3 ⟨rfl, rfl⟩ hne (by rw [Vec.get_set_same]; decide)
    (fun m hm => by rw [Vec.get_set_ne _ _ (hentry hm.symm), hzero])
  refine ⟨s1, s2, s3, h1, h2, h3, ?_, ?_, ?_, ?_, ?_, ?_, ?_, ?_⟩
  · rw [sole2.voice]; rfl
  · rw [hcount, Vec.get_set_same]
  · rw [sole3.voice]; rfl
  · rw [sole3.voice, retriggered_velKeep_velocity, retriggered_velocity hw]
  · rw [sole3.voice]; rfl
  · rw [sole3.voice]; rfl
  · rw [sole3.stolen, Vec.get_set_ne _ _ (hentry hne.symm), Vec.get_set_same, Vec.get_set_same]; rfl
  · rw [sole3.stolen, Vec.get_set_same]

end Sys2Proof.Machine
end

