-- ==== Sys2Proof/Proofs/Panic.lean ====
section
/-! SUPPORT. The pedal and the panic commands (`46_scheduler.md` R315; `47_commands_system_notes.md` R347 to R350):
words of format N, whose operands must all be zero, and one change of all 32 voices. -/

namespace Sys2Proof

theorem fieldOP_append (op : BitVec 8) (x : BitVec 56) : fieldOP (op ++ x) = op := BitVec.extractLsb'_append_eq_left

/-- If the operand fields under an opcode are zero, so are the 56 bits they fill. -/
theorem eq_zero_of_zeroFields {op : BitVec 8} {x : BitVec 56} {i : Instr} (h : (Row.n i).ZeroFields (op ++ x)) :
    x = 0#56 := by
  obtain ⟨ha, hb, hz, hv⟩ := h
  have hword : op ++ x = op ++ 0#56 := by
    rw [append_zero_eq_pack]
    exact eq_pack_iff.2 ⟨fieldOP_append op x, ha, hb, hz, hv⟩
  calc x = (op ++ x).setWidth 56 := BitVec.setWidth_append_eq_right.symm
    _ = (op ++ 0#56).setWidth 56 := by rw [hword]
    _ = 0#56 := BitVec.setWidth_append_eq_right

/-- A word of format N with an operand bit set is refused (R102). -/
theorem decode_append_of_ne_zero {op : BitVec 8} {i : Instr} (h : opcodeRow op.toNat = some (.n i)) {x : BitVec 56}
    (hx : x ≠ 0#56) : decode (op ++ x) = .error .nonzeroField := by
  refine decode_of_unread (row := .n i) (by rw [fieldOP_append]; exact h) ?_
  cases hread : (Row.n i).read (op ++ x) with
  | none => rfl
  | some j => exact absurd (eq_zero_of_zeroFields (Row.exists_read_iff.1 ⟨j, hread⟩)) hx

end Sys2Proof

namespace Sys2Proof.Machine

open Sys2Proof.Claims

theorem faulted_notConfigured (w : CmdWord) (s : State) : raise .notConfigured w s = faulted 3#8 w s := raise_eq _ _ _

theorem configuredCommand_unconfigured {i : Instr} {op : State → State} {s : State} (h : s.configured = false) :
    configuredCommand i true op s = .next (faulted 3#8 (encode i) s) := by
  rw [← faulted_notConfigured]
  simp [configuredCommand, checked, h]

/-- The clearing of the 128 pending counts, entry by entry. -/
theorem clearStolen_get (t : Vec (BitVec 32) 129) (k : Fin 129) :
    (clearStolen t).get k = if k.val < 128 then 0#32 else t.get k := Vec.get_mapIdx _ _ _

theorem Env.toSilent_triggerRelease (c : EnvCtx) (e : Env) : (e.triggerRelease c).toSilent = silenced e := by
  unfold Env.triggerRelease
  split <;> rfl

/-- The panic step after a note-off silences the envelopes whether or not the note-off released them (R205, R315). -/
theorem Voice.noteOff_kill (fsI : F32) (v : Voice) :
    (v.noteOff fsI).kill =
      { v with gate := false, active := false, ampEnv := silenced v.ampEnv, fltEnv := silenced v.fltEnv } := by
  rw [Voice.noteOff_eq_keyUp]
  unfold keyUp
  split
  · rfl
  · show { v with gate := false, active := false, ampEnv := (v.ampEnv.triggerRelease _).toSilent,
                  fltEnv := (v.fltEnv.triggerRelease _).toSilent } = _
    rw [Env.toSilent_triggerRelease, Env.toSilent_triggerRelease]

/-- Settles O34: the words, then each command under its check. -/
theorem pedalAndPanicCommandsReachAllVoices : Obligations.PedalAndPanicCommandsReachAllVoices := by
  intro s
  refine ⟨fun op hop x hx => ?zeroFields, fun hcfg => ?unconfigured, fun hcfg => ?configured⟩
  case zeroFields =>
    simp only [List.mem_cons, List.not_mem_nil, or_false] at hop
    rcases hop with rfl | rfl | rfl | rfl <;> exact decode_append_of_ne_zero rfl hx
  case unconfigured =>
    exact ⟨configuredCommand_unconfigured hcfg, configuredCommand_unconfigured hcfg,
      configuredCommand_unconfigured hcfg, configuredCommand_unconfigured hcfg⟩
  case configured =>
    refine ⟨configuredCommand_accepted rfl hcfg, configuredCommand_accepted rfl hcfg,
      ⟨s.allNotesOff, configuredCommand_accepted rfl hcfg, rfl, clearStolen_get _⟩,
      ⟨s.allSoundOff, configuredCommand_accepted rfl hcfg, ?_, clearStolen_get _⟩⟩
    have hvoices : s.allSoundOff.voices = s.voices.map fun v =>
        { v with gate := false, active := false, ampEnv := silenced v.ampEnv, fltEnv := silenced v.fltEnv } := by
      apply Vec.eq_of_get
      intro i
      rw [State.allSoundOff_voices, Vec.get_map, Vec.get_map, Vec.get_map, Voice.noteOff_kill]
    rw [← hvoices]
    rfl

end Sys2Proof.Machine
end

