-- ==== Sys2Proof/Proofs/Tick.lean ====
section
/-! SUPPORT. The tick (`46_scheduler.md` R316 to R318): a half-sample is one pass over the voices in queue order, a tick
one half-sample or two; and what a tick of idle voices leaves. -/

namespace Sys2Proof.Machine

open Sys2Proof.Claims

/-! ### One pass over the voices -/

/-- The running sums with the cursor at a voice. -/
def Mix.ofPass (idx : Fin 32) (a : Pass) : Mix := ⟨a.voices, idx, a.draws, a.l, a.r⟩

theorem ofNat_eq_panSlot (i : Fin 32) : Fin.ofNat 8 (i.val % 8) = panSlot i := Fin.ext (Nat.mod_mod _ _)

theorem queueStep_ofPass (c : VoiceCtx) (pan : Vec F32 8) (count : VoiceCount) (i : Fin 32) (a : Pass) :
    (Mix.ofPass i a).queueStep c pan count = (serveVoice c pan i a).map (Mix.ofPass (vqNext count i)) := by
  unfold Mix.queueStep serveVoice
  dsimp only [Mix.ofPass]
  rw [ofNat_eq_panSlot]
  split_ifs
  · cases (a.voices.get i).processSample c a.draws <;> rfl
  · rfl

/-- The run over the queue from position `p` serves the voices at the positions from there on. -/
theorem runVoices_eq_serve (s : State) (c : VoiceCtx) (pan : Vec F32 8) (k p : Nat) (a : Pass) :
    runVoices c pan s.g.totalvc k (Mix.ofPass (s.queueVoice p) a) =
      (serve c pan ((List.range' p k).map s.queueVoice) a).map (Mix.ofPass (s.queueVoice (p + k))) := by
  induction k generalizing p a with
  | zero => rfl
  | succ k ih =>
    rw [runVoices, queueStep_ofPass, queueVoice_succ, List.range'_succ, List.map_cons, serve]
    cases serveVoice c pan (s.queueVoice p) a with
    | error e => rfl
    | ok b =>
      rw [show p + (k + 1) = p + 1 + k by omega]
      exact ih (p + 1) b

theorem queueOrder_eq (s : State) : queueOrder s = (List.range' 0 s.g.totalvc.val).map s.queueVoice := by
  unfold queueOrder
  simp only [ofNat_queueAt, List.range_eq_range']

/-- A round of the queue ends where it began. -/
theorem queueVoice_round {s : State} (h : s.g.vqIdx.val < s.g.totalvc.val) :
    s.queueVoice s.g.totalvc.val = s.g.vqIdx :=
  Fin.ext ((Nat.add_mod_right _ _).trans (Nat.mod_eq_of_lt h))

/-- What a half-sample's pass starts from. -/
def State.passStart (s : State) : Pass := ⟨s.voices, s.mixStart.draws, f0, f0⟩

/-- The state and the sums after a half-sample whose pass has ended in `a`. -/
def State.afterPass (s : State) (a : Pass) : State × F32 × F32 :=
  let L := s.g.lfo1.update s.g.fsI s.g.bpm s.draws
  let W := s.g.vib.update s.g.fsI s.g.bpm L.draws
  ({ s with voices := a.voices, draws := a.draws, g := { s.g with lfo1 := L.lfo, vib := W.lfo } }, a.l, a.r)

theorem halfTick_eq (amt : F32) (s : State) :
    halfTick amt s = (serve (s.voiceCtx amt) s.g.pan (queueOrder s) s.passStart).map s.afterPass := by
  unfold halfTick
  dsimp only
  split
  · next e he => rw [show serve (s.voiceCtx amt) s.g.pan (queueOrder s) s.passStart = .error e from he]; rfl
  · next a ha => rw [show serve (s.voiceCtx amt) s.g.pan (queueOrder s) s.passStart = .ok a from ha]; rfl

/-- A half-sample is the statement's pass, with the cursor back where it was (R316). -/
theorem halfSample_eq_halfTick {s : State} (h : s.g.vqIdx.val < s.g.totalvc.val) (amt : F32) :
    s.halfSample amt = (halfTick amt s).map fun r => ⟨r.1, r.2.1, r.2.2⟩ := by
  have hrun := runVoices_eq_serve s (s.voiceCtx amt) s.g.pan s.g.totalvc.val 0 s.passStart
  rw [queueVoice_zero h, Nat.zero_add, queueVoice_round h, ← queueOrder_eq] at hrun
  rw [halfSample_eq, halfTick_eq, show s.mixStart = Mix.ofPass s.g.vqIdx s.passStart from rfl, hrun]
  cases serve (s.voiceCtx amt) s.g.pan (queueOrder s) s.passStart with
  | error e => rfl
  | ok a => rfl

theorem smooth_eq_smoothedState (s : State) : s.smooth = smoothedState s := rfl

/-- What one half-sample of the statement writes. -/
theorem halfTick_frame {amt : F32} {s t : State} {l r : F32} (h : halfTick amt s = .ok (t, l, r)) :
    t = { s with
      voices := t.voices, draws := t.draws, g := { s.g with lfo1 := t.g.lfo1, vib := t.g.vib } } := by
  rw [halfTick_eq] at h
  cases hpass : serve (s.voiceCtx amt) s.g.pan (queueOrder s) s.passStart with
  | error e => rw [hpass] at h; cases h
  | ok a => rw [hpass] at h; cases h; rfl

theorem exec_tick {s : State} (h : s.configured = true) :
    exec .tick s = match s.tick with
      | .ok t => .next t
      | .error e => .fault e := if_pos h

/-! ### The tick as a pass in queue order -/

theorem lt_totalvc_of_mem_queueOrder {s : State} {i : Fin 32} (h : i ∈ queueOrder s) : i.val < s.g.totalvc.val := by
  rw [queueOrder_eq, List.mem_map] at h
  obtain ⟨k, -, rfl⟩ := h
  exact Nat.mod_lt _ s.g.totalvc.property.1

theorem queueOrder_of_one {s : State} (hvc : s.g.totalvc.val = 1) (hcursor : s.g.vqIdx = 0) : queueOrder s = [0] := by
  have h0 : s.queueVoice 0 = 0 := (queueVoice_zero (by rw [hcursor, hvc]; decide)).trans hcursor
  rw [queueOrder_eq, hvc, List.range'_one, List.map_singleton, h0]

/-- At polyphony 1, without oversampling, a half-sample with the one voice sounding is that voice's sample step. -/
theorem halfTick_of_one {s : State} (hvc : s.g.totalvc.val = 1) (hcursor : s.g.vqIdx = 0)
    (hactive : (s.voices.get 0).active = true) (hover : s.g.oversample = false) (amt : F32) :
    let L := s.g.lfo1.update s.g.fs s.g.bpm s.draws
    let W := s.g.vib.update s.g.fs s.g.bpm L.draws
    let c : VoiceCtx :=
      { fsI := s.g.fs, oversample := false, bpm := s.g.bpm, tuning := s.tuning, lfo1 := L.y, vib := fmul W.y amt }
    let gains := Config.lawPan (s.g.pan.get 0)
    halfTick amt s = ((s.voices.get 0).processSample c W.draws).map fun o =>
      ({ s with voices := s.voices.set 0 o.voice, draws := o.draws, g := { s.g with lfo1 := L.lfo, vib := W.lfo } },
        fadd 0#32 (fmul o.out gains.1), fadd 0#32 (fmul o.out gains.2)) := by
  intro L W c gains
  have hrate : rateOf s.g.oversample s.g.fs = s.g.fs := by rw [hover]; rfl
  unfold halfTick
  dsimp only
  rw [queueOrder_of_one hvc hcursor, hrate, serve, serveVoice, if_pos hactive, hover]
  cases (s.voices.get 0).processSample c W.draws with
  | error e => rfl
  | ok o => rfl

theorem smoothedState_active (s : State) (i : Fin 32) :
    ((smoothedState s).voices.get i).active = (s.voices.get i).active := by
  rw [← smooth_eq_smoothedState, State.smooth_voices, Vec.get_map]

/-- Settles O58: the tick by its half-samples, then the one voice's sample step from it. -/
theorem tickServesTheVoicesInQueueOrder : Obligations.TickServesTheVoicesInQueueOrder := by
  refine (and_iff_right_of_imp fun hall s hcfg hvc hzero hactive hover => ?one).2 fun s hcfg hcursor => ?all
  case all =>
    intro m amt
    have hover : (smoothedState s).g.oversample = s.g.oversample := rfl
    rw [exec_tick hcfg]
    unfold State.tick
    dsimp only
    rw [smooth_eq_smoothedState, show (smoothedState s).g.vibAmt = amt from rfl,
      halfSample_eq_halfTick (s := smoothedState s) hcursor, hover]
    cases hfirst : halfTick amt (smoothedState s) with
    | error e => rfl
    | ok h0 =>
      obtain ⟨t, l, r⟩ := h0
      have ht := halfTick_frame hfirst
      dsimp only [Except.map]
      split_ifs
      · have hcursor' : t.g.vqIdx.val < t.g.totalvc.val := by rw [ht]; exact hcursor
        have hL : t.g.decL = s.g.decL := by rw [ht]; rfl
        have hR : t.g.decR = s.g.decR := by rw [ht]; rfl
        have hvol : t.g.volume = s.g.volume := by rw [ht]; rfl
        rw [halfSample_eq_halfTick hcursor', ← hL, ← hR, ← hvol]
        cases hsecond : halfTick amt t with
        | error e => rfl
        | ok h1 =>
          obtain ⟨u, l', r'⟩ := h1
          have hu := halfTick_frame hsecond
          have hL : u.g.decL = t.g.decL := by rw [hu]
          have hR : u.g.decR = t.g.decR := by rw [hu]
          have hvol : u.g.volume = t.g.volume := by rw [hu]
          rw [← hL, ← hR, ← hvol]
          rfl
      · have hvol : t.g.volume = s.g.volume := by rw [ht]; rfl
        rw [← hvol]
        rfl
  case one =>
    intro s1 L W m c gains
    have hactive1 : (s1.voices.get 0).active = true := (smoothedState_active s 0).trans hactive
    have hhalf : halfTick (fmul (fmul m m) (lit 4 1)) s1 = ((s1.voices.get 0).processSample c W.draws).map fun o =>
        ({ s1 with
            voices := s1.voices.set 0 o.voice, draws := o.draws, g := { s1.g with lfo1 := L.lfo, vib := W.lfo } },
          fadd 0#32 (fmul o.out gains.1), fadd 0#32 (fmul o.out gains.2)) :=
      halfTick_of_one (s := s1) hvc hzero hactive1 hover _
    rw [hall s hcfg (by rw [hzero, hvc]; decide), hhalf]
    cases (s1.voices.get 0).processSample c W.draws with
    | error e => rfl
    | ok o => exact if_neg (by rw [hover]; decide)

/-! ### A tick with no voice sounding (R288) -/

theorem serve_of_idle {c : VoiceCtx} {pan : Vec F32 8} {l : List (Fin 32)} {a : Pass}
    (h : ∀ i ∈ l, (a.voices.get i).active = false) : serve c pan l a = .ok a := by
  induction l with
  | nil => rfl
  | cons i l ih =>
    have hi : serveVoice c pan i a = .ok a := by
      rw [serveVoice, h i List.mem_cons_self]
      rfl
    rw [serve, hi]
    exact ih fun j hj => h j (List.mem_cons_of_mem _ hj)

theorem halfTick_of_allIdle {s : State} (h : AllIdle s) (amt : F32) :
    halfTick amt s = .ok (lfosStepped s, 0#32, 0#32) := by
  rw [halfTick_eq, serve_of_idle fun i hi => h i (lt_totalvc_of_mem_queueOrder hi)]
  rfl

theorem allIdle_smoothedState {s : State} (h : AllIdle s) : AllIdle (smoothedState s) := fun i hi =>
  (smoothedState_active s i).trans (h i hi)

theorem allIdle_lfosStepped {s : State} (h : AllIdle s) : AllIdle (lfosStepped s) := h

/-- The two newest entries of the history, then the fifteen newest of the old one (R318). -/
theorem decShift_get (h : Vec F32 17) (x0 x1 : F32) :
    (decShift h x0 x1).get 0 = x1 ∧ (decShift h x0 x1).get 1 = x0 ∧
      ∀ (k : Nat) (hk : k < 15), (decShift h x0 x1).get ⟨k + 2, by omega⟩ = h.get ⟨k, by omega⟩ :=
  ⟨rfl, rfl, fun k hk => by simp [decShift, Vec.get]⟩

theorem finRange_seventeen :
    List.finRange 17 = [0, 1, 2, 3, 4, 5, 6, 7, 8, 9, 10, 11, 12, 13, 14, 15, 16] := by decide

/-- Settles O57, by the half-samples of idle voices and the decimator's two parts. -/
theorem silentTickStepsSmoothersAndLfos : Obligations.SilentTickStepsSmoothersAndLfos := by
  refine ⟨fun s hcfg hcursor hidle => ⟨fun hover => ?plain, fun hover => ?oversampled⟩, fun h x0 x1 => ?decimator⟩
  case plain =>
    rw [tickServesTheVoicesInQueueOrder.2 s hcfg hcursor, halfTick_of_allIdle (allIdle_smoothedState hidle)]
    dsimp only
    rw [hover]
    rfl
  case oversampled =>
    rw [tickServesTheVoicesInQueueOrder.2 s hcfg hcursor, halfTick_of_allIdle (allIdle_smoothedState hidle)]
    dsimp only
    rw [hover, halfTick_of_allIdle (allIdle_lfosStepped (allIdle_smoothedState hidle))]
    rfl
  case decimator =>
    obtain ⟨h0, h1, hrest⟩ := decShift_get h x0 x1
    refine ⟨h0, h1, hrest, ?_⟩
    rw [decSum, finRange_seventeen]
    simp only [List.foldl_cons, List.foldl_nil]
    rfl

end Sys2Proof.Machine
end

