-- ==== Sys2Proof/Proofs/TickFrame.lean ====
section
/-! SUPPORT. What every tick keeps (`46_scheduler.md` R316, `45_voice.md` R275, R288): the controls of each voice under
a sample step, under a pass over the queue, and under the half-samples of a tick. -/

namespace Sys2Proof.Machine

open Sys2Proof.Claims

/-! ### What a sample step keeps -/

theorem SameLfoParams.refl (l : Lfo) : SameLfoParams l l := ⟨rfl, rfl, rfl, rfl, rfl, rfl⟩

theorem SameLfoParams.trans {a b c : Lfo} (h : SameLfoParams a b) (k : SameLfoParams b c) : SameLfoParams a c := by
  obtain ⟨h1, h2, h3, h4, h5, h6⟩ := h
  obtain ⟨k1, k2, k3, k4, k5, k6⟩ := k
  exact ⟨h1.trans k1, h2.trans k2, h3.trans k3, h4.trans k4, h5.trans k5, h6.trans k6⟩

theorem SameEnvParams.trans {a b c : Env} (h : SameEnvParams a b) (k : SameEnvParams b c) : SameEnvParams a c := by
  obtain ⟨h1, h2, h3, h4⟩ := h
  obtain ⟨k1, k2, k3, k4⟩ := k
  exact ⟨h1.trans k1, h2.trans k2, h3.trans k3, h4.trans k4⟩

theorem SameFltParams.trans {a b c : Flt} (h : SameFltParams a b) (k : SameFltParams b c) : SameFltParams a c := by
  unfold SameFltParams at *
  rw [k] at h
  exact h

theorem SameOscParams.trans {a b c : OscBlock} (h : SameOscParams a b) (k : SameOscParams b c) : SameOscParams a c := by
  obtain ⟨h0, h1, h2, h3, h4, h5, h6⟩ := h
  obtain ⟨k0, k1, k2, k3, k4, k5, k6⟩ := k
  refine ⟨?_, h1.trans k1, h2.trans k2, h3.trans k3, h4.trans k4, h5.trans k5, h6.trans k6⟩
  rw [k0] at h0
  exact h0

theorem SameVoiceControl.refl (v : Voice) : SameVoiceControl v v :=
  ⟨rfl, ⟨rfl, rfl, rfl, rfl, rfl, rfl, rfl⟩, ⟨rfl, rfl, rfl, rfl⟩, ⟨rfl, rfl, rfl, rfl⟩, rfl, SameLfoParams.refl _⟩

theorem SameVoiceControl.trans {a b c : Voice} (h : SameVoiceControl a b) (k : SameVoiceControl b c) :
    SameVoiceControl a c := by
  obtain ⟨h0, hosc, hamp, henv, hflt, hlfo⟩ := h
  obtain ⟨k0, kosc, kamp, kenv, kflt, klfo⟩ := k
  refine ⟨?_, SameOscParams.trans hosc kosc, SameEnvParams.trans hamp kamp, SameEnvParams.trans henv kenv,
    SameFltParams.trans hflt kflt, SameLfoParams.trans hlfo klfo⟩
  rw [k0] at h0
  exact h0

/-- The voice `w` is `v` after any number of sample steps: its controls are kept, it was not made active, and if `v` was
silent nothing happened to it. -/
structure VoiceSampled (v w : Voice) : Prop where
  control : SameVoiceControl w v
  active : w.active = true → v.active = true
  idle : v.active = false → w = v

theorem VoiceSampled.refl (v : Voice) : VoiceSampled v v := ⟨SameVoiceControl.refl v, id, fun _ => rfl⟩

theorem VoiceSampled.trans {u v w : Voice} (h : VoiceSampled u v) (k : VoiceSampled v w) : VoiceSampled u w where
  control := SameVoiceControl.trans k.control h.control
  active := fun hw => h.active (k.active hw)
  idle := fun hu => by
    obtain rfl := h.idle hu
    exact k.idle hu

theorem VoiceSampled.of_processSample {c : VoiceCtx} {d : Nat} {v : Voice} {o : VoiceOut} (ha : v.active = true)
    (h : v.processSample c d = .ok o) : VoiceSampled v o.voice where
  control := Voice.processSample_keeps h
  active := fun _ => ha
  idle := fun hn => by
    rw [ha] at hn
    cases hn

/-! ### What a pass keeps -/

/-- A pass over the voices of `l` led from `a` to `b`. -/
structure Served (l : List (Fin 32)) (a b : Pass) : Prop where
  draws : a.draws ≤ b.draws
  voices : ∀ i, VoiceSampled (a.voices.get i) (b.voices.get i)
  others : ∀ i ∉ l, b.voices.get i = a.voices.get i

theorem serveVoice_served {c : VoiceCtx} {pan : Vec F32 8} {i : Fin 32} {a b : Pass}
    (h : serveVoice c pan i a = .ok b) : Served [i] a b := by
  unfold serveVoice at h
  split at h
  · next ha =>
    cases hstep : (a.voices.get i).processSample c a.draws with
    | error e => rw [hstep] at h; cases h
    | ok o =>
      rw [hstep] at h
      cases h
      refine ⟨?_, ?_, fun j hj => Vec.get_set_ne _ _ fun e => hj (List.mem_singleton.2 e.symm)⟩
      · have := Voice.processSample_draws hstep
        dsimp only
        omega
      · exact Vec.forall_get_set (P := fun k w => VoiceSampled (a.voices.get k) w) (fun k => VoiceSampled.refl _)
          (VoiceSampled.of_processSample ha hstep)
  · cases h
    exact ⟨le_rfl, fun _ => VoiceSampled.refl _, fun _ _ => rfl⟩

theorem serve_served {c : VoiceCtx} {pan : Vec F32 8} {l : List (Fin 32)} {a b : Pass}
    (h : serve c pan l a = .ok b) : Served l a b := by
  induction l generalizing a with
  | nil => cases h; exact ⟨le_rfl, fun _ => VoiceSampled.refl _, fun _ _ => rfl⟩
  | cons i l ih =>
    rw [serve] at h
    cases hfirst : serveVoice c pan i a with
    | error e => rw [hfirst] at h; cases h
    | ok m =>
      rw [hfirst] at h
      have h1 := serveVoice_served hfirst
      have h2 := ih h
      refine ⟨h1.draws.trans h2.draws, fun j => (h1.voices j).trans (h2.voices j), fun j hj => ?_⟩
      rw [h2.others j fun hm => hj (List.mem_cons_of_mem _ hm),
        h1.others j fun hm => hj (List.mem_singleton.1 hm ▸ List.mem_cons_self)]

/-! ### What a tick keeps -/

/-- The state `t` is `s` after any number of half-samples. -/
structure SampledFrom (s t : State) : Prop where
  fault : t.fault = s.fault
  tuning : t.tuning = s.tuning
  inputs : t.inputs = s.inputs
  draws : s.draws ≤ t.draws
  global : t.g = { s.g with lfo1 := t.g.lfo1, vib := t.g.vib }
  lfo1 : SameLfoParams t.g.lfo1 s.g.lfo1
  vib : SameLfoParams t.g.vib s.g.vib
  voices : ∀ i, VoiceSampled (s.voices.get i) (t.voices.get i)
  beyond : ∀ i : Fin 32, s.g.totalvc.val ≤ i.val → t.voices.get i = s.voices.get i

theorem SampledFrom.trans {s t u : State} (h : SampledFrom s t) (k : SampledFrom t u) : SampledFrom s u where
  fault := k.fault.trans h.fault
  tuning := k.tuning.trans h.tuning
  inputs := k.inputs.trans h.inputs
  draws := h.draws.trans k.draws
  global := by
    have hk := k.global
    rw [h.global] at hk
    exact hk
  lfo1 := SameLfoParams.trans k.lfo1 h.lfo1
  vib := SameLfoParams.trans k.vib h.vib
  voices := fun i => (h.voices i).trans (k.voices i)
  beyond := fun i hi => by
    have hvc : t.g.totalvc = s.g.totalvc := by rw [h.global]
    rw [k.beyond i (hvc ▸ hi), h.beyond i hi]

theorem Lfo.le_update_draws (fsI bpm : F32) (d : Nat) (l : Lfo) : d ≤ (l.update fsI bpm d).draws := by
  obtain h | h := Lfo.update_draws fsI bpm d l <;> omega

theorem SampledFrom.of_halfSample {s : State} (hcursor : s.g.vqIdx.val < s.g.totalvc.val) {amt : F32} {h : HalfOut}
    (e : s.halfSample amt = .ok h) : SampledFrom s h.state := by
  rw [halfSample_eq_halfTick hcursor, halfTick_eq] at e
  cases hpass : serve (s.voiceCtx amt) s.g.pan (queueOrder s) s.passStart with
  | error er => rw [hpass] at e; cases e
  | ok a =>
    rw [hpass] at e
    cases e
    have hserved := serve_served hpass
    refine ⟨rfl, rfl, rfl, ?_, rfl, Lfo.update_params _ _ _ _, Lfo.update_params _ _ _ _, hserved.voices,
      fun i hi => hserved.others i fun hm => absurd (lt_totalvc_of_mem_queueOrder hm) (by omega)⟩
    exact (Lfo.le_update_draws _ _ _ _).trans ((Lfo.le_update_draws _ _ _ _).trans hserved.draws)

theorem decimate_frame (s : State) (l0 r0 l1 r1 : F32) :
    s.decimate l0 r0 l1 r1 =
      { s with
        g := { s.g with decL := (s.decimate l0 r0 l1 r1).g.decL, decR := (s.decimate l0 r0 l1 r1).g.decR }
        outL := (s.decimate l0 r0 l1 r1).outL
        outR := (s.decimate l0 r0 l1 r1).outR } := by
  rw [State.decimate_outL, State.decimate_outR]
  rfl

/-- A tick is half-samples from the smoothed state, then a write of the outputs and, oversampled, of the decimators. -/
theorem tick_sampled {s t : State} (hcursor : s.g.vqIdx.val < s.g.totalvc.val) (e : s.tick = .ok t) :
    ∃ u, SampledFrom (smoothedState s) u ∧
      t = { u with
        g := { u.g with decL := t.g.decL, decR := t.g.decR }, outL := t.outL, outR := t.outR } ∧
      (s.g.oversample = false → t.g.decL = u.g.decL ∧ t.g.decR = u.g.decR) := by
  rcases tick_ok e with ⟨-, h0, e0, rfl⟩ | ⟨hover, h0, h1, e0, e1, rfl⟩
  · exact ⟨h0.state, SampledFrom.of_halfSample (s := smoothedState s) hcursor e0, rfl, fun _ => ⟨rfl, rfl⟩⟩
  · have first := SampledFrom.of_halfSample (s := smoothedState s) hcursor e0
    have hcursor' : h0.state.g.vqIdx.val < h0.state.g.totalvc.val := by rw [first.global]; exact hcursor
    refine ⟨h1.state, first.trans (SampledFrom.of_halfSample hcursor' e1), decimate_frame _ _ _ _ _, fun hno => ?_⟩
    rw [hover] at hno
    cases hno

theorem tick_of_exec {s t : State} (hcfg : s.configured = true) (h : exec .tick s = .next t) : s.tick = .ok t := by
  rw [exec_tick hcfg] at h
  cases htick : s.tick with
  | error e => rw [htick] at h; cases h
  | ok u => rw [htick] at h; cases h; rfl

/-- Settles O59: what the half-samples keep, the smoothers' three steps, and the two writes at the end. -/
theorem tickKeepsEveryControlRegister : Obligations.TickKeepsEveryControlRegister := by
  intro s t hcfg hcursor h
  obtain ⟨u, hu, ht, hdec⟩ := tick_sampled hcursor (tick_of_exec hcfg h)
  have hvoices : t.voices = u.voices := by rw [ht]
  have hlfo : t.g.lfo1 = u.g.lfo1 ∧ t.g.vib = u.g.vib := by rw [ht]; exact ⟨rfl, rfl⟩
  have hdecL : u.g.decL = s.g.decL := by rw [hu.global]; rfl
  have hdecR : u.g.decR = s.g.decR := by rw [hu.global]; rfl
  refine ⟨?_, ?_, ?_, fun hover => ?_, ?_, ?_, fun i => ?_⟩
  · have hfault : t.fault = s.fault := by rw [ht]; exact hu.fault
    have htuning : t.tuning = s.tuning := by rw [ht]; exact hu.tuning
    have hinputs : t.inputs = s.inputs := by rw [ht]; exact hu.inputs
    rw [← hfault, ← htuning, ← hinputs]
  · rw [ht]
    exact hu.draws
  · have hg : t.g = { u.g with decL := t.g.decL, decR := t.g.decR } := congrArg State.g ht
    rw [hu.global] at hg
    rw [hlfo.1, hlfo.2]
    exact hg
  · obtain ⟨hl, hr⟩ := hdec hover
    exact ⟨hl.trans hdecL, hr.trans hdecR⟩
  · rw [hlfo.1]
    exact hu.lfo1
  · rw [hlfo.2]
    exact hu.vib
  · rw [hvoices]
    have hi := hu.voices i
    exact ⟨hi.control, hi.active, fun hkept => hkept.elim hi.idle (hu.beyond i)⟩

end Sys2Proof.Machine
end

