-- ==== Sys2Proof/Proofs/CommandWords.lean ====
section
/-! SUPPORT. Words written out field by field (`30_encoding.md` R101, R102), the examples of R341 to R416 as words of their
commands, and a word written out byte by byte (`20_memory.md` R76). -/

namespace Sys2Proof

/-! ### A word as five fields -/

/-- The five fields of a word, whatever its `Z`. -/
theorem fields_append (op a b z : BitVec 8) (v : F32) :
    fieldOP (op ++ a ++ b ++ z ++ v) = op ∧ fieldA (op ++ a ++ b ++ z ++ v) = a ∧
      fieldB (op ++ a ++ b ++ z ++ v) = b ∧ fieldZ (op ++ a ++ b ++ z ++ v) = z := by
  refine ⟨?_, ?_, ?_, ?_⟩ <;>
    simp (disch := decide) only [fieldOP, fieldA, fieldB, fieldZ, BitVec.extractLsb'_append_eq_of_le,
      BitVec.extractLsb'_append_eq_of_add_le, Nat.reduceSub, BitVec.extractLsb'_eq_self]

/-- A word of a listed row is refused when one of the row's required-zero fields is not zero (R102). -/
theorem decode_of_not_zeroFields {w : CmdWord} {row : Row} (h : opcodeRow (fieldOP w).toNat = some row)
    (hz : ¬row.ZeroFields w) : decode w = .error .nonzeroField := by
  refine decode_of_unread h ?_
  cases hread : row.read w with
  | none => rfl
  | some j => exact absurd (Row.exists_read_iff.1 ⟨j, hread⟩) hz

/-- Format F: `A`, `B` and `Z` must be zero. -/
theorem decode_append_formatF {op : BitVec 8} {mk : F32 → Instr} (h : opcodeRow op.toNat = some (.f mk))
    {a b z : BitVec 8} (hne : a ≠ 0#8 ∨ b ≠ 0#8 ∨ z ≠ 0#8) (v : F32) :
    decode (op ++ a ++ b ++ z ++ v) = .error .nonzeroField := by
  obtain ⟨hop, ha, hb, hz⟩ := fields_append op a b z v
  refine decode_of_not_zeroFields (row := .f mk) (by rw [hop]; exact h) ?_
  rw [Row.ZeroFields, ha, hb, hz]
  tauto

/-- Format AF: `B` and `Z` must be zero. -/
theorem decode_append_formatAF {op : BitVec 8} {mk : BitVec 8 → F32 → Instr} (h : opcodeRow op.toNat = some (.af mk))
    (a : BitVec 8) {b z : BitVec 8} (hne : b ≠ 0#8 ∨ z ≠ 0#8) (v : F32) :
    decode (op ++ a ++ b ++ z ++ v) = .error .nonzeroField := by
  obtain ⟨hop, -, hb, hz⟩ := fields_append op a b z v
  refine decode_of_not_zeroFields (row := .af mk) (by rw [hop]; exact h) ?_
  rw [Row.ZeroFields, hb, hz]
  tauto

/-! ### A word as eight bytes -/

/-- The word that stores eight bytes, byte 0 lowest. -/
def wordOfFn (b : Fin 8 → BitVec 8) : CmdWord := b 7 ++ b 6 ++ b 5 ++ b 4 ++ b 3 ++ b 2 ++ b 1 ++ b 0

theorem wordOfBytes_ofFn (b : Fin 8 → BitVec 8) : wordOfBytes (List.ofFn b) = some (wordOfFn b) := rfl

theorem wordOfFn_byte (b : Fin 8 → BitVec 8) (k : Fin 8) : (wordOfFn b).extractLsb' (8 * k.val) 8 = b k := by
  unfold wordOfFn
  fin_cases k <;>
    simp (disch := decide) only [Nat.reduceMul, BitVec.extractLsb'_append_eq_of_le,
      BitVec.extractLsb'_append_eq_of_add_le, Nat.reduceSub, BitVec.extractLsb'_eq_self] <;> rfl

theorem wordBytes_eq_ofFn (w : CmdWord) : wordBytes w = List.ofFn fun k : Fin 8 => w.extractLsb' (8 * k.val) 8 := rfl

theorem wordBytes_wordOfFn (b : Fin 8 → BitVec 8) : wordBytes (wordOfFn b) = List.ofFn b := by
  rw [wordBytes_eq_ofFn]
  exact congrArg List.ofFn (funext (wordOfFn_byte b))

theorem decodeBytes_ofFn (b : Fin 8 → BitVec 8) : decodeBytes (List.ofFn b) = (decode (wordOfFn b)).toOption := rfl

/-! ### The statement -/

theorem decode_of_encode_eq {w : CmdWord} {i : Instr} (h : encode i = w) : decode w = .ok i := h ▸ decode_encode i

/-- Settles O4: the examples are the encodings of their commands, and the bytes of a word are what it was made of. -/
theorem workedEncodingsDecode : Obligations.WorkedEncodingsDecode :=
  ⟨decode_of_encode_eq (by decide +kernel), decode_of_encode_eq (by decide +kernel),
    decode_of_encode_eq (by decide +kernel), decode_of_encode_eq (by decide +kernel),
    decode_of_encode_eq (by decide +kernel), decode_of_encode_eq (by decide +kernel),
    decode_of_encode_eq (by decide +kernel), decode_of_encode_eq (by decide +kernel), rfl,
    fun b => ⟨wordOfFn b, wordOfBytes_ofFn b, wordOfFn_byte b, decodeBytes_ofFn b, wordBytes_wordOfFn b⟩⟩

end Sys2Proof
end

