-- ==== Sys2Proof/Proofs/CommandOutcome.lean ====
section
/-! SUPPORT. How a command can end (`47_commands_system_notes.md` R340, R353; `60_exceptions.md` R453). Every command but
TICK is one effect under the two checks of the boundary, and the effect keeps FAULT; TICK has the check of `CONFIGURED`,
and is the one command that can stop. The set of written registers is followed through the cases of a step. -/

namespace Sys2Proof.Machine

open Sys2Proof.Claims

/-! ### FAULT and the set of written registers under the note commands and the tick -/

/-- Two states with the same FAULT and the same set of written registers. -/
structure SameStatus (s t : State) : Prop where
  fault : t.fault = s.fault
  written : t.g.written = s.g.written

theorem setNoteOn_sameStatus (s : State) (n : Fin 128) (vel : F32) : SameStatus s (s.setNoteOn n vel) :=
  setNoteOn_induction (P := SameStatus s) ⟨rfl, rfl⟩ (fun _ _ h _ _ => ⟨h.fault, h.written⟩)
    (fun _ h => ⟨h.fault, h.written⟩) (fun _ h _ => ⟨h.fault, h.written⟩)

theorem setNoteOff_sameStatus (s : State) (n : Fin 128) : SameStatus s (s.setNoteOff n) :=
  setNoteOff_induction (P := SameStatus s) ⟨rfl, rfl⟩ (fun _ _ _ h _ _ _ _ => ⟨h.fault, h.written⟩)
    (fun _ _ h _ => ⟨h.fault, h.written⟩) (fun _ h => ⟨h.fault, h.written⟩)

theorem tick_sameStatus {s t : State} (e : s.tick = .ok t) : SameStatus s t := by
  refine tick_induction (P := SameStatus s) ⟨rfl, rfl⟩ e (fun _ h => ⟨h.fault, h.written⟩) (fun r _ o h eo => ?_)
    (fun _ _ _ h => ⟨h.fault, h.written⟩) (fun _ _ _ _ _ h => ⟨h.fault, h.written⟩)
  obtain ⟨_, -, -, -, hstate⟩ := halfSample_ok eo
  rw [hstate]
  exact ⟨h.fault, h.written⟩

/-! ### The set of written registers -/

/-- Every command adds to the set of written registers or leaves it (R353). -/
theorem ExecCase.mem_written {i : Instr} {s t : State} (hc : ExecCase i s t) {id : RegId} (h : id ∈ s.g.written) :
    id ∈ t.g.written := by
  cases hc with
  | raised c => rwa [raise_g]
  | ticked _ _ _ ht => rwa [(tick_sameStatus ht).written]
  | noteOn n _ v => rwa [(setNoteOn_sameStatus s _ v).written]
  | noteOff n => rwa [(setNoteOff_sameStatus s _).written]
  | sustOn | sustOff | notesOff | soundOff => exact h
  | polyphony v => exact (mem_insertId _ _ _).2 (Or.inr h)
  | quiet _ q =>
    rcases q.written with e | ⟨_, e⟩ <;> rw [e]
    · exact h
    · exact (mem_insertId _ _ _).2 (Or.inr h)

/-- Every step but a reset adds to the set of written registers or leaves it. -/
theorem StepCase.mem_written {s t : State} (hs : StepCase s t) (hreset : ∀ rest, s.inputs ≠ .reset :: rest) {id : RegId}
    (h : id ∈ s.g.written) : id ∈ t.g.written := by
  cases hs with
  | idle => exact h
  | illegal w rest => rwa [raise_g]
  | command _ rest _ _ _ _ _ hc => exact hc.mem_written h
  | reset rest hin => exact absurd hin (hreset rest)
  | tuning table rest => exact h

/-- Settles O16, by the cases of a step and of a command; `CONFIGURED` asks only that the set holds every register. -/
theorem writtenRegistersOnlyGrow : Obligations.WrittenRegistersOnlyGrow := by
  intro s t hreset hs
  have hgrow : ∀ id ∈ s.g.written, id ∈ t.g.written := fun _ => (step_case hs).mem_written hreset
  refine ⟨hgrow, fun hcfg => ?_⟩
  rw [configured_iff] at hcfg ⊢
  exact fun id => hgrow id (hcfg id)

/-! ### A command as an effect under its checks -/

/-- A change of the global registers under a command's checks keeps FAULT. -/
theorem globalSetter_eq_checked {i : Instr} {id : RegId} {v : F32} {f : Global → Global} {s : State} :
    ∃ op, globalSetter i id v f s = .next (checked i (unitRange v) false op s) ∧ (op s).fault = s.fault :=
  ⟨_, rfl, rfl⟩

/-- A change of all voices under a command's checks keeps FAULT. -/
theorem voiceSetter_eq_checked {i : Instr} {id : RegId} {v : F32} {f : Voice → Voice} {s : State} :
    ∃ op, voiceSetter i id v f s = .next (checked i (unitRange v) false op s) ∧ (op s).fault = s.fault :=
  ⟨_, rfl, rfl⟩

/-- Every command but TICK is an effect that keeps FAULT, under the check of its operand ranges and, where R353 asks it,
of `CONFIGURED` (R105, R109, R340). -/
theorem exec_eq_checked {i : Instr} (hi : i ≠ .tick) (s : State) :
    ∃ op : State → State, exec i s = .next (checked i i.wellFormed i.needsConfigured op s) ∧
      (op s).fault = s.fault := by
  cases i with
  | tick => exact absurd rfl hi
  | setrate v => exact ⟨fun s => (s.setSampleRate v).markWritten .fs, rfl, rfl⟩
  | playpos v | pitchwheel v | modwheel v => exact ⟨State.mapGlobal _, rfl, rfl⟩
  | playhead a bpm =>
    refine ⟨_, rfl, ?_⟩
    dsimp only
    split <;> rfl
  | noteon n c v => exact ⟨State.setNoteOn (noteOf n) v, rfl, (setNoteOn_sameStatus s _ v).fault⟩
  | noteoff n c v => exact ⟨State.setNoteOff (noteOf n), rfl, (setNoteOff_sameStatus s _).fault⟩
  | suston => exact ⟨State.sustainOn, rfl, rfl⟩
  | sustoff => exact ⟨State.sustainOff, rfl, rfl⟩
  | allnotesoff => exact ⟨State.allNotesOff, rfl, rfl⟩
  | allsoundoff => exact ⟨State.allSoundOff, rfl, rfl⟩
  | polyphony v => exact ⟨fun s => (s.setPolyphony (countParam v)).markWritten .polyphony, rfl, rfl⟩
  | oversample v => exact ⟨fun s => (s.setOversample (boolParam v)).markWritten .oversample, rfl, rfl⟩
  | pan a v => exact ⟨fun s => (State.mapGlobal _ s).markWritten (.pan (slotOf a)), rfl, rfl⟩
  | modparam a v =>
    refine ⟨_, rfl, ?_⟩
    split <;> rfl
  | volume v | unison v | univoices v | voicepriority v | vibratorate v | lfo1rate v | lfo1wave1 v | lfo1wave2 v
  | lfo1wave3 v | lfo1sync v | cutoff v => exact globalSetter_eq_checked
  | _ v => exact voiceSetter_eq_checked

/-- A command that passes its checks completes without a fault (R340). -/
theorem exec_of_wellFormed {i : Instr} (hi : i ≠ .tick) (hw : i.wellFormed = true) {s : State}
    (hc : i.needsConfigured = true → s.configured = true) : ∃ t, exec i s = .next t ∧ t.fault = s.fault := by
  obtain ⟨op, hexec, hfault⟩ := exec_eq_checked hi s
  refine ⟨op s, ?_, hfault⟩
  rw [hexec, checked, if_pos hw, if_neg]
  simpa using hc

/-- A command with an operand out of range records `OperandRange` and its word, and changes nothing else (R451). -/
theorem exec_of_not_wellFormed (i : Instr) (hw : i.wellFormed = false) (s : State) :
    exec i s = .next (faulted 2#8 (encode i) s) := by
  have hi : i ≠ .tick := by
    rintro rfl
    cases hw
  obtain ⟨op, hexec, -⟩ := exec_eq_checked hi s
  rw [hexec, hw]
  exact congrArg Host.Outcome.next (raise_eq _ _ _)

/-- Settles O13: the two checks are all that faults, and a tick's half-samples write no FAULT. -/
theorem acceptedCommandLeavesFaultAlone : Obligations.AcceptedCommandLeavesFaultAlone :=
  ⟨fun _ _ hi hw hc => exec_of_wellFormed hi hw hc, fun _ _ hc h => (tick_sameStatus (tick_of_exec hc h)).fault⟩

/-! ### What can stop the machine -/

/-- A command answers a next state, or it is a configured TICK that stops. -/
theorem exec_next_or_stop (i : Instr) (s : State) :
    (∃ t, exec i s = .next t) ∨ i = .tick ∧ s.configured = true ∧ ∃ e, exec i s = .fault e := by
  by_cases hi : i = .tick
  · subst hi
    by_cases hc : s.configured = true
    · rw [exec_tick hc]
      cases s.tick with
      | ok t => exact Or.inl ⟨t, rfl⟩
      | error e => exact Or.inr ⟨rfl, hc, e, rfl⟩
    · exact Or.inl ⟨_, if_neg hc⟩
  · obtain ⟨op, hexec, -⟩ := exec_eq_checked hi s
    exact Or.inl ⟨_, hexec⟩

/-- A step answers a next state, or it runs the word of TICK in a configured state and stops. -/
theorem step_next_or_stop (s : State) :
    (∃ t, step s = .next t) ∨
      s.configured = true ∧ (∃ rest, s.inputs = .command (encode .tick) :: rest) ∧ ∃ e, step s = .fault e := by
  unfold step
  split
  · exact Or.inl ⟨_, rfl⟩
  · next w rest hin =>
    unfold runWord
    split
    · next i hd =>
      refine (exec_next_or_stop i { s with inputs := rest }).imp_right ?_
      rintro ⟨rfl, hc, hstop⟩
      exact ⟨hc, ⟨rest, by rw [hin, encodeOfDecodeIsTheWord _ _ hd]⟩, hstop⟩
    · exact Or.inl ⟨_, rfl⟩
  · exact Or.inl ⟨_, rfl⟩
  · exact Or.inl ⟨_, rfl⟩

/-- Settles O15, by the one way in which a command or a step does not answer a next state. -/
theorem onlyAConfiguredTickCanStop : Obligations.OnlyAConfiguredTickCanStop := by
  refine ⟨fun i s hi => ?_, fun s hc => ⟨_, if_neg (Bool.eq_false_iff.1 hc)⟩, fun s r hr => ?_, fun s e he => ?_⟩
  · exact (exec_next_or_stop i s).resolve_right fun ⟨htick, _⟩ => hi htick
  · rcases step_next_or_stop s with ⟨t, h⟩ | ⟨-, -, e, h⟩ <;> cases hr.symm.trans h
  · rcases step_next_or_stop s with ⟨t, h⟩ | ⟨hc, hin, -⟩
    · cases he.symm.trans h
    · exact ⟨hc, hin⟩

end Sys2Proof.Machine
end

