-- ==== Sys2Proof/Proofs/SystemCommands.lean ====
section
/-! SUPPORT. What SETRATE, PLAYPOS, PLAYHEAD and the two wheels write (`47_commands_system_notes.md` R341, R343, R344, R351,
R352): the accepted command as its effect, register by register; a fault otherwise. -/

namespace Sys2Proof.Machine

open Sys2Proof.Claims

/-! ### The rate -/

/-- The rate-dependent coefficients of a voice, in one update (R246, R211). -/
theorem Voice.setRate_eq_rerated (fsI : F32) (v : Voice) : v.setRate fsI = rerated fsI v := rfl

/-- Voice `i` after SETRATE: draws `2i` and `2i + 1` of the 64, then the coefficients for the new rate (R341). -/
theorem State.setSampleRate_voice (hz : F32) (s : State) (i : Fin 32) :
    (s.setSampleRate hz).voices.get i =
      let v := s.voices.get i
      let v1 := { v with
        osc := { v.osc with
          tuneSlop1 := draw (s.draws + 2 * i.val)
          tuneSlop2 := draw (s.draws + 2 * i.val + 1) } }
      if RegId.oversample ∈ s.g.written then rerated (rateOf s.g.oversample hz) v1 else v1 := by
  simp only [State.setSampleRate, Vec.get_mapIdx, Voice.setRate_eq_rerated]
  rfl

/-- Settles O22: the effect of an accepted SETRATE, read voice by voice. -/
theorem setrateStoresRateAndRedrawsTuningSlop : Obligations.SetrateStoresRateAndRedrawsTuningSlop := fun s hz =>
  ⟨decode_packF rfl hz, fun _ _ _ hne => decode_append_formatF rfl hne hz,
    fun hr => ⟨(s.setSampleRate hz).markWritten .fs, command_accepted hr, rfl, s.setSampleRate_voice hz⟩,
    fun hr => exec_of_not_wellFormed (.setrate hz) hr s⟩

/-! ### Position and wheels -/

/-- Settles O23, command by command. -/
theorem positionAndWheelsStoreTheirOperand : Obligations.PositionAndWheelsStoreTheirOperand := by
  refine fun s v => ⟨command_accepted, fun hr => exec_of_not_wellFormed (.playpos v) hr s, command_accepted,
    fun hr => exec_of_not_wellFormed (.pitchwheel v) hr s, command_accepted,
    fun hr => exec_of_not_wellFormed (.modwheel v) hr s, fun op a b z hop hne => ?_⟩
  rcases hop with rfl | rfl | rfl <;> exact decode_append_formatF rfl hne v

/-! ### Tempo and transport -/

/-- The reset flag of PLAYHEAD and its tempo are checked together (R105). -/
theorem playhead_wellFormed {a : BitVec 8} {bpm : F32} :
    (Instr.playhead a bpm).wellFormed = true ↔ a.toNat ≤ 1 ∧ tempoRange bpm = true := by
  rw [Instr.wellFormed, Bool.and_eq_true, resetFlagRange_iff]

/-- An accepted PLAYHEAD: the tempo, then with flag 1 the restart (R344). -/
theorem exec_playhead {a : BitVec 8} {bpm : F32} (h : (Instr.playhead a bpm).wellFormed = true) (s : State) :
    exec (.playhead a bpm) s =
      .next (State.markWritten .bpm
        (if a = 1#8 then (s.mapGlobal fun g => { g with bpm := bpm }).restartLfos
          else s.mapGlobal fun g => { g with bpm := bpm })) := command_accepted h

theorem State.restartLfos_voice (s : State) (i : Fin 32) :
    s.restartLfos.voices.get i =
      if RegId.lfo2sync ∈ s.g.written ∧ (s.voices.get i).lfo2.sync = true then
        { s.voices.get i with lfo2 := { (s.voices.get i).lfo2 with phase := 0#32 } }
      else s.voices.get i := Vec.get_map _ _ _

/-- Settles O24, by the value of the reset flag. -/
theorem playheadStoresTempoAndRestartsSyncedLfos : Obligations.PlayheadStoresTempoAndRestartsSyncedLfos := by
  intro s a bpm
  refine ⟨fun b z hne => decode_append_formatAF rfl a hne bpm, ?keep, ?restart, fun hbad => ?fault⟩
  case keep =>
    rintro rfl hb
    exact exec_playhead (playhead_wellFormed.2 ⟨by decide, hb⟩) s
  case restart =>
    rintro rfl hb
    exact ⟨_, exec_playhead (playhead_wellFormed.2 ⟨by decide, hb⟩) s, rfl, State.restartLfos_voice _⟩
  case fault =>
    refine exec_of_not_wellFormed _ (Bool.eq_false_iff.2 fun hw => ?_) s
    obtain ⟨ha, hb⟩ := playhead_wellFormed.1 hw
    rcases hbad with hlt | hf
    · omega
    · rw [hb] at hf
      cases hf

end Sys2Proof.Machine
end

