-- ==== Sys2Proof/Proofs/BoundaryFaults.lean ====
section
/-! SUPPORT. The three boundary faults (`60_exceptions.md` R450 to R453) and the steps that run no command (`00_scope.md` R15;
`70_reset_and_hazards.md` R480, R481). What a command or a step does to FAULT once it is recorded is read off the cases of
`ExecCase` and `StepCase`; each fault is what one check of the boundary answers. -/

namespace Sys2Proof.Machine

open Sys2Proof.Claims

/-! ### A recorded fault -/

theorem raise_fault_of_valid {c : FaultCause} {w : CmdWord} {s : State} (hv : s.fault.valid = true) :
    (raise c w s).fault = s.fault := by
  rw [raise_fault, if_pos hv]

/-- No command writes FAULT once a fault is recorded: a further fault is dropped, and nothing else writes it (R453). -/
theorem ExecCase.fault_of_valid {i : Instr} {s t : State} (hc : ExecCase i s t) (hv : s.fault.valid = true) :
    t.fault = s.fault := by
  cases hc with
  | raised c => exact raise_fault_of_valid hv
  | ticked _ _ _ ht => exact (tick_sameStatus ht).fault
  | noteOn n _ v => exact (setNoteOn_sameStatus s _ v).fault
  | noteOff n => exact (setNoteOff_sameStatus s _).fault
  | sustOn | sustOff | notesOff | soundOff | polyphony => rfl
  | quiet _ q => exact q.fault

/-- Of the host's acts only a reset clears a recorded fault. -/
theorem StepCase.fault_of_valid {s t : State} (hs : StepCase s t) (hv : s.fault.valid = true)
    (hreset : ∀ rest, s.inputs ≠ .reset :: rest) : t.fault = s.fault := by
  cases hs with
  | idle => rfl
  | illegal w rest => exact raise_fault_of_valid (s := { s with inputs := rest }) hv
  | command _ rest _ _ _ _ _ hc => exact hc.fault_of_valid hv
  | reset rest hin => exact absurd hin (hreset rest)
  | tuning table rest => rfl

/-- Settles O14, by the cases of a step and of a command. -/
theorem recordedFaultIsSticky : Obligations.RecordedFaultIsSticky := fun _ _ hv hreset hs =>
  (step_case hs).fault_of_valid hv hreset

/-! ### IllegalCommand -/

/-- A word that matches no row is not decoded. -/
theorem decode_eq_error_of_no_match {w : CmdWord} (h : ∀ i : Instr, w &&& i.rowMask ≠ i.rowMatch) :
    ∃ e, decode w = .error e := by
  cases hd : decode w with
  | error e => exact ⟨e, rfl⟩
  | ok i => exact absurd (matches_of_decode hd) (h i)

/-- Settles O5: such a word is run as its fault. -/
theorem illegalWordRaisesIllegalCommand : Obligations.IllegalWordRaisesIllegalCommand := by
  intro s w rest hrow hin
  obtain ⟨e, hd⟩ := decode_eq_error_of_no_match hrow
  rw [step_command hin, runWord, hd]
  exact congrArg Host.Outcome.next (raise_eq _ _ _)

/-! ### OperandRange -/

/-- Settles O11: the range check comes first. -/
theorem outOfRangeOperandRaisesOperandRange : Obligations.OutOfRangeOperandRaisesOperandRange := fun i s hw =>
  exec_of_not_wellFormed i hw s

/-! ### NotConfigured -/

/-- A command in range that requires `CONFIGURED` records `NotConfigured` and its word before it holds (R109, R452). -/
theorem exec_of_unconfigured {i : Instr} (hw : i.wellFormed = true) (hn : i.needsConfigured = true) {s : State}
    (hc : s.configured = false) : exec i s = .next (faulted 3#8 (encode i) s) := by
  rw [← faulted_notConfigured]
  by_cases hi : i = .tick
  · subst hi
    exact if_neg (Bool.eq_false_iff.1 hc)
  · obtain ⟨op, hexec, -⟩ := exec_eq_checked hi s
    rw [hexec, checked, hw, hn, hc]
    rfl

/-- The seven commands of R353, by name. -/
theorem needsConfigured_iff_mnemonic (i : Instr) :
    i.needsConfigured = true ↔
      i.mnemonic ∈ ["TICK", "NOTEON", "NOTEOFF", "SUSTON", "SUSTOFF", "ALLNOTESOFF", "ALLSOUNDOFF"] := by
  cases i <;> simp [Instr.needsConfigured, Instr.mnemonic]

theorem configured_eq_false {s : State} {id : RegId} (h : id ∉ s.g.written) : s.configured = false :=
  Bool.eq_false_iff.2 fun hc => h ((configured_iff s).1 hc id)

/-- Settles O12: one unwritten register is enough for the check to answer. -/
theorem unconfiguredCommandRaisesNotConfigured : Obligations.UnconfiguredCommandRaisesNotConfigured := by
  rintro i s hi hw ⟨id, -, hid⟩
  exact exec_of_unconfigured hw ((needsConfigured_iff_mnemonic i).2 hi) (configured_eq_false hid)

/-! ### Steps that run no command -/

theorem step_idle {s : State} (h : s.inputs = []) : step s = .next s := by rw [step, h]

theorem step_reset {s : State} {rest : List HostInput} (h : s.inputs = .reset :: rest) :
    step s = .next (State.resetWith s.draws s.tuning rest) := by rw [step, h]

theorem step_tuning {s : State} {table : Vec F64 128} {rest : List HostInput} (h : s.inputs = .tuning table :: rest) :
    step s = .next { s with tuning := table, inputs := rest } := by rw [step, h]

/-- Settles O7, act by act. -/
theorem idleResetAndTuningSteps : Obligations.IdleResetAndTuningSteps := fun _ _ _ => ⟨step_idle, step_reset, step_tuning⟩

end Sys2Proof.Machine
end

