-- ==== Sys2Proof/Proofs/ParameterSetters.lean ====
section
/-! SUPPORT. The parameter setters (`48_commands_params.md` R380 to R440). A setter is one effect under one range check, so
what `SetterRule` asks of its word and of its faults is proved once; a setter's own part is its effect. -/

namespace Sys2Proof.Machine

open Sys2Proof.Claims

/-! ### The rule of a setter -/

theorem faulted_operandRange (w : CmdWord) (s : State) : raise .operandRange w s = faulted 2#8 w s := raise_eq _ _ _

/-- A command of format F whose effect under the range check is `eff`, then `id` written, is a setter as R376 says. -/
theorem setterRule_of_exec {op : BitVec 8} {mk : F32 → Instr} {id : RegId} {eff : F32 → State → State}
    (hrow : opcodeRow op.toNat = some (.f mk))
    (hexec : ∀ s v, ∃ f, exec (mk v) s = setter (mk v) id (unitRange v) f s ∧ f s = eff v s) :
    SetterRule op mk id eff := by
  intro s v
  obtain ⟨f, hf, heff⟩ := hexec s v
  have hword : encode (mk v) = packF op v := encodeOfDecodeIsTheWord _ _ (decode_packF hrow v)
  refine ⟨decode_packF hrow v, fun _ _ _ hne => decode_append_formatF hrow hne v, fun hr => ?accepted, fun hr => ?refused⟩
  case accepted =>
    rw [hf, setter, command_accepted hr, heff]
    rfl
  case refused => rw [hf, setter, command_refused hr, hword, faulted_operandRange]

/-- A setter of global registers. -/
theorem setterRule_onGlobal {op : BitVec 8} {mk : F32 → Instr} {id : RegId} {f : F32 → Global → Global}
    (hrow : opcodeRow op.toNat = some (.f mk)) (hexec : ∀ s v, exec (mk v) s = globalSetter (mk v) id v (f v) s) :
    SetterRule op mk id (onGlobal f) :=
  setterRule_of_exec hrow fun s v => ⟨State.mapGlobal (f v), hexec s v, rfl⟩

/-- A setter of all 32 voices (R375); what it writes may depend on the internal rate. -/
theorem setterRule_onVoices {op : BitVec 8} {mk : F32 → Instr} {id : RegId} {f : State → F32 → Voice → Voice}
    (hrow : opcodeRow op.toNat = some (.f mk)) (hexec : ∀ s v, exec (mk v) s = voiceSetter (mk v) id v (f s v) s) :
    SetterRule op mk id (fun v s => onVoices (f s) v s) :=
  setterRule_of_exec hrow fun s v => ⟨State.mapVoices (f s v), hexec s v, rfl⟩

/-! ### Motherboard -/

/-- The panic step of R305 clears the gate and the envelopes of a voice that loses its place, whatever they were. -/
theorem State.setPolyphony_eq (n : VoiceCount) (s : State) :
    s.setPolyphony n =
      { s with
        g := { s.g with totalvc := n, vqIdx := 0 }
        voices := s.voices.mapIdx fun i b =>
          if n.val ≤ i then
            { b with gate := false, active := false, ampEnv := silenced b.ampEnv, fltEnv := silenced b.fltEnv }
          else b } := by
  simp only [State.setPolyphony, Voice.noteOff_kill]

/-- Settles O36. -/
theorem polyphonySetsCountAndSilencesTheRest : Obligations.PolyphonySetsCountAndSilencesTheRest :=
  setterRule_of_exec rfl fun s v => ⟨State.setPolyphony (countParam v), rfl, s.setPolyphony_eq (countParam v)⟩

/-- Settles O37: the six table selections first, then the coefficients at the new internal rate. -/
theorem oversampleSelectsTablesAndRecomputes : Obligations.OversampleSelectsTablesAndRecomputes :=
  setterRule_of_exec rfl fun _ v => ⟨State.setOversample (boolParam v), rfl, rfl⟩

/-- A choice by number, as R386 lists it. -/
theorem priorityParam_eq (v : F32) :
    priorityParam v = if enumParam 3 v = 0 then .latest else if enumParam 3 v = 1 then .highest else .lowest := by
  unfold priorityParam
  split
  · next h => rw [h]; rfl
  · next h => rw [h]; rfl
  · next h0 h1 => rw [if_neg h0, if_neg h1]

/-- A choice by number, as R411 lists it. -/
theorem colorParam_eq (v : F32) :
    colorParam v = if enumParam 3 v = 0 then .white else if enumParam 3 v = 1 then .pink else .red := by
  unfold colorParam
  split
  · next h => rw [h]; rfl
  · next h => rw [h]; rfl
  · next h0 h1 => rw [if_neg h0, if_neg h1]

/-- Settles O38, register by register. -/
theorem motherboardAndVoiceSettersStoreTheirImage : Obligations.MotherboardAndVoiceSettersStoreTheirImage := by
  refine ⟨?volume, ?unison, ?univoices, ?voicepriority, ?vibratorate, ?portamento, ?bendup, ?benddown, ?legato⟩
  case voicepriority =>
    simp only [← priorityParam_eq]
    exact setterRule_onGlobal rfl fun _ _ => rfl
  case volume | unison | univoices | vibratorate => exact setterRule_onGlobal rfl fun _ _ => rfl
  case portamento | bendup | benddown | legato => exact setterRule_onVoices rfl fun _ _ => rfl

/-! ### The indexed registers -/

theorem slotOf_eq {a : BitVec 8} {k : Fin 8} (h : a.toNat = k.val) : slotOf a = k :=
  Fin.ext ((congrArg (· % 8) h).trans (Nat.mod_eq_of_lt k.isLt))

/-- Settles O39, by the slot. -/
theorem panWritesItsSlot : Obligations.PanWritesItsSlot := by
  intro s a v
  refine ⟨fun _ _ hne => decode_append_formatAF rfl a hne v, decode_packAF rfl a v, fun k hk hv => ?accepted,
    fun hbad => exec_of_not_wellFormed (.pan a v) ?refused s⟩
  case accepted =>
    have hslot : slotRange a = true := (slotRange_iff a).2 (by omega)
    rw [← slotOf_eq hk]
    exact command_accepted (by rw [hslot, hv]; rfl)
  case refused =>
    rw [Instr.wellFormed, Bool.and_eq_false_iff, ← Bool.not_eq_true (slotRange a), slotRange_iff, Nat.not_le]
    exact hbad

/-- An accepted MODPARAM: the register of the index, then both envelopes of each voice (R440). -/
theorem exec_modparam {a : BitVec 8} (ha : a.toNat < Config.modCount) {v : F32} (hv : unitRange v = true) (s : State) :
    exec (.modparam a v) s = .next ((s.setMod ⟨a.toNat, ha⟩ v).markWritten (.mod ⟨a.toNat, ha⟩)) := by
  refine (command_accepted (by rw [(modRange_iff a).2 ha, hv]; rfl)).trans ?_
  rw [modIndexOf_eq ha]

/-- Settles O45, by whether the index names a register. -/
theorem modparamWritesTheRoutingRegister : Obligations.ModparamWritesTheRoutingRegister := by
  intro s a v
  refine ⟨fun _ _ hne => decode_append_formatAF rfl a hne v, decode_packAF rfl a v, ?_⟩
  split
  · next h => exact exec_modparam h.1 h.2 s
  · next h =>
    refine exec_of_not_wellFormed (.modparam a v) (Bool.eq_false_iff.2 fun hw => h ?_) s
    rwa [Instr.wellFormed, Bool.and_eq_true, modRange_iff] at hw

/-! ### LFO, oscillator and filter setters -/

/-- Settles O40: the main unit is a global register, the LFO of a voice its own. -/
theorem lfoSettersStoreTheirImage : Obligations.LfoSettersStoreTheirImage := by
  refine ⟨?rate1, ?wave11, ?wave12, ?wave13, ?sync1, ?rate2, ?wave21, ?wave22, ?wave23, ?sync2⟩
  case rate1 | wave11 | wave12 | wave13 | sync1 => exact setterRule_onGlobal rfl fun _ _ => rfl
  case rate2 | wave21 | wave22 | wave23 | sync2 => exact setterRule_onVoices rfl fun _ _ => rfl

/-- Settles O41. -/
theorem oscillatorPitchSettersStoreTheirImage : Obligations.OscillatorPitchSettersStoreTheirImage := by
  refine ⟨?_, ?_, ?_, ?_, ?_, ?_, ?_, ?_, ?_⟩
  all_goals exact setterRule_onVoices rfl fun _ _ => rfl

/-- Settles O42. -/
theorem oscillatorMixSettersStoreTheirImage : Obligations.OscillatorMixSettersStoreTheirImage := by
  simp only [Obligations.OscillatorMixSettersStoreTheirImage, ← colorParam_eq]
  refine ⟨?_, ?_, ?_, ?_, ?_, ?_, ?_, ?_, ?_⟩
  all_goals exact setterRule_onVoices rfl fun _ _ => rfl

/-- Settles O43: the cutoff goes to its smoother, the others to the voices. -/
theorem filterSettersStoreTheirImage : Obligations.FilterSettersStoreTheirImage := by
  refine ⟨setterRule_onGlobal rfl fun _ _ => rfl, ?_, ?_, ?_, ?_, ?_, ?_, ?_, ?_⟩
  all_goals exact setterRule_onVoices rfl fun _ _ => rfl

/-! ### Envelope setters -/

/-- R207 in one update. -/
theorem Env.setAttack_eq (c : EnvCtx) (ms : F32) (e : Env) :
    e.setAttack c ms = { e with
      attack := ms
      coef := if e.state = .attack then Env.atkCoef c { e with attack := ms } else e.coef } := by
  unfold Env.setAttack
  dsimp only
  split <;> rfl

/-- R208 in one update. -/
theorem Env.setDecay_eq (c : EnvCtx) (ms : F32) (e : Env) :
    e.setDecay c ms = { e with
      decay := ms
      coef := if e.state = .decay then Env.decCoef c { e with decay := ms } else e.coef } := by
  unfold Env.setDecay
  dsimp only
  split <;> rfl

/-- R209 in one update. -/
theorem Env.setSustain_eq (c : EnvCtx) (level : F32) (e : Env) :
    e.setSustain c level = { e with
      sustain := level
      coef := if e.state = .decay then Env.decCoef c { e with sustain := level } else e.coef } := by
  unfold Env.setSustain
  dsimp only
  split <;> rfl

/-- R210 in one update. -/
theorem Env.setRelease_eq (c : EnvCtx) (ms : F32) (e : Env) :
    e.setRelease c ms = { e with
      release := ms
      coef := if e.state = .release then Env.relCoef c { e with release := ms } else e.coef } := by
  unfold Env.setRelease
  dsimp only
  split <;> rfl

/-- Settles O44: the parameter and, in its segment, the coefficient are one update of the envelope. -/
theorem envelopeSettersStoreAndRefresh : Obligations.EnvelopeSettersStoreAndRefresh := by
  simp only [Obligations.EnvelopeSettersStoreAndRefresh, ← Env.setAttack_eq, ← Env.setDecay_eq, ← Env.setSustain_eq,
    ← Env.setRelease_eq]
  refine ⟨?_, ?_, ?_, ?_, ?_, ?_, ?_, ?_⟩
  all_goals exact setterRule_onVoices rfl fun _ _ => rfl

end Sys2Proof.Machine
end

