-- ==== Sys2Proof/Proofs/ScalingLaws.lean ====
section
/-! SUPPORT. The scaling laws of the parameter facade (`48_commands_params.md` R370 to R378) at their ends, and the
quantisers of R373. A quantiser is the floor of a value scaled by a positive constant; scaling and floor keep the order of the
knob, so two knob values with one floor fix the floor of every value between them, and the bounds are computed at the ends. -/

namespace Sys2Proof.Machine

open Sys2Proof.Claims

/-! ### The ends of a range -/

theorem lit_zero_one : lit 0 1 = f0 := by decide

/-- A product with 1 is the other factor, bit for bit. -/
theorem fmul_f1 {r : F32} (hr : isFinite r = true) : fmul f1 r = r := by
  have hs : fsign f1 = false := by decide
  have hu : funits f1 = 2 ^ 149 := by decide
  have hkey := fmul_one_key hr
  rw [fmul_finite isFinite_f1 hr, hs, hu, Bool.false_bne] at hkey ⊢
  have hmag : roundBits (2 ^ 149 * funits r) (2 ^ 149) = fmagBits r := by
    rw [fkey_eq_signed, fkey_eq_signed, fsign_roundUnits, fmagBits_roundUnits] at hkey
    simpa using congrArg Int.natAbs hkey
  rw [roundUnits, hmag, fpack_self]

/-- A product with 0 is a zero. -/
theorem fkey_fmul_f0 {r : F32} (hr : isFinite r = true) : fkey (fmul f0 r) = 0 := by
  have hu : funits f0 = 0 := by decide
  rw [fmul_finite isFinite_f0 hr, hu, Nat.zero_mul, roundUnits_zero _ (Nat.two_pow_pos 149)]
  cases (fsign f0 != fsign r) <;> rfl

/-- Equal numbers: neither is a NaN and they have one key. -/
theorem feq_iff_fkey {a b : F32} (ha : isNaN a = false) (hb : isNaN b = false) : feq a b = true ↔ fkey a = fkey b := by
  simp [feq, ha, hb]

/-- The first image of a range is its lower end (R370). -/
theorem feq_linsc_f0 {lo hi : F32} (hlo : isFinite lo = true) (hd : isFinite (fsub hi lo) = true) :
    feq (linsc f0 lo hi) lo = true := by
  have hz := fkey_fmul_f0 hd
  have hfin : isFinite (fmul f0 (fsub hi lo)) = true := (isFinite_iff_fkey _).2 (by rw [hz]; decide)
  exact (feq_iff_fkey (isNaN_fadd_finite hlo hfin) (isNaN_of_isFinite hlo)).2 (fadd_zero_key hlo hz)

/-- An accepted CUTOFF sets the smoother's target (R416). -/
theorem exec_cutoff {v : F32} (hv : unitRange v = true) (s : State) :
    ∃ t, exec (.cutoff v) s = .next t ∧ t.g.smCutoff.target = linsc v cutoffMin cutoffMax :=
  ⟨_, command_accepted hv, rfl⟩

/-- Settles O46: the general ends, then the two documented ranges by evaluation. -/
theorem linscReachesItsEnds : Obligations.LinscReachesItsEnds := by
  refine ⟨fun _ _ _ => rfl, fun lo hi hlo hd => ⟨?first, ?last⟩, fun s => ⟨?cut0, ?cutHalf, ?cut1⟩, by decide +kernel,
    by decide +kernel, by decide +kernel, fun lo hi skew => ?logsc⟩
  case first => exact lit_zero_one ▸ feq_linsc_f0 hlo hd
  case last => exact congrArg (fadd lo) (fmul_f1 hd)
  case cut0 =>
    have himage : linsc (lit 0 1) cutoffMin cutoffMax = lit 0 1 := by decide +kernel
    exact himage ▸ exec_cutoff (by decide +kernel) s
  case cutHalf =>
    have himage : linsc (lit 1 2) cutoffMin cutoffMax = lit 60 1 := by decide +kernel
    exact himage ▸ exec_cutoff (by decide +kernel) s
  case cut1 =>
    have himage : linsc (lit 1 1) cutoffMin cutoffMax = lit 120 1 := by decide +kernel
    exact himage ▸ exec_cutoff (by decide +kernel) s
  case logsc => exact lit_zero_one ▸ logsc_ends lo hi skew

/-! ### Order under scaling and floor -/

/-- A finite number that is not negative is its units. -/
theorem fint_eq_funits {x : F32} (h : 0 ≤ fint x) : fint x = (funits x : Int) := by
  unfold fint at h ⊢
  split <;> simp_all

/-- Scaling a normalized value by a positive number gives a non-negative number of the rounded magnitude, whatever the sign
of a zero. -/
theorem fkey_fmul_unit {x c : F32} (hx : inUnit x = true) (hc : isFinite c = true) (hpos : fsign c = false) :
    fkey (fmul x c) = (roundBits (funits x * funits c) (2 ^ 149) : Int) := by
  rw [fmul_finite (inUnit_finite hx) hc, fkey_roundUnits, hpos, Bool.bne_false]
  cases hs : fsign x with
  | false => rfl
  | true =>
    have hzero : funits x = 0 := by
      have h0 := (fint_inUnit hx).1
      rw [fint, hs] at h0
      simpa using h0
    rw [hzero, Nat.zero_mul, roundBits_zero _ (Nat.two_pow_pos 149)]
    rfl

/-- Scaling by a positive number keeps the order of normalized values. -/
theorem fkey_fmul_mono {x y c : F32} (hx : inUnit x = true) (hy : inUnit y = true) (hc : isFinite c = true)
    (hpos : fsign c = false) (h : fkey x ≤ fkey y) : fkey (fmul x c) ≤ fkey (fmul y c) := by
  have hunits : funits x ≤ funits y := by
    have hint := (fkey_le_iff x y).1 h
    rw [fint_eq_funits (fint_inUnit hx).1, fint_eq_funits (fint_inUnit hy).1] at hint
    exact_mod_cast hint
  rw [fkey_fmul_unit hx hc hpos, fkey_fmul_unit hy hc hpos]
  exact_mod_cast roundBits_mono (Nat.two_pow_pos 149) (Nat.two_pow_pos 149)
    (Nat.mul_le_mul_right _ (Nat.mul_le_mul_right _ hunits))

/-- The floor keeps the order of finite numbers. -/
theorem ffloor_mono {x y : F32} (hx : isFinite x = true) (hy : isFinite y = true) (h : fkey x ≤ fkey y) :
    ffloor x ≤ ffloor y := by
  rw [ffloor, ffloor, if_pos hx, if_pos hy, Int.fdiv_eq_ediv_of_nonneg _ (by positivity),
    Int.fdiv_eq_ediv_of_nonneg _ (by positivity)]
  exact Int.ediv_le_ediv (by positivity) ((fkey_le_iff x y).1 h)

/-- Addition keeps the order of its first operand. -/
theorem fadd_mono_left {a b c : F32} (ha : isFinite a = true) (hb : isFinite b = true) (hc : isFinite c = true)
    (h : fkey a ≤ fkey b) : fkey (fadd a c) ≤ fkey (fadd b c) := by
  rw [fadd_finite ha hc, fadd_finite hb hc]
  exact fkey_ofUnits_mono (Int.add_le_add_right ((fkey_le_iff a b).1 h) _)

/-! ### The quantisers -/

/-- `floor(x × c)` does not fall as `x` rises. -/
theorem ffloor_fmul_mono {x y c : F32} (hx : inUnit x = true) (hy : inUnit y = true) (hc : isFinite c = true)
    (hpos : fsign c = false) (h : fkey x ≤ fkey y) : ffloor (fmul x c) ≤ ffloor (fmul y c) :=
  ffloor_mono (fmul_unit hx hc).1 (fmul_unit hy hc).1 (fkey_fmul_mono hx hy hc hpos h)

/-- The number that `count` floors (R373). -/
def countImage (x : F32) : F32 := fadd (fmul x (lit 31 1)) fHalf

theorem countFloor_eq (x : F32) : countFloor x = (ffloor (countImage x)).toNat := rfl

theorem isFinite_lit31 : isFinite (lit 31 1) = true := by decide +kernel

theorem fkey_countImage_mono {x y : F32} (hx : inUnit x = true) (hy : inUnit y = true) (h : fkey x ≤ fkey y) :
    fkey (countImage x) ≤ fkey (countImage y) :=
  fadd_mono_left (fmul_unit hx isFinite_lit31).1 (fmul_unit hy isFinite_lit31).1 (by decide +kernel)
    (fkey_fmul_mono hx hy isFinite_lit31 (by decide +kernel) h)

/-- A normalized value lies between the two ends of the knob. -/
theorem fkey_unit_bounds {x : F32} (hx : inUnit x = true) : fkey f0 ≤ fkey x ∧ fkey x ≤ fkey f1 := by
  obtain ⟨-, hlow, hhigh⟩ := inUnit_iff_fkey.1 hx
  exact ⟨hlow, hhigh⟩

theorem inUnit_f0 : inUnit f0 = true := by decide

theorem inUnit_f1 : inUnit f1 = true := by decide

theorem isFinite_countImage {x : F32} (hx : inUnit x = true) : isFinite (countImage x) = true := by
  have hends : 0 ≤ fkey (countImage f0) ∧ fkey (countImage f1) < infBits := by decide +kernel
  have hlow := fkey_countImage_mono inUnit_f0 hx (fkey_unit_bounds hx).1
  have hhigh := fkey_countImage_mono hx inUnit_f1 (fkey_unit_bounds hx).2
  rw [isFinite_iff_fkey]
  omega

theorem ffloor_countImage_mono {x y : F32} (hx : inUnit x = true) (hy : inUnit y = true) (h : fkey x ≤ fkey y) :
    ffloor (countImage x) ≤ ffloor (countImage y) :=
  ffloor_mono (isFinite_countImage hx) (isFinite_countImage hy) (fkey_countImage_mono hx hy h)

/-- The floor of `count` runs from 0 to 31, so that no clamp is needed (log 14). -/
theorem ffloor_countImage_bounds {x : F32} (hx : inUnit x = true) :
    0 ≤ ffloor (countImage x) ∧ ffloor (countImage x) ≤ 31 := by
  have hends : ffloor (countImage f0) = 0 ∧ ffloor (countImage f1) = 31 := by decide +kernel
  have hlow := ffloor_countImage_mono inUnit_f0 hx (fkey_unit_bounds hx).1
  have hhigh := ffloor_countImage_mono hx inUnit_f1 (fkey_unit_bounds hx).2
  omega

/-- `count(x) = 1 + floor(x × 31 + 0.5)` (R373). -/
theorem countParam_eq {x : F32} (hx : inUnit x = true) : ((countParam x).val : Int) = 1 + ffloor (countImage x) := by
  obtain ⟨hlow, hhigh⟩ := ffloor_countImage_bounds hx
  have hval : (countParam x).val = 1 + min 31 (countFloor x) := rfl
  rw [countFloor_eq] at hval
  omega

/-- `enum3(x)`, with the floor of `x × 3` never negative (R373). -/
theorem enumParam_three {x : F32} (hx : inUnit x = true) : (enumParam 3 x : Int) = min 2 (ffloor (fmul x (lit 3 1))) := by
  have hend : ffloor (fmul f0 (lit 3 1)) = 0 := by decide +kernel
  have hlow : 0 ≤ ffloor (fmul x (lit 3 1)) :=
    hend ▸ ffloor_fmul_mono inUnit_f0 hx (by decide +kernel) (by decide +kernel) (fkey_unit_bounds hx).1
  have hval : enumParam 3 x = min 2 (ffloor (fmul x (lit 3 1))).toNat := rfl
  omega

theorem enumParam_four_mono {x y : F32} (hx : inUnit x = true) (hy : inUnit y = true) (h : fkey x ≤ fkey y) :
    enumParam 4 x ≤ enumParam 4 y :=
  min_le_min_left _ (Int.toNat_le_toNat (ffloor_fmul_mono hx hy (by decide +kernel) (by decide +kernel) h))

/-- Between two knob values of one `enum4` and of the keys `l` and `u`, `enum4` is that value. -/
theorem enumParam_four_between {a b x : F32} {k : Nat} {l u : Int} (hx : inUnit x = true)
    (hlow : inUnit a = true ∧ enumParam 4 a = k ∧ fkey a = l) (hhigh : inUnit b = true ∧ enumParam 4 b = k ∧ fkey b = u)
    (hl : l ≤ fkey x) (hu : fkey x ≤ u) : enumParam 4 x = k := by
  obtain ⟨ha, rfl, rfl⟩ := hlow
  obtain ⟨hb, hk, rfl⟩ := hhigh
  exact le_antisymm (hk ▸ enumParam_four_mono hx hb hu) (enumParam_four_mono ha hx hl)

/-- Numbers are compared by their keys. -/
theorem flt_eq_decide_fkey {x c : F32} (hx : isNaN x = false) (hc : isNaN c = false) :
    flt x c = decide (fkey x < fkey c) := by
  rw [Bool.eq_iff_iff, flt_iff_fkey hx hc, decide_eq_true_iff]

/-- `enum4(x)` by quarters of the knob; each of the first three ends one bit pattern below the next (R373). -/
theorem enumParam_four {x : F32} (hx : inUnit x = true) :
    enumParam 4 x =
      if flt x (lit 1 4) then 0 else if flt x (lit 1 2) then 1 else if flt x (lit 3 4) then 2 else 3 := by
  have hkeys : fkey (lit 1 4) = 0x3E800000 ∧ fkey (lit 1 2) = 0x3F000000 ∧ fkey (lit 3 4) = 0x3F400000 := by
    decide +kernel
  have hnum : isNaN (lit 1 4) = false ∧ isNaN (lit 1 2) = false ∧ isNaN (lit 3 4) = false := by decide +kernel
  obtain ⟨hkey1, hkey2, hkey3⟩ := hkeys
  obtain ⟨hnum1, hnum2, hnum3⟩ := hnum
  obtain ⟨hx0, hlow, hhigh⟩ := inUnit_iff_fkey.1 hx
  rw [flt_eq_decide_fkey hx0 hnum1, flt_eq_decide_fkey hx0 hnum2, flt_eq_decide_fkey hx0 hnum3, hkey1, hkey2, hkey3]
  simp only [decide_eq_true_eq]
  split_ifs
  · exact enumParam_four_between (a := f0) (b := 0x3E7FFFFF#32) (l := 0) (u := 0x3E7FFFFF) hx (by decide +kernel)
      (by decide +kernel) hlow (by omega)
  · exact enumParam_four_between (a := 0x3E800000#32) (b := 0x3EFFFFFF#32) (l := 0x3E800000) (u := 0x3EFFFFFF) hx
      (by decide +kernel) (by decide +kernel) (by omega) (by omega)
  · exact enumParam_four_between (a := 0x3F000000#32) (b := 0x3F3FFFFF#32) (l := 0x3F000000) (u := 0x3F3FFFFF) hx
      (by decide +kernel) (by decide +kernel) (by omega) (by omega)
  · exact enumParam_four_between (a := 0x3F400000#32) (b := f1) (l := 0x3F400000) (u := 0x3F800000) hx
      (by decide +kernel) (by decide +kernel) (by omega) hhigh

/-- `bool(x)` on the bit pattern of a normalized value (R373). -/
theorem boolParam_iff {x : F32} (hx : inUnit x = true) :
    boolParam x = true ↔ 0x3F000000 < x.toNat ∧ x.toNat ≤ 0x3F800000 := by
  have hhalf : isNaN fHalf = false ∧ fkey fHalf = 0x3F000000 := by decide +kernel
  obtain ⟨hx0, hlow, hhigh⟩ := inUnit_iff_fkey.1 hx
  rw [boolParam, flt_iff_fkey hhalf.1 hx0, hhalf.2]
  rw [fkey_eq_toNat] at hlow hhigh ⊢
  split_ifs at hlow hhigh ⊢ <;> omega

/-- Settles O47: a clause per quantiser, then the images that ruling U5 bounds. -/
theorem scaledImagesLieInTheirRanges : Obligations.ScaledImagesLieInTheirRanges := by
  intro v hv
  have hx : inUnit v = true := hv
  refine ⟨boolParam_iff hx, ⟨countParam_eq hx, (countParam v).property⟩, fun w hw hle => ?countMono,
    ⟨min_le_left _ _, enumParam_three hx⟩, enumParam_four hx, fun n hn => logParam_time hn hx,
    fun n hn => linParam_finite hn hx, ?multimode⟩
  case countMono =>
    have hy : inUnit w = true := hw
    have hkey : fkey v ≤ fkey w := by
      rw [fle, Bool.and_eq_true, decide_eq_true_iff] at hle
      exact hle.2
    have hfloor := ffloor_countImage_mono hx hy hkey
    have hcount := countParam_eq hx
    have hcount' := countParam_eq hy
    omega
  case multimode => exact Bool.and_eq_true_iff.1 (linParam_multimode hx)

end Sys2Proof.Machine
end
